-- ==== Sys2Proof/Word.lean ====
section
/-! DEFINITION. The word and address types of the indication memory (00_scope.md, Conventions, Word addresses). -/

namespace Sys2Proof

/-- A word of the indication memory: every access is a whole 16-bit word. -/
abbrev Word := BitVec 16

/-- A word address of the indication memory: 13 bits, 0000h to 1FFFh. -/
abbrev Addr := BitVec 13

end Sys2Proof
end

