-- ==== Sys2Proof/Syntax.lean ====
section
/-! DEFINITION. The commands of the part: one constructor for each row of spec/opcode_table.json.
The table gives its rows no bits and no operands; the operands are what the rule of the row says the part
takes with the event (log 17). -/

namespace Sys2Proof

/-- The two axle channels (chapter 3). -/
inductive AxleChannel where
  | one
  | two
  deriving DecidableEq, Repr

/-- The two desk push-buttons (R124). -/
inductive Button where
  | ackb
  | ltstb
  deriving DecidableEq, Repr

/-- The nine blocks of the part (00_scope.md, Block overview). -/
inductive Block where
  | trp
  | fsu
  | asu
  | tcu
  | flu
  | anu
  | mwq
  | rpu
  | csu
  deriving DecidableEq, Repr

/-- The commands. A computer write carries its address and data; where the row fixes the address, the data alone. -/
inductive Instr where
  /-- ACTUAL_WRITE (R60): a computer write to the ACTUAL field. -/
  | actualWrite (addr : Addr) (data : Word)
  /-- PERMITTED_WRITE (R64): a computer write to the PERMITTED field. -/
  | permittedWrite (addr : Addr) (data : Word)
  /-- TARGET_WRITE (R67): a computer write to the TARGET field. -/
  | targetWrite (addr : Addr) (data : Word)
  /-- ASPECT_WRITE (R91): a computer write to the ASPECT field. -/
  | aspectWrite (addr : Addr) (data : Word)
  /-- LAMPS_WRITE (R27): a computer write to a LAMPS field. -/
  | lampsWrite (addr : Addr) (data : Word)
  /-- WATCHED_WRITE (R30): a computer write to a WATCHED field. -/
  | watchedWrite (addr : Addr) (data : Word)
  /-- FAULT_SLOT_WRITE (R31): a computer write to a FAULT_SLOT field. -/
  | faultSlotWrite (addr : Addr) (data : Word)
  /-- STANDBY_FIELD_WRITE (R25): a computer write to a field in STANDBY. -/
  | standbyFieldWrite (addr : Addr) (data : Word)
  /-- EVENT_WORD_WRITE (R159): a computer write to 1F07h. -/
  | eventWordWrite (data : Word)
  /-- INTERRUPT_ENABLE_WRITE (R160): a computer write to 1F08h. -/
  | interruptEnableWrite (data : Word)
  /-- TERRITORY_WRITE (R86): a computer write to 1F0Dh. -/
  | territoryWrite (data : Word)
  /-- CONFIGURATION_CAPTURE_WRITE (R165): a computer write to 1E00h–1EFEh in LOADING. -/
  | configurationCaptureWrite (addr : Addr) (data : Word)
  /-- CHECK_WORD_WRITE (R166): a computer write to 1EFFh. -/
  | checkWordWrite (data : Word)
  /-- LOCKED_CONFIGURATION_WRITE (R34): a computer write to the locked configuration region. -/
  | lockedConfigurationWrite (addr : Addr) (data : Word)
  /-- FAULT_ENTRY_UNIT_CODE_WRITE (R98): a computer write to 1F80h. -/
  | faultEntryUnitCodeWrite (data : Word)
  /-- FAULT_ENTRY_SEVERITY_ACTION_WRITE (R98): a computer write to 1F81h. -/
  | faultEntrySeverityActionWrite (data : Word)
  /-- FAULT_ENTRY_TEXT_INDEX_WRITE (R98): a computer write to 1F82h. -/
  | faultEntryTextIndexWrite (data : Word)
  /-- PLAIN_WRITE (R23): a computer write to a word with no behaviour of its own. -/
  | plainWrite (addr : Addr) (data : Word)
  /-- AXLE_EDGE (R36): a rising edge of a channel's A line, with the level of its B line. -/
  | axleEdge (channel : AxleChannel) (b : Bool)
  /-- WINDOW_COMPLETION (R45): the window timer expires, with BRK as sampled at stage 5. -/
  | windowCompletion (brk : Bool)
  /-- SPEED_HANDOVER (R62): the FSU takes a window completion's hand-over. -/
  | speedHandover
  /-- COMPLETION_HANDOVER_ANU (R71): the ANU takes a window completion's hand-over. -/
  | completionHandoverAnu
  /-- NEW_PR (R72): the ANU takes a new PR. -/
  | newPr
  /-- STROBE (R78): a rising edge of TCSTB, with the code on TC0–TC3 and the ms that have passed since the
  command before it (log 3). -/
  | strobe (code : BitVec 4) (elapsed : Nat)
  /-- LOSS_TIMER_EXPIRY (R82). -/
  | lossTimerExpiry
  /-- HOLD_TIMER_EXPIRY (R83). -/
  | holdTimerExpiry
  /-- WRITTEN_ASPECT_TAKEN (R91): the TCU takes a new written aspect. -/
  | writtenAspectTaken
  /-- ASPECT_STALE_NOTICE (R89): the TCU takes notice of the ASPECT record and STALE. -/
  | aspectStaleNotice
  /-- ASPECT_DELIVERY (R92): the FSU takes a displayed aspect delivery. -/
  | aspectDelivery
  /-- RANK_DELIVERY (R94): the ANU takes a displayed aspect delivery. -/
  | rankDelivery
  /-- ACKNOWLEDGEMENT_TIMER_EXPIRY (R95). -/
  | acknowledgementTimerExpiry
  /-- RAISE (R104): the FLU takes the next request of a sender, a RAISE. -/
  | raise (sender : Block)
  /-- CLEAR (R107): the FLU takes the next request of a sender, a CLEAR. -/
  | clear (sender : Block)
  /-- ACKNOWLEDGE (R108): the FLU takes the ANU's next request, an acknowledge. -/
  | acknowledge
  /-- LIST_HANDOVER_FSU (R15): the FSU takes a list change. -/
  | listHandoverFsu
  /-- LIST_HANDOVER_ANU (R117): the ANU takes a list change. -/
  | listHandoverAnu
  /-- LIST_HANDOVER_RPU (R157): the RPU takes a list change. -/
  | listHandoverRpu
  /-- CHIME_REQUEST (R122): the ANU takes a CHIME request. -/
  | chimeRequest
  /-- CADENCE_TIMER_EXPIRY (R121). -/
  | cadenceTimerExpiry
  /-- FLASH_TIMER_EXPIRY (R118). -/
  | flashTimerExpiry
  /-- LAMP_FUNCTION_CHANGE (R14): the FSU takes a lamp function change. -/
  | lampFunctionChange
  /-- FUNCTION_INPUT_HANDOVER (R117): the ANU takes a code state or territory change. -/
  | functionInputHandover
  /-- STALE_NOTICE (R117): the ANU takes a notice of a record entering or leaving STALE. -/
  | staleNotice
  /-- BUTTON_LINE_CHANGE (R124): the line of a button takes a level. -/
  | buttonLineChange (button : Button) (high : Bool)
  /-- BUTTON_DEBOUNCE_EXPIRY (R124): a button's debounce timer expires. -/
  | buttonDebounceExpiry (button : Button)
  /-- LOCKOUT_EXPIRY (R125). -/
  | lockoutExpiry
  /-- LAMP_TEST_TIMEOUT (R129). -/
  | lampTestTimeout
  /-- LAMP_TEST_BEGUN (R13): the FSU takes the lamp test start. -/
  | lampTestBegun
  /-- LAMP_TEST_ENDED (R129): the FSU takes the lamp test end. -/
  | lampTestEnded
  /-- AGE_TIMER_EXPIRY (R135): the age timer of the record of this index expires. -/
  | ageTimerExpiry (index : Nat)
  /-- SET_EVENT (R158): the RPU takes the event causes of one operation of a sender. -/
  | setEvent (sender : Block)
  /-- REPORT_HANDOVER (R155): the RPU takes a hand-over of a sender. -/
  | reportHandover (sender : Block)
  /-- OWN_WRITE_REQUEST (R145): the MWQ takes the requests of one operation of an owner. -/
  | ownWriteRequest (owner : Block)
  /-- OWN_WRITE_GRANT (R150): the arbiter grants the head entry. -/
  | ownWriteGrant
  /-- FIELD_DRAIN_NOTICE (R177): the CSU takes the field drain notice. -/
  | fieldDrainNotice
  /-- PWRG_FALL (R172). -/
  | pwrgFall
  /-- PWRG_RISE (R172). -/
  | pwrgRise
  /-- SETTLE_TIME_EXPIRY (R172), with the SOLO strap's level, which a release latches (R173). -/
  | settleTimeExpiry (solo : Bool)
  /-- WRST_FALL (R172). -/
  | wrstFall
  /-- WRST_RISE (R172), with the SOLO strap's level, which a release latches (R173). -/
  | wrstRise (solo : Bool)
  /-- LOAD_TIMER_EXPIRY (R169). -/
  | loadTimerExpiry
  /-- CABACT_LINE_CHANGE (R176): the CABACT line takes a level. -/
  | cabactLineChange (high : Bool)
  /-- CABACT_DEBOUNCE_EXPIRY (R176). -/
  | cabactDebounceExpiry
  deriving DecidableEq, Repr

end Sys2Proof
end

