-- ==== Sys2Proof/Config.lean ====
section
/-! DEFINITION. The fixed numbers of the part: depths, counts and the times of its own timers, in ms.
No number here is a parameter of the configuration image; those are read from the image shadow. -/

namespace Sys2Proof.Config

/-- What a memory word that nothing has written reads as. DESIGN CHOICE (log 8). -/
def powerOnWord : Word := 0

/-- Entries the own-write queue can hold (R145). -/
def queueDepth : Nat := 16

/-- Entries the fault list can hold (R101). -/
def listDepth : Nat := 32

/-- Field descriptors in the image (R1). -/
def maxRecords : Nat := 48

/-- The correction count saturates here (R11). -/
def countLimit : Nat := 8

/-- Consecutive plausible windows that make a FAILED channel GOOD (R44). -/
def recoveryWindows : Nat := 5

/-- The clamp of a channel speed, in tenths (R40). -/
def maxSpeed : Nat := 4000

/-- The largest speed an ACTUAL field may show, in km/h (R60). -/
def maxShownSpeed : Nat := 400

/-- The slowest selected speed at which direction disagreement is tested, in tenths (R53). -/
def directionFloor : Nat := 20

/-- The fastest selected speed at which UNCODED is accepted for a standing train, in tenths (R86). -/
def standstill : Nat := 4

/-- Hysteresis of the overspeed stage, in tenths (R70). -/
def hysteresis : Nat := 10

/-- Failed checks that end a configuration load (R168). -/
def maxAttempts : Nat := 3

/-- Shortest spacing of taken strobes (R78). -/
def strobeSpacing : Nat := 40

/-- Settle time after each rise of PWRG (R172). -/
def settleTime : Nat := 50

/-- Debounce time of ACKB and LTSTB (R124). -/
def buttonDebounce : Nat := 20

/-- Debounce time of CABACT (R176). -/
def cabDebounce : Nat := 100

/-- Acknowledge lockout (R125). -/
def lockoutTime : Nat := 300

/-- Longest lamp test (R128). -/
def lampTestTime : Nat := 10000

/-- Longest configuration load (R163). -/
def loadTime : Nat := 10000

/-- Half period of the flash phase (R118). -/
def flashHalf : Nat := 500

/-- Tone and silence of INTERMITTENT (R121). -/
def intermittentHalf : Nat := 500

/-- Tone of REPEAT_CHIME and of CHIME (R121). -/
def chimeTone : Nat := 300

/-- Silence of REPEAT_CHIME (R121). -/
def repeatSilence : Nat := 1700

end Sys2Proof.Config
end

