-- ==== Sys2Proof/Machine/State.lean ====
section
/-! DEFINITION. The state of the part, block by block, as plain data, and its value under a power reset. -/

namespace Sys2Proof.Machine

/-- A timer: the ms of the timebase at which it expires, or none while it is stopped (log 3). -/
abbrev Timer := Option Nat

/-- Words by address in one canonical form: addresses strictly rising, no entry equal to 0000h, which is what an
unlisted word reads as. Used for the indication memory (log 8) and for the image shadow (R163). -/
abbrev Memory := List (Nat × Word)

/-! ## The configuration and state unit (chapters 11 and 12) -/

/-- The five operating states (chapter 12). -/
inductive OpState where
  | reset
  | loading
  | running
  | standby
  | fallback
  deriving DecidableEq, Repr

/-- The configuration verdict (R163). -/
inductive Verdict where
  | pending
  | accepted
  | crcFail
  | contentFail
  | timeout
  | retainedFail
  deriving DecidableEq, Repr

/-- The reset cause (R180). -/
inductive Cause where
  | power
  | warm
  | warmImageKept
  | warmImageLost
  deriving DecidableEq, Repr

/-- The CSU. -/
structure Csu where
  /-- operating state (R172–R179) -/
  op : OpState
  /-- level of PWRG (R172) -/
  pwrg : Bool
  /-- level of WRST, active low (R172) -/
  wrst : Bool
  /-- settle timer (R172) -/
  settle : Timer
  /-- PWRG was low at any moment since RESET began (R172) -/
  powerReset : Bool
  /-- image shadow, by offset 0–255 (R163) -/
  shadow : Memory
  /-- the lock is LOCKED (R163) -/
  locked : Bool
  /-- failure count (R163) -/
  failures : Nat
  /-- load timer (R163) -/
  load : Timer
  /-- verdict (R163) -/
  verdict : Verdict
  /-- failing offset (R163) -/
  failOff : BitVec 8
  /-- the FBK line (R179) -/
  fbk : Bool
  /-- the latched SOLO strap (R173) -/
  solo : Bool
  /-- level of the CABACT line (R176) -/
  cabLine : Bool
  /-- the debounced CABACT level is ACTIVE (R176) -/
  cabActive : Bool
  /-- CABACT debounce timer (R176) -/
  cabTimer : Timer
  /-- reset cause (R180) -/
  cause : Cause
  deriving DecidableEq, Repr

/-! ## The field supervision unit (chapters 1, 2, 4 and 8) -/

/-- The supervision classes of a field (R1). -/
inductive Kind where
  | actual
  | permitted
  | target
  | aspect
  | lamps
  | faultSlot
  | watched
  deriving DecidableEq, Repr

/-- What a field shows once stale (R1). -/
inductive StaleAction where
  | hold
  | blank
  deriving DecidableEq, Repr

/-- The twelve lamp functions (R13). -/
inductive LampFn where
  | overspeed
  | speedUnknown
  | codeLost
  | restrictAck
  | faultA
  | faultAny
  | faultMore
  | staleAny
  | dirFwd
  | dirRev
  | uncoded
  | channelFault
  deriving DecidableEq, Repr

/-- The values of the twelve lamp functions (R117). -/
structure LampValues where
  overspeed : Bool
  speedUnknown : Bool
  codeLost : Bool
  restrictAck : Bool
  faultA : Bool
  faultAny : Bool
  faultMore : Bool
  staleAny : Bool
  dirFwd : Bool
  dirRev : Bool
  uncoded : Bool
  channelFault : Bool
  deriving DecidableEq, Repr

/-- Every function at 0. -/
def LampValues.zero : LampValues :=
  ⟨false, false, false, false, false, false, false, false, false, false, false, false⟩

/-- One pair of a LAMPS record's assignment list (R4). -/
structure LampPair where
  /-- the bit of the field word, 0–15 -/
  bit : Nat
  /-- the function it carries -/
  fn : LampFn
  deriving DecidableEq, Repr

/-- The static part of a record (R1). -/
structure FieldStatic where
  addr : Addr
  kind : Kind
  action : StaleAction
  /-- refresh period in ms, 0 for unsupervised -/
  period : Nat
  blank : Word
  /-- ACTUAL only: tolerance in tenths -/
  tolerance : Nat
  /-- LAMPS only -/
  lamps : List LampPair
  deriving DecidableEq, Repr

/-- Supervision states (R5). -/
inductive FieldState where
  | unset
  | live
  | corrected
  | stale
  deriving DecidableEq, Repr

/-- A record: its static part and its runtime part (R1, R5). -/
structure Record where
  fixed : FieldStatic
  state : FieldState
  /-- absent until a computer write is recorded -/
  written : Option Word
  /-- none where no shown value is derived (R6, R9: a WATCHED word left as memory holds it) -/
  shown : Option Word
  age : Timer
  count : Nat
  deriving DecidableEq, Repr

/-- The selected speed in tenths (none: UNKNOWN) and the display speed in km/h (none: absent) (R58). -/
structure SpeedCopy where
  selected : Option Nat
  d : Option Nat
  deriving DecidableEq, Repr

/-- The FSU. -/
structure Fsu where
  /-- the field table; empty where no table exists (R1) -/
  table : List Record
  /-- speed copy (R58) -/
  speed : Option SpeedCopy
  /-- the ceiling C (R59) -/
  ceiling : Option Nat
  /-- the permitted reference PR (R65) -/
  pr : Option Nat
  /-- copy of the lamp function values (R119) -/
  fns : LampValues
  /-- a lamp test is in progress, as the FSU has been told (R13) -/
  lampTest : Bool
  /-- silent flag (R141) -/
  silent : Bool
  deriving DecidableEq, Repr

/-! ## The axle speed unit (chapter 3) -/

/-- A window direction or the selected direction (R39, R53). -/
inductive Direction where
  | none
  | forward
  | reverse
  deriving DecidableEq, Repr

/-- One axle channel (R36–R44). -/
structure AxleState where
  fwd : BitVec 16
  rev : BitVec 16
  baseFwd : BitVec 16
  baseRev : BitVec 16
  /-- channel speed, tenths (R40) -/
  v : Nat
  /-- the speed of the previous completion (R42) -/
  vPrev : Option Nat
  /-- the channel is FAILED (R43) -/
  failed : Bool
  recovery : Nat
  dir : Direction
  deriving DecidableEq, Repr

/-- The limits derived when an image is accepted (R41). -/
structure Limits where
  q1 : Nat
  q2 : Nat
  l1 : Nat
  l2 : Nat
  vp : Nat
  deriving DecidableEq, Repr

/-- The ASU. -/
structure Asu where
  ch1 : AxleState
  ch2 : AxleState
  limits : Option Limits
  /-- window timer (R38) -/
  window : Timer
  /-- disagreement time, ms (R47) -/
  disTime : Nat
  /-- persistent-disagreement flag (R48) -/
  persistent : Bool
  /-- direction-disagreement condition (R53) -/
  dirDis : Bool
  /-- selected speed, tenths; none is UNKNOWN (R46–R52) -/
  selected : Option Nat
  supplier : Option AxleChannel
  direction : Direction
  /-- display speed, km/h (R54) -/
  d : Option Nat
  deriving DecidableEq, Repr

/-! ## The track code unit (chapter 5) -/

/-- One entry of the aspect table (R76). -/
structure AspectEntry where
  valid : Bool
  lossFlag : Bool
  number : Nat
  rank : Nat
  /-- km/h -/
  ceiling : Nat
  deriving DecidableEq, Repr

/-- An aspect number with its rank and its table ceiling (R77, R80). -/
structure Aspect where
  number : Nat
  rank : Nat
  ceiling : Nat
  deriving DecidableEq, Repr

/-- Code states (R81). -/
inductive CodeState where
  | acquiring
  | confirmed
  | holding
  | lost
  deriving DecidableEq, Repr

/-- The TCU. -/
structure Tcu where
  /-- aspect table, entry c for track code c; empty where it does not exist (R76) -/
  aspects : List AspectEntry
  /-- when the last strobe since RUNNING entry was taken (R78) -/
  lastStrobe : Option Nat
  lastSampled : BitVec 4
  /-- a code and its repeat count (R79) -/
  candidate : Option (BitVec 4 × Nat)
  state : CodeState
  confirmed : Option (BitVec 4)
  received : Option Aspect
  /-- loss timer (R82) -/
  loss : Timer
  /-- hold timer (R83) -/
  hold : Timer
  /-- the territory is UNCODED (R86) -/
  uncoded : Bool
  /-- the last word of the ASPECT record the TCU has taken (R91) -/
  written : Option Word
  /-- the ASPECT record is STALE, as the TCU has been told (R89) -/
  aspectStale : Bool
  displayed : Option Aspect
  deriving DecidableEq, Repr

/-! ## The fault list unit (chapter 6) -/

/-- Severities, A the gravest (R101). -/
inductive Severity where
  | a
  | b
  | c
  deriving DecidableEq, Repr

/-- Entry states (R101). -/
inductive EntryState where
  | activeUnacked
  | activeAcked
  | clearedUnacked
  deriving DecidableEq, Repr

/-- An entry of the fault list (R101). -/
structure Entry where
  unit : BitVec 4
  code : BitVec 12
  severity : Severity
  text : BitVec 10
  state : EntryState
  arrival : BitVec 16
  deriving DecidableEq, Repr

/-- A fault message: what a RAISE or a CLEAR carries (R97, R100). -/
structure FaultMsg where
  unit : BitVec 4
  code : BitVec 12
  severity : Severity
  text : BitVec 10
  deriving DecidableEq, Repr

/-- The partial computer message (R97); `clears` is the action CLEAR. -/
inductive PartialMsg where
  | none
  | one (unit : BitVec 4) (code : BitVec 12)
  | two (unit : BitVec 4) (code : BitVec 12) (severity : Severity) (clears : Bool)
  deriving DecidableEq, Repr

/-- The FLU. -/
structure Flu where
  partialMsg : PartialMsg
  /-- the fault list in display order (R103) -/
  list : List Entry
  /-- arrival number of the live entry inserted earliest (R102) -/
  base : Option (BitVec 16)
  counter : BitVec 16
  deriving DecidableEq, Repr

/-! ## The annunciation unit (chapters 4, 5 and 7) -/

/-- Overspeed stages (R70). -/
inductive Stage where
  | normal
  | warning
  | alarm
  | suspended
  deriving DecidableEq, Repr

/-- Sounding patterns (R120). -/
inductive Pattern where
  | none
  | chime
  | repeatChime
  | intermittent
  | continuous
  deriving DecidableEq, Repr

/-- The ANU's copy of the ASU's published values (R70, R117). -/
structure CompletionCopy where
  selected : Option Nat
  direction : Direction
  failed1 : Bool
  failed2 : Bool
  persistent : Bool
  dirDis : Bool
  deriving DecidableEq, Repr

/-- The list summary (R117). -/
structure ListSummary where
  /-- any severity A entry is unacknowledged -/
  anyAUnacked : Bool
  /-- any entry is unacknowledged -/
  anyUnacked : Bool
  entries : Nat
  unacked : Nat
  deriving DecidableEq, Repr

/-- A push-button: its line, its debounced level (true: PRESSED) and its debounce timer (R124). -/
structure ButtonState where
  line : Bool
  pressed : Bool
  timer : Timer
  deriving DecidableEq, Repr

/-- The ANU. -/
structure Anu where
  stage : Stage
  /-- R, in tenths (R70) -/
  reference : Option Nat
  copy : Option CompletionCopy
  /-- restriction acknowledgement is pending (R94) -/
  pendingAck : Bool
  /-- acknowledgement timer (R95) -/
  ackTimer : Timer
  /-- rank of the last displayed aspect taken (R94) -/
  rank : Option Nat
  /-- flash phase, true for on (R118) -/
  phase : Bool
  flash : Timer
  fns : LampValues
  /-- stale count (R117) -/
  staleCount : Nat
  summary : ListSummary
  /-- S, the number of FAULT_SLOT records (R117) -/
  slots : Nat
  /-- the code state is HOLDING or LOST, as handed (R117) -/
  codeLost : Bool
  /-- the territory is UNCODED, as handed (R117) -/
  uncoded : Bool
  sounding : Pattern
  cadence : Timer
  /-- the BUZ line (R121) -/
  buz : Bool
  ackb : ButtonState
  ltstb : ButtonState
  lockout : Timer
  testActive : Bool
  test : Timer
  deriving DecidableEq, Repr

/-! ## The memory write queue (chapter 9) -/

/-- An origin of own writes (R144): a field, or a report or mirror word by its offset from 1F00h. -/
inductive Origin where
  | field (index : Nat)
  | report (offset : Nat)
  deriving DecidableEq, Repr

/-- An entry of the own-write queue, and a request for one (R144, R145). -/
structure OwnWrite where
  addr : Addr
  value : Word
  origin : Origin
  deriving DecidableEq, Repr

/-- The MWQ. -/
structure Mwq where
  /-- the own-write queue, head first (R145) -/
  queue : List OwnWrite
  /-- the repaint-pending set, in repaint order (R146) -/
  marks : List Origin
  /-- the turn is QUEUE (R149) -/
  queueTurn : Bool
  /-- the memory values of the origins, by address; unlisted is unknown (R144) -/
  known : List (Nat × Word)
  /-- the field drain notice has been given since the STANDBY entry (R152) -/
  drainGiven : Bool
  deriving DecidableEq, Repr

/-! ## The report unit (chapter 10) -/

/-- The events of the event word, in order from bit 0 (R158, 13.7). -/
inductive Event where
  | ad
  | ow
  | oa
  | fa
  | fl
  | fs
  | st
  | cf
  | ci
  | tr
  | pc
  | sc
  deriving DecidableEq, Repr

/-- Every published value of the ASU, as the RPU receives them (R56). Report words 1F01h–1F04h show all but the
supplier and the display speed (R155). -/
structure AsuReport where
  selected : Option Nat
  supplier : Option AxleChannel
  /-- display speed, km/h -/
  d : Option Nat
  v1 : Nat
  v2 : Nat
  failed1 : Bool
  failed2 : Bool
  dir1 : Direction
  dir2 : Direction
  direction : Direction
  persistent : Bool
  dirDis : Bool
  deriving DecidableEq, Repr

/-- The RPU: the items its words are laid out from (R155, chapter 13). -/
structure Rpu where
  /-- 1F00h -/
  op : OpState
  standbyReq : Bool
  codeState : CodeState
  stage : Stage
  /-- 1F00h and 1F0Dh -/
  uncoded : Bool
  lampTest : Bool
  restriction : Bool
  /-- 1F01h–1F04h -/
  asu : AsuReport
  /-- 1F05h -/
  lastSampled : BitVec 4
  confirmed : Option (BitVec 4)
  receivedNo : Option Nat
  /-- 1F06h: the displayed aspect, its `ceiling` here being C -/
  displayed : Option Aspect
  /-- 1F07h, the event word -/
  events : Word
  /-- 1F08h, the interrupt enable -/
  enable : Word
  /-- the INTR line (R161) -/
  intr : Bool
  /-- 1F09h and the mirror -/
  list : List Entry
  /-- 1F0Ah–1F0Ch -/
  bitmap : BitVec 48
  /-- 1F0Eh -/
  verdict : Verdict
  failures : Nat
  failOff : BitVec 8
  /-- 1F0Fh -/
  cause : Cause
  deriving DecidableEq, Repr

/-! ## Hand-overs in flight (log 1) -/

/-- One item of a hand-over to the RPU (R155). -/
inductive ReportItem where
  /-- operating state and standby-request flag, 1F00h -/
  | opState (op : OpState) (standbyReq : Bool)
  /-- code state, 1F00h -/
  | codeState (state : CodeState)
  /-- territory, 1F00h and 1F0Dh -/
  | territory (uncoded : Bool)
  /-- overspeed stage, 1F00h -/
  | stage (stage : Stage)
  /-- restriction pending flag, 1F00h -/
  | restriction (pending : Bool)
  /-- lamp test flag, 1F00h -/
  | lampTest (active : Bool)
  /-- the ASU's published values, 1F01h–1F04h -/
  | published (values : AsuReport)
  /-- 1F05h -/
  | codes (lastSampled : BitVec 4) (confirmed : Option (BitVec 4)) (receivedNo : Option Nat)
  /-- 1F06h; `ceiling` is C -/
  | displayed (aspect : Option Aspect)
  /-- stale set, 1F0Ah–1F0Ch -/
  | staleSet (bitmap : BitVec 48)
  /-- verdict, failure count, failing offset, 1F0Eh -/
  | loadState (verdict : Verdict) (failures : Nat) (failOff : BitVec 8)
  deriving DecidableEq, Repr

/-- A request to the FLU (R109). -/
inductive FluRequest where
  | raise (msg : FaultMsg)
  | clear (msg : FaultMsg)
  | acknowledge
  deriving DecidableEq, Repr

/-- An input of a lamp function handed by the TCU (R117). -/
inductive FunctionInput where
  | codeLost (value : Bool)
  | uncoded (value : Bool)
  deriving DecidableEq, Repr

/-- A hand-over that a block has sent and its receiver has not yet taken. -/
inductive Msg where
  /-- ASU to FSU at a completion (R56) -/
  | speed (copy : SpeedCopy)
  /-- ASU to ANU at a completion (R56) -/
  | completion (copy : CompletionCopy)
  /-- FSU to ANU (R65) -/
  | newPr (pr : Nat)
  /-- FSU to ANU: a record entered (true) or left STALE (R117) -/
  | staleNotice (entered : Bool)
  /-- FSU to TCU: a new written aspect; where the record left STALE, that too (R91). `judged` is the number the FSU
  found it to display -/
  | writtenAspect (data : Word) (judged : Option Nat)
  /-- FSU to TCU: the ASPECT record entered (true) or left STALE (R89), showing this number since (R92) -/
  | aspectStale (entered : Bool) (shown : Option Nat)
  /-- TCU to FSU: displayed aspect number and C (R90) -/
  | delivery (number : Nat) (ceiling : Nat)
  /-- TCU to ANU: rank of the displayed aspect (R90) -/
  | rank (rank : Nat)
  /-- TCU to ANU (R90) -/
  | functionInput (input : FunctionInput)
  /-- a sender to the FLU (R100, R108) -/
  | fault (sender : Block) (request : FluRequest)
  /-- FLU to FSU: the slot entries (R110) -/
  | listFsu (entries : List Entry)
  /-- FLU to ANU (R110) -/
  | listAnu (summary : ListSummary)
  /-- FLU to RPU (R110) -/
  | listRpu (entries : List Entry)
  /-- FLU to ANU (R122) -/
  | chime
  /-- ANU to FSU (R119) -/
  | lampFunction (fn : LampFn) (value : Bool)
  /-- ANU to FSU: a lamp test began (true) or ended (R128, R129) -/
  | lampTest (begun : Bool)
  /-- a sender to the RPU: the causes of one operation (R158) -/
  | events (sender : Block) (causes : List Event)
  /-- a sender to the RPU: the items of one operation (R155) -/
  | report (sender : Block) (items : List ReportItem)
  /-- an owner to the MWQ: the requests of one operation (R145) -/
  | ownWrites (owner : Block) (requests : List OwnWrite)
  /-- MWQ to CSU (R152) -/
  | drain
  deriving DecidableEq, Repr

/-- A computer cycle as the TRP holds it: its direction, its address and, for a write, its data (R18). -/
inductive HeldCycle where
  | read (addr : Addr)
  | write (addr : Addr) (data : Word)
  deriving DecidableEq, Repr

/-! ## The whole state -/

/-- The state of the part, with the queue of commands that are waiting. -/
structure State where
  /-- commands waiting, the front first -/
  pending : List Instr
  /-- addresses of the reads the desk computer is to make, the next first (log 7) -/
  reads : List Addr
  /-- hand-overs sent and not yet taken, the oldest first (log 1) -/
  inFlight : List Msg
  /-- ms of the 1 ms timebase (log 3) -/
  now : Nat
  /-- the indication memory (log 8) -/
  mem : Memory
  /-- the computer cycle the TRP holds through RESET (R18) -/
  held : Option HeldCycle
  /-- the word the part last passed back to the desk bus; none before the first read (R19, R181; log 7) -/
  answer : Option Word
  csu : Csu
  fsu : Fsu
  asu : Asu
  tcu : Tcu
  flu : Flu
  anu : Anu
  mwq : Mwq
  rpu : Rpu
  deriving DecidableEq, Repr

/-- The part has no fault that stops it: no command and no value of a state ends in a fault, so there is no reason
to name. -/
inductive Fault where
  deriving DecidableEq, Repr

/-- Why a command is not run. -/
inductive Refusal where
  /-- Raised by an arm of `exec` whose command has no meaning yet; no arm raises it. Safe: the model stops. -/
  | notModelled (mnemonic : String)
  deriving DecidableEq, Repr

/-! ## Reset values -/

/-- An axle channel after a reset (R57). -/
def AxleState.reset : AxleState :=
  { fwd := 0, rev := 0, baseFwd := 0, baseRev := 0, v := 0, vPrev := none, failed := false, recovery := 0,
    dir := .none }

/-- The ASU after a reset (R57). -/
def Asu.reset : Asu :=
  { ch1 := .reset, ch2 := .reset, limits := none, window := none, disTime := 0, persistent := false,
    dirDis := false, selected := some 0, supplier := some .one, direction := .none, d := some 0 }

/-- The TCU after a reset (R78, R79, R81, R86). -/
def Tcu.reset : Tcu :=
  { aspects := [], lastStrobe := none, lastSampled := 0, candidate := none, state := .acquiring,
    confirmed := none, received := none, loss := none, hold := none, uncoded := false, written := none,
    aspectStale := false, displayed := none }

/-- The FSU outside RUNNING and STANDBY: no field table and nothing that goes with it (R1, R58, R59, R65, R142);
the copy of the lamp functions is 0 after each reset (R119). -/
def Fsu.reset : Fsu :=
  { table := [], speed := none, ceiling := none, pr := none, fns := .zero, lampTest := false, silent := false }

/-- The FLU after a power reset (R113). -/
def Flu.reset : Flu := { partialMsg := .none, list := [], base := none, counter := 0 }

/-- The summary of an empty list. -/
def ListSummary.empty : ListSummary := ⟨false, false, 0, 0⟩

/-- The ANU after a reset, but for the button lines, which are inputs (R132). -/
def Anu.reset (ackLine testLine : Bool) : Anu :=
  { stage := .normal, reference := none, copy := none, pendingAck := false, ackTimer := none, rank := none,
    phase := true, flash := none, fns := .zero, staleCount := 0, summary := .empty, slots := 0,
    codeLost := false, uncoded := false, sounding := .none, cadence := none, buz := false,
    ackb := { line := ackLine, pressed := false, timer := none },
    ltstb := { line := testLine, pressed := false, timer := none },
    lockout := none, testActive := false, test := none }

/-- The MWQ after a reset (R154). -/
def Mwq.reset : Mwq := { queue := [], marks := [], queueTurn := false, known := [], drainGiven := false }

/-- The RPU after a reset, before a release gives it the list, the operating state, the load state and the cause
(R156). -/
def Rpu.reset : Rpu :=
  { op := .reset, standbyReq := false, codeState := .acquiring, stage := .normal, uncoded := false,
    lampTest := false, restriction := false,
    asu := { selected := some 0, supplier := some .one, d := some 0, v1 := 0, v2 := 0, failed1 := false,
             failed2 := false, dir1 := .none, dir2 := .none, direction := .none, persistent := false, dirDis := false },
    lastSampled := 0, confirmed := none, receivedNo := none, displayed := none, events := 0, enable := 0,
    intr := false, list := [], bitmap := 0, verdict := .pending, failures := 0, failOff := 0, cause := .power }

/-- The CSU in RESET after a power reset (R163, R172, R174, R176); the line levels and the SOLO latch are log 9. -/
def Csu.reset : Csu :=
  { op := .reset, pwrg := false, wrst := true, settle := none, powerReset := true, shadow := [],
    locked := false, failures := 0, load := none, verdict := .pending, failOff := 0, fbk := false,
    solo := false, cabLine := false, cabActive := true, cabTimer := none, cause := .power }

/-- The part held in RESET by a power reset, PWRG low and WRST high (log 9). The first release follows a rise of
PWRG and the settle time. -/
def State.reset : State :=
  { pending := [], reads := [], inFlight := [], now := 0, mem := [], held := none, answer := none, csu := .reset,
    fsu := .reset, asu := .reset, tcu := .reset, flu := .reset, anu := .reset false false, mwq := .reset, rpu := .reset }

end Sys2Proof.Machine
end

