-- ==== Sys2Proof/Machine/Memory.lean ====
section
/-! DEFINITION. Reading and writing words by address: the indication memory, the image shadow, and the memory
values of origins. -/

namespace Sys2Proof.Machine

/-- The word at an address; an unlisted word reads as `Config.powerOnWord` (log 8; R163 for the shadow). -/
def Memory.read : Memory → Nat → Word
  | [], _ => Config.powerOnWord
  | (k, v) :: m, a => if k = a then v else Memory.read m a

/-- Put a word at an address, keeping the canonical form. -/
def Memory.write : Memory → Nat → Word → Memory
  | [], a, w => if w = Config.powerOnWord then [] else [(a, w)]
  | (k, v) :: m, a, w =>
    if a < k then (if w = Config.powerOnWord then (k, v) :: m else (a, w) :: (k, v) :: m)
    else if a = k then (if w = Config.powerOnWord then m else (a, w) :: m)
    else (k, v) :: Memory.write m a w

/-- The canonical form: addresses strictly rising, no entry equal to what an unlisted word reads as. -/
def Memory.wf (m : Memory) : Bool :=
  decide (m.Pairwise (fun x y => x.1 < y.1)) && m.all (fun c => c.2 != Config.powerOnWord)

/-- The memory value of the origin at an address; none is unknown (R144). -/
def knownAt : List (Nat × Word) → Nat → Option Word
  | [], _ => none
  | (k, v) :: m, a => if k = a then some v else knownAt m a

/-- Set the memory value of the origin at an address. -/
def setKnown : List (Nat × Word) → Nat → Word → List (Nat × Word)
  | [], a, w => [(a, w)]
  | (k, v) :: m, a, w =>
    if a < k then (a, w) :: (k, v) :: m
    else if a = k then (a, w) :: m
    else (k, v) :: setKnown m a w

end Sys2Proof.Machine
end

