-- ==== Sys2Proof/Machine/Operands.lean ====
section
/-! DEFINITION. What the part reads out of words and addresses: bit fields, the one rounding, the image words
(chapter 13), and the class of an address (R20). -/

namespace Sys2Proof.Machine

/-- The field of a word in bits `hi` down to `lo`, as an unsigned integer (chapter 13). -/
def bits (w : Word) (hi lo : Nat) : Nat := (w.toNat / 2 ^ lo) % 2 ^ (hi + 1 - lo)

/-- One bit of a word. -/
def bitOf (w : Word) (k : Nat) : Bool := (w.toNat / 2 ^ k) % 2 == 1

/-- The manual's one rounding, "round half up" (00_scope.md, Conventions, Rounding). -/
def roundHalfUp (num den : Nat) : Nat := (2 * num + den) / (2 * den)

/-- The distance between two speeds. -/
def absDiff (x y : Nat) : Nat := if x ≤ y then y - x else x - y

/-! ## The configuration image (13.1–13.3) -/

/-- A general word of the image (13.1). -/
def Memory.param (sh : Memory) (offset : Nat) : Nat := (sh.read offset).toNat

/-- N, the record count. -/
def Memory.imgN (sh : Memory) : Nat := sh.param 0
/-- P, pulses per revolution. -/
def Memory.imgP (sh : Memory) : Nat := sh.param 1
/-- D1, mm. -/
def Memory.imgD1 (sh : Memory) : Nat := sh.param 2
/-- D2, mm. -/
def Memory.imgD2 (sh : Memory) : Nat := sh.param 3
/-- W, ms. -/
def Memory.imgW (sh : Memory) : Nat := sh.param 4
/-- Vmax, km/h. -/
def Memory.imgVmax (sh : Memory) : Nat := sh.param 5
/-- A, tenths. -/
def Memory.imgA (sh : Memory) : Nat := sh.param 6
/-- Amax, tenths per second. -/
def Memory.imgAmax (sh : Memory) : Nat := sh.param 7
/-- T_dis, s. -/
def Memory.imgTdis (sh : Memory) : Nat := sh.param 8
/-- K, strobes. -/
def Memory.imgK (sh : Memory) : Nat := sh.param 9
/-- T_loss, ms. -/
def Memory.imgTloss (sh : Memory) : Nat := sh.param 10
/-- T_hold, ms. -/
def Memory.imgThold (sh : Memory) : Nat := sh.param 11
/-- T_ack, s. -/
def Memory.imgTack (sh : Memory) : Nat := sh.param 12
/-- Mw, tenths. -/
def Memory.imgMw (sh : Memory) : Nat := sh.param 13
/-- Ma, tenths. -/
def Memory.imgMa (sh : Memory) : Nat := sh.param 14

/-- Aspect table entry c (13.2). -/
def Memory.aspectEntry (sh : Memory) (c : Nat) : AspectEntry :=
  let w := sh.read (16 + c)
  { valid := bitOf w 15, lossFlag := bitOf w 14, number := bits w 13 11, rank := bits w 10 8,
    ceiling := 5 * bits w 6 0 }

/-- The sixteen entries of the aspect table (R76). -/
def Memory.aspectTable (sh : Memory) : List AspectEntry := (List.range 16).map sh.aspectEntry

/-- The kind field of a descriptor (13.3); 0 is not a kind. -/
def kindOf : Nat → Option Kind
  | 1 => some .actual
  | 2 => some .permitted
  | 3 => some .target
  | 4 => some .aspect
  | 5 => some .lamps
  | 6 => some .faultSlot
  | 7 => some .watched
  | _ => none

/-- The lamp function of a code (R13); codes 0 and 13–15 name none. -/
def lampFnOf : Nat → Option LampFn
  | 1 => some .overspeed
  | 2 => some .speedUnknown
  | 3 => some .codeLost
  | 4 => some .restrictAck
  | 5 => some .faultA
  | 6 => some .faultAny
  | 7 => some .faultMore
  | 8 => some .staleAny
  | 9 => some .dirFwd
  | 10 => some .dirRev
  | 11 => some .uncoded
  | 12 => some .channelFault
  | _ => none

/-- Word `k` (0–3) of descriptor i. -/
def Memory.descriptor (sh : Memory) (i k : Nat) : Word := sh.read (32 + 4 * i + k)

/-- The four lamp pair bytes of descriptor i, in order (13.3). -/
def Memory.lampBytes (sh : Memory) (i : Nat) : List Nat :=
  [bits (sh.descriptor i 2) 7 0, bits (sh.descriptor i 2) 15 8,
   bits (sh.descriptor i 3) 7 0, bits (sh.descriptor i 3) 15 8]

/-- The pair of a lamp pair byte; a byte with no function is an empty place (R182). -/
def lampPairOf (byte : Nat) : Option LampPair :=
  (lampFnOf (byte / 16)).map fun f => { bit := byte % 16, fn := f }

/-- The static part that descriptor i describes (R1, R182). -/
def Memory.fieldStatic (sh : Memory) (i : Nat) : FieldStatic :=
  let w0 := sh.descriptor i 0
  let w1 := sh.descriptor i 1
  let kind := (kindOf (bits w0 15 13)).getD .watched
  { addr := BitVec.ofNat 13 (bits w0 12 0)
    kind := kind
    action := if bitOf w1 8 then .blank else .hold
    period := 100 * bits w1 7 0
    blank := if kind = .lamps then 0 else sh.descriptor i 2
    tolerance := if kind = .actual then bits w1 15 9 else 0
    lamps := if kind = .lamps then (sh.lampBytes i).filterMap lampPairOf else [] }

/-! ## The class of an address (R20) -/

/-- What happens to a computer write to a word (R20). -/
inductive WordClass where
  /-- SUPERVISED, the record's index -/
  | field (index : Nat)
  /-- PLAIN -/
  | plain
  /-- CAPTURED -/
  | capture
  /-- CAPTURED, starts the check -/
  | check
  /-- PART-OWNED with event CI -/
  | locked
  /-- PART-OWNED -/
  | partOwned
  /-- CLEAR-BY-ONE -/
  | eventWord
  /-- PLAIN-LATCHED -/
  | enable
  /-- CHECKED-ACCEPT -/
  | territory
  /-- PLAIN, assembled by the FLU: 1F80h -/
  | unitCode
  /-- PLAIN, assembled by the FLU: 1F81h -/
  | severityAction
  /-- PLAIN, assembled by the FLU: 1F82h -/
  | textIndex
  deriving DecidableEq, Repr

/-- The index of the record that supervises an address. -/
def fieldAt (table : List Record) (a : Addr) : Option Nat := table.findIdx? (fun r => r.fixed.addr == a)

/-- The class of a word by address and operating state (R20). In RESET no write is taken; the class there has no use. -/
def wordClass (op : OpState) (table : List Record) (a : Addr) : WordClass :=
  let n := a.toNat
  match op with
  | .reset | .fallback => .plain
  | .loading =>
    if n < 0x1E00 then .plain
    else if n < 0x1EFF then .capture
    else if n = 0x1EFF then .check
    else if n = 0x1F07 then .eventWord
    else if n = 0x1F08 then .enable
    else if n < 0x1F10 then .partOwned
    else if n < 0x1F40 then .plain
    else if n < 0x1F80 then .partOwned
    else if n = 0x1F80 then .unitCode
    else if n = 0x1F81 then .severityAction
    else if n = 0x1F82 then .textIndex
    else .plain
  | .running | .standby =>
    if n < 0x1E00 then
      match fieldAt table a with
      | some i => .field i
      | none => .plain
    else if n < 0x1F00 then .locked
    else if n = 0x1F07 then .eventWord
    else if n = 0x1F08 then .enable
    else if n = 0x1F0D then .territory
    else if n < 0x1F10 then .partOwned
    else if n < 0x1F40 then .plain
    else if n < 0x1F80 then .partOwned
    else if n = 0x1F80 then .unitCode
    else if n = 0x1F81 then .severityAction
    else if n = 0x1F82 then .textIndex
    else .plain

end Sys2Proof.Machine
end

