-- ==== Sys2Proof/Machine/Flags.lean ====
section
/-! DEFINITION. The words the part forms (chapter 13): status fields, the event word, the interrupt line, the slot
word, and the content of every report and mirror word. -/

namespace Sys2Proof.Machine

/-- A value laid into `width` bits from bit `lo` up, every other bit 0. -/
def place (value width lo : Nat) : Word := BitVec.ofNat 16 (value % 2 ^ width * 2 ^ lo)

/-- A flag laid into one bit. -/
def flagBit (b : Bool) (k : Nat) : Word := place (if b then 1 else 0) 1 k

/-! ## The event word and INTR -/

/-- The position of an event in 1F07h and 1F08h (13.7). -/
def Event.bit : Event → Nat
  | .ad => 0
  | .ow => 1
  | .oa => 2
  | .fa => 3
  | .fl => 4
  | .fs => 5
  | .st => 6
  | .cf => 7
  | .ci => 8
  | .tr => 9
  | .pc => 10
  | .sc => 11

/-- The word with the bits of these events set. -/
def eventMask : List Event → Word
  | [] => 0
  | e :: es => place 1 1 e.bit ||| eventMask es

/-- The twelve positions that take part in INTR (R160). -/
def eventPositions : Word := 0x0FFF

/-- INTR is asserted while an event bit is set whose enable bit is also set (R161). -/
def intrLevel (events enable : Word) : Bool := (events &&& enable &&& eventPositions) != 0

/-! ## The slot word -/

/-- Severity as the words code it: 1 A, 2 B, 3 C (R116). -/
def Severity.code : Severity → Nat
  | .a => 1
  | .b => 2
  | .c => 3

/-- Entry state as the slot word codes it (R116). -/
def EntryState.code : EntryState → Nat
  | .activeUnacked => 1
  | .activeAcked => 2
  | .clearedUnacked => 3

/-- The slot word of an entry (R116, 13.6). -/
def Entry.slotWord (e : Entry) : Word :=
  place e.text.toNat 10 0 ||| place e.severity.code 2 10 ||| place e.state.code 2 12

/-- The first word of an entry's mirror position (R157, 13.6). -/
def Entry.mirrorWord (e : Entry) : Word := place e.code.toNat 12 0 ||| place e.unit.toNat 4 12

/-- An entry is unacknowledged in ACTIVE_UNACKED and CLEARED_UNACKED (R101). -/
def Entry.unacked (e : Entry) : Bool := e.state != .activeAcked

/-- The word of the entry at a position of a list in display order; 0000h beyond its end (R15, R157). -/
def slotWordAt (list : List Entry) (p : Nat) : Word :=
  match list[p]? with
  | some e => e.slotWord
  | none => 0

/-! ## The report words (13.7) -/

/-- Operating state in 1F00h. RESET is never shown; its code 0 has no use (log 23). -/
def OpState.code : OpState → Nat
  | .reset => 0
  | .loading => 1
  | .running => 2
  | .standby => 3
  | .fallback => 4

/-- Code state in 1F00h. -/
def CodeState.code : CodeState → Nat
  | .acquiring => 0
  | .confirmed => 1
  | .holding => 2
  | .lost => 3

/-- Overspeed stage in 1F00h. -/
def Stage.code : Stage → Nat
  | .normal => 0
  | .warning => 1
  | .alarm => 2
  | .suspended => 3

/-- A direction in 1F04h. -/
def Direction.code : Direction → Nat
  | .none => 0
  | .forward => 1
  | .reverse => 2

/-- The verdict in 1F0Eh. -/
def Verdict.code : Verdict → Nat
  | .pending => 0
  | .accepted => 1
  | .crcFail => 2
  | .contentFail => 3
  | .timeout => 4
  | .retainedFail => 5

/-- The reset cause in 1F0Fh. -/
def Cause.code : Cause → Nat
  | .power => 0
  | .warm => 1
  | .warmImageKept => 2
  | .warmImageLost => 3

/-- The territory word (13.7, R88). -/
def territoryWord (uncoded : Bool) : Word := flagBit uncoded 0

/-- 1F00h. -/
def Rpu.stateWord (r : Rpu) : Word :=
  place r.op.code 3 0 ||| flagBit r.standbyReq 3 ||| place r.codeState.code 2 4 ||| place r.stage.code 2 6
    ||| flagBit r.uncoded 8 ||| flagBit r.lampTest 9 ||| flagBit r.restriction 10

/-- 1F04h. -/
def AsuReport.channelWord (a : AsuReport) : Word :=
  flagBit a.failed1 0 ||| flagBit a.failed2 1 ||| place a.dir1.code 2 2 ||| place a.dir2.code 2 4
    ||| place a.direction.code 2 6 ||| flagBit a.persistent 8 ||| flagBit a.dirDis 9

/-- 1F05h. -/
def Rpu.codeWord (r : Rpu) : Word :=
  place r.lastSampled.toNat 4 0
    ||| (match r.confirmed with
         | some c => place c.toNat 4 4
         | none => flagBit true 8)
    ||| (match r.receivedNo with
         | some n => place n 3 9
         | none => flagBit true 12)

/-- 1F06h; FFFFh while no displayed aspect exists. -/
def Rpu.displayedWord (r : Rpu) : Word :=
  match r.displayed with
  | some a => place a.number 3 0 ||| place a.rank 3 3 ||| place a.ceiling 9 6
  | none => 0xFFFF

/-- 1F09h: the counts of a list (R111). -/
def countsWord (list : List Entry) : Word :=
  place list.length 6 0 ||| place (list.countP Entry.unacked) 6 8

/-- 1F0Eh. -/
def Rpu.loadWord (r : Rpu) : Word :=
  place r.verdict.code 3 0 ||| place r.failures 2 3 ||| place r.failOff.toNat 8 8

/-- The content of a mirror word by its offset from 1F40h (R157). -/
def mirrorContent (list : List Entry) (k : Nat) : Word :=
  match list[k / 2]? with
  | some e => if k % 2 = 0 then e.mirrorWord else e.slotWord
  | none => 0

/-- The content of the report or mirror word at an offset from 1F00h (R155). -/
def Rpu.content (r : Rpu) (offset : Nat) : Word :=
  match offset with
  | 0 => r.stateWord
  | 1 => match r.asu.selected with
         | some v => place v 16 0
         | none => 0xFFFF
  | 2 => place r.asu.v1 16 0
  | 3 => place r.asu.v2 16 0
  | 4 => r.asu.channelWord
  | 5 => r.codeWord
  | 6 => r.displayedWord
  | 7 => r.events
  | 8 => r.enable
  | 9 => countsWord r.list
  | 10 => r.bitmap.setWidth 16
  | 11 => (r.bitmap >>> 16).setWidth 16
  | 12 => (r.bitmap >>> 32).setWidth 16
  | 13 => territoryWord r.uncoded
  | 14 => r.loadWord
  | 15 => place r.cause.code 2 0
  | n => if 64 ≤ n ∧ n < 128 then mirrorContent r.list (n - 64) else 0

/-- The offsets of the report words and of the mirror (R144). -/
def reportOffsets : List Nat := List.range 16
/-- The offsets of the mirror words. -/
def mirrorOffsets : List Nat := (List.range 64).map (· + 64)

/-! ## The lamp functions -/

/-- The value of a function. -/
def LampValues.get (v : LampValues) : LampFn → Bool
  | .overspeed => v.overspeed
  | .speedUnknown => v.speedUnknown
  | .codeLost => v.codeLost
  | .restrictAck => v.restrictAck
  | .faultA => v.faultA
  | .faultAny => v.faultAny
  | .faultMore => v.faultMore
  | .staleAny => v.staleAny
  | .dirFwd => v.dirFwd
  | .dirRev => v.dirRev
  | .uncoded => v.uncoded
  | .channelFault => v.channelFault

/-- Replace the value of a function. -/
def LampValues.set (v : LampValues) (f : LampFn) (b : Bool) : LampValues :=
  match f with
  | .overspeed => { v with overspeed := b }
  | .speedUnknown => { v with speedUnknown := b }
  | .codeLost => { v with codeLost := b }
  | .restrictAck => { v with restrictAck := b }
  | .faultA => { v with faultA := b }
  | .faultAny => { v with faultAny := b }
  | .faultMore => { v with faultMore := b }
  | .staleAny => { v with staleAny := b }
  | .dirFwd => { v with dirFwd := b }
  | .dirRev => { v with dirRev := b }
  | .uncoded => { v with uncoded := b }
  | .channelFault => { v with channelFault := b }

/-- The functions in increasing order of code (R13). -/
def lampFunctions : List LampFn :=
  [.overspeed, .speedUnknown, .codeLost, .restrictAck, .faultA, .faultAny, .faultMore, .staleAny, .dirFwd,
   .dirRev, .uncoded, .channelFault]

/-- A word with one bit replaced. -/
def setBitTo (w : Word) (k : Nat) (b : Bool) : Word :=
  if b then w ||| place 1 1 k else w &&& ~~~ (place 1 1 k)

/-- A base word with every assigned bit replaced by its function value (R13). -/
def mergeLamps (fns : LampValues) : List LampPair → Word → Word
  | [], w => w
  | p :: ps, w => mergeLamps fns ps (setBitTo w p.bit (fns.get p.fn))

end Sys2Proof.Machine
end

