-- ==== Sys2Proof/Machine/Ops.lean ====
section
/-! DEFINITION. The operations the blocks share: time, hand-overs in flight, and the memory write queue with its
arbiter, its repaint-pending set and the supersede (chapter 9). -/

namespace Sys2Proof.Machine

/-! ## Time (log 3) -/

/-- The timebase has reached the ms at which a timer expires: the moment an expiry is taken is never before it. -/
def State.reach (s : State) (expiry : Nat) : State := { s with now := max s.now expiry }

/-- 1 ms of the part's timebase passes (log 3). -/
def State.tick (s : State) : State := { s with now := s.now + 1 }

/-- A timer started from zero now. -/
def State.startTimer (s : State) (period : Nat) : Timer := some (s.now + period)

/-! ## Hand-overs in flight (log 1) -/

/-- Send hand-overs; each receiver takes its own at a command of its own. -/
def State.send (s : State) (msgs : List Msg) : State := { s with inFlight := s.inFlight ++ msgs }

/-- The oldest hand-over that `p` picks, and the others in their order. -/
def takeFirst {α : Type} (p : Msg → Option α) : List Msg → Option (α × List Msg)
  | [] => none
  | m :: ms =>
    match p m with
    | some x => some (x, ms)
    | none => (takeFirst p ms).map fun r => (r.1, m :: r.2)

/-- Take the oldest hand-over that `p` picks and act on it; where none is in flight the event does not occur and
the part stays as it is (log 2). -/
def State.takeMsg {α : Type} (s : State) (p : Msg → Option α) (act : α → State → State) : State :=
  match takeFirst p s.inFlight with
  | some (x, rest) => act x { s with inFlight := rest }
  | none => s

/-! ### The paths: the hand-over a take command looks for -/

/-- ASU to FSU. -/
def pickSpeed : Msg → Option SpeedCopy
  | .speed c => some c
  | _ => none

/-- ASU to ANU. -/
def pickCompletion : Msg → Option CompletionCopy
  | .completion c => some c
  | _ => none

/-- FSU to ANU, a new PR. -/
def pickNewPr : Msg → Option Nat
  | .newPr pr => some pr
  | _ => none

/-- FSU to ANU, a record entering (true) or leaving STALE. -/
def pickStale : Msg → Option Bool
  | .staleNotice b => some b
  | _ => none

/-- What the FSU hands the TCU of the ASPECT record. -/
inductive AspectInput where
  | written (data : Word) (judged : Option Nat)
  | stale (entered : Bool) (shown : Option Nat)
  deriving DecidableEq, Repr

/-- FSU to TCU: a new written aspect, or the ASPECT record entering (true) or leaving STALE; one path, in order. -/
def pickAspectInput : Msg → Option AspectInput
  | .writtenAspect w n => some (.written w n)
  | .aspectStale b n => some (.stale b n)
  | _ => none

/-- TCU to FSU: displayed aspect number and C. -/
def pickDelivery : Msg → Option (Nat × Nat)
  | .delivery n c => some (n, c)
  | _ => none

/-- TCU to ANU: the rank of the displayed aspect. -/
def pickRank : Msg → Option Nat
  | .rank r => some r
  | _ => none

/-- TCU to ANU: an input of a lamp function. -/
def pickInput : Msg → Option FunctionInput
  | .functionInput i => some i
  | _ => none

/-- A sender to the FLU: the FLU takes a sender's requests in the order they were sent (R109). -/
def pickFault (sender : Block) : Msg → Option FluRequest
  | .fault b r => if b = sender then some r else none
  | _ => none

/-- FLU to FSU. -/
def pickListFsu : Msg → Option (List Entry)
  | .listFsu es => some es
  | _ => none

/-- FLU to ANU. -/
def pickListAnu : Msg → Option ListSummary
  | .listAnu x => some x
  | _ => none

/-- FLU to RPU. -/
def pickListRpu : Msg → Option (List Entry)
  | .listRpu es => some es
  | _ => none

/-- FLU to ANU: a CHIME request. -/
def pickChime : Msg → Option Unit
  | .chime => some ()
  | _ => none

/-- ANU to FSU: a lamp function and its new value. -/
def pickLampFunction : Msg → Option (LampFn × Bool)
  | .lampFunction f v => some (f, v)
  | _ => none

/-- ANU to FSU: a lamp test began (true) or ended; one path, in order. -/
def pickLampTest : Msg → Option Bool
  | .lampTest b => some b
  | _ => none

/-- A sender to the RPU: the event causes of one operation. -/
def pickEvents (sender : Block) : Msg → Option (List Event)
  | .events b es => if b = sender then some es else none
  | _ => none

/-- A sender to the RPU: the items of one operation. -/
def pickReport (sender : Block) : Msg → Option (List ReportItem)
  | .report b items => if b = sender then some items else none
  | _ => none

/-- An owner to the MWQ: the requests of one operation. -/
def pickOwnWrites (owner : Block) : Msg → Option (List OwnWrite)
  | .ownWrites b ws => if b = owner then some ws else none
  | _ => none

/-- MWQ to CSU: the field drain notice. -/
def pickDrain : Msg → Option Unit
  | .drain => some ()
  | _ => none

/-- The supervising states: a field table exists (R1). -/
def OpState.hasTable : OpState → Bool
  | .running | .standby => true
  | .reset | .loading | .fallback => false

/-! ## Origins and memory values (R144) -/

/-- The address of a report or mirror word. -/
def reportAddr (offset : Nat) : Addr := BitVec.ofNat 13 (0x1F00 + offset)

/-- The address of an origin. -/
def State.originAddr (s : State) : Origin → Option Addr
  | .field i => (s.fsu.table[i]?).map (·.fixed.addr)
  | .report k => some (reportAddr k)

/-- The owner's current value of an origin: the FSU's shown value, the RPU's content (R147). None where no shown value is
derived: a WATCHED field that is UNSET, or STALE from UNSET with action HOLD (R6, R9). -/
def State.ownerValue (s : State) : Origin → Option Word
  | .field i => (s.fsu.table[i]?).bind (·.shown)
  | .report k => some (s.rpu.content k)

/-- The origin, if any, whose address this is (R144). -/
def State.originAt (s : State) (a : Addr) : Option Origin :=
  if a.toNat < 0x1E00 then (fieldAt s.fsu.table a).map Origin.field
  else if 0x1F00 ≤ a.toNat ∧ a.toNat < 0x1F10 then some (.report (a.toNat - 0x1F00))
  else if 0x1F40 ≤ a.toNat ∧ a.toNat < 0x1F80 then some (.report (a.toNat - 0x1F00))
  else none

/-- The last value handed for an address by requests the MWQ has not yet taken. -/
def inFlightValue (a : Addr) : List Msg → Option Word
  | [] => none
  | .ownWrites _ reqs :: ms =>
    match inFlightValue a ms with
    | some v => some v
    | none => (reqs.find? (·.addr == a)).map (·.value)
  | _ :: ms => inFlightValue a ms

/-- What the part last caused memory to hold at an address (R16, R144): the value of a request handed and not yet
taken (log 10), or the origin's memory value, which is the queued value while an entry waits. -/
def State.lastCaused (s : State) (a : Addr) : Option Word :=
  match inFlightValue a s.inFlight with
  | some v => some v
  | none => knownAt s.mwq.known a.toNat

/-! ## Repaint order (R146) -/

/-- Field origins by index come before report and mirror origins by offset. -/
def Origin.before : Origin → Origin → Bool
  | .field i, .field j => decide (i < j)
  | .field _, .report _ => true
  | .report _, .field _ => false
  | .report k, .report l => decide (k < l)

/-- Mark an origin: each is in the set at most once, and the set is kept in repaint order. -/
def insertMark (o : Origin) : List Origin → List Origin
  | [] => [o]
  | x :: xs => if o = x then x :: xs else if o.before x then o :: x :: xs else x :: insertMark o xs

/-! ## Enqueue (R145) -/

/-- Replace the value of the entry for an address, in place. -/
def replaceEntry (w : OwnWrite) : List OwnWrite → List OwnWrite
  | [] => []
  | e :: es => if e.addr = w.addr then { e with value := w.value } :: es else e :: replaceEntry w es

/-- The queue holds an entry for an address. -/
def Mwq.holds (q : Mwq) (a : Addr) : Bool := q.queue.any (·.addr == a)

/-- Take one request (R145): replace in place, add at the tail, or mark the origin. While an entry waits, the
origin's memory value is the entry's value (R144); a marked origin keeps its memory value (R146). -/
def Mwq.enqueue (q : Mwq) (w : OwnWrite) : Mwq :=
  if q.holds w.addr then
    { q with queue := replaceEntry w q.queue, known := setKnown q.known w.addr.toNat w.value }
  else if q.queue.length < Config.queueDepth then
    { q with queue := q.queue ++ [w], marks := q.marks.erase w.origin
             known := setKnown q.known w.addr.toNat w.value }
  else
    { q with marks := insertMark w.origin q.marks }

/-- Take the requests of one owner operation, in the order the owner handed them, as one enqueue (R145). -/
def Mwq.enqueueAll (q : Mwq) (ws : List OwnWrite) : Mwq := ws.foldl Mwq.enqueue q

/-! ## Re-derivation from the repaint-pending set (R147) -/

/-- The first origin in repaint order whose owner's value differs from its memory value, as an own write, and the
marks that stay: the mark of every origin tried is removed.

DESIGN CHOICE (log 26): R147 does not say what becomes of a marked WATCHED field for which no shown value is derived, as a
return from STANDBY taken with the mark in place leaves an UNSET one (R10, R152). Its mark is removed and nothing is
written, also where its memory value is still unknown (R144), so that the part leaves the word as it finds it (R6). -/
def State.firstBehind (s : State) : List Origin → Option OwnWrite × List Origin
  | [] => (none, [])
  | o :: os =>
    match s.originAddr o, s.ownerValue o with
    | some a, some v =>
      if knownAt s.mwq.known a.toNat = some v then s.firstBehind os
      else (some { addr := a, value := v, origin := o }, os)
    | _, _ => s.firstBehind os

/-- Fill a freed place with the first pending origin that needs a write (R147). -/
def State.rederive (s : State) : State :=
  let r := s.firstBehind s.mwq.marks
  let q := { s.mwq with marks := r.2 }
  match r.1 with
  | some w => { s with mwq := q.enqueue w }
  | none => { s with mwq := q }

/-! ## Field drain (R152) -/

/-- An origin is a field's. -/
def Origin.isField : Origin → Bool
  | .field _ => true
  | .report _ => false

/-- A hand-over is a request of the FSU to the MWQ. -/
def Msg.isFieldRequest : Msg → Bool
  | .ownWrites .fsu _ => true
  | _ => false

/-- No field entry is queued, no field origin is marked, and no request of the FSU waits to be taken. -/
def State.drained (s : State) : Bool :=
  !s.mwq.queue.any (·.origin.isField) && !s.mwq.marks.any Origin.isField && !s.inFlight.any Msg.isFieldRequest

/-- In STANDBY, give the field drain notice once, when the drain is complete (R152). -/
def State.noticeDrain (s : State) : State :=
  if s.csu.op = .standby ∧ s.mwq.drainGiven = false ∧ s.drained = true then
    { s with mwq := { s.mwq with drainGiven := true } }.send [.drain]
  else s

/-! ## The memory port (R149, R150) -/

/-- Write one word of the indication memory. -/
def State.setMem (s : State) (a : Addr) (w : Word) : State := { s with mem := s.mem.write a.toNat w }

/-- Record what memory holds at an address as the memory value of the origin there, if one has it (R144). -/
def State.noteMemory (s : State) (a : Addr) (w : Word) : State :=
  match s.originAt a with
  | some _ => { s with mwq := { s.mwq with known := setKnown s.mwq.known a.toNat w } }
  | none => s

/-- Grant the head entry the port (R150): it leaves and is written, its owner's memory value becomes the value
written, the repaint-pending set is re-derived, and the turn goes to COMPUTER (R149). -/
def State.grantHead (s : State) : State :=
  match s.mwq.queue with
  | [] => s
  | e :: es =>
    let s1 := { s with mwq := { s.mwq with queue := es, queueTurn := false
                                           known := setKnown s.mwq.known e.addr.toNat e.value } }
    (s1.setMem e.addr e.value).rederive.noticeDrain

/-! ## Supersede by a computer write (R22, R148) -/

/-- Drop the requests for an address from the hand-overs that the MWQ has not yet taken (log 10). -/
def dropRequests (a : Addr) : List Msg → List Msg
  | [] => []
  | .ownWrites b reqs :: ms => .ownWrites b (reqs.filter (fun w => w.addr != a)) :: dropRequests a ms
  | m :: ms => m :: dropRequests a ms

/-- The origin's address is this one. -/
def State.marksAt (s : State) (a : Addr) (o : Origin) : Bool := s.originAddr o == some a

/-- The own write that waits for an address, its mark, and its request in flight are removed, because memory has
received a word there; an entry that leaves frees a place for a pending origin (R147, R148). -/
def State.supersede (s : State) (a : Addr) : State :=
  let s1 := { s with inFlight := dropRequests a s.inFlight
                     mwq := { s.mwq with marks := s.mwq.marks.filter (fun o => !s.marksAt a o) } }
  if s.mwq.holds a then
    { s1 with mwq := { s1.mwq with queue := s1.mwq.queue.filter (fun e => e.addr != a) } }.rederive.noticeDrain
  else s1

/-- Memory receives a word of a computer write (pass, substitute or merge; R21, R22). -/
def State.receive (s : State) (a : Addr) (w : Word) : State :=
  ((s.setMem a w).noteMemory a w).supersede a

/-- The arbiter, with a computer cycle waiting: where the queue also waits and has the turn, its head is granted
first (R149). A computer cycle waits for at most this one own write. -/
def State.serveQueueTurn (s : State) : State :=
  if s.mwq.queueTurn = true ∧ s.mwq.queue ≠ [] then s.grantHead else s

/-- The computer cycle is granted: the turn goes to QUEUE (R149), and the TRP holds nothing once it completes (R18). -/
def State.grantComputer (s : State) : State :=
  { s with held := none, mwq := { s.mwq with queueTurn := true } }

/-- A computer read is taken: the part passes back the word memory holds at the take, no owner is reached, and the
read counts for the turn (R19, R149, R151). -/
def State.takeRead (s : State) (a : Addr) : State :=
  let s1 := s.serveQueueTurn
  { s1.grantComputer with answer := some (s1.mem.read a.toNat) }

/-- DRDY: low while the TRP holds a cycle, and high again when it completes (R181; the level with no cycle on the desk
bus is log 18). -/
def State.drdy (s : State) : Bool := s.held.isNone

/-! ## Internal fault messages (R100) -/

/-- An internal message: unit 15 and text index 960 plus the class (R100). -/
def internalMsg (code : Nat) (severity : Severity) (cls : Nat) : FaultMsg :=
  { unit := 15, code := BitVec.ofNat 12 code, severity := severity, text := BitVec.ofNat 10 (960 + cls) }

/-- 001h and 002h, an axle channel failed. -/
def channelFailedMsg : AxleChannel → FaultMsg
  | .one => internalMsg 0x001 .b 1
  | .two => internalMsg 0x002 .b 2

/-- 003h, persistent axle disagreement. -/
def disagreementMsg : FaultMsg := internalMsg 0x003 .b 3
/-- 004h, direction disagreement. -/
def directionMsg : FaultMsg := internalMsg 0x004 .b 4
/-- 005h, speed unknown. -/
def speedUnknownMsg : FaultMsg := internalMsg 0x005 .a 5
/-- 010h, track code lost. -/
def codeLostMsg : FaultMsg := internalMsg 0x010 .b 6
/-- 011h, restriction not acknowledged. -/
def restrictionMsg : FaultMsg := internalMsg 0x011 .a 7
/-- 020h, desk computer silent. -/
def silentMsg : FaultMsg := internalMsg 0x020 .a 8

/-- The severity of the stale fault of a record, by its kind (R136). -/
def staleSeverity : Kind → Severity
  | .actual | .permitted | .target | .aspect => .b
  | .lamps | .faultSlot | .watched => .c

/-- 100h+i, field i stale. -/
def staleMsg (kind : Kind) (i : Nat) : FaultMsg := internalMsg (0x100 + i) (staleSeverity kind) 9
/-- 200h+i, field i persistently corrected. -/
def correctedMsg (i : Nat) : FaultMsg := internalMsg (0x200 + i) .b 10

/-- A RAISE where a condition begins, a CLEAR where it ends, nothing where it stays as it was. -/
def onChange (before after : Bool) (msg : FaultMsg) : List FluRequest :=
  match before, after with
  | false, true => [.raise msg]
  | true, false => [.clear msg]
  | _, _ => []

/-- Send the FLU requests, in this order. -/
def State.sendFlu (s : State) (sender : Block) (reqs : List FluRequest) : State :=
  s.send (reqs.map (Msg.fault sender))

/-- Hand the RPU event causes, where there are any. -/
def State.sendEvents (s : State) (sender : Block) (es : List Event) : State :=
  if es = [] then s else s.send [.events sender es]

/-- Hand the RPU report items, where there are any. -/
def State.sendReport (s : State) (sender : Block) (items : List ReportItem) : State :=
  if items = [] then s else s.send [.report sender items]

/-! ## Requests of the RPU (R155) -/

/-- The own-write requests for the report and mirror words, of these offsets, whose content differs from the word's
memory value, in increasing order of offset when the offsets are. -/
def State.reportRequests (s : State) (offsets : List Nat) : List OwnWrite :=
  offsets.filterMap fun k =>
    let v := s.rpu.content k
    if s.lastCaused (reportAddr k) = some v then none
    else some { addr := reportAddr k, value := v, origin := .report k }

/-- Hand requests to the MWQ, where there are any. -/
def State.request (s : State) (owner : Block) (ws : List OwnWrite) : State :=
  if ws = [] then s else s.send [.ownWrites owner ws]

/-- INTR follows the event word and the enable (R161). -/
def Rpu.followIntr (r : Rpu) : Rpu := { r with intr := intrLevel r.events r.enable }

end Sys2Proof.Machine
end

