-- ==== Sys2Proof/Machine/Mwq.lean ====
section
/-! DEFINITION. The commands of the memory write queue (chapter 9); its operations stand in Ops. -/

namespace Sys2Proof.Machine

/-- OWN_WRITE_REQUEST (R145): the MWQ takes the next requests of an owner, all of one operation, as one enqueue. -/
def execOwnWriteRequest (owner : Block) (s : State) : Host.Outcome State Fault Refusal :=
  .next <| s.takeMsg (pickOwnWrites owner) fun ws s => { s with mwq := s.mwq.enqueueAll ws }

/-- OWN_WRITE_GRANT (R150): the head entry is granted the port; an empty queue requests nothing (R149). -/
def execOwnWriteGrant (s : State) : Host.Outcome State Fault Refusal := .next s.grantHead

end Sys2Proof.Machine
end

