-- ==== Sys2Proof/Machine/Asu.lean ====
section
/-! DEFINITION. The axle speed unit (chapter 3): counting, the window completion and its hand-overs. -/

namespace Sys2Proof.Machine

/-! ## Counting (R36) -/

/-- A rising edge of a channel's A line with its B line at this level. -/
def AxleState.edge (c : AxleState) (b : Bool) : AxleState :=
  if b then { c with fwd := c.fwd + 1 } else { c with rev := c.rev + 1 }

/-- Edges are counted in RUNNING and STANDBY, and those of channel 2 only while SOLO is latched low (R36). -/
def State.countsEdge (s : State) (channel : AxleChannel) : Bool :=
  s.csu.op.hasTable && !(s.csu.solo && channel == .two)

/-- AXLE_EDGE (R36). -/
def execAxleEdge (channel : AxleChannel) (b : Bool) (s : State) : Host.Outcome State Fault Refusal :=
  .next <|
    if s.countsEdge channel then
      match channel with
      | .one => { s with asu := { s.asu with ch1 := s.asu.ch1.edge b } }
      | .two => { s with asu := { s.asu with ch2 := s.asu.ch2.edge b } }
    else s

/-! ## One channel at a completion (R39, R40, R42–R44) -/

/-- The net count of a channel since its baseline (R39). -/
def AxleState.net (c : AxleState) : Int :=
  ((c.fwd - c.baseFwd).toNat : Int) - ((c.rev - c.baseRev).toNat : Int)

/-- The window direction of a net count (R39). -/
def directionOf (n : Int) : Direction := if 0 < n then .forward else if n < 0 then .reverse else .none

/-- The speed of `n` pulses in one window before the clamp, rounded half up once (R40; R41 for one pulse). -/
def pulseSpeed (n diameter p w : Nat) : Nat := roundHalfUp (n * 31416 * diameter * 36) (10000 * p * w)

/-- Channel speed (R40). -/
def channelSpeed (n diameter p w : Nat) : Nat := min Config.maxSpeed (pulseSpeed n diameter p w)

/-- The limits derived when an image is accepted (R41). -/
def limitsOf (sh : Memory) : Limits :=
  let q1 := pulseSpeed 1 sh.imgD1 sh.imgP sh.imgW
  let q2 := pulseSpeed 1 sh.imgD2 sh.imgP sh.imgW
  let acc := roundHalfUp (sh.imgAmax * sh.imgW) 1000
  { q1 := q1, q2 := q2, l1 := max acc (2 * q1), l2 := max acc (2 * q2), vp := sh.imgVmax * 10 * 5 / 4 }

/-- The result of a window is plausible (R42). -/
def plausible (vp l : Nat) (vPrev : Option Nat) (v : Nat) : Bool :=
  decide (v ≤ vp) &&
    match vPrev with
    | none => true
    | some x => decide (absDiff v x ≤ l)

/-- Channel state and recovery count after a result (R43, R44). -/
def channelState (failed : Bool) (recovery : Nat) (ok : Bool) : Bool × Nat :=
  match failed, ok with
  | false, true => (false, 0)
  | false, false => (true, 0)
  | true, false => (true, 0)
  | true, true => if recovery + 1 < Config.recoveryWindows then (true, recovery + 1) else (false, 0)

/-- Stages 1 to 4 of a completion for one channel (R45). -/
def AxleState.completeWindow (c : AxleState) (diameter p w vp l : Nat) : AxleState :=
  let n := c.net
  let v := channelSpeed n.natAbs diameter p w
  let st := channelState c.failed c.recovery (plausible vp l c.vPrev v)
  { fwd := c.fwd, rev := c.rev, baseFwd := c.fwd, baseRev := c.rev, v := v, vPrev := some v,
    failed := st.1, recovery := st.2, dir := directionOf n }

/-! ## Selecting the speed (R46–R51) -/

/-- What stage 5 decides. -/
structure Selection where
  selected : Option Nat
  supplier : Option AxleChannel
  disTime : Nat
  persistent : Bool
  deriving DecidableEq, Repr

/-- The higher reading, channel 1 when they are equal (R46). -/
def takeHigher (v1 v2 : Nat) : Nat × AxleChannel := if v2 ≤ v1 then (v1, .one) else (v2, .two)

/-- The lower reading (R47). -/
def takeLower (v1 v2 : Nat) : Nat × AxleChannel := if v1 ≤ v2 then (v1, .one) else (v2, .two)

/-- The agreement band (R46). -/
def agreementBand (a v1 v2 : Nat) : Nat := max a (max v1 v2 / 16)

/-- Selection with both channels GOOD and SOLO latched low (R46, R47, R48). `limit` is T_dis × 1000. -/
def selectBothGood (a w limit : Nat) (brk : Bool) (v1 v2 disTime : Nat) (persistent : Bool) : Selection :=
  let high := takeHigher v1 v2
  let low := takeLower v1 v2
  if absDiff v1 v2 ≤ agreementBand a v1 v2 then
    { selected := some high.1, supplier := some high.2, disTime := 0, persistent := false }
  else if persistent then
    { selected := some high.1, supplier := some high.2, disTime := disTime, persistent := true }
  else if disTime + w < limit then
    let pick := if brk then high else low
    { selected := some pick.1, supplier := some pick.2, disTime := disTime + w, persistent := false }
  else
    { selected := some high.1, supplier := some high.2, disTime := limit, persistent := true }

/-- Stage 5 of a completion (R46–R51). -/
def selectSpeed (solo brk : Bool) (a w limit : Nat) (c1 c2 : AxleState) (disTime : Nat) (persistent : Bool) :
    Selection :=
  if solo then
    if c1.failed then { selected := none, supplier := none, disTime := 0, persistent := false }
    else { selected := some c1.v, supplier := some .one, disTime := 0, persistent := false }
  else
    match c1.failed, c2.failed with
    | false, false => selectBothGood a w limit brk c1.v c2.v disTime persistent
    | false, true => { selected := some c1.v, supplier := some .one, disTime := 0, persistent := false }
    | true, false => { selected := some c2.v, supplier := some .two, disTime := 0, persistent := false }
    | true, true => { selected := none, supplier := none, disTime := 0, persistent := false }

/-! ## Direction and display speed (R53, R54) -/

/-- The direction-disagreement condition (R53, case 2). -/
def directionsDisagree (solo : Bool) (c1 c2 : AxleState) (selected : Option Nat) : Bool :=
  match selected with
  | none => false
  | some v =>
    !solo && !c1.failed && !c2.failed && c1.dir != .none && c2.dir != .none && c1.dir != c2.dir
      && decide (Config.directionFloor ≤ v)

/-- The window direction of the supplier; NONE where there is none (R53). -/
def supplierDirection (c1 c2 : AxleState) : Option AxleChannel → Direction
  | some .one => c1.dir
  | some .two => c2.dir
  | none => .none

/-- Display speed (R54). -/
def displaySpeed (selected : Option Nat) : Option Nat := selected.map fun v => (2 * v + 10) / 20

/-! ## The completion as a whole (R45) -/

/-- Stages 1 to 7 of a completion (R45). -/
def Asu.complete (u : Asu) (sh : Memory) (solo brk : Bool) : Asu :=
  let lim := u.limits.getD { q1 := 0, q2 := 0, l1 := 0, l2 := 0, vp := 0 }
  let c1 := u.ch1.completeWindow sh.imgD1 sh.imgP sh.imgW lim.vp lim.l1
  let c2 := if solo then u.ch2 else u.ch2.completeWindow sh.imgD2 sh.imgP sh.imgW lim.vp lim.l2
  let sel := selectSpeed solo brk sh.imgA sh.imgW (sh.imgTdis * 1000) c1 c2 u.disTime u.persistent
  let dis := directionsDisagree solo c1 c2 sel.selected
  { u with
    ch1 := c1, ch2 := c2, disTime := sel.disTime, persistent := sel.persistent, dirDis := dis,
    selected := sel.selected, supplier := sel.supplier,
    direction := if dis then .none else supplierDirection c1 c2 sel.supplier
    d := displaySpeed sel.selected }

/-- The fault messages of a completion, in the order of R55: each code for a change only. -/
def Asu.faultRequests (u u' : Asu) : List FluRequest :=
  onChange u.ch1.failed u'.ch1.failed (channelFailedMsg .one)
    ++ onChange u.ch2.failed u'.ch2.failed (channelFailedMsg .two)
    ++ onChange u.persistent u'.persistent disagreementMsg
    ++ onChange u.dirDis u'.dirDis directionMsg
    ++ onChange u.selected.isNone u'.selected.isNone speedUnknownMsg

/-- Event CF, with each RAISE of 001h or 002h (R43, R55). -/
def Asu.failureEvents (u u' : Asu) : List Event :=
  if (!u.ch1.failed && u'.ch1.failed) || (!u.ch2.failed && u'.ch2.failed) then [.cf] else []

/-- What the FSU receives (R56). -/
def Asu.speedCopy (u : Asu) : SpeedCopy := { selected := u.selected, d := u.d }

/-- What the ANU receives (R56). -/
def Asu.completionCopy (u : Asu) : CompletionCopy :=
  { selected := u.selected, direction := u.direction, failed1 := u.ch1.failed, failed2 := u.ch2.failed,
    persistent := u.persistent, dirDis := u.dirDis }

/-- What the RPU receives: every published value (R56). -/
def Asu.published (u : Asu) : AsuReport :=
  { selected := u.selected, supplier := u.supplier, d := u.d, v1 := u.ch1.v, v2 := u.ch2.v,
    failed1 := u.ch1.failed, failed2 := u.ch2.failed, dir1 := u.ch1.dir, dir2 := u.ch2.dir,
    direction := u.direction, persistent := u.persistent, dirDis := u.dirDis }

/-- Hand the published values to the FSU, the ANU and the RPU (R56). -/
def State.handPublished (s : State) : State :=
  s.send [.speed s.asu.speedCopy, .completion s.asu.completionCopy, .report .asu [.published s.asu.published]]

/-- One window completion: the timer restarts (R38), stages 1 to 7 are computed, and stage 8 hands on (R45, R55,
R56). -/
def State.completeWindow (s : State) (brk : Bool) : State :=
  let u := s.asu
  let u' := u.complete s.csu.shadow s.csu.solo brk
  let s1 := { s with asu := { u' with window := s.startTimer s.csu.shadow.imgW } }
  ((s1.sendFlu .asu (u.faultRequests u')).sendEvents .asu (u.failureEvents u')).handPublished

/-- WINDOW_COMPLETION (R45); where the window timer is stopped there is no completion (R38). -/
def execWindowCompletion (brk : Bool) (s : State) : Host.Outcome State Fault Refusal :=
  .next <|
    match s.asu.window with
    | some expiry => (s.reach expiry).completeWindow brk
    | none => s

/-! ## Reset and RUNNING entry (R57) -/

/-- The ASU at a RUNNING entry: every value of R57, the limits as derived, the window timer started. -/
def State.asuEntry (s : State) : State :=
  let s1 := { s with asu := { Asu.reset with limits := s.asu.limits, window := s.startTimer s.csu.shadow.imgW } }
  (s1.handPublished).sendFlu .asu
    [.clear (channelFailedMsg .one), .clear (channelFailedMsg .two), .clear disagreementMsg,
     .clear directionMsg, .clear speedUnknownMsg]

end Sys2Proof.Machine
end

