-- ==== Sys2Proof/Machine/Anu.lean ====
section
/-! DEFINITION. The annunciation unit (chapter 7, with 4.5 and 5.7): the overspeed stage, the lamp functions, the
flash phase, the buzzer, the push-buttons, the lamp test and restriction acknowledgement. -/

namespace Sys2Proof.Machine

/-! ## Lamp functions (R13, R117, R119) -/

/-- The value of a function from the ANU's inputs (R13, R117). -/
def Anu.fnValue (a : Anu) : LampFn → Bool
  | .overspeed =>
    match a.stage with
    | .normal | .suspended => false
    | .warning => true
    | .alarm => a.phase
  | .speedUnknown =>
    match a.copy with
    | some c => c.selected.isNone
    | none => false
  | .codeLost => a.codeLost
  | .restrictAck => a.pendingAck && a.phase
  | .faultA => a.summary.anyAUnacked
  | .faultAny => a.summary.anyUnacked
  | .faultMore => decide (a.slots < a.summary.entries)
  | .staleAny => decide (0 < a.staleCount)
  | .dirFwd =>
    match a.copy with
    | some c => c.direction == .forward
    | none => false
  | .dirRev =>
    match a.copy with
    | some c => c.direction == .reverse
    | none => false
  | .uncoded => a.uncoded
  | .channelFault =>
    match a.copy with
    | some c => c.failed1 || c.failed2 || c.persistent || c.dirDis
    | none => false

/-- Replace the values of these functions by the ones their inputs give. -/
def Anu.reevaluated (a : Anu) : List LampFn → LampValues
  | [] => a.fns
  | f :: fs => (a.reevaluated fs).set f (a.fnValue f)

/-- The functions among these whose value a re-evaluation changes, in the order given, which is that of the codes. -/
def Anu.changes (a : Anu) (fs : List LampFn) : List Msg :=
  (fs.filter fun f => a.fns.get f != a.fnValue f).map fun f => .lampFunction f (a.fnValue f)

/-- Re-evaluate these functions and hand each changed one to the FSU (R119); outside RUNNING and STANDBY no function
is evaluated. -/
def State.reevaluate (s : State) (fs : List LampFn) : State :=
  if s.csu.op.hasTable then
    { s with anu := { s.anu with fns := s.anu.reevaluated fs } }.send (s.anu.changes fs)
  else s

/-! ## The buzzer (R120–R123) -/

/-- The highest continuing pattern demanded (R120). -/
def Anu.demanded (a : Anu) : Option Pattern :=
  if a.stage = .alarm then some .continuous
  else if a.stage = .warning ∨ a.summary.anyAUnacked = true then some .intermittent
  else if a.pendingAck then some .repeatChime
  else none

/-- How long the tone that begins a pattern lasts (R121); CONTINUOUS has no end. -/
def toneOf : Pattern → Option Nat
  | .continuous => none
  | .intermittent => some Config.intermittentHalf
  | .repeatChime | .chime => some Config.chimeTone
  | .none => none

/-- A pattern becomes the sounding pattern: its cadence starts from its beginning, with the tone (R121). -/
def State.startPattern (s : State) (p : Pattern) : State :=
  { s with anu := { s.anu with sounding := p, buz := true, cadence := (toneOf p).map (s.now + ·) } }

/-- No pattern sounds: BUZ is low and the cadence timer is stopped. -/
def Anu.silenced (a : Anu) : Anu := { a with sounding := .none, buz := false, cadence := none }

/-- The sounding pattern follows the demands, in RUNNING (R120, R121, R122). -/
def State.followDemands (s : State) : State :=
  if s.csu.op = .running then
    match s.anu.demanded with
    | some p => if s.anu.sounding = p then s else s.startPattern p
    | none => if s.anu.sounding = .chime ∨ s.anu.sounding = .none then s else { s with anu := s.anu.silenced }
  else s

/-- A CHIME request, by what sounds when it is taken (R122). -/
def State.chime (s : State) : State :=
  if s.csu.op = .running then
    match s.anu.sounding with
    | .continuous | .intermittent => s
    | .repeatChime => s.startPattern .repeatChime
    | .chime | .none => s.startPattern .chime
  else s

/-- CHIME_REQUEST (R122). -/
def execChimeRequest (s : State) : Host.Outcome State Fault Refusal :=
  .next <| s.takeMsg pickChime fun _ s => s.chime

/-- Expiry of the cadence timer (R121). -/
def State.stepCadence (s : State) : State :=
  match s.anu.sounding with
  | .intermittent =>
    { s with anu := { s.anu with buz := !s.anu.buz, cadence := s.startTimer Config.intermittentHalf } }
  | .repeatChime =>
    if s.anu.buz then { s with anu := { s.anu with buz := false, cadence := s.startTimer Config.repeatSilence } }
    else { s with anu := { s.anu with buz := true, cadence := s.startTimer Config.chimeTone } }
  | .chime | .none | .continuous => { s with anu := s.anu.silenced }

/-- CADENCE_TIMER_EXPIRY (R121). -/
def execCadenceTimerExpiry (s : State) : Host.Outcome State Fault Refusal :=
  .next <|
    match s.anu.cadence with
    | some expiry => (s.reach expiry).stepCadence
    | none => s

/-! ## The overspeed stage (R70–R75) -/

/-- The stage of a known speed (R71), from the reference and the margins (R70). -/
def stageOf (mw ma r : Nat) (old : Stage) (v : Nat) : Stage :=
  let fresh := if r + ma < v then Stage.alarm else if r + mw < v then .warning else .normal
  match old with
  | .normal | .suspended => fresh
  | .warning => if r + ma < v then .alarm else if v ≤ r + mw - Config.hysteresis then .normal else .warning
  | .alarm => if v ≤ r + mw - Config.hysteresis then .normal
              else if v ≤ r + ma - Config.hysteresis then .warning else .alarm

/-- The stage after an evaluation (R70, R71, R74). -/
def State.evaluatedStage (s : State) : Stage :=
  match s.anu.copy with
  | none => s.anu.stage
  | some c =>
    match c.selected, s.anu.reference with
    | none, _ => .suspended
    | some _, none => s.anu.stage
    | some v, some r => stageOf s.csu.shadow.imgMw s.csu.shadow.imgMa r s.anu.stage v

/-- The events of a stage change (R73). -/
def stageEvents (old new : Stage) : List Event :=
  match old, new with
  | .normal, .warning | .suspended, .warning => [.ow]
  | .normal, .alarm | .warning, .alarm | .suspended, .alarm => [.oa]
  | _, _ => []

/-- One evaluation, with the functions the same event reaches: stage, events, functions, buzzer, state word (R71, R73). -/
def State.evaluate (s : State) (fs : List LampFn) : State :=
  let new := s.evaluatedStage
  let s1 := { s with anu := { s.anu with stage := new } }.reevaluate fs
  let s2 := (s1.followDemands).sendEvents .anu (stageEvents s.anu.stage new)
  if s.anu.stage = new then s2 else s2.sendReport .anu [.stage new]

/-- COMPLETION_HANDOVER_ANU (R71): the copy is replaced, the stage evaluated, functions 1, 2, 9, 10 and 12
re-evaluated. -/
def execCompletionHandoverAnu (s : State) : Host.Outcome State Fault Refusal :=
  .next <| s.takeMsg pickCompletion fun c s =>
      { s with anu := { s.anu with copy := some c } }.evaluate
        [.overspeed, .speedUnknown, .dirFwd, .dirRev, .channelFault]

/-- NEW_PR (R72): R becomes 10 × PR and the stage is evaluated. -/
def execNewPr (s : State) : Host.Outcome State Fault Refusal :=
  .next <| s.takeMsg pickNewPr fun pr s =>
      { s with anu := { s.anu with reference := some (10 * pr) } }.evaluate [.overspeed]

/-! ## Function inputs of other blocks (R117) -/

/-- FUNCTION_INPUT_HANDOVER (R117): CODE_LOST or UNCODED. -/
def execFunctionInputHandover (s : State) : Host.Outcome State Fault Refusal :=
  .next <| s.takeMsg pickInput fun i s =>
      match i with
      | .codeLost b => { s with anu := { s.anu with codeLost := b } }.reevaluate [.codeLost]
      | .uncoded b => { s with anu := { s.anu with uncoded := b } }.reevaluate [.uncoded]

/-- STALE_NOTICE (R117): the stale count and STALE_ANY. -/
def execStaleNotice (s : State) : Host.Outcome State Fault Refusal :=
  .next <| s.takeMsg pickStale fun entered s =>
      let n := if entered then s.anu.staleCount + 1 else s.anu.staleCount - 1
      { s with anu := { s.anu with staleCount := n } }.reevaluate [.staleAny]

/-- LIST_HANDOVER_ANU (R117, R120): the list summary, functions 5, 6 and 7, and the buzzer demand. -/
def execListHandoverAnu (s : State) : Host.Outcome State Fault Refusal :=
  .next <| s.takeMsg pickListAnu fun x s =>
      ({ s with anu := { s.anu with summary := x } }.reevaluate [.faultA, .faultAny, .faultMore]).followDemands

/-! ## The flash phase (R118) -/

/-- FLASH_TIMER_EXPIRY (R118): the phase reverses, and with it the functions that follow it. -/
def execFlashTimerExpiry (s : State) : Host.Outcome State Fault Refusal :=
  .next <|
    match s.anu.flash with
    | some expiry =>
      let s1 := s.reach expiry
      { s1 with anu := { s1.anu with phase := !s1.anu.phase, flash := s1.startTimer Config.flashHalf } }.reevaluate
        [.overspeed, .restrictAck]
    | none => s

/-! ## Restriction acknowledgement (R94–R96, R127) -/

/-- RANK_DELIVERY (R94): the rank is recorded; a fall while RUNNING sets AD and makes the restriction pending. -/
def execRankDelivery (s : State) : Host.Outcome State Fault Refusal :=
  .next <| s.takeMsg pickRank fun r s =>
      let s1 := { s with anu := { s.anu with rank := some r } }
      match s.anu.rank with
      | some old =>
        if r < old ∧ s.csu.op = .running then
          let s2 := { s1 with anu := { s1.anu with pendingAck := true
                                                   ackTimer := s1.startTimer (1000 * s.csu.shadow.imgTack) } }
          let s3 := ((s2.reevaluate [.restrictAck]).followDemands).sendEvents .anu [.ad]
          if s.anu.pendingAck then s3 else s3.sendReport .anu [.restriction true]
        else s1
      | none => s1

/-- ACKNOWLEDGEMENT_TIMER_EXPIRY (R95): RAISE 011h; pending stays and the timer stops. -/
def execAcknowledgementTimerExpiry (s : State) : Host.Outcome State Fault Refusal :=
  .next <|
    match s.anu.ackTimer with
    | some expiry =>
      let s1 := s.reach expiry
      { s1 with anu := { s1.anu with ackTimer := none } }.sendFlu .anu [.raise restrictionMsg]
    | none => s

/-- Restriction acknowledgement ends (R96): the timer stops, CLEAR 011h, the flag, RESTRICT_ACK and REPEAT_CHIME.
Where nothing is pending nothing ends (log 14). -/
def State.endRestriction (s : State) : State :=
  if s.anu.pendingAck then
    let s1 := { s with anu := { s.anu with pendingAck := false, ackTimer := none } }
    (((s1.reevaluate [.restrictAck]).followDemands).sendFlu .anu [.clear restrictionMsg]).sendReport .anu
      [.restriction false]
  else s

/-! ## The lamp test (R128–R130) -/

/-- The lamp test starts (R128). -/
def State.startLampTest (s : State) : State :=
  let s1 := { s with anu := { s.anu with testActive := true, test := s.startTimer Config.lampTestTime } }
  ((s1.send [.lampTest true]).chime).sendReport .anu [.lampTest true]

/-- The lamp test ends by release or timeout (R129). -/
def State.endLampTest (s : State) : State :=
  ({ s with anu := { s.anu with testActive := false, test := none } }.send [.lampTest false]).sendReport .anu
    [.lampTest false]

/-- LAMP_TEST_TIMEOUT (R129). -/
def execLampTestTimeout (s : State) : Host.Outcome State Fault Refusal :=
  .next <|
    match s.anu.test with
    | some expiry => (s.reach expiry).endLampTest
    | none => s

/-! ## The push-buttons (R124–R126) -/

/-- The acknowledge arbiter gives a taken press to the restriction, to the fault list, or to neither (R126). -/
def State.arbitrate (s : State) : State :=
  if s.anu.pendingAck then s.endRestriction
  else if s.anu.summary.anyUnacked then s.sendFlu .anu [.acknowledge]
  else s

/-- An ACKB press detected while RUNNING: taken unless the lockout runs (R125). -/
def State.pressAck (s : State) : State :=
  match s.anu.lockout with
  | some _ => s
  | none => { s with anu := { s.anu with lockout := s.startTimer Config.lockoutTime } }.arbitrate

/-- What a press or a release does while RUNNING (R125, R128, R129). -/
def State.buttonChanged (s : State) (b : Button) (pressed : Bool) : State :=
  match b, pressed with
  | .ackb, true => s.pressAck
  | .ackb, false => s
  | .ltstb, true => if s.anu.testActive then s else s.startLampTest
  | .ltstb, false => if s.anu.testActive then s.endLampTest else s

/-- The state of a button. -/
def Anu.button (a : Anu) : Button → ButtonState
  | .ackb => a.ackb
  | .ltstb => a.ltstb

/-- Replace the state of a button. -/
def Anu.setButton (a : Anu) (b : Button) (x : ButtonState) : Anu :=
  match b with
  | .ackb => { a with ackb := x }
  | .ltstb => { a with ltstb := x }

/-- BUTTON_LINE_CHANGE (R124): a change of the line restarts the debounce timer; in RESET the filter is stopped and
the line alone changes. A level the line already has is no change (log 2). -/
def execButtonLineChange (b : Button) (high : Bool) (s : State) : Host.Outcome State Fault Refusal :=
  .next <|
    let x := s.anu.button b
    if x.line = high then s
    else
      let timer := if s.csu.op = .reset then x.timer else s.startTimer Config.buttonDebounce
      { s with anu := s.anu.setButton b { x with line := high, timer := timer } }

/-- BUTTON_DEBOUNCE_EXPIRY (R124): the debounced level takes the line's; a press or release acts only while RUNNING. -/
def execButtonDebounceExpiry (b : Button) (s : State) : Host.Outcome State Fault Refusal :=
  .next <|
    let x := s.anu.button b
    match x.timer with
    | none => s
    | some expiry =>
      let s1 := s.reach expiry
      let s2 := { s1 with anu := s1.anu.setButton b { x with pressed := x.line, timer := none } }
      if x.line = x.pressed then s2
      else if s.csu.op = .running then s2.buttonChanged b x.line
      else s2

/-- LOCKOUT_EXPIRY (R125). -/
def execLockoutExpiry (s : State) : Host.Outcome State Fault Refusal :=
  .next <|
    match s.anu.lockout with
    | some expiry =>
      let s1 := s.reach expiry
      { s1 with anu := { s1.anu with lockout := none } }
    | none => s

/-! ## Entries (R96, R118, R123, R130, R132) -/

/-- The ANU at a RUNNING entry (R132), with S, the entry's displayed rank and the list summary as last handed: all
twelve functions are evaluated and handed (R119), CLEAR 011h is sent (R96), the buzzer follows the demands (R123). -/
def State.anuEntry (s : State) (slots : Nat) : State :=
  let a := s.anu
  let fresh := { Anu.reset false false with
    copy := some s.asu.completionCopy, rank := s.tcu.displayed.map Aspect.rank
    flash := s.startTimer Config.flashHalf, summary := a.summary, slots := slots, ackb := a.ackb, ltstb := a.ltstb }
  let b := { fresh with fns := fresh.reevaluated lampFunctions }
  let s1 := { s with anu := b }
  let s2 := (s1.send (lampFunctions.map fun f => .lampFunction f (b.fnValue f))).followDemands
  s2.sendFlu .anu [.clear restrictionMsg]

/-- The ANU at a STANDBY entry: pending ends, the lamp test ends without repaint, the flash timer, the lockout and
the buzzer stop (R96, R118, R123, R125, R130). -/
def State.anuStandby (s : State) : State :=
  let s1 := s.endRestriction
  let s2 := { s1 with anu := { s1.anu.silenced with phase := true, flash := none, lockout := none
                                                    testActive := false, test := none } }
  let s3 := s2.reevaluate [.overspeed, .restrictAck]
  if s.anu.testActive then s3.sendReport .anu [.lampTest false] else s3

/-- The ANU at a return from STANDBY: the flash phase restarts on, and the highest demanded pattern starts from its
beginning (R118, R123). -/
def State.anuReturn (s : State) : State :=
  ({ s with anu := { s.anu with phase := true, flash := s.startTimer Config.flashHalf } }.reevaluate
    [.overspeed, .restrictAck]).followDemands

end Sys2Proof.Machine
end

