-- ==== Sys2Proof/Machine/Flu.lean ====
section
/-! DEFINITION. The fault list unit (chapter 6): computer messages, the ordered list, RAISE, CLEAR, acknowledge. -/

namespace Sys2Proof.Machine

/-! ## Arrival numbers and display order (R102, R103) -/

/-- The distance of an arrival number from the base (R102). -/
def arrivalDistance (base : Option (BitVec 16)) (n : BitVec 16) : Nat := (n - base.getD 0).toNat

/-- The display-order keys: severity, then acknowledgement, then distance (R103). -/
def Entry.standsBefore (base : Option (BitVec 16)) (e f : Entry) : Bool :=
  if e.severity.code ≠ f.severity.code then decide (e.severity.code < f.severity.code)
  else if e.unacked ≠ f.unacked then e.unacked
  else decide (arrivalDistance base e.arrival < arrivalDistance base f.arrival)

/-- Put an entry at the place its keys give it (R103). -/
def insertEntry (base : Option (BitVec 16)) (e : Entry) : List Entry → List Entry
  | [] => [e]
  | f :: fs => if e.standsBefore base f then e :: f :: fs else f :: insertEntry base e fs

/-- An entry has this unit and code: its identity (R101). -/
def Entry.is (e : Entry) (unit : BitVec 4) (code : BitVec 12) : Bool := e.unit == unit && e.code == code

/-- The entry of a unit and code. -/
def findEntry (unit : BitVec 4) (code : BitVec 12) (list : List Entry) : Option Entry :=
  list.find? (fun e => e.is unit code)

/-- The list without the entry of a unit and code. -/
def dropEntry (unit : BitVec 4) (code : BitVec 12) : List Entry → List Entry
  | [] => []
  | e :: es => if e.is unit code then es else e :: dropEntry unit code es

/-- The arrival number of the earliest-inserted entry of a list, distances taken from a base (R102). -/
def earliest (base : Option (BitVec 16)) : List Entry → Option (BitVec 16)
  | [] => none
  | e :: es =>
    match earliest base es with
    | none => some e.arrival
    | some n => if arrivalDistance base e.arrival < arrivalDistance base n then some e.arrival else some n

/-- The list with an entry's place recomputed after a change of its keys: a re-sort (R103). -/
def resort (base : Option (BitVec 16)) (e : Entry) (list : List Entry) : List Entry :=
  insertEntry base e (dropEntry e.unit e.code list)

/-- Remove an entry; where it defined the base, the base moves to the earliest-inserted one that remains (R102). -/
def Flu.remove (f : Flu) (unit : BitVec 4) (code : BitVec 12) : Flu :=
  let rest := dropEntry unit code f.list
  { f with list := rest, base := earliest f.base rest }

/-- How many live entries were inserted before one (R102). -/
def insertedBefore (base : Option (BitVec 16)) (list : List Entry) (e : Entry) : Nat :=
  list.countP fun f => decide (arrivalDistance base f.arrival < arrivalDistance base e.arrival)

/-- Give the live entries the numbers 0, 1, 2, … in the order of their insertion (R102). -/
def rebaseEntries (base : Option (BitVec 16)) (list : List Entry) : List Entry :=
  list.map fun e => { e with arrival := BitVec.ofNat 16 (insertedBefore base list e) }

/-- The rebase check, made before a new entry is given its number (R102). -/
def Flu.rebase (f : Flu) : Flu :=
  if f.list ≠ [] ∧ f.base = some f.counter then
    { f with list := rebaseEntries f.base f.list, counter := BitVec.ofNat 16 f.list.length, base := some 0 }
  else f

/-- Make and insert a new entry (R105). -/
def Flu.insertNew (f : Flu) (m : FaultMsg) : Flu :=
  let g := f.rebase
  let e : Entry := { unit := m.unit, code := m.code, severity := m.severity, text := m.text,
                     state := .activeUnacked, arrival := g.counter }
  let base := if g.list = [] then some g.counter else g.base
  { g with list := insertEntry base e g.list, base := base, counter := g.counter + 1 }

/-! ## The three requests (R104–R108) -/

/-- What a request does: the list after it, the events it sets, and whether it requests a CHIME (R110). -/
structure FluEffect where
  flu : Flu
  events : List Event
  chime : Bool
  deriving DecidableEq, Repr

/-- The state of an existing entry after a RAISE (R104). -/
def raisedState (old : EntryState) (oldSeverity newSeverity : Severity) : EntryState :=
  match old with
  | .activeUnacked => .activeUnacked
  | .clearedUnacked => .activeUnacked
  | .activeAcked => if newSeverity.code < oldSeverity.code then .activeUnacked else .activeAcked

/-- A RAISE of a unit and code the list holds (R104). -/
def Flu.raiseExisting (f : Flu) (m : FaultMsg) (old : Entry) : FluEffect :=
  let e := { old with severity := m.severity, text := m.text,
                      state := raisedState old.state old.severity m.severity }
  if e = old then { flu := f, events := [], chime := false }
  else
    { flu := { f with list := resort f.base e f.list }
      events := if e.severity = .a ∧ old.severity ≠ .a then [.fa] else []
      chime := decide (e.severity = .b ∧ old.severity = .c) }

/-- A new entry: event FA for severity A, a CHIME for severity B (R105). -/
def Flu.raiseNew (f : Flu) (m : FaultMsg) : FluEffect :=
  { flu := f.insertNew m
    events := if m.severity = .a then [.fa] else []
    chime := decide (m.severity = .b) }

/-- The entries a full list may give up: ACTIVE_ACKED, or of severity C (R106). -/
def Entry.eligible (e : Entry) : Bool := !e.unacked || e.severity == .c

/-- The last eligible entry in display order (R106). -/
def lastEligible (list : List Entry) : Option Entry := (list.filter Entry.eligible).getLast?

/-- A RAISE taken by the FLU (R104, R105, R106). -/
def Flu.raise (f : Flu) (m : FaultMsg) : FluEffect :=
  match findEntry m.unit m.code f.list with
  | some old => f.raiseExisting m old
  | none =>
    if f.list.length < Config.listDepth then f.raiseNew m
    else
      match lastEligible f.list with
      | some v =>
        if m.severity.code ≤ v.severity.code then (f.remove v.unit v.code).raiseNew m
        else { flu := f, events := [.fl], chime := false }
      | none => { flu := f, events := [.fl], chime := false }

/-- A CLEAR taken by the FLU, by unit and code (R107). -/
def Flu.clear (f : Flu) (m : FaultMsg) : Flu :=
  match findEntry m.unit m.code f.list with
  | none => f
  | some e =>
    match e.state with
    | .clearedUnacked => f
    | .activeAcked => f.remove e.unit e.code
    | .activeUnacked =>
      if e.severity = .c then f.remove e.unit e.code
      else { f with list := f.list.map fun x => if x.is e.unit e.code then { x with state := .clearedUnacked } else x }

/-- An acknowledge taken by the FLU, applied to the first unacknowledged entry (R108). -/
def Flu.acknowledge (f : Flu) : Flu :=
  match f.list.find? Entry.unacked with
  | none => f
  | some e =>
    match e.state with
    | .clearedUnacked => f.remove e.unit e.code
    | _ => { f with list := resort f.base { e with state := .activeAcked } f.list }

/-! ## List changes (R110) -/

/-- The list summary the ANU receives (R110, R117). -/
def summaryOf (list : List Entry) : ListSummary :=
  { anyAUnacked := list.any fun e => e.unacked && e.severity == .a
    anyUnacked := list.any Entry.unacked
    entries := list.length
    unacked := list.countP Entry.unacked }

/-- S, the number of FAULT_SLOT records (R2). -/
def slotCount (table : List Record) : Nat := table.countP fun r => r.fixed.kind == .faultSlot

/-- The hand-overs of a list change (R110); with no field table the FSU's has no effect and is not made. -/
def State.listHandovers (s : State) : List Msg :=
  (if s.csu.op.hasTable then [.listFsu (s.flu.list.take (slotCount s.fsu.table))] else [])
    ++ [.listAnu (summaryOf s.flu.list), .listRpu s.flu.list]

/-- Take the effect of a request: a list change is handed on, events are set and a CHIME requested; one requested
outside RUNNING is dropped (R110). -/
def State.applyFlu (s : State) (e : FluEffect) : State :=
  let s1 := { s with flu := e.flu }
  let s2 := if e.flu.list = s.flu.list then s1 else s1.send s1.listHandovers
  let s3 := s2.sendEvents .flu e.events
  if e.chime = true ∧ s.csu.op = .running then s3.send [.chime] else s3

/-- The FLU takes one request whole (R109). -/
def State.takeRequest (s : State) : FluRequest → State
  | .raise m => s.applyFlu (s.flu.raise m)
  | .clear m => s.applyFlu { flu := s.flu.clear m, events := [], chime := false }
  | .acknowledge => s.applyFlu { flu := s.flu.acknowledge, events := [], chime := false }

/-- RAISE: the FLU takes a sender's next request, where that is a RAISE (R104, R109). -/
def execRaise (sender : Block) (s : State) : Host.Outcome State Fault Refusal :=
  .next <|
    match takeFirst (pickFault sender) s.inFlight with
    | some (.raise m, rest) => { s with inFlight := rest }.takeRequest (.raise m)
    | _ => s

/-- CLEAR: the FLU takes a sender's next request, where that is a CLEAR (R107, R109). -/
def execClear (sender : Block) (s : State) : Host.Outcome State Fault Refusal :=
  .next <|
    match takeFirst (pickFault sender) s.inFlight with
    | some (.clear m, rest) => { s with inFlight := rest }.takeRequest (.clear m)
    | _ => s

/-- ACKNOWLEDGE: the FLU takes the ANU's next request, where that is an acknowledge (R108, R109). Outside RUNNING no
entry can be acknowledged (R112; log 13). -/
def execAcknowledge (s : State) : Host.Outcome State Fault Refusal :=
  .next <|
    match takeFirst (pickFault .anu) s.inFlight with
    | some (.acknowledge, rest) =>
      let s1 := { s with inFlight := rest }
      if s.csu.op = .running then s1.takeRequest .acknowledge else s1
    | _ => s

/-! ## Computer messages (R97–R99) -/

/-- The severity field of 1F81h (13.5). -/
def severityOf : Nat → Option Severity
  | 1 => some .a
  | 2 => some .b
  | 3 => some .c
  | _ => none

/-- What a window word does: the partial message after it, whether it is discarded (event FS), and the message it
completes. -/
structure WindowStep where
  partialMsg : PartialMsg
  discarded : Bool
  completed : Option FluRequest
  deriving DecidableEq, Repr

/-- 1F80h: unit and code (R98, R99). -/
def unitCodeStep (w : Word) : WindowStep :=
  if bits w 15 12 = 15 then { partialMsg := .none, discarded := true, completed := none }
  else { partialMsg := .one (BitVec.ofNat 4 (bits w 15 12)) (BitVec.ofNat 12 (bits w 11 0))
         discarded := false, completed := none }

/-- 1F81h: severity and action (R98, R99). -/
def severityStep (p : PartialMsg) (w : Word) : WindowStep :=
  match p with
  | .one u c =>
    match severityOf (bits w 1 0) with
    | some sev =>
      if bits w 15 3 = 0 then { partialMsg := .two u c sev (bitOf w 2), discarded := false, completed := none }
      else { partialMsg := .none, discarded := true, completed := none }
    | none => { partialMsg := .none, discarded := true, completed := none }
  | _ => { partialMsg := .none, discarded := true, completed := none }

/-- 1F82h: text index (R98, R99). -/
def textStep (p : PartialMsg) (w : Word) : WindowStep :=
  match p with
  | .two u c sev clears =>
    if bits w 9 0 < 960 ∧ bits w 15 10 = 0 then
      let m : FaultMsg := { unit := u, code := c, severity := sev, text := BitVec.ofNat 10 (bits w 9 0) }
      { partialMsg := .none, discarded := false, completed := some (if clears then .clear m else .raise m) }
    else { partialMsg := .none, discarded := true, completed := none }
  | _ => { partialMsg := .none, discarded := true, completed := none }

/-- The FLU takes a window word (R98, R99); a completed message is taken in the same step (R97). -/
def State.takeWindow (s : State) (step : WindowStep) : State :=
  let s1 := { s with flu := { s.flu with partialMsg := step.partialMsg } }
  match step.completed with
  | some r => s1.takeRequest r
  | none => if step.discarded then s1.sendEvents .flu [.fs] else s1

/-! ## Resets (R113, R114) -/

/-- What a warm reset keeps of the FLU: the entries of severity A, in order, and the counter (R114). -/
def Flu.warm (f : Flu) : Flu :=
  let kept := f.list.filter fun e => e.severity == .a
  { partialMsg := .none, list := kept, base := earliest f.base kept, counter := f.counter }

end Sys2Proof.Machine
end

