-- ==== Sys2Proof/Machine/Tcu.lean ====
section
/-! DEFINITION. The track code unit (chapter 5): aspects, sampling and confirmation, the code states and their
timers, the territory, and the displayed aspect. -/

namespace Sys2Proof.Machine

/-! ## Aspects (R76, R77) -/

/-- The aspect a table entry carries. -/
def AspectEntry.aspect (e : AspectEntry) : Aspect := { number := e.number, rank := e.rank, ceiling := e.ceiling }

/-- The aspect of an aspect number, where a valid entry carries it (R77). -/
def aspectOfNumber (table : List AspectEntry) (n : Nat) : Option Aspect :=
  (table.find? fun e => e.valid && e.number == n).map AspectEntry.aspect

/-- A written word as an aspect: the whole word equals a valid aspect number (R77). -/
def aspectOfWord (table : List AspectEntry) (w : Word) : Option Aspect := aspectOfNumber table w.toNat

/-- The loss aspect: the aspect of the one valid entry with the loss flag (R77). -/
def lossAspect (table : List AspectEntry) : Option Aspect :=
  (table.find? fun e => e.valid && e.lossFlag).map AspectEntry.aspect

/-- In CODED territory: the written aspect where its rank is below that of the received aspect, else the received
aspect (R89). -/
def codedDisplay (written received : Option Aspect) : Option Aspect :=
  match received with
  | none => none
  | some r =>
    match written with
    | none => some r
    | some w => some (if w.rank < r.rank then w else r)

/-- In UNCODED territory: the written aspect, else the loss aspect (R89). -/
def uncodedDisplay (written loss : Option Aspect) : Option Aspect :=
  match written with
  | some w => some w
  | none => loss

/-- The displayed aspect from territory, received aspect and written aspect (R89). -/
def deriveDisplayed (uncoded : Bool) (received written loss : Option Aspect) : Option Aspect :=
  if uncoded then uncodedDisplay written loss else codedDisplay written received

/-- The written aspect as the TCU counts it: absent while none is written, while the record is STALE, and where the
word is not a valid aspect (R89). -/
def Tcu.writtenAspect (t : Tcu) : Option Aspect :=
  if t.aspectStale then none else t.written.bind (aspectOfWord t.aspects)

/-- The displayed aspect of the TCU's own state (R89). -/
def Tcu.derive (t : Tcu) : Option Aspect :=
  deriveDisplayed t.uncoded t.received t.writtenAspect (lossAspect t.aspects)

/-- The ceiling C of an aspect: the lower of its table ceiling and Vmax (R59, R77). -/
def ceilingOf (a : Aspect) (vmax : Nat) : Nat := min a.ceiling vmax

/-! ## What one operation of the TCU hands on (R90) -/

/-- The code state is in HOLDING or LOST (R84). -/
def CodeState.isLost : CodeState → Bool
  | .holding | .lost => true
  | .acquiring | .confirmed => false

/-- The aspect number of an aspect that may be absent; an aspect changes when its number changes (R80, R90). -/
def numberOf (a : Option Aspect) : Option Nat := a.map (·.number)

/-- The displayed aspect as report word 1F06h shows it, with C in place of the table ceiling. -/
def shownAspect (vmax : Nat) (a : Option Aspect) : Option Aspect :=
  a.map fun x => { x with ceiling := ceilingOf x vmax }

/-- The deliveries of a displayed aspect to the FSU and the ANU (R90). -/
def deliveries (vmax : Nat) : Option Aspect → List Msg
  | some a => [.delivery a.number (ceilingOf a vmax), .rank a.rank]
  | none => []

/-- The displayed aspect is delivered: its number changes, or the ASPECT record shows another (`again`; R90, R91). -/
def delivers (again : Bool) (t u : Tcu) : Bool := again || decide (numberOf t.displayed ≠ numberOf u.displayed)

/-- The report items of an operation that takes the TCU from `t` to `u` (R90, R155). -/
def tcuItems (vmax : Nat) (t u : Tcu) (again : Bool) : List ReportItem :=
  (if t.lastSampled = u.lastSampled ∧ t.confirmed = u.confirmed ∧ numberOf t.received = numberOf u.received then []
   else [.codes u.lastSampled u.confirmed (numberOf u.received)])
    ++ (if t.state = u.state then [] else [.codeState u.state])
    ++ (if t.uncoded = u.uncoded then [] else [.territory u.uncoded])
    ++ (if delivers again t u then [.displayed (shownAspect vmax u.displayed)] else [])

/-- The function inputs of an operation that takes the TCU from `t` to `u` (R84, R90). -/
def tcuInputs (t u : Tcu) : List Msg :=
  (if t.state.isLost = u.state.isLost then [] else [.functionInput (.codeLost u.state.isLost)])
    ++ (if t.uncoded = u.uncoded then [] else [.functionInput (.uncoded u.uncoded)])

/-- End one operation of the TCU: the new state is complete before anything is handed on (R90). `again` delivers a
displayed aspect whose number has not changed. -/
def State.tcuCommit (s : State) (u : Tcu) (flu : List FluRequest) (again : Bool := false) : State :=
  let vmax := s.csu.shadow.imgVmax
  let s1 := ({ s with tcu := u }.sendFlu .tcu flu).send (tcuInputs s.tcu u)
  let s2 := if delivers again s.tcu u then s1.send (deliveries vmax u.displayed) else s1
  s2.sendReport .tcu (tcuItems vmax s.tcu u again)

/-- Recompute the displayed aspect (R89). -/
def Tcu.recompute (t : Tcu) : Tcu := { t with displayed := t.derive }

/-- Give the TCU a received aspect; it changes when its aspect number changes (R80). -/
def Tcu.receive (t : Tcu) (a : Option Aspect) : Tcu :=
  if numberOf a = numberOf t.received then t else { t with received := a }

/-- Recompute the displayed aspect where the received aspect has changed (R80, R82, R83). -/
def Tcu.recomputeFrom (old u : Tcu) : Tcu := if old.received = u.received then u else u.recompute

/-! ## Confirmation (R79, R80) -/

/-- The candidate after a sample, and whether it reaches K (R79). -/
def applySample (k : Nat) (candidate : Option (BitVec 4 × Nat)) (code : BitVec 4) :
    (BitVec 4 × Nat) × Bool :=
  match candidate with
  | none => ((code, 1), false)
  | some (x, n) =>
    if x ≠ code then ((code, 1), false)
    else if k ≤ n then ((x, n), false)
    else ((x, n + 1), n + 1 == k)

/-- The aspect table entry of a code, where it is valid (R76). -/
def validEntry (table : List AspectEntry) (code : BitVec 4) : Option AspectEntry :=
  match table[code.toNat]? with
  | some e => if e.valid then some e else none
  | none => none

/-- A confirmation of a code (R80), with its messages (R84). -/
def Tcu.confirm (t : Tcu) (code : BitVec 4) : Tcu × List FluRequest :=
  if t.state = .confirmed ∧ t.confirmed = some code then (t, [])
  else
    let u := { t with confirmed := some code }
    match validEntry t.aspects code with
    | some e =>
      ({ u with state := .confirmed, hold := none }.receive (some e.aspect),
       if t.state = .lost then [.clear codeLostMsg] else [])
    | none =>
      if t.state = .lost then (u, [])
      else
        ({ u with state := .lost, hold := none }.receive (lossAspect t.aspects),
         if t.uncoded then [] else [.raise codeLostMsg])

/-- A strobe is taken in RUNNING and STANDBY, the first after RUNNING entry always, a later one when 40 ms have
passed since the last taken one (R78). -/
def State.takesStrobe (s : State) : Bool :=
  s.csu.op.hasTable &&
    match s.tcu.lastStrobe with
    | none => true
    | some t => decide (t + Config.strobeSpacing ≤ s.now)

/-- A taken strobe (R78): sample, restart the loss timer, apply the code, confirm at K, hand on. -/
def State.strobe (s : State) (code : BitVec 4) : State :=
  let r := applySample s.csu.shadow.imgK s.tcu.candidate code
  let t := { s.tcu with lastStrobe := some s.now, lastSampled := code, candidate := some r.1
                        loss := s.startTimer s.csu.shadow.imgTloss }
  if r.2 then
    let c := t.confirm code
    s.tcuCommit (Tcu.recomputeFrom s.tcu c.1) c.2
  else s.tcuCommit t []

/-- STROBE (R78): `elapsed` ms have passed since the command before. -/
def execStrobe (code : BitVec 4) (elapsed : Nat) (s : State) : Host.Outcome State Fault Refusal :=
  .next <|
    let s1 := { s with now := s.now + elapsed }
    if s1.takesStrobe then s1.strobe code else s1

/-! ## Loss and hold timers (R82, R83) -/

/-- To LOST: the received aspect becomes the loss aspect, and 010h is raised in CODED territory (R84). -/
def Tcu.toLost (t : Tcu) : Tcu × List FluRequest :=
  ({ t with state := .lost, hold := none }.receive (lossAspect t.aspects),
   if t.uncoded then [] else [.raise codeLostMsg])

/-- Expiry of the loss timer (R82). -/
def State.loseStrobes (s : State) : State :=
  let t := { s.tcu with candidate := none, loss := none }
  match t.state with
  | .confirmed =>
    if 0 < s.csu.shadow.imgThold then
      s.tcuCommit { t with state := .holding, hold := s.startTimer s.csu.shadow.imgThold } []
    else
      let c := t.toLost
      s.tcuCommit (Tcu.recomputeFrom s.tcu c.1) c.2
  | .acquiring =>
    let c := t.toLost
    s.tcuCommit (Tcu.recomputeFrom s.tcu c.1) c.2
  | .holding | .lost => s.tcuCommit t []

/-- LOSS_TIMER_EXPIRY (R82). -/
def execLossTimerExpiry (s : State) : Host.Outcome State Fault Refusal :=
  .next <|
    match s.tcu.loss with
    | some expiry => (s.reach expiry).loseStrobes
    | none => s

/-- Expiry of the hold timer (R83). -/
def State.endHold (s : State) : State :=
  let c := s.tcu.toLost
  s.tcuCommit (Tcu.recomputeFrom s.tcu c.1) c.2

/-- HOLD_TIMER_EXPIRY (R83); the timer runs in HOLDING only. -/
def execHoldTimerExpiry (s : State) : Host.Outcome State Fault Refusal :=
  .next <|
    match s.tcu.hold with
    | some expiry => (s.reach expiry).endHold
    | none => s

/-! ## Territory (R86, R87) -/

/-- The territory a request word names (13.7); a word that names neither is malformed. -/
def territoryRequest (w : Word) : Option Bool :=
  if w = 0 then some false else if w = 1 then some true else none

/-- A standing train: the selected speed is known and 0 to 4 tenths (R86). -/
def Asu.standing (u : Asu) : Bool :=
  match u.selected with
  | some v => decide (v ≤ Config.standstill)
  | none => false

/-- The verdict on a territory request (R86). -/
def State.acceptsTerritory (s : State) (uncoded : Bool) : Bool :=
  !uncoded || s.tcu.uncoded || s.asu.standing || s.tcu.state == .lost

/-- An accepted change of territory (R87). -/
def State.changeTerritory (s : State) (uncoded : Bool) : State :=
  let t := s.tcu
  let clears : List FluRequest := if t.state = .lost then [.clear codeLostMsg] else []
  if uncoded then s.tcuCommit { t with uncoded := true }.recompute clears
  else
    let u := { t with uncoded := false, state := .acquiring, candidate := none, confirmed := none
                      received := lossAspect t.aspects, hold := none
                      loss := s.startTimer s.csu.shadow.imgTloss }
    s.tcuCommit u.recompute clears

/-! ## The written aspect (R89, R91) -/

/-- Take an input of the ASPECT record and recompute the displayed aspect (R89). Where an operation of the TCU taken since
the FSU judged has given another aspect than the one the record shows, it is delivered and rechecks the record, changed or
not (R91–R93; log 25). -/
def State.tcuTake (s : State) (t : Tcu) (shown : Option Nat) : State :=
  s.tcuCommit t.recompute [] (decide (numberOf t.derive ≠ shown))

/-- WRITTEN_ASPECT_TAKEN (R91): the TCU takes a new written aspect, and the leaving of STALE with it. -/
def execWrittenAspectTaken (s : State) : Host.Outcome State Fault Refusal :=
  .next <|
    match takeFirst pickAspectInput s.inFlight with
    | some (.written w judged, rest) =>
      { s with inFlight := rest }.tcuTake { s.tcu with written := some w, aspectStale := false } judged
    | _ => s

/-- ASPECT_STALE_NOTICE (R89): the TCU takes notice of the ASPECT record entering or leaving STALE. -/
def execAspectStaleNotice (s : State) : Host.Outcome State Fault Refusal :=
  .next <|
    match takeFirst pickAspectInput s.inFlight with
    | some (.stale b shown, rest) => { s with inFlight := rest }.tcuTake { s.tcu with aspectStale := b } shown
    | _ => s

/-! ## Acceptance and RUNNING entry (R76, R81) -/

/-- The TCU at a RUNNING entry (R79–R81, R86, R89): ACQUIRING on the loss aspect, CODED, the loss timer started; the
last sampled code keeps its value (R78). The entry's displayed aspect is delivered whether or not it changed (R90). -/
def State.tcuEntry (s : State) : State :=
  let loss := lossAspect s.tcu.aspects
  let vmax := s.csu.shadow.imgVmax
  let t := { Tcu.reset with aspects := s.tcu.aspects, lastSampled := s.tcu.lastSampled, received := loss
                            displayed := loss, loss := s.startTimer s.csu.shadow.imgTloss }
  ({ s with tcu := t }.send (deliveries vmax loss)).sendReport .tcu
    [.codes t.lastSampled none (numberOf loss), .codeState .acquiring, .territory false,
     .displayed (shownAspect vmax loss)]

end Sys2Proof.Machine
end

