-- ==== Sys2Proof/Machine/Fsu.lean ====
section
/-! DEFINITION. The field supervision unit (chapters 1, 2, 4, 8): shown values, the judgement of field writes,
rechecks, the ceiling cascade, and refresh supervision. -/

namespace Sys2Proof.Machine

/-! ## Shown values by kind and state -/

/-- A speed or an aspect number as a word. -/
def wordOf (n : Nat) : Word := BitVec.ofNat 16 n

/-- The blank value; a FAULT_SLOT record shows 0000h where the other kinds show theirs (R3). -/
def FieldStatic.blankWord (f : FieldStatic) : Word := if f.kind = .faultSlot then 0 else f.blank

/-- The speed copy; outside RUNNING and STANDBY none exists and nothing reads it (R58). -/
def Fsu.speedCopy (f : Fsu) : SpeedCopy := f.speed.getD { selected := some 0, d := some 0 }

/-- The ceiling C (R59). -/
def Fsu.c (f : Fsu) : Nat := f.ceiling.getD 0

/-- The permitted reference PR (R65). -/
def Fsu.reference (f : Fsu) : Nat := f.pr.getD 0

/-- An ACTUAL record that is UNSET or STALE follows d, or shows its blank value while the speed is UNKNOWN (R63). -/
def actualFollows (sp : SpeedCopy) (r : Record) : Word :=
  match sp.selected, sp.d with
  | some _, some d => wordOf d
  | _, _ => r.fixed.blank

/-- The shown value of a PERMITTED record (R66). -/
def permittedShown (c : Nat) (r : Record) : Word :=
  match r.state, r.written with
  | .unset, _ => r.fixed.blank
  | .stale, _ => wordOf c
  | _, some w => wordOf (min w.toNat c)
  | _, none => wordOf c

/-- The shown value of a TARGET record (R67). -/
def targetShown (pr : Nat) (r : Record) : Word :=
  match r.state, r.written with
  | .unset, _ => r.fixed.blank
  | .stale, some w => if r.fixed.action = .hold then wordOf (min w.toNat pr) else r.fixed.blank
  | _, some w => wordOf (min w.toNat pr)
  | _, none => r.fixed.blank

/-- The base word of a LAMPS record (R13). -/
def lampsBase (r : Record) : Word :=
  match r.state, r.written with
  | .unset, _ => r.fixed.blank
  | .stale, some w => if r.fixed.action = .hold then w else r.fixed.blank
  | _, some w => w
  | _, none => r.fixed.blank

/-- The shown value of a LAMPS record: FFFFh during a lamp test, else the merged base word (R13). -/
def lampsShown (lampTest : Bool) (fns : LampValues) (r : Record) : Word :=
  if lampTest then 0xFFFF else mergeLamps fns r.fixed.lamps (lampsBase r)

/-- The shown value of a WATCHED record; none where the part leaves the word as memory holds it (R6, R9, R138). -/
def watchedShown (r : Record) : Option Word :=
  match r.state with
  | .unset => none
  | .live | .corrected => r.written
  | .stale => if r.fixed.action = .hold then r.written else some r.fixed.blank

/-- The rank of the FAULT_SLOT record at an index (R15). -/
def slotRank (table : List Record) (i : Nat) : Nat := slotCount (table.take i)

/-! ## Rechecks (R8) -/

/-- The state a recheck ends with: LIVE where the shown value equals the written value, CORRECTED where it differs;
UNSET and STALE stay (R8). -/
def recheckState (r : Record) (shown : Word) : FieldState :=
  match r.state with
  | .live | .corrected => if r.written = some shown then .live else .corrected
  | st => st

/-- Recheck a record to a value; in STANDBY the value is not shown, and the state alone follows (R10, R68). -/
def Record.recheck (r : Record) (running : Bool) (v : Word) : Record :=
  { r with state := recheckState r v, shown := if running then some v else r.shown }

/-! ## The permitted reference and the ceiling cascade (R65–R68) -/

/-- PR from the PERMITTED record and C (R65). -/
def derivePr (table : List Record) (c : Nat) : Nat :=
  match table.find? fun r => r.fixed.kind == .permitted with
  | none => c
  | some r =>
    match r.state, r.written with
    | .live, some w | .corrected, some w => min w.toNat c
    | _, _ => c

/-- Re-derive a TARGET record against PR (R67, R68). -/
def retarget (running : Bool) (pr : Nat) (r : Record) : Record :=
  if r.fixed.kind = .target then r.recheck running (targetShown pr r) else r

/-- Re-derive a PERMITTED record against C (R66, R68). -/
def repermit (running : Bool) (c : Nat) (r : Record) : Record :=
  if r.fixed.kind = .permitted then r.recheck running (permittedShown c r) else r

/-- Re-derive PR, and TARGET where it changed (R65, R67). -/
def Fsu.withPr (f : Fsu) (running : Bool) : Fsu :=
  let pr := derivePr f.table f.c
  if f.pr = some pr then f
  else { f with pr := some pr, table := f.table.map (retarget running pr) }

/-- A ceiling change: C, PERMITTED, PR, TARGET (R68). -/
def Fsu.ceilingChange (f : Fsu) (running : Bool) (c : Nat) : Fsu :=
  { f with ceiling := some c, table := f.table.map (repermit running c) }.withPr running

/-! ## Requests to the memory write queue (R16) -/

/-- The own write of a record's shown value, unless none is derived. -/
def ownWriteOf (i : Nat) (r : Record) : Option OwnWrite :=
  r.shown.map fun v => { addr := r.fixed.addr, value := v, origin := .field i }

/-- The shown value of record i changes from `old`, and differs from what the part last caused memory to hold (R16). -/
def State.needsWrite (s : State) (old : List Record) (i : Nat) (r : Record) : Bool :=
  decide ((old[i]?).bind Record.shown ≠ r.shown) && decide (s.lastCaused r.fixed.addr ≠ r.shown)

/-- The requests of one operation, by increasing index (R16, R145). -/
def State.fieldRequests (s : State) (old new : List Record) : List OwnWrite :=
  new.zipIdx.filterMap fun x => if s.needsWrite old x.2 x.1 then ownWriteOf x.2 x.1 else none

/-- The requests of every shown value, by increasing index, whether or not it differs (R6, R10). -/
def forcedRequests (table : List Record) : List OwnWrite := table.zipIdx.filterMap fun x => ownWriteOf x.2 x.1

/-- A request is for the field of this kind. -/
def requestIs (table : List Record) (k : Kind) (w : OwnWrite) : Bool :=
  match w.origin with
  | .field i => ((table[i]?).map (·.fixed.kind)) == some k
  | .report _ => false

/-- Put a request just after the first one that `p` picks. -/
def insertAfter (p : OwnWrite → Bool) (w : OwnWrite) : List OwnWrite → List OwnWrite
  | [] => [w]
  | x :: xs => if p x then x :: w :: xs else x :: insertAfter p w xs

/-- PERMITTED before TARGET (R68, log 22). -/
def permittedFirst (table : List Record) : List OwnWrite → List OwnWrite
  | [] => []
  | w :: ws =>
    if requestIs table .target w && ws.any (requestIs table .permitted) then
      insertAfter (requestIs table .permitted) w ws
    else w :: permittedFirst table ws

/-- End an operation of the FSU: hand the changed shown values to the MWQ and a changed PR to the ANU (R16, R65). -/
def State.fsuCommit (s : State) (f : Fsu) : State :=
  let s1 := { s with fsu := f }.request .fsu (permittedFirst f.table (s.fieldRequests s.fsu.table f.table))
  if f.pr = s.fsu.pr then s1 else s1.send [.newPr f.reference]

/-! ## The judgement of a field write (R24) -/

/-- The outcome of a field write. -/
structure Judgement where
  /-- what memory receives; none is suppressed -/
  word : Option Word
  /-- the write is a correction (R7, R11) -/
  corrected : Bool
  deriving DecidableEq, Repr

/-- Passed. -/
def passed (w : Word) : Judgement := { word := some w, corrected := false }

/-- Corrected to a word. -/
def correctedTo (w : Word) : Judgement := { word := some w, corrected := true }

/-- A km/h value lies within the tolerance of a selected speed in tenths (R60). -/
def withinTolerance (tolerance selected : Nat) (w : Word) : Bool :=
  decide (absDiff (10 * w.toNat) selected ≤ tolerance)

/-- R60 passes a word against a known selected speed. -/
def actualPasses (tolerance selected : Nat) (w : Word) : Bool :=
  decide (w.toNat ≤ Config.maxShownSpeed) && withinTolerance tolerance selected w

/-- ACTUAL (R60, R61). -/
def judgeActual (sp : SpeedCopy) (tolerance : Nat) (w : Word) : Judgement :=
  match sp.selected with
  | none => passed w
  | some v => if actualPasses tolerance v w then passed w else correctedTo (wordOf (sp.d.getD 0))

/-- PERMITTED against C (R64) and TARGET against PR (R67). -/
def judgeLimit (limit : Nat) (w : Word) : Judgement :=
  if w.toNat ≤ limit then passed w else correctedTo (wordOf limit)

/-- The displayed aspect that would result with `w` as the written aspect and the record LIVE (R91). -/
def wouldDisplay (t : Tcu) (w : Word) : Option Aspect :=
  deriveDisplayed t.uncoded t.received (aspectOfWord t.aspects w) (lossAspect t.aspects)

/-- ASPECT (R91). -/
def judgeAspect (t : Tcu) (w : Word) : Judgement :=
  match wouldDisplay t w with
  | some a => if wordOf a.number = w then passed w else correctedTo (wordOf a.number)
  | none => passed w

/-- LAMPS (R27, R28): passed or merged, FFFFh during a lamp test; never a correction. -/
def judgeLamps (lampTest : Bool) (fns : LampValues) (lamps : List LampPair) (w : Word) : Judgement :=
  passed (if lampTest then 0xFFFF else mergeLamps fns lamps w)

/-- The judgement of a field write by the rule of its kind (R24). -/
def State.judge (s : State) (r : Record) (w : Word) : Judgement :=
  match r.fixed.kind with
  | .actual => judgeActual s.fsu.speedCopy r.fixed.tolerance w
  | .permitted => judgeLimit s.fsu.c w
  | .target => judgeLimit s.fsu.reference w
  | .aspect => judgeAspect s.tcu w
  | .lamps => judgeLamps s.fsu.lampTest s.fsu.fns r.fixed.lamps w
  | .watched => passed w
  | .faultSlot => { word := none, corrected := false }

/-! ## The correction count (R11, R12) -/

/-- The count after a write. -/
def countAfter (count : Nat) (corrected : Bool) : Nat :=
  if corrected then min Config.countLimit (count + 1) else 0

/-- The message of a write to record i that finds this count (R11, R12). -/
def countRequests (i count : Nat) (corrected : Bool) : List FluRequest :=
  if corrected then (if count + 1 = Config.countLimit then [.raise (correctedMsg i)] else [])
  else (if count = Config.countLimit then [.clear (correctedMsg i)] else [])

/-- Event PC, when a corrected write takes the count from 7 to 8 (R11). -/
def countEvents (count : Nat) (corrected : Bool) : List Event :=
  if corrected ∧ count + 1 = Config.countLimit then [.pc] else []

/-! ## STALE and the silent condition (R135–R142) -/

/-- The stale set as bits from bit 0 up. -/
def staleBits : List Record → Nat
  | [] => 0
  | r :: rs => (if r.state = .stale then 1 else 0) + 2 * staleBits rs

/-- The stale set as the stale bitmap: bit i is record i (R137). -/
def staleBitmap (table : List Record) : BitVec 48 := BitVec.ofNat 48 (staleBits table)

/-- The silent condition: some record is supervised, and every supervised record is STALE (R141). -/
def silentHolds (table : List Record) : Bool :=
  table.any (fun r => decide (0 < r.fixed.period))
    && table.all (fun r => decide (r.fixed.period = 0) || r.state == .stale)

/-- Evaluate the silent condition (R141). -/
def State.evaluateSilent (s : State) : State :=
  let holds := silentHolds s.fsu.table
  { s with fsu := { s.fsu with silent := holds } }.sendFlu .fsu (onChange s.fsu.silent holds silentMsg)

/-- A record has entered or left STALE: the stale set, the message of 100h+i, the notice to the ANU, and the silent
condition (R135, R140). -/
def State.staleChanged (s : State) (i : Nat) (kind : Kind) (entered : Bool) : State :=
  let msg := if entered then FluRequest.raise (staleMsg kind i) else .clear (staleMsg kind i)
  (((s.sendReport .fsu [.staleSet (staleBitmap s.fsu.table)]).sendFlu .fsu [msg]).send
    [.staleNotice entered]).evaluateSilent

/-! ## The field write as a whole (R24, R25) -/

/-- The record after a write, judged so (R7, R24 step 4; in STANDBY R25). -/
def State.writtenRecord (s : State) (r : Record) (w : Word) (j : Judgement) : Record :=
  let running := s.csu.op = .running
  { r with state := if j.corrected then .corrected else .live
           written := some w
           shown := if running then j.word else r.shown
           age := if running ∧ 0 < r.fixed.period then s.startTimer r.fixed.period else r.age
           count := countAfter r.count j.corrected }

/-- What memory receives of a judged field write: the word of the judgement in RUNNING (R21, R22), nothing in STANDBY
(R25). -/
def State.receiveField (s : State) (a : Addr) (j : Judgement) : State :=
  if s.csu.op = .running then
    match j.word with
    | some x => s.receive a x
    | none => s
  else s

/-- A SUPERVISED write to record i, in RUNNING (R24) or STANDBY (R25). -/
def State.fieldWrite (s : State) (i : Nat) (w : Word) : State :=
  match s.fsu.table[i]? with
  | none => s
  | some r =>
    if r.fixed.kind = .faultSlot then s
    else
      let running := decide (s.csu.op = .running)
      let j := s.judge r w
      let s1 := s.receiveField r.fixed.addr j
      let f := { s1.fsu with table := s1.fsu.table.set i (s.writtenRecord r w j) }
      let s2 := s1.fsuCommit (if r.fixed.kind = .permitted then f.withPr running else f)
      let s3 := (s2.sendFlu .fsu (countRequests i r.count j.corrected)).sendEvents .fsu
        (countEvents r.count j.corrected)
      let s4 := if r.state = .stale then s3.staleChanged i r.fixed.kind false else s3
      if r.fixed.kind = .aspect then s4.send [.writtenAspect w (numberOf (wouldDisplay s.tcu w))] else s4

/-! ## Hand-overs the FSU takes -/

/-- Recheck an ACTUAL record at a hand-over (R62, R63). -/
def recheckActual (sp : SpeedCopy) (r : Record) : Record :=
  if r.fixed.kind = .actual then
    match r.state with
    | .unset | .stale => { r with shown := some (actualFollows sp r) }
    | .live | .corrected =>
      match sp.selected, r.shown with
      | some v, some x =>
        if withinTolerance r.fixed.tolerance v x then r.recheck true x
        else r.recheck true (wordOf (sp.d.getD 0))
      | _, _ => r
  else r

/-- SPEED_HANDOVER (R58, R62, R63): the copy is replaced; in RUNNING the ACTUAL record is rechecked. -/
def execSpeedHandover (s : State) : Host.Outcome State Fault Refusal :=
  .next <| s.takeMsg pickSpeed fun c s =>
      if s.csu.op = .running then
        s.fsuCommit { s.fsu with speed := some c, table := s.fsu.table.map (recheckActual c) }
      else { s with fsu := { s.fsu with speed := some c } }

/-- Recheck an ASPECT record to a displayed aspect number (R92). -/
def recheckAspect (number : Nat) (r : Record) : Record :=
  if r.fixed.kind = .aspect then r.recheck true (wordOf number) else r

/-- ASPECT_DELIVERY (R92, R68): in RUNNING the ASPECT record is rechecked; where C differs, a ceiling change. -/
def execAspectDelivery (s : State) : Host.Outcome State Fault Refusal :=
  .next <| s.takeMsg pickDelivery fun x s =>
      let running := decide (s.csu.op = .running)
      let f := if running then { s.fsu with table := s.fsu.table.map (recheckAspect x.1) } else s.fsu
      s.fsuCommit (if f.ceiling = some x.2 then f else f.ceilingChange running x.2)

/-- Show the slot words of a list in the FAULT_SLOT records (R15). -/
def showSlots (entries : List Entry) (table : List Record) : List Record :=
  table.mapIdx fun i r =>
    if r.fixed.kind = .faultSlot then { r with shown := some (slotWordAt entries (slotRank table i)) } else r

/-- LIST_HANDOVER_FSU (R15): in STANDBY the slots stay at 0000h. -/
def execListHandoverFsu (s : State) : Host.Outcome State Fault Refusal :=
  .next <| s.takeMsg pickListFsu fun es s =>
      if s.csu.op = .running then s.fsuCommit { s.fsu with table := showSlots es s.fsu.table } else s

/-- Re-derive a LAMPS record (R13); its state, written value, timer and count stay (R14). -/
def relamp (lampTest : Bool) (fns : LampValues) (r : Record) : Record :=
  if r.fixed.kind = .lamps then { r with shown := some (lampsShown lampTest fns r) } else r

/-- A record has an assignment to a function. -/
def Record.carries (r : Record) (f : LampFn) : Bool := r.fixed.lamps.any (·.fn == f)

/-- LAMP_FUNCTION_CHANGE (R14): the copy takes the value; in RUNNING every LAMPS record assigned to it is re-derived. -/
def execLampFunctionChange (s : State) : Host.Outcome State Fault Refusal :=
  .next <| s.takeMsg pickLampFunction fun x s =>
      let fns := s.fsu.fns.set x.1 x.2
      let table := if s.csu.op = .running then
          s.fsu.table.map fun r => if r.carries x.1 then relamp s.fsu.lampTest fns r else r
        else s.fsu.table
      s.fsuCommit { s.fsu with fns := fns, table := table }

/-- The FSU takes a lamp test start or end and re-derives every LAMPS record (R13, R129). -/
def State.setLampTest (s : State) (active : Bool) : State :=
  let table := if s.csu.op = .running then s.fsu.table.map (relamp active s.fsu.fns) else s.fsu.table
  s.fsuCommit { s.fsu with lampTest := active, table := table }

/-- LAMP_TEST_BEGUN (R13, R128): the next lamp test notice, where it is a start. -/
def execLampTestBegun (s : State) : Host.Outcome State Fault Refusal :=
  .next <|
    match takeFirst pickLampTest s.inFlight with
    | some (true, rest) => { s with inFlight := rest }.setLampTest true
    | _ => s

/-- LAMP_TEST_ENDED (R129): the next lamp test notice, where it is an end. -/
def execLampTestEnded (s : State) : Host.Outcome State Fault Refusal :=
  .next <|
    match takeFirst pickLampTest s.inFlight with
    | some (false, rest) => { s with inFlight := rest }.setLampTest false
    | _ => s

/-! ## Age timers (R133–R135) -/

/-- The number of the aspect displayed once the ASPECT record is STALE (R89). -/
def State.staleDisplay (s : State) : Option Nat :=
  numberOf (deriveDisplayed s.tcu.uncoded s.tcu.received none (lossAspect s.tcu.aspects))

/-- The shown value a record takes as it goes STALE; `r` is already STALE (R138). -/
def State.staleShown (s : State) (r : Record) : Option Word :=
  match r.fixed.kind with
  | .actual => some (actualFollows s.fsu.speedCopy r)
  | .permitted => some (permittedShown s.fsu.c r)
  | .target => some (targetShown s.fsu.reference r)
  | .aspect => s.staleDisplay.map wordOf
  | .lamps => some (lampsShown s.fsu.lampTest s.fsu.fns r)
  | .watched => watchedShown r
  | .faultSlot => r.shown

/-- Record i goes STALE (R135). -/
def State.goStale (s : State) (i : Nat) (r : Record) : State :=
  let r1 := { r with state := .stale, age := none }
  let r2 := { r1 with shown := s.staleShown r1 }
  let f := { s.fsu with table := s.fsu.table.set i r2 }
  let s1 := s.fsuCommit (if r.fixed.kind = .permitted then f.withPr true else f)
  let s2 := (s1.sendEvents .fsu [.st]).staleChanged i r.fixed.kind true
  if r.fixed.kind = .aspect then s2.send [.aspectStale true s.staleDisplay] else s2

/-- AGE_TIMER_EXPIRY (R135): taken in RUNNING, the only state where the timers run; an expiry of a record already
STALE stops its timer and does nothing else. -/
def execAgeTimerExpiry (i : Nat) (s : State) : Host.Outcome State Fault Refusal :=
  .next <|
    match s.csu.op, s.fsu.table[i]? with
    | .running, some r =>
      match r.age with
      | none => s
      | some expiry =>
        let s1 := s.reach expiry
        if r.state = .stale then
          { s1 with fsu := { s1.fsu with table := s1.fsu.table.set i { r with age := none } } }
        else s1.goStale i r
    | _, _ => s

/-! ## RUNNING entry, STANDBY entry and return (R1, R6, R10) -/

/-- The shown value of a record at a RUNNING entry or a return from STANDBY (R6, R10, R138). -/
def State.freshShown (s : State) (f : Fsu) (table : List Record) (i : Nat) (r : Record) : Option Word :=
  match r.fixed.kind with
  | .actual =>
    match r.state, r.written, f.speedCopy.selected with
    | .live, some w, some v | .corrected, some w, some v =>
      some (if actualPasses r.fixed.tolerance v w then w else wordOf (f.speedCopy.d.getD 0))
    | .live, some w, none | .corrected, some w, none => some w
    | _, _, _ => some (actualFollows f.speedCopy r)
  | .permitted => some (permittedShown f.c r)
  | .target => some (targetShown f.reference r)
  | .aspect => (numberOf s.tcu.displayed).map wordOf
  | .lamps => some (lampsShown f.lampTest f.fns r)
  | .watched => watchedShown r
  | .faultSlot => some (slotWordAt s.flu.list (slotRank table i))

/-- The kinds whose state a recheck sets (R8). -/
def Kind.rechecked : Kind → Bool
  | .actual | .permitted | .target | .aspect => true
  | .lamps | .faultSlot | .watched => false

/-- A record that takes a fresh shown value, with its state by R8 where its kind has one. -/
def Record.refreshed (r : Record) (v : Option Word) : Record :=
  match v with
  | some x => { r with shown := v, state := if r.fixed.kind.rechecked then recheckState r x else r.state }
  | none => { r with shown := none }

/-- A full period from now for a record that has an age timer (R133). -/
def State.fullPeriod (s : State) (r : Record) : Timer :=
  if 0 < r.fixed.period then s.startTimer r.fixed.period else none

/-- A record as R6 makes it, before its shown value is derived. -/
def State.newRecord (s : State) (i : Nat) : Record :=
  let fixed := s.csu.shadow.fieldStatic i
  { fixed := fixed, state := if fixed.kind = .faultSlot then .live else .unset, written := none, shown := none,
    age := if 0 < fixed.period then s.startTimer fixed.period else none, count := 0 }

/-- C at a RUNNING entry (R59). -/
def State.entryCeiling (s : State) : Nat :=
  match s.tcu.displayed with
  | some a => ceilingOf a s.csu.shadow.imgVmax
  | none => 0

/-- The FSU of a RUNNING entry before its records show anything: the table of the image, the speed copy, C and PR
(R6, R58, R59, R65). -/
def State.blankFsu (s : State) : Fsu :=
  { table := (List.range s.csu.shadow.imgN).map s.newRecord, speed := some s.asu.speedCopy
    ceiling := some s.entryCeiling, pr := some s.entryCeiling, fns := s.fsu.fns, lampTest := false, silent := false }

/-- The FSU at a RUNNING entry (R1, R6, R58, R59, R65, R137, R142). -/
def State.fsuEntry (s : State) : State :=
  let f := s.blankFsu
  let table := f.table.mapIdx fun i r => { r with shown := s.freshShown f f.table i r }
  let s1 := { s with fsu := { f with table := table } }
  ((((s1.request .fsu (forcedRequests table)).send [.newPr s.entryCeiling]).sendReport .fsu
    [.staleSet (staleBitmap table)]).sendFlu .fsu [.clear silentMsg])

/-- The FSU at a STANDBY entry (R10): every field blanked and handed on, every age timer stopped. -/
def State.fsuStandby (s : State) : State :=
  let table := s.fsu.table.map fun r => { r with shown := some r.fixed.blankWord, age := none }
  { s with fsu := { s.fsu with table := table, lampTest := false } }.request .fsu (forcedRequests table)

/-- The FSU at a return from STANDBY (R10): every record rechecked and handed on, every age timer restarted. -/
def State.fsuReturn (s : State) : State :=
  let old := s.fsu.table
  let table := old.mapIdx fun i r =>
    { (r.refreshed (s.freshShown s.fsu old i r)) with age := s.fullPeriod r }
  { s with fsu := { s.fsu with table := table } }.request .fsu (forcedRequests table)

end Sys2Proof.Machine
end

