-- ==== Sys2Proof/Machine/Image.lean ====
section
/-! DEFINITION. The check of a configuration image (R166, R167, R182): the CRC stage and the content stage. -/

namespace Sys2Proof.Machine

/-! ## The CRC stage (R166) -/

/-- One message bit: compare with bit 15, shift toward bit 15, exclusive-or with 1021h where they differed (R166). -/
def crcBit (r : Word) (b : Bool) : Word :=
  if r.msb != b then (r <<< 1) ^^^ 0x1021 else r <<< 1

/-- The sixteen bits of a word from bit 15 to bit 0 (R166). -/
def crcWord (r w : Word) : Word := (List.range 16).foldl (fun r k => crcBit r (bitOf w (15 - k))) r

/-- The CRC over shadow offsets 0 to 223 (R166). -/
def imageCrc (sh : Memory) : Word := (List.range 224).foldl (fun r o => crcWord r (sh.read o)) 0xFFFF

/-! ## The content stage (R167) -/

/-- A value lies in a range, both ends included. -/
def inRange (lo hi v : Nat) : Bool := decide (lo ≤ v ∧ v ≤ hi)

/-- A general word is at fault (R167, 13.1). -/
def generalFault (sh : Memory) (offset : Nat) : Bool :=
  let v := sh.param offset
  !match offset with
    | 0 => inRange 1 48 v
    | 1 => inRange 20 200 v
    | 2 => inRange 600 1300 v
    | 3 => inRange 600 1300 v
    | 4 => [100, 200, 400, 800].contains v
    | 5 => inRange 40 350 v
    | 6 => inRange 0 100 v
    | 7 => inRange 10 200 v
    | 8 => inRange 1 20 v
    | 9 => inRange 2 5 v
    | 10 => inRange 200 2000 v
    | 11 => inRange 0 10000 v && v % 100 == 0
    | 12 => inRange 3 15 v
    | 13 => inRange 0 100 v
    | 14 => inRange 0 200 v && decide (sh.imgMw < v)
    | _ => v == 0

/-- An earlier valid entry satisfies `p`. -/
def earlierValid (sh : Memory) (c : Nat) (p : AspectEntry → Bool) : Bool :=
  (List.range c).any fun k => (sh.aspectEntry k).valid && p (sh.aspectEntry k)

/-- The word of aspect table entry c is at fault (R167, R76). -/
def aspectFault (sh : Memory) (c : Nat) : Bool :=
  let e := sh.aspectEntry c
  bitOf (sh.read (16 + c)) 7
    || (e.valid && decide (400 < e.ceiling))
    || (!e.valid && e.lossFlag)
    || (e.valid && e.lossFlag && earlierValid sh c fun k => k.lossFlag)
    || (e.valid && earlierValid sh c fun k =>
          k.number == e.number && (k.rank != e.rank || k.ceiling != e.ceiling))
    || (c == 15 && !(List.range 16).any fun k => (sh.aspectEntry k).valid && (sh.aspectEntry k).lossFlag)

/-- The kind of descriptor i. -/
def descKind (sh : Memory) (i : Nat) : Option Kind := kindOf (bits (sh.descriptor i 0) 15 13)

/-- The records of a kind that an image may have (R2). -/
def kindLimit : Kind → Option Nat
  | .actual | .permitted | .target | .aspect => some 1
  | .lamps => some 8
  | .faultSlot => some 6
  | .watched => none

/-- Word 0 of descriptor i is at fault: address, kind, an address used before, a kind count above its limit (R167). -/
def addressFault (sh : Memory) (i : Nat) : Bool :=
  let a := bits (sh.descriptor i 0) 12 0
  decide (0x1DFF < a)
    || (List.range i).any (fun j => bits (sh.descriptor j 0) 12 0 == a)
    || match descKind sh i with
       | none => true
       | some k =>
         match kindLimit k with
         | none => false
         | some n => decide (n < (List.range (i + 1)).countP fun j => descKind sh j == some k)

/-- Word 1 of descriptor i is at fault: tolerance, reserved bits, the period of a FAULT_SLOT (R3, R167, R182). -/
def periodFault (sh : Memory) (i : Nat) : Bool :=
  let w := sh.descriptor i 1
  match descKind sh i with
  | some .actual => !inRange 5 100 (bits w 15 9)
  | some .faultSlot => bits w 15 9 != 0 || bits w 7 0 != 0
  | _ => bits w 15 9 != 0

/-- A lamp pair byte is at fault after these bytes: an empty place that is not 00h, a code above 12, a bit named
before (R4, R182). -/
def pairFault (earlier : List Nat) (byte : Nat) : Bool :=
  if byte / 16 = 0 then byte != 0
  else decide (12 < byte / 16) || earlier.any fun e => e / 16 != 0 && e % 16 == byte % 16

/-- Word 2 of descriptor i is at fault: lamp pairs 1 and 2 (R167, R182). -/
def blankFault (sh : Memory) (i : Nat) : Bool :=
  match descKind sh i with
  | some .lamps =>
    match sh.lampBytes i with
    | b1 :: b2 :: _ => pairFault [] b1 || pairFault [b1] b2
    | _ => false
  | _ => false

/-- Word 3 of descriptor i is at fault: lamp pairs 3 and 4, or a reserved word (R167, R182). -/
def lastWordFault (sh : Memory) (i : Nat) : Bool :=
  match descKind sh i with
  | some .lamps =>
    match sh.lampBytes i with
    | [b1, b2, b3, b4] => pairFault [b1, b2] b3 || pairFault [b1, b2, b3] b4
    | _ => false
  | _ => sh.descriptor i 3 != 0

/-- The word of the image at an offset is at fault (R167). -/
def wordFault (sh : Memory) (offset : Nat) : Bool :=
  if offset < 16 then generalFault sh offset
  else if offset < 32 then aspectFault sh (offset - 16)
  else
    let i := (offset - 32) / 4
    match (offset - 32) % 4 with
    | 0 => addressFault sh i
    | 1 => periodFault sh i
    | 2 => blankFault sh i
    | _ => lastWordFault sh i

/-- The lowest offset at fault among offsets 0 to 31 and the words of descriptors 0 to N − 1 (R166, R167); an image
whose N is out of range is at fault at offset 0, and no descriptor counts. -/
def contentFault (sh : Memory) : Option Nat :=
  (List.range (32 + 4 * min sh.imgN Config.maxRecords)).find? (wordFault sh)

/-- The outcome of a check (R166). -/
inductive CheckResult where
  | pass
  | crcFails
  | contentFails (offset : Nat)
  deriving DecidableEq, Repr

/-- The check of the shadow: the CRC stage, then the content stage (R166). -/
def checkImage (sh : Memory) : CheckResult :=
  if imageCrc sh ≠ sh.read 255 then .crcFails
  else
    match contentFault sh with
    | none => .pass
    | some o => .contentFails o

end Sys2Proof.Machine
end

