-- ==== Sys2Proof/Machine/Rpu.lean ====
section
/-! DEFINITION. The report unit (chapter 10): report contents, the event word, the interrupt enable and INTR. -/

namespace Sys2Proof.Machine

/-! ## Report hand-overs (R155) -/

/-- The content after one item of a hand-over (R155). -/
def Rpu.applyItem (r : Rpu) : ReportItem → Rpu
  | .opState op req => { r with op := op, standbyReq := req }
  | .codeState st => { r with codeState := st }
  | .territory u => { r with uncoded := u }
  | .stage st => { r with stage := st }
  | .restriction b => { r with restriction := b }
  | .lampTest b => { r with lampTest := b }
  | .published v => { r with asu := v }
  | .codes last conf rec => { r with lastSampled := last, confirmed := conf, receivedNo := rec }
  | .displayed a => { r with displayed := a }
  | .staleSet b => { r with bitmap := b }
  | .loadState v n off => { r with verdict := v, failures := n, failOff := off }

/-- The report words an item reaches, by offset (R155). -/
def ReportItem.offsets : ReportItem → List Nat
  | .opState _ _ | .codeState _ | .stage _ | .restriction _ | .lampTest _ => [0]
  | .territory _ => [0, 13]
  | .published _ => [1, 2, 3, 4]
  | .codes _ _ _ => [5]
  | .displayed _ => [6]
  | .staleSet _ => [10, 11, 12]
  | .loadState _ _ _ => [14]

/-- The words a hand-over reaches, in increasing order of offset. -/
def reachedOffsets (items : List ReportItem) : List Nat :=
  reportOffsets.filter fun k => items.any fun i => i.offsets.contains k

/-- A new content leaves each of these words as it was. -/
def Rpu.sameContents (r q : Rpu) (offsets : List Nat) : Bool := offsets.all fun k => q.content k == r.content k

/-- Give the RPU a new content and hand the MWQ the reached words that differ from their memory value; where every
content stays as it was, nothing is handed (R155). -/
def State.rpuCommit (s : State) (r : Rpu) (offsets : List Nat) : State :=
  let s1 := { s with rpu := r }
  if s.rpu.sameContents r offsets then s1 else s1.request .rpu (s1.reportRequests offsets)

/-- REPORT_HANDOVER (R155): the RPU takes the next hand-over of a sender, whole. -/
def execReportHandover (sender : Block) (s : State) : Host.Outcome State Fault Refusal :=
  .next <| s.takeMsg (pickReport sender) fun items s =>
      s.rpuCommit (items.foldl Rpu.applyItem s.rpu) (reachedOffsets items)

/-- LIST_HANDOVER_RPU (R157, R111): the mirror and the counts word. -/
def execListHandoverRpu (s : State) : Host.Outcome State Fault Refusal :=
  .next <| s.takeMsg pickListRpu fun es s =>
      s.rpuCommit { s.rpu with list := es } (9 :: mirrorOffsets)

/-! ## Events (R158–R161) -/

/-- The RPU with these event bits set, INTR following (R158, R161). -/
def Rpu.setEvents (r : Rpu) (es : List Event) : Rpu :=
  { r with events := r.events ||| eventMask es }.followIntr

/-- Set event bits: a bit already set changes nothing and hands nothing; 1F07h is requested in every state but
FALLBACK (R158). -/
def State.setEvents (s : State) (es : List Event) : State :=
  if s.rpu.events ||| eventMask es = s.rpu.events then s
  else if s.csu.op = .fallback then { s with rpu := s.rpu.setEvents es }
  else s.rpuCommit (s.rpu.setEvents es) [7]

/-- SET_EVENT (R158): the RPU takes the causes one operation of a sender has handed, together. -/
def execSetEvent (sender : Block) (s : State) : Host.Outcome State Fault Refusal :=
  .next <| s.takeMsg (pickEvents sender) fun es s => s.setEvents es

/-- A clear-by-one of the event word (R159). -/
def Rpu.clearByOne (r : Rpu) (m : Word) : Rpu := { r with events := r.events &&& ~~~ m }.followIntr

/-- A write to 1F07h: memory receives the event word with the written ones removed (R159). -/
def State.writeEvents (s : State) (m : Word) : State :=
  let s1 := { s with rpu := s.rpu.clearByOne m }
  s1.receive 0x1F07 s1.rpu.events

/-- A write to 1F08h is passed and latched (R160). -/
def State.writeEnable (s : State) (m : Word) : State :=
  { s with rpu := { s.rpu with enable := m }.followIntr }.receive 0x1F08 m

end Sys2Proof.Machine
end

