-- ==== Sys2Proof/Machine/Csu.lean ====
section
/-! DEFINITION. The configuration and state unit (chapters 11 and 12): the outcomes of a check, the entries to
LOADING, RUNNING, STANDBY and FALLBACK, the return from STANDBY, and the cab-active filter. -/

namespace Sys2Proof.Machine

/-! ## Entries -/

/-- The load state as report word 1F0Eh shows it (R163). -/
def Csu.loadItem (c : Csu) : ReportItem := .loadState c.verdict c.failures c.failOff

/-- The entry to LOADING (R164), with the verdict it starts from. -/
def State.enterLoading (s : State) (verdict : Verdict) (failOff : BitVec 8) : State :=
  let c := { s.csu with op := .loading, shadow := [], locked := false, failures := 0
                        load := s.startTimer Config.loadTime, verdict := verdict, failOff := failOff }
  ({ s with csu := c }.sendReport .csu [.opState .loading false, c.loadItem]).sendEvents .csu [.sc]

/-- A hand-over that belongs to a lamp test, a field drain notice, or an acknowledge on its way to the fault list: none
outlives a STANDBY entry (R112; log 13). -/
def Msg.endsAtStandby : Msg → Bool
  | .lampTest _ | .drain | .fault _ .acknowledge => true
  | _ => false

/-- The STANDBY entry (R177). -/
def State.enterStandby (s : State) : State :=
  let s1 := { s with csu := { s.csu with op := .standby }
                     mwq := { s.mwq with drainGiven := false }
                     inFlight := s.inFlight.filter fun m => !m.endsAtStandby }
  (((s1.sendEvents .csu [.sc]).sendReport .csu [.opState .running true]).fsuStandby).anuStandby

/-- The return from STANDBY (R178). -/
def State.returnToRunning (s : State) : State :=
  let s1 := { s with csu := { s.csu with op := .running } }
  (((s1.sendEvents .csu [.sc]).sendReport .csu [.opState .running false]).fsuReturn).anuReturn

/-- The RUNNING entry without what the cab line may add (R175): every block sets its entry values. -/
def State.enterRunningOnly (s : State) : State :=
  let s1 := { s with csu := { s.csu with op := .running } }
  let s2 := (s1.sendReport .csu [.opState .running false]).sendEvents .csu [.sc]
  let s3 := ((s2.asuEntry).tcuEntry).fsuEntry
  s3.anuEntry (slotCount s3.fsu.table)

/-- The RUNNING entry; with CABACT INACTIVE the STANDBY entry is the next operation (R175). -/
def State.enterRunning (s : State) : State :=
  let s1 := s.enterRunningOnly
  if s1.csu.cabActive then s1 else s1.enterStandby

/-- The image is taken by its users when it is accepted (R41, R76, R168). -/
def State.takeImage (s : State) : State :=
  { s with asu := { s.asu with limits := some (limitsOf s.csu.shadow) }
           tcu := { s.tcu with aspects := s.csu.shadow.aspectTable } }

/-- The entry to FALLBACK (R179, R153, R162): FBK asserted, the queue and its marks discarded but for 1F00h and
1F0Eh, event SC, INTR re-evaluated, the partial message NONE, and every hand-over in flight dropped (log 12). -/
def State.enterFallback (s : State) : State :=
  let r := ({ s.rpu with op := .fallback, standbyReq := false, bitmap := 0, verdict := s.csu.verdict
                         failures := s.csu.failures, failOff := s.csu.failOff }).setEvents [.sc]
  let q := { s.mwq with queue := [], marks := [] }
  { s with
    csu := { s.csu with op := .fallback, fbk := true, load := none }
    flu := { s.flu with partialMsg := .none }
    anu := s.anu.silenced
    rpu := r
    mwq := q.enqueueAll [{ addr := reportAddr 0, value := r.content 0, origin := .report 0 },
                         { addr := reportAddr 14, value := r.content 14, origin := .report 14 }]
    inFlight := [] }

/-! ## Outcomes of a check (R168) -/

/-- The image is accepted: locked, taken by its users, RUNNING entered (R168). -/
def State.acceptImage (s : State) : State :=
  let c := { s.csu with load := none, locked := true, verdict := .accepted, failOff := 0 }
  (({ s with csu := c }.sendReport .csu [c.loadItem]).takeImage).enterRunning

/-- A check fails: the count rises, and the third failure enters FALLBACK (R168). -/
def State.rejectImage (s : State) (verdict : Verdict) (failOff : BitVec 8) : State :=
  let c := { s.csu with failures := s.csu.failures + 1, verdict := verdict, failOff := failOff }
  if c.failures < Config.maxAttempts then { s with csu := c }.sendReport .csu [c.loadItem]
  else { s with csu := c }.enterFallback

/-- The outcome of a check with this result (R166, R168). -/
def State.applyCheck (s : State) : CheckResult → State
  | .pass => s.acceptImage
  | .crcFails => s.rejectImage .crcFail 0xFF
  | .contentFails o => s.rejectImage .contentFail (BitVec.ofNat 8 o)

/-- The check of the image and its outcome, one operation (R166, R168). -/
def State.judgeImage (s : State) : State := s.applyCheck (checkImage s.csu.shadow)

/-- Capture a word of the image (R165). -/
def State.capture (s : State) (a : Addr) (w : Word) : State :=
  { s with csu := { s.csu with shadow := s.csu.shadow.write (a.toNat - 0x1E00) w } }

/-- LOAD_TIMER_EXPIRY (R169): verdict TIMEOUT, and FALLBACK. -/
def execLoadTimerExpiry (s : State) : Host.Outcome State Fault Refusal :=
  .next <|
    match s.csu.load with
    | some expiry =>
      let s1 := s.reach expiry
      { s1 with csu := { s1.csu with verdict := .timeout } }.enterFallback
    | none => s

/-- FIELD_DRAIN_NOTICE (R177): in STANDBY 1F00h is to read STANDBY; in any other state the notice changes nothing. -/
def execFieldDrainNotice (s : State) : Host.Outcome State Fault Refusal :=
  .next <| s.takeMsg pickDrain fun _ s =>
      if s.csu.op = .standby then s.sendReport .csu [.opState .standby false] else s

/-! ## The cab-active filter (R176) -/

/-- CABACT_LINE_CHANGE (R176): a change restarts the timer; in RESET the filter is stopped. A level the line already
has is no change (log 2). -/
def execCabactLineChange (high : Bool) (s : State) : Host.Outcome State Fault Refusal :=
  .next <|
    if s.csu.cabLine = high then s
    else
      let timer := if s.csu.op = .reset then s.csu.cabTimer else s.startTimer Config.cabDebounce
      { s with csu := { s.csu with cabLine := high, cabTimer := timer } }

/-- CABACT_DEBOUNCE_EXPIRY (R176): the debounced level takes the line's; RUNNING enters STANDBY on INACTIVE, STANDBY
returns on ACTIVE, any other state records it. -/
def execCabactDebounceExpiry (s : State) : Host.Outcome State Fault Refusal :=
  .next <|
    match s.csu.cabTimer with
    | none => s
    | some expiry =>
      let s1 := s.reach expiry
      let s2 := { s1 with csu := { s1.csu with cabActive := s1.csu.cabLine, cabTimer := none } }
      if s.csu.cabLine = s.csu.cabActive then s2
      else
        match s.csu.op, s.csu.cabLine with
        | .running, false => s2.enterStandby
        | .standby, true => s2.returnToRunning
        | _, _ => s2

end Sys2Proof.Machine
end

