-- ==== Sys2Proof/Machine/Trp.lean ====
section
/-! DEFINITION. The transfer path (chapter 2): the take of a computer write, by the class of its address, and the
write commands. -/

namespace Sys2Proof.Machine

/-- A territory request, judged at its take (R33, R86–R88). -/
def State.writeTerritory (s : State) (w : Word) : State :=
  match territoryRequest w with
  | some u =>
    if s.acceptsTerritory u then
      let s1 := s.receive 0x1F0D w
      if u = s.tcu.uncoded then s1 else s1.changeTerritory u
    else (s.receive 0x1F0D (territoryWord s.tcu.uncoded)).sendEvents .tcu [.tr]
  | none => (s.receive 0x1F0D (territoryWord s.tcu.uncoded)).sendEvents .tcu [.tr]

/-- The owner's decision on a write and the port's performance of it, by the class of the word (R20–R35). -/
def State.decideWrite (s : State) (a : Addr) (w : Word) : State :=
  match wordClass s.csu.op s.fsu.table a with
  | .field i => s.fieldWrite i w
  | .plain => s.receive a w
  | .capture => (s.receive a w).capture a w
  | .check => ((s.receive a w).capture a w).judgeImage
  | .locked => s.sendEvents .csu [.ci]
  | .partOwned => s
  | .eventWord => s.writeEvents w
  | .enable => s.writeEnable w
  | .territory => s.writeTerritory w
  | .unitCode => (s.receive a w).takeWindow (unitCodeStep w)
  | .severityAction => (s.receive a w).takeWindow (severityStep s.flu.partialMsg w)
  | .textIndex => (s.receive a w).takeWindow (textStep s.flu.partialMsg w)

/-- The take of a computer cycle, after the own write that has the turn, where there is one (R149): a read is passed
back, and of a write every decision is made now (R18, R19, R20). -/
def State.takeCycle (s : State) : HeldCycle → State
  | .read a => s.takeRead a
  | .write a w => (s.serveQueueTurn.grantComputer).decideWrite a w

/-- A computer cycle arrives. In RESET the TRP holds it, one at a time, unanswered and undecoded (R18). In every other
state it is taken (log 4). -/
def State.computerCycle (s : State) (c : HeldCycle) : State :=
  if s.csu.op = .reset then
    match s.held with
    | none => { s with held := some c }
    | some _ => s
  else s.takeCycle c

/-- A computer write. -/
def State.computerWrite (s : State) (a : Addr) (w : Word) : State := s.computerCycle (.write a w)

/-- No command waits: the computer makes the next of its reads, unless a cycle it has under way is held through RESET;
with none to make, 1 ms of the timebase passes (log 3, log 7). -/
def State.idle (s : State) : State :=
  match s.reads with
  | [] => s.tick
  | a :: rest =>
    if s.csu.op = .reset ∧ s.held ≠ none then s.tick
    else { s with reads := rest }.computerCycle (.read a)

/-- ACTUAL_WRITE (R60, R61, R24). -/
def execActualWrite (a : Addr) (w : Word) (s : State) : Host.Outcome State Fault Refusal := .next (s.computerWrite a w)

/-- PERMITTED_WRITE (R64, R24). -/
def execPermittedWrite (a : Addr) (w : Word) (s : State) : Host.Outcome State Fault Refusal :=
  .next (s.computerWrite a w)

/-- TARGET_WRITE (R67, R24). -/
def execTargetWrite (a : Addr) (w : Word) (s : State) : Host.Outcome State Fault Refusal := .next (s.computerWrite a w)

/-- ASPECT_WRITE (R91, R24). -/
def execAspectWrite (a : Addr) (w : Word) (s : State) : Host.Outcome State Fault Refusal := .next (s.computerWrite a w)

/-- LAMPS_WRITE (R27, R28). -/
def execLampsWrite (a : Addr) (w : Word) (s : State) : Host.Outcome State Fault Refusal := .next (s.computerWrite a w)

/-- WATCHED_WRITE (R30). -/
def execWatchedWrite (a : Addr) (w : Word) (s : State) : Host.Outcome State Fault Refusal := .next (s.computerWrite a w)

/-- FAULT_SLOT_WRITE (R31). -/
def execFaultSlotWrite (a : Addr) (w : Word) (s : State) : Host.Outcome State Fault Refusal :=
  .next (s.computerWrite a w)

/-- STANDBY_FIELD_WRITE (R25). -/
def execStandbyFieldWrite (a : Addr) (w : Word) (s : State) : Host.Outcome State Fault Refusal :=
  .next (s.computerWrite a w)

/-- EVENT_WORD_WRITE (R159): a write to 1F07h. -/
def execEventWordWrite (w : Word) (s : State) : Host.Outcome State Fault Refusal := .next (s.computerWrite 0x1F07 w)

/-- INTERRUPT_ENABLE_WRITE (R160): a write to 1F08h. -/
def execInterruptEnableWrite (w : Word) (s : State) : Host.Outcome State Fault Refusal :=
  .next (s.computerWrite 0x1F08 w)

/-- TERRITORY_WRITE (R86–R88): a write to 1F0Dh. -/
def execTerritoryWrite (w : Word) (s : State) : Host.Outcome State Fault Refusal := .next (s.computerWrite 0x1F0D w)

/-- CONFIGURATION_CAPTURE_WRITE (R165). -/
def execConfigurationCaptureWrite (a : Addr) (w : Word) (s : State) : Host.Outcome State Fault Refusal :=
  .next (s.computerWrite a w)

/-- CHECK_WORD_WRITE (R166): a write to 1EFFh. -/
def execCheckWordWrite (w : Word) (s : State) : Host.Outcome State Fault Refusal := .next (s.computerWrite 0x1EFF w)

/-- LOCKED_CONFIGURATION_WRITE (R34, R170). -/
def execLockedConfigurationWrite (a : Addr) (w : Word) (s : State) : Host.Outcome State Fault Refusal :=
  .next (s.computerWrite a w)

/-- FAULT_ENTRY_UNIT_CODE_WRITE (R98): a write to 1F80h. -/
def execFaultEntryUnitCodeWrite (w : Word) (s : State) : Host.Outcome State Fault Refusal :=
  .next (s.computerWrite 0x1F80 w)

/-- FAULT_ENTRY_SEVERITY_ACTION_WRITE (R98): a write to 1F81h. -/
def execFaultEntrySeverityActionWrite (w : Word) (s : State) : Host.Outcome State Fault Refusal :=
  .next (s.computerWrite 0x1F81 w)

/-- FAULT_ENTRY_TEXT_INDEX_WRITE (R98): a write to 1F82h. -/
def execFaultEntryTextIndexWrite (w : Word) (s : State) : Host.Outcome State Fault Refusal :=
  .next (s.computerWrite 0x1F82 w)

/-- PLAIN_WRITE (R23, R33). -/
def execPlainWrite (a : Addr) (w : Word) (s : State) : Host.Outcome State Fault Refusal := .next (s.computerWrite a w)

end Sys2Proof.Machine
end

