-- ==== Sys2Proof/Machine/Reset.lean ====
section
/-! DEFINITION. Reset and release (12.1): the PWRG and WRST inputs, the settle time, what each reset keeps, and the
release as one operation. -/

namespace Sys2Proof.Machine

/-! ## Entry to RESET (R172, R174) -/

/-- The CSU in RESET: a power reset clears the shadow and the lock, a warm reset keeps them (R163, R174); the inputs,
the SOLO latch and the reset cause stay (R173, R180). -/
def Csu.inReset (c : Csu) (power : Bool) : Csu :=
  { Csu.reset with
    pwrg := c.pwrg, wrst := c.wrst, powerReset := power, solo := c.solo, cabLine := c.cabLine, cause := c.cause
    shadow := if power then [] else c.shadow
    locked := if power then false else c.locked }

/-- The part in RESET (R17, R57, R81, R112–R114, R132, R154, R156, R172): everything in flight is abandoned; memory
keeps its words; a held computer cycle stays held (R18). -/
def State.enterReset (s : State) (power : Bool) : State :=
  { s with
    inFlight := []
    csu := s.csu.inReset power
    fsu := .reset
    asu := .reset
    tcu := .reset
    flu := if power then .reset else s.flu.warm
    anu := .reset s.anu.ackb.line s.anu.ltstb.line
    mwq := .reset
    rpu := .reset }

/-! ## Release (R173) -/

/-- The debounced level of a button at release is its line's level, with no press (R124). -/
def ButtonState.released (b : ButtonState) (timer : Timer) : ButtonState :=
  { line := b.line, pressed := b.line, timer := timer }

/-- The requests for the sixteen report words and the sixty-four mirror words, in order of address (R156). -/
def Rpu.allRequests (r : Rpu) : List OwnWrite :=
  (reportOffsets ++ mirrorOffsets).map fun k => { addr := reportAddr k, value := r.content k, origin := .report k }

/-- The RPU's contents at a release: the items of their own after a reset, with the list and the load state as they
are (R112, R156; log 11). -/
def State.rpuAtRelease (s : State) (c : Csu) (next : OpState) : Rpu :=
  { Rpu.reset with op := next, list := s.flu.list, verdict := c.verdict, failures := c.failures
                   failOff := c.failOff, cause := c.cause }

/-- What the blocks start from at a release, before the entry: the SOLO latch, the filters, the cause, the RPU's
contents with the list and the load state, the ANU's list summary, and all eighty report requests in the queue
(R112, R124, R156, R173, R176; log 11). `c` is the CSU as the release leaves it. -/
def State.atRelease (s : State) (c : Csu) (next : OpState) : State :=
  let timer := s.startTimer Config.buttonDebounce
  { s with
    csu := { c with cabActive := true, cabTimer := s.startTimer Config.cabDebounce, powerReset := false }
    anu := { s.anu with summary := summaryOf s.flu.list, ackb := s.anu.ackb.released timer
                        ltstb := s.anu.ltstb.released timer }
    rpu := s.rpuAtRelease c next
    mwq := s.mwq.enqueueAll (s.rpuAtRelease c next).allRequests }

/-- The offset a failed check names (R163). -/
def failOffset : CheckResult → BitVec 8
  | .pass => 0
  | .crcFails => 0xFF
  | .contentFails o => BitVec.ofNat 8 o

/-- A release with a retained image, by the result of the retained check: RUNNING with the image kept, or LOADING
(R171, R173). `c` carries the SOLO latch. -/
def State.releaseRetained (s : State) (c : Csu) : CheckResult → State
  | .pass =>
    let d := { c with cause := .warmImageKept, verdict := .accepted, failures := 0, failOff := 0 }
    ((s.atRelease d .running).takeImage).enterRunning
  | result =>
    let d := { c with cause := .warmImageLost, verdict := .retainedFail, failures := 0
                      failOff := failOffset result }
    (s.atRelease d .loading).enterLoading .retainedFail (failOffset result)

/-- The release with the next state chosen by the class of the reset, the lock and the retained check (R171, R173). -/
def State.releaseTo (s : State) (solo : Bool) : State :=
  let c := { s.csu with solo := solo }
  if s.csu.powerReset then
    (s.atRelease { c with cause := .power } .loading).enterLoading .pending 0
  else if !s.csu.locked then
    (s.atRelease { c with cause := .warm } .loading).enterLoading .pending 0
  else s.releaseRetained c (checkImage s.csu.shadow)

/-- A computer cycle held through RESET is taken in the state entered: the turn is COMPUTER after a reset, so it is
granted before any own write (R18, R149, R154; log 5). -/
def State.takeHeld (s : State) : State :=
  match s.held with
  | some c => s.computerCycle c
  | none => s

/-- The release (R173), and the take of a held cycle. -/
def State.release (s : State) (solo : Bool) : State := (s.releaseTo solo).takeHeld

/-! ## The reset inputs (R172) -/

/-- PWRG_FALL: RESET as a power reset; a settle time in progress ends (R172). A fall of a low line is none (log 2). -/
def execPwrgFall (s : State) : Host.Outcome State Fault Refusal :=
  .next <|
    if s.csu.pwrg then { s with csu := { s.csu with pwrg := false } }.enterReset true else s

/-- PWRG_RISE: the settle time starts (R172). -/
def execPwrgRise (s : State) : Host.Outcome State Fault Refusal :=
  .next <|
    if s.csu.pwrg then s
    else { s with csu := { s.csu with pwrg := true, settle := s.startTimer Config.settleTime } }

/-- SETTLE_TIME_EXPIRY: the settle time ends; with WRST high the part is released (R172, R173). -/
def execSettleTimeExpiry (solo : Bool) (s : State) : Host.Outcome State Fault Refusal :=
  .next <|
    match s.csu.settle with
    | some expiry =>
      let s1 := s.reach expiry
      let s2 := { s1 with csu := { s1.csu with settle := none } }
      if s.csu.wrst then s2.release solo else s2
    | none => s

/-- WRST_FALL: the part enters RESET; in RESET the line alone changes (R172). -/
def execWrstFall (s : State) : Host.Outcome State Fault Refusal :=
  .next <|
    if s.csu.wrst then
      let s1 := { s with csu := { s.csu with wrst := false } }
      if s.csu.op = .reset then s1 else s1.enterReset false
    else s

/-- WRST_RISE: with PWRG high and no settle time running the part is released (R172, R173). -/
def execWrstRise (solo : Bool) (s : State) : Host.Outcome State Fault Refusal :=
  .next <|
    if s.csu.wrst then s
    else
      let s1 := { s with csu := { s.csu with wrst := true } }
      if s.csu.pwrg = true ∧ s.csu.settle = none then s1.release solo else s1

end Sys2Proof.Machine
end

