-- ==== Sys2Proof/Machine/Dispatch.lean ====
section
/-! DEFINITION. The effect of a command on everything but the queue: one arm for each row of the table. -/

namespace Sys2Proof.Machine

def exec (i : Instr) (s : State) : Host.Outcome State Fault Refusal :=
  match i with
  | .actualWrite a w => Sys2Proof.Machine.execActualWrite a w s
  | .permittedWrite a w => Sys2Proof.Machine.execPermittedWrite a w s
  | .targetWrite a w => Sys2Proof.Machine.execTargetWrite a w s
  | .aspectWrite a w => Sys2Proof.Machine.execAspectWrite a w s
  | .lampsWrite a w => Sys2Proof.Machine.execLampsWrite a w s
  | .watchedWrite a w => Sys2Proof.Machine.execWatchedWrite a w s
  | .faultSlotWrite a w => Sys2Proof.Machine.execFaultSlotWrite a w s
  | .standbyFieldWrite a w => Sys2Proof.Machine.execStandbyFieldWrite a w s
  | .eventWordWrite w => Sys2Proof.Machine.execEventWordWrite w s
  | .interruptEnableWrite w => Sys2Proof.Machine.execInterruptEnableWrite w s
  | .territoryWrite w => Sys2Proof.Machine.execTerritoryWrite w s
  | .configurationCaptureWrite a w => Sys2Proof.Machine.execConfigurationCaptureWrite a w s
  | .checkWordWrite w => Sys2Proof.Machine.execCheckWordWrite w s
  | .lockedConfigurationWrite a w => Sys2Proof.Machine.execLockedConfigurationWrite a w s
  | .faultEntryUnitCodeWrite w => Sys2Proof.Machine.execFaultEntryUnitCodeWrite w s
  | .faultEntrySeverityActionWrite w => Sys2Proof.Machine.execFaultEntrySeverityActionWrite w s
  | .faultEntryTextIndexWrite w => Sys2Proof.Machine.execFaultEntryTextIndexWrite w s
  | .plainWrite a w => Sys2Proof.Machine.execPlainWrite a w s
  | .axleEdge ch b => Sys2Proof.Machine.execAxleEdge ch b s
  | .windowCompletion brk => Sys2Proof.Machine.execWindowCompletion brk s
  | .speedHandover => Sys2Proof.Machine.execSpeedHandover s
  | .completionHandoverAnu => Sys2Proof.Machine.execCompletionHandoverAnu s
  | .newPr => Sys2Proof.Machine.execNewPr s
  | .strobe code elapsed => Sys2Proof.Machine.execStrobe code elapsed s
  | .lossTimerExpiry => Sys2Proof.Machine.execLossTimerExpiry s
  | .holdTimerExpiry => Sys2Proof.Machine.execHoldTimerExpiry s
  | .writtenAspectTaken => Sys2Proof.Machine.execWrittenAspectTaken s
  | .aspectStaleNotice => Sys2Proof.Machine.execAspectStaleNotice s
  | .aspectDelivery => Sys2Proof.Machine.execAspectDelivery s
  | .rankDelivery => Sys2Proof.Machine.execRankDelivery s
  | .acknowledgementTimerExpiry => Sys2Proof.Machine.execAcknowledgementTimerExpiry s
  | .raise src => Sys2Proof.Machine.execRaise src s
  | .clear src => Sys2Proof.Machine.execClear src s
  | .acknowledge => Sys2Proof.Machine.execAcknowledge s
  | .listHandoverFsu => Sys2Proof.Machine.execListHandoverFsu s
  | .listHandoverAnu => Sys2Proof.Machine.execListHandoverAnu s
  | .listHandoverRpu => Sys2Proof.Machine.execListHandoverRpu s
  | .chimeRequest => Sys2Proof.Machine.execChimeRequest s
  | .cadenceTimerExpiry => Sys2Proof.Machine.execCadenceTimerExpiry s
  | .flashTimerExpiry => Sys2Proof.Machine.execFlashTimerExpiry s
  | .lampFunctionChange => Sys2Proof.Machine.execLampFunctionChange s
  | .functionInputHandover => Sys2Proof.Machine.execFunctionInputHandover s
  | .staleNotice => Sys2Proof.Machine.execStaleNotice s
  | .buttonLineChange b high => Sys2Proof.Machine.execButtonLineChange b high s
  | .buttonDebounceExpiry b => Sys2Proof.Machine.execButtonDebounceExpiry b s
  | .lockoutExpiry => Sys2Proof.Machine.execLockoutExpiry s
  | .lampTestTimeout => Sys2Proof.Machine.execLampTestTimeout s
  | .lampTestBegun => Sys2Proof.Machine.execLampTestBegun s
  | .lampTestEnded => Sys2Proof.Machine.execLampTestEnded s
  | .ageTimerExpiry field => Sys2Proof.Machine.execAgeTimerExpiry field s
  | .setEvent src => Sys2Proof.Machine.execSetEvent src s
  | .reportHandover src => Sys2Proof.Machine.execReportHandover src s
  | .ownWriteRequest own => Sys2Proof.Machine.execOwnWriteRequest own s
  | .ownWriteGrant => Sys2Proof.Machine.execOwnWriteGrant s
  | .fieldDrainNotice => Sys2Proof.Machine.execFieldDrainNotice s
  | .pwrgFall => Sys2Proof.Machine.execPwrgFall s
  | .pwrgRise => Sys2Proof.Machine.execPwrgRise s
  | .settleTimeExpiry solo => Sys2Proof.Machine.execSettleTimeExpiry solo s
  | .wrstFall => Sys2Proof.Machine.execWrstFall s
  | .wrstRise solo => Sys2Proof.Machine.execWrstRise solo s
  | .loadTimerExpiry => Sys2Proof.Machine.execLoadTimerExpiry s
  | .cabactLineChange high => Sys2Proof.Machine.execCabactLineChange high s
  | .cabactDebounceExpiry => Sys2Proof.Machine.execCabactDebounceExpiry s

end Sys2Proof.Machine
end

