-- ==== Sys2Proof/Safety.lean ====
section
/-! DEFINITION. What every state of the part keeps: the invariants that the statements of this row speak of, one for
each rule, or group of rules, of the spec that says what always holds. Each stands over the blocks it speaks of. -/

namespace Sys2Proof.Machine

/-! ## Memories and the queue -/

/-- The indication memory and the image shadow keep their one canonical form (log 8). -/
def MemoryLaw (mem shadow : Memory) : Prop := mem.wf = true ∧ shadow.wf = true

/-- The own-write queue holds at most 16 entries, at most one for an address (R145); the repaint-pending set holds an
origin at most once, in repaint order (R146). -/
structure QueueLaw (q : Mwq) : Prop where
  depth : q.queue.length ≤ 16
  distinct : q.queue.Pairwise fun e f => e.addr ≠ f.addr
  marks : q.marks.Pairwise fun o p => o.before p = true

/-! ## The fault list (R101–R103, R106) -/

/-- The fault list holds at most 32 entries, one for a unit and code, in display order; the base is the arrival number
of a live entry and no entry is older; every live number lies before the counter, counted from the base. -/
structure FaultListLaw (f : Flu) : Prop where
  depth : f.list.length ≤ 32
  identity : f.list.Pairwise fun e g => ¬(e.unit = g.unit ∧ e.code = g.code)
  order : f.list.Pairwise fun e g => e.standsBefore f.base g = true
  arrivals : f.list.Pairwise fun e g => e.arrival ≠ g.arrival
  base : match f.base with
    | none => f.list = []
    | some b => ∃ e ∈ f.list, e.arrival = b
  counter : ∀ b, f.base = some b → ∀ e ∈ f.list, (e.arrival - b).toNat ≤ (f.counter - b - 1).toNat

/-! ## Operating states, the load and the outputs -/

/-- The inputs, the load and the lock in each operating state (R163, R169, R172, R179). -/
structure StateLaw (c : Csu) : Prop where
  /-- the part is in RESET exactly while PWRG or WRST is low or the settle time runs (R172) -/
  inReset : c.op = .reset ↔ (c.pwrg = false ∨ c.wrst = false ∨ c.settle ≠ none)
  /-- the settle time runs only with PWRG high (R172) -/
  settling : c.settle ≠ none → c.pwrg = true
  /-- the load timer runs exactly in LOADING (R163, R169) -/
  loading : c.load ≠ none ↔ c.op = .loading
  /-- LOADING is never locked and has seen at most two failed checks (R164, R168) -/
  attempts : c.op = .loading → c.locked = false ∧ c.failures < 3
  /-- a field table is supervised only with a locked, accepted image (R168, R170) -/
  accepted : c.op.hasTable = true → c.locked = true ∧ c.verdict = .accepted
  /-- FBK is asserted exactly in FALLBACK (R179) -/
  fbk : c.fbk = true ↔ c.op = .fallback

/-- INTR is asserted exactly while an event bit is set whose enable bit is also set (R161). -/
def InterruptLaw (r : Rpu) : Prop := r.intr = intrLevel r.events r.enable

/-! ## The field table -/

/-- The image fits what chapter 1 says of a field table (R1–R4). -/
structure TableLaw (table : List Record) : Prop where
  size : table.length ≤ 48
  area : ∀ r ∈ table, r.fixed.addr.toNat < 0x1E00
  distinct : table.Pairwise fun r q => r.fixed.addr ≠ q.fixed.addr
  single : ∀ k ∈ [Kind.actual, .permitted, .target, .aspect], table.countP (fun r => r.fixed.kind == k) ≤ 1
  lamps : table.countP (fun r => r.fixed.kind == .lamps) ≤ 8
  slots : table.countP (fun r => r.fixed.kind == .faultSlot) ≤ 6
  slotPeriod : ∀ r ∈ table, r.fixed.kind = .faultSlot → r.fixed.period = 0
  period : ∀ r ∈ table, r.fixed.period ≤ 25500 ∧ r.fixed.period % 100 = 0
  tolerance : ∀ r ∈ table, r.fixed.kind = .actual → 5 ≤ r.fixed.tolerance ∧ r.fixed.tolerance ≤ 100
  lampBlank : ∀ r ∈ table, r.fixed.kind = .lamps → r.fixed.blank = 0
  pairs : ∀ r ∈ table, r.fixed.lamps.length ≤ 4 ∧ (∀ p ∈ r.fixed.lamps, p.bit < 16) ∧
    r.fixed.lamps.Pairwise fun p q => p.bit ≠ q.bit

/-- The runtime part of one record (R5, R7, R11, R133, R135). -/
structure RecordLaw (op : OpState) (r : Record) : Prop where
  /-- UNSET until a write is recorded, LIVE and CORRECTED only with one (R5, R7) -/
  unsetOnly : r.state = .unset → r.written = none
  writtenHas : r.fixed.kind ≠ .faultSlot → (r.state = .live ∨ r.state = .corrected) → r.written ≠ none
  /-- a FAULT_SLOT record is LIVE and takes no write (R6, R31) -/
  slot : r.fixed.kind = .faultSlot → r.state = .live ∧ r.written = none ∧ r.count = 0
  /-- the count saturates at 8 (R11) -/
  count : r.count ≤ 8
  /-- LAMPS and WATCHED writes are never corrections (R27, R30) -/
  uncorrected : r.fixed.kind = .lamps ∨ r.fixed.kind = .watched → r.state ≠ .corrected ∧ r.count = 0
  /-- only a supervised record has an age timer, and only in RUNNING does it run (R10, R133) -/
  timer : r.age ≠ none → 0 < r.fixed.period ∧ op = .running
  /-- in RUNNING a supervised record that is not STALE has its timer running (R133, R135) -/
  supervised : op = .running → 0 < r.fixed.period → r.state ≠ .stale → r.age ≠ none

/-- Records exist only in RUNNING and STANDBY (R1); each keeps its law; the silent flag is the silent condition of the
table (R141). -/
structure SupervisionLaw (op : OpState) (f : Fsu) : Prop where
  table : op.hasTable = false → f.table = []
  records : ∀ r ∈ f.table, RecordLaw op r
  silent : f.silent = silentHolds f.table

/-- PR is derived from the PERMITTED record and C (R65), and while RUNNING no PERMITTED field that has left UNSET shows
more than C (R66), and no TARGET field that is LIVE or CORRECTED, or is STALE and held, shows more than PR (R67). -/
structure CeilingLaw (op : OpState) (f : Fsu) : Prop where
  reference : op.hasTable = true → f.pr = some (derivePr f.table f.c)
  permitted : op = .running → ∀ r ∈ f.table, r.fixed.kind = .permitted → r.state ≠ .unset →
    ∃ v, r.shown = some v ∧ v.toNat ≤ f.c
  target : op = .running → ∀ r ∈ f.table, r.fixed.kind = .target →
    (r.state = .live ∨ r.state = .corrected ∨ (r.state = .stale ∧ r.fixed.action = .hold)) → r.written ≠ none →
    ∃ v, r.shown = some v ∧ v.toNat ≤ f.reference

/-- q is num / den rounded half up, once (00_scope.md, Conventions, Rounding). -/
def isRounded (q num den : Nat) : Prop := 2 * num < den * (2 * q + 1) ∧ den * (2 * q) ≤ 2 * num + den

/-- A selected speed is 0 to 4000 tenths and its display speed that speed in km/h, rounded half up; with the speed
UNKNOWN the display speed is absent (R54, R58). -/
structure SpeedShown (selected d : Option Nat) : Prop where
  unknown : selected = none → d = none
  known : ∀ v, selected = some v → v ≤ 4000 ∧ ∃ x, d = some x ∧ isRounded x v 10

/-- The display speed goes with the selected speed in the ASU, in every hand-over to the FSU that is in flight, and in the
FSU's copy (R54, R56, R58). -/
structure SpeedLaw (s : State) : Prop where
  asu : SpeedShown s.asu.selected s.asu.d
  inFlight : ∀ c, Msg.speed c ∈ s.inFlight → SpeedShown c.selected c.d
  copy : ∀ c, s.fsu.speed = some c → SpeedShown c.selected c.d

/-- While RUNNING an ACTUAL field that is UNSET or STALE follows the display speed (R63), and one that is LIVE or
CORRECTED shows a value within its tolerance of the selected speed whenever the selected speed is known (R60–R62). -/
structure ActualLaw (op : OpState) (f : Fsu) : Prop where
  follows : op = .running → ∀ r ∈ f.table, r.fixed.kind = .actual → (r.state = .unset ∨ r.state = .stale) →
    r.shown = some (actualFollows f.speedCopy r)
  within : op = .running → ∀ r ∈ f.table, r.fixed.kind = .actual → (r.state = .live ∨ r.state = .corrected) →
    ∃ x, r.shown = some x ∧ ∀ v, f.speedCopy.selected = some v →
      10 * x.toNat ≤ v + r.fixed.tolerance ∧ v ≤ 10 * x.toNat + r.fixed.tolerance

/-- While RUNNING a LAMPS field shows its base word with every assigned bit replaced by its function, or FFFFh during a
lamp test (R13), and a WATCHED field shows the word R9 and R138 give. -/
structure LampsLaw (op : OpState) (f : Fsu) : Prop where
  lamps : op = .running → ∀ r ∈ f.table, r.fixed.kind = .lamps → r.shown = some (lampsShown f.lampTest f.fns r)
  watched : op = .running → ∀ r ∈ f.table, r.fixed.kind = .watched → r.shown = watchedShown r

/-! ## The track code unit -/

/-- The displayed aspect is the one that R89 derives from territory, received and written aspect, and the hold timer
runs exactly in HOLDING (R83). -/
structure AspectLaw (op : OpState) (t : Tcu) : Prop where
  displayed : op.hasTable = true → t.displayed = t.derive
  hold : t.hold ≠ none ↔ t.state = .holding

/-- The number of the latest delivery of a displayed aspect that the FSU has not taken. -/
def lastDelivery (ms : List Msg) : Option Nat :=
  (ms.filterMap fun m => match m with
    | .delivery n _ => some n
    | _ => none).getLast?

/-- The number the FSU found for its latest word on the ASPECT record that the TCU has not taken: a written aspect, or the
record's turn to STALE. -/
def lastJudged (ms : List Msg) : Option (Option Nat) :=
  (ms.filterMap fun m => match m with
    | .writtenAspect _ n | .aspectStale _ n => some n
    | _ => none).getLast?

/-- While RUNNING the ASPECT field shows the displayed aspect number (R92), but for what is still on its way between the FSU
and the TCU: with a delivery in flight the last one carries the number, and with none the field shows it already, or shows
what the FSU found for the word that the TCU has yet to take (R91, R93). -/
structure AspectShownLaw (s : State) : Prop where
  received : s.csu.op.hasTable = true → lossAspect s.tcu.aspects ≠ none → s.tcu.received ≠ none
  delivered : s.csu.op.hasTable = true → lossAspect s.tcu.aspects ≠ none →
    ∀ n, lastDelivery s.inFlight = some n → s.tcu.displayed.map Aspect.number = some n
  shown : s.csu.op = .running → lossAspect s.tcu.aspects ≠ none → lastDelivery s.inFlight = none →
    ∀ r ∈ s.fsu.table, r.fixed.kind = .aspect →
      r.shown = s.tcu.displayed.map (fun a => BitVec.ofNat 16 a.number) ∨
      ∃ n, lastJudged s.inFlight = some n ∧ r.shown = n.map (BitVec.ofNat 16)

/-! ## The annunciation unit -/

/-- The condition under which a lamp function is 1, from the inputs the ANU holds (R13, R117). -/
def Anu.lights (a : Anu) : LampFn → Prop
  | .overspeed => a.stage = .warning ∨ (a.stage = .alarm ∧ a.phase = true)
  | .speedUnknown => ∃ c, a.copy = some c ∧ c.selected = none
  | .codeLost => a.codeLost = true
  | .restrictAck => a.pendingAck = true ∧ a.phase = true
  | .faultA => a.summary.anyAUnacked = true
  | .faultAny => a.summary.anyUnacked = true
  | .faultMore => a.slots < a.summary.entries
  | .staleAny => a.staleCount ≠ 0
  | .dirFwd => ∃ c, a.copy = some c ∧ c.direction = .forward
  | .dirRev => ∃ c, a.copy = some c ∧ c.direction = .reverse
  | .uncoded => a.uncoded = true
  | .channelFault => ∃ c, a.copy = some c ∧
      (c.failed1 = true ∨ c.failed2 = true ∨ c.persistent = true ∨ c.dirDis = true)

/-- A continuing pattern is demanded (R120). -/
def Anu.demands (a : Anu) : Pattern → Prop
  | .continuous => a.stage = .alarm
  | .intermittent => a.stage = .warning ∨ a.summary.anyAUnacked = true
  | .repeatChime => a.pendingAck = true
  | .chime | .none => False

/-- A pattern is the highest one demanded, in the order CONTINUOUS, INTERMITTENT, REPEAT_CHIME (R120). -/
def Anu.mustSound (a : Anu) (p : Pattern) : Prop :=
  a.demands p ∧ (p ≠ .continuous → ¬ a.demands .continuous) ∧ (p = .repeatChime → ¬ a.demands .intermittent)

/-- In RUNNING and STANDBY every lamp function has the value its inputs give it (R13, R117, R119). -/
def FunctionLaw (op : OpState) (a : Anu) : Prop := op.hasTable = true → ∀ f, a.fns.get f = true ↔ a.lights f

/-- The buzzer (R120–R123): nothing sounds outside RUNNING; while RUNNING the sounding pattern is the highest pattern
demanded, and a CHIME or nothing where none is; BUZ is low while nothing sounds, high all through CONTINUOUS and CHIME,
and a cadence runs for every other pattern. -/
structure BuzzerLaw (op : OpState) (a : Anu) : Prop where
  outside : op ≠ .running → a.sounding = .none
  demanded : op = .running → ∀ p, a.mustSound p → a.sounding = p
  idle : op = .running → (∀ p, ¬ a.demands p) → a.sounding = .none ∨ a.sounding = .chime
  silent : a.sounding = .none → a.buz = false ∧ a.cadence = none
  continuous : a.sounding = .continuous → a.buz = true ∧ a.cadence = none
  chime : a.sounding = .chime → a.buz = true
  cadence : a.sounding ≠ .none → a.sounding ≠ .continuous → a.cadence ≠ none

/-! ## The parts of a state that a command leaves alone -/

/-- Two states differ in the FSU, in memory, in the write queue, in what is in flight and in the held cycle at most. -/
structure SameButFields (s t : State) : Prop where
  pending : t.pending = s.pending
  reads : t.reads = s.reads
  answer : t.answer = s.answer
  now : t.now = s.now
  csu : t.csu = s.csu
  asu : t.asu = s.asu
  tcu : t.tcu = s.tcu
  flu : t.flu = s.flu
  anu : t.anu = s.anu
  rpu : t.rpu = s.rpu

/-! ## The memory write queue -/

/-- One request is taken: its entry's value is replaced in place, or it is added at the tail, or its origin is marked
(R144–R146). -/
structure Enqueued (q r : Mwq) (w : OwnWrite) : Prop where
  same : r.queueTurn = q.queueTurn ∧ r.drainGiven = q.drainGiven
  replaced : (∃ e ∈ q.queue, e.addr = w.addr) →
    r.queue = q.queue.map (fun e => if e.addr = w.addr then { e with value := w.value } else e) ∧ r.marks = q.marks
  added : (∀ e ∈ q.queue, e.addr ≠ w.addr) → q.queue.length < 16 →
    r.queue = q.queue ++ [w] ∧ ∀ o, o ∈ r.marks ↔ o ∈ q.marks ∧ o ≠ w.origin
  marked : (∀ e ∈ q.queue, e.addr ≠ w.addr) → 16 ≤ q.queue.length →
    r.queue = q.queue ∧ ∀ o, o ∈ r.marks ↔ o ∈ q.marks ∨ o = w.origin
  known : ∀ x, knownAt r.known x =
    if x = w.addr.toNat ∧ ((∃ e ∈ q.queue, e.addr = w.addr) ∨ q.queue.length < 16) then some w.value
    else knownAt q.known x
  law : QueueLaw r

/-- The requests of one operation are taken in their order. -/
def EnqueuedAll : List OwnWrite → Mwq → Mwq → Prop
  | [], q, r => r = q
  | w :: ws, q, r => ∃ m, Enqueued q m w ∧ EnqueuedAll ws m r

/-- The owner's value of an origin differs from its memory value (R147). -/
def State.behind (s : State) (o : Origin) (w : OwnWrite) : Prop :=
  w.origin = o ∧ s.originAddr o = some w.addr ∧ s.ownerValue o = some w.value ∧
    knownAt s.mwq.known w.addr.toNat ≠ some w.value

/-- The queue `q` as a re-derivation leaves that of `u` (R147): every mark up to the first marked origin, in repaint order,
whose owner's value differs from its memory value is gone, and that origin is enqueued. That a marked field with no derived
shown value counts as needing no write is the model's choice (log 26). -/
structure Rederived (u : State) (q : Mwq) : Prop where
  settled : (∀ o ∈ u.mwq.marks, ∀ w, ¬ u.behind o w) → q = { u.mwq with marks := [] }
  first : ∀ before o after w, u.mwq.marks = before ++ o :: after → (∀ p ∈ before, ∀ v, ¬ u.behind p v) →
    u.behind o w → Enqueued { u.mwq with marks := after } q w

/-- The notice of the field drain, given once after a STANDBY entry when no field write is queued, marked or on its way
(R152); `q` is the queue before the notice and `drain` what is sent. -/
def State.drainNoticed (s : State) (q r : Mwq) (drain : List Msg) : Prop :=
  let complete : Prop := s.csu.op = .standby ∧ q.drainGiven = false ∧ (∀ e ∈ q.queue, ∀ i, e.origin ≠ .field i) ∧
    (∀ o ∈ q.marks, ∀ i, o ≠ .field i) ∧ ∀ ws, Msg.ownWrites .fsu ws ∉ s.inFlight
  (complete → r = { q with drainGiven := true } ∧ drain = [.drain]) ∧ (¬ complete → r = q ∧ drain = [])

/-! ## Computer cycles -/

/-- The computer's cycle need not wait for an own write: the turn is COMPUTER, or no own write waits (R149). -/
def State.portFree (s : State) : Prop := s.mwq.queueTurn = false ∨ s.mwq.queue = []

/-- Memory after a write of one word: that word, and every other address as before. -/
def Memory.oneWord (before after : Memory) (a : Addr) (w : Word) : Prop :=
  ∀ x, after.read x = if x = a.toNat then w else before.read x

/-- A computer read is taken (R19, R149, R151): where the queue waits and has the turn its head is granted first; then the
word memory holds is passed back, the turn goes to QUEUE, and nothing else changes. -/
def ReadTaken (s t : State) (a : Addr) : Prop :=
  ∃ u, (s.portFree → u = s) ∧ (¬ s.portFree → exec .ownWriteGrant s = .next u) ∧
    t = { u with held := none, answer := some (u.mem.read a.toNat), mwq := { u.mwq with queueTurn := true } }

/-- Memory has received the word x at an address from a computer write, and the queue has followed (R22, R148, R149):
no own write and no mark is left for the address, every other queue entry and every other mark is as it was, and the
place that an entry of the address frees is filled by re-derivation (R147). That no request in flight is left for the
address is the model's choice (log 10). `sent` are the hand-overs that the owner of the word adds; before them a
supersede in STANDBY may complete the field drain (R152). -/
structure Received (s t : State) (a : Addr) (x : Word) (sent : List Msg) : Prop where
  memory : s.mem.oneWord t.mem a x
  held : t.held = none
  turn : t.mwq.queueTurn = true
  gone : t.mwq.holds a = false
  marks : ∀ o ∈ t.mwq.marks, s.originAddr o ≠ some a
  known : s.originAt a ≠ none → knownAt t.mwq.known a.toNat = some x
  queue : ∃ fresh : List Addr, fresh.length ≤ 1 ∧
    t.mwq.queue.map (·.addr) = (s.mwq.queue.filter fun e => e.addr != a).map (·.addr) ++ fresh
  sent : ∃ (u : State) (q : Mwq) (drain : List Msg),
    u = { s with
      mem := u.mem, inFlight := dropRequests a s.inFlight
      mwq := { s.mwq with
        queue := s.mwq.queue.filter fun e => e.addr != a, queueTurn := true, known := u.mwq.known
        marks := s.mwq.marks.filter fun o => s.originAddr o != some a } } ∧
    (∀ y, knownAt u.mwq.known y = if y = a.toNat ∧ s.originAt a ≠ none then some x else knownAt s.mwq.known y) ∧
    ((∀ e ∈ s.mwq.queue, e.addr ≠ a) → q = u.mwq ∧ t.mwq = q ∧ drain = []) ∧
    ((∃ e ∈ s.mwq.queue, e.addr = a) → (QueueLaw s.mwq → Rederived u q) ∧ u.drainNoticed q t.mwq drain) ∧
    t.inFlight = dropRequests a s.inFlight ++ drain ++ sent

/-- What a write that memory does not receive leaves of the port: the computer has had its turn, and nothing else of
memory or the queue is changed (R21, R22). -/
def State.suppressed (s : State) : State := { s with held := none, mwq := { s.mwq with queueTurn := true } }

/-- A line of the catalogue of internal messages (R100). -/
def catalogue (code : Nat) (severity : Severity) (text : Nat) : FaultMsg :=
  { unit := 15, code := BitVec.ofNat 12 code, severity := severity, text := BitVec.ofNat 10 text }

/-- What a write to record i that finds this correction count sends: at the eighth correction in a row a RAISE of
200h+i and event PC, at a pass that finds the count at 8 a CLEAR (R11, R12). -/
def correctionMsgs (i count : Nat) (corrected : Bool) : List Msg :=
  if corrected then
    if count = 7 then [.fault .fsu (.raise (catalogue (0x200 + i) .b 970)), .events .fsu [.pc]] else []
  else if count = 8 then [.fault .fsu (.clear (catalogue (0x200 + i) .b 970))] else []

/-- The stale fault of a record of a kind (R136). -/
def staleFault (kind : Kind) (i : Nat) : FaultMsg :=
  match kind with
  | .actual | .permitted | .target | .aspect => catalogue (0x100 + i) .b 969
  | .lamps | .faultSlot | .watched => catalogue (0x100 + i) .c 969

/-- What a change of the silent flag sends (R141). -/
def silentMsgs (before after : Bool) : List Msg :=
  match before, after with
  | false, true => [.fault .fsu (.raise (catalogue 0x020 .a 968))]
  | true, false => [.fault .fsu (.clear (catalogue 0x020 .a 968))]
  | false, false | true, true => []

/-- What the FSU sends as a record leaves STALE, or not STALE stays as it was (R140). -/
def leavingMsgs (r : Record) (i : Nat) (table : List Record) (before : Bool) : List Msg :=
  if r.state = .stale then
    [.report .fsu [.staleSet (staleBitmap table)], .fault .fsu (.clear (staleFault r.fixed.kind i)), .staleNotice false]
      ++ silentMsgs before (silentHolds table)
  else []

/-- A record after a computer write of w that memory received, or would have received, as x (R7, R11, R12, R25). -/
def Record.after (r : Record) (op : OpState) (now : Nat) (w x : Word) (corrected : Bool) : Record :=
  { r with state := if corrected then .corrected else .live
           written := some w
           shown := if op = .running then some x else r.shown
           age := if op = .running ∧ 0 < r.fixed.period then some (now + r.fixed.period) else r.age
           count := if corrected then min 8 (r.count + 1) else 0 }

/-- A computer write of w to record i, taken in RUNNING, that memory receives as x (R24): the record, the correction
fault and what leaving STALE sends. `others` are the records the write reaches besides (R68), `cascade` what it hands
on for them, and `last` what the record's kind hands on. -/
structure FieldTaken (s t : State) (a : Addr) (i : Nat) (r : Record) (w x : Word) (corrected : Bool)
    (cascade last : List Msg) : Prop where
  rest : SameButFields s t
  record : t.fsu.table[i]? = some (r.after .running s.now w x corrected)
  silent : t.fsu.silent = if r.state = .stale then silentHolds t.fsu.table else s.fsu.silent
  received : Received s t a x
    (cascade ++ correctionMsgs i r.count corrected ++ leavingMsgs r i t.fsu.table s.fsu.silent ++ last)

/-- The computer's write is taken in RUNNING to record i, which supervises its address (R20), with the port free. -/
structure FieldWrite (s : State) (op : OpState) (a : Addr) (i : Nat) (r : Record) (kind : Kind) : Prop where
  op : s.csu.op = op
  free : s.portFree
  wf : s.mem.wf = true
  area : a.toNat < 0x1E00
  decoded : fieldAt s.fsu.table a = some i
  record : s.fsu.table[i]? = some r
  kind : r.fixed.kind = kind

/-! ## What the TCU hands on, and the entries -/

/-- What one operation of the TCU from `t` to `u` hands on (R90): its fault messages; to the ANU a change into or out of
HOLDING and LOST and a change of territory; a displayed aspect whose number changed, or that is delivered anew (`again`,
R91), to the FSU with C, the lower of its table ceiling and Vmax (R59, R77), and to the ANU with its rank; and to the RPU
the items that changed, 1F06h with C as its ceiling. -/
def tcuSends (vmax : Nat) (t u : Tcu) (faults : List FluRequest) (again : Bool) : List Msg :=
  let lost := fun x : Tcu => decide (x.state = .holding ∨ x.state = .lost)
  let moved : Prop := again = true ∨ t.displayed.map Aspect.number ≠ u.displayed.map Aspect.number
  let items : List ReportItem :=
    (if t.lastSampled ≠ u.lastSampled ∨ t.confirmed ≠ u.confirmed ∨
        t.received.map Aspect.number ≠ u.received.map Aspect.number
      then [.codes u.lastSampled u.confirmed (u.received.map Aspect.number)] else [])
      ++ (if t.state ≠ u.state then [.codeState u.state] else [])
      ++ (if t.uncoded ≠ u.uncoded then [.territory u.uncoded] else [])
      ++ (if moved then [.displayed (u.displayed.map fun a => { a with ceiling := min a.ceiling vmax })] else [])
  faults.map (Msg.fault .tcu)
    ++ (if lost t ≠ lost u then [.functionInput (.codeLost (lost u))] else [])
    ++ (if t.uncoded ≠ u.uncoded then [.functionInput (.uncoded u.uncoded)] else [])
    ++ (if moved then
        match u.displayed with
        | some a => [.delivery a.number (min a.ceiling vmax), .rank a.rank]
        | none => []
      else [])
    ++ (if items = [] then [] else [.report .tcu items])

/-- The RAISE of 010h of an entry to LOST, in CODED territory only (R84). -/
def lossRaise (uncoded : Bool) : List FluRequest := if uncoded then [] else [.raise (catalogue 0x010 .b 966)]

/-- The displayed aspect of a TCU is the one its territory, received aspect and written aspect give (R89). -/
structure DisplayRule (t : Tcu) : Prop where
  codedAbsent : t.uncoded = false → t.writtenAspect = none → t.displayed = t.received
  codedLower : ∀ w r, t.uncoded = false → t.writtenAspect = some w → t.received = some r → w.rank < r.rank →
    t.displayed = some w
  codedOther : ∀ w r, t.uncoded = false → t.writtenAspect = some w → t.received = some r → r.rank ≤ w.rank →
    t.displayed = some r
  uncodedAbsent : t.uncoded = true → t.writtenAspect = none → t.displayed = lossAspect t.aspects
  uncodedPresent : ∀ w, t.uncoded = true → t.writtenAspect = some w → t.displayed = some w

/-- The TCU `u` becomes `t` by taking this received aspect: it changes with its number alone, and the displayed aspect
is then recomputed (R80). -/
structure ReceivesAspect (u t : Tcu) (a : Option Aspect) : Prop where
  same : numberOf a = numberOf u.received → t = u
  changed : numberOf a ≠ numberOf u.received →
    t = { u with received := a, displayed := t.displayed } ∧ DisplayRule t

/-- An entry to LOST (R80, R82, R83): the received aspect becomes the loss aspect. -/
def LostEntered (u t : Tcu) : Prop :=
  ReceivesAspect { u with state := .lost, hold := none } t (lossAspect u.aspects)

/-- FALLBACK as a load that ends so enters it (R153, R162, R179), with the load state it shows. That every hand-over in
flight is dropped at the entry is the model's choice (log 12). -/
structure FallbackEntered (s t : State) (verdict : Verdict) (failures : Nat) (failOff : BitVec 8) : Prop where
  csu : t.csu = { s.csu with op := .fallback, fbk := true, load := none, verdict := verdict, failures := failures
                             failOff := failOff, shadow := t.csu.shadow }
  rpu : t.rpu = { s.rpu with
    op := .fallback, standbyReq := false, events := s.rpu.events ||| 0x0800, intr := t.rpu.intr, bitmap := 0
    verdict := verdict, failures := failures, failOff := failOff }
  intr : InterruptLaw t.rpu
  state : ∃ v v' : Word,
    v.toNat = 4 + 16 * s.rpu.codeState.code + 64 * s.rpu.stage.code + 256 * s.rpu.uncoded.toNat
      + 512 * s.rpu.lampTest.toNat + 1024 * s.rpu.restriction.toNat ∧
    v'.toNat = verdict.code + 8 * (failures % 4) + 256 * failOff.toNat ∧
    t.mwq.queue = [{ addr := 0x1F00, value := v, origin := .report 0 }, { addr := 0x1F0E, value := v', origin := .report 14 }]
  known : ∀ e ∈ t.mwq.queue, knownAt t.mwq.known e.addr.toNat = some e.value
  marks : t.mwq.marks = []
  inFlight : t.inFlight = []
  flu : t.flu = { s.flu with partialMsg := .none }
  anu : t.anu = { s.anu with sounding := .none, buz := false, cadence := none }
  rest : t.asu = s.asu ∧ t.tcu = s.tcu ∧ t.fsu = s.fsu ∧ t.now = s.now ∧ t.pending = s.pending ∧ t.reads = s.reads ∧
    t.answer = s.answer

/-- What an UNSET or FAULT_SLOT record shows at a RUNNING entry (R6, R15): the selected speed is 0, and the displayed
aspect is the loss aspect. -/
def entryShown (fns : LampValues) (loss : Option Aspect) (list : List Entry) (rank : Nat) (f : FieldStatic) :
    Option Word :=
  match f.kind with
  | .actual => some 0
  | .permitted | .target => some f.blank
  | .aspect => loss.map fun a => BitVec.ofNat 16 a.number
  | .lamps => some (mergeLamps fns f.lamps f.blank)
  | .watched => none
  | .faultSlot => some (slotWordAt list rank)

/-- What a RUNNING entry with the image `sh` sends before the own writes of its fields (R175): the state and SC (CSU); the
published values and the CLEARs of 001h to 005h (ASU, R57); the displayed aspect, which is the loss aspect, with C and
rank, and the TCU's report items (R90). `last` is the last sampled code. -/
def entrySends (sh : Memory) (last : BitVec 4) : List Msg :=
  let loss := lossAspect sh.aspectTable
  [.report .csu [.opState .running false], .events .csu [.sc],
    .speed { selected := some 0, d := some 0 },
    .completion { selected := some 0, direction := .none, failed1 := false, failed2 := false, persistent := false
                  dirDis := false },
    .report .asu [.published { selected := some 0, supplier := some .one, d := some 0, v1 := 0, v2 := 0
                               failed1 := false, failed2 := false, dir1 := .none, dir2 := .none, direction := .none
                               persistent := false, dirDis := false }],
    .fault .asu (.clear (catalogue 0x001 .b 961)), .fault .asu (.clear (catalogue 0x002 .b 962)),
    .fault .asu (.clear (catalogue 0x003 .b 963)), .fault .asu (.clear (catalogue 0x004 .b 964)),
    .fault .asu (.clear (catalogue 0x005 .a 965))]
    ++ (match loss with
        | some a => [.delivery a.number (min a.ceiling sh.imgVmax), .rank a.rank]
        | none => [])
    ++ [.report .tcu [.codes last none (loss.map Aspect.number), .codeState .acquiring, .territory false,
          .displayed (loss.map fun a => { a with ceiling := min a.ceiling sh.imgVmax })]]

/-- A RUNNING entry with the image `sh` (R175): each block at its entry values, and what each hands on at the entry, after
what is in flight already. That the entry sets the receivers' copies itself as well is the model's choice (log 16). -/
structure RunningEntered (sh : Memory) (s t : State) (inFlight : List Msg) : Prop where
  asu : t.asu = { Asu.reset with limits := some (limitsOf sh), window := some (s.now + sh.imgW) }
  tcu : t.tcu = { Tcu.reset with aspects := sh.aspectTable, lastSampled := s.tcu.lastSampled
                                 received := lossAspect sh.aspectTable, displayed := lossAspect sh.aspectTable
                                 loss := some (s.now + sh.imgTloss) }
  size : t.fsu.table.length = sh.imgN
  records : ∀ i < sh.imgN, ∃ r, t.fsu.table[i]? = some r ∧ r.fixed = sh.fieldStatic i ∧
    r.state = (if r.fixed.kind = .faultSlot then .live else .unset) ∧ r.written = none ∧ r.count = 0 ∧
    r.age = (if 0 < r.fixed.period then some (s.now + r.fixed.period) else none) ∧
    r.shown = entryShown s.fsu.fns (lossAspect sh.aspectTable) s.flu.list (slotRank t.fsu.table i) r.fixed
  fsu : t.fsu.speed = some { selected := some 0, d := some 0 } ∧ t.fsu.pr = t.fsu.ceiling ∧ t.fsu.lampTest = false ∧
    t.fsu.silent = false ∧ ∀ a, lossAspect sh.aspectTable = some a → t.fsu.ceiling = some (min a.ceiling sh.imgVmax)
  anu : t.anu = { t.anu with
    stage := .normal, reference := none, pendingAck := false, ackTimer := none, phase := true
    copy := some { selected := some 0, direction := .none, failed1 := false, failed2 := false, persistent := false
                   dirDis := false }
    rank := (lossAspect sh.aspectTable).map Aspect.rank, flash := some (s.now + 500), staleCount := 0
    slots := t.fsu.table.countP fun r => r.fixed.kind == .faultSlot, codeLost := false, uncoded := false
    lockout := none, testActive := false, test := none }
  functions : FunctionLaw .running t.anu
  buzzer : t.anu.sounding = (if t.anu.summary.anyAUnacked then .intermittent else .none) ∧
    t.anu.buz = t.anu.summary.anyAUnacked ∧
    t.anu.cadence = if t.anu.summary.anyAUnacked then some (s.now + 500) else none
  sent : ∃ ws : List OwnWrite,
    (∀ w, w ∈ ws ↔ ∃ (i : Nat) (r : Record), t.fsu.table[i]? = some r ∧ r.shown = some w.value ∧
      w.addr = r.fixed.addr ∧ w.origin = .field i) ∧
    ws.Pairwise (fun v w => v.origin.before w.origin = true) ∧
    t.inFlight = inFlight ++ entrySends sh s.tcu.lastSampled ++ (if ws = [] then [] else [.ownWrites .fsu ws])
      ++ [.newPr t.fsu.reference, .report .fsu [.staleSet 0], .fault .fsu (.clear (catalogue 0x020 .a 968))]
      ++ [LampFn.overspeed, .speedUnknown, .codeLost, .restrictAck, .faultA, .faultAny, .faultMore, .staleAny, .dirFwd,
          .dirRev, .uncoded, .channelFault].map (fun f => .lampFunction f (t.anu.fns.get f))
      ++ [.fault .anu (.clear (catalogue 0x011 .a 967))]
  rest : t.flu = s.flu ∧ t.now = s.now ∧ t.pending = s.pending ∧ t.reads = s.reads ∧ t.answer = s.answer

/-! ## The axle channels -/

/-- A rising edge counted: forward with B high, reverse with B low, each a 16-bit count that wraps (R36). -/
structure EdgeCounted (c d : AxleState) (b : Bool) : Prop where
  fwd : d.fwd.toNat = if b then (c.fwd.toNat + 1) % 65536 else c.fwd.toNat
  rev : d.rev.toNat = if b then c.rev.toNat else (c.rev.toNat + 1) % 65536
  rest : d = { c with fwd := d.fwd, rev := d.rev }

/-- The net count of a window (R39). -/
def netCount (c : AxleState) : Int :=
  ((c.fwd.toNat : Int) - c.baseFwd.toNat) % 65536 - ((c.rev.toNat : Int) - c.baseRev.toNat) % 65536

/-- A window result of speed v is plausible (R42). -/
def isPlausible (vp l : Nat) (vPrev : Option Nat) (v : Nat) : Prop :=
  v ≤ vp ∧ ∀ x, vPrev = some x → v ≤ x + l ∧ x ≤ v + l

/-- Stages 1 to 4 of a completion for a channel of this diameter and acceleration limit (R39, R40, R42–R44). -/
structure ChannelMeasured (sh : Memory) (diameter vp l : Nat) (c d : AxleState) : Prop where
  latched : d.fwd = c.fwd ∧ d.rev = c.rev ∧ d.baseFwd = c.fwd ∧ d.baseRev = c.rev
  direction : d.dir = if 0 < netCount c then .forward else if netCount c < 0 then .reverse else .none
  speed : ∃ q, d.v = min 4000 q ∧
    isRounded q ((netCount c).natAbs * 31416 * diameter * 36) (10000 * sh.imgP * sh.imgW)
  vPrev : d.vPrev = some d.v
  good : c.failed = false → (d.failed = true ↔ ¬ isPlausible vp l c.vPrev d.v) ∧ d.recovery = 0
  failed : c.failed = true →
    (¬ isPlausible vp l c.vPrev d.v → d.failed = true ∧ d.recovery = 0) ∧
    (isPlausible vp l c.vPrev d.v →
      (c.recovery < 4 → d.failed = true ∧ d.recovery = c.recovery + 1) ∧
      (4 ≤ c.recovery → d.failed = false ∧ d.recovery = 0))

/-- The limits of R41 from the parameters of an image. -/
structure LimitsLaw (sh : Memory) (lim : Limits) : Prop where
  quantum1 : isRounded lim.q1 (31416 * sh.imgD1 * 36) (10000 * sh.imgP * sh.imgW)
  quantum2 : isRounded lim.q2 (31416 * sh.imgD2 * 36) (10000 * sh.imgP * sh.imgW)
  acceleration : ∃ a, isRounded a (sh.imgAmax * sh.imgW) 1000 ∧ lim.l1 = max a (2 * lim.q1) ∧
    lim.l2 = max a (2 * lim.q2)
  speed : lim.vp = sh.imgVmax * 10 * 5 / 4

/-- The image in force: in RUNNING and STANDBY the shadow holds an image that passes both stages of the check
(R166–R168, R171), the ASU holds its limits (R41) and the TCU its aspect table (R76), and the measuring window runs
there and nowhere else (R38). -/
structure ImageLaw (s : State) : Prop where
  passes : s.csu.op.hasTable = true → imageCrc s.csu.shadow = s.csu.shadow.read 255 ∧
    ∀ o < 32 + 4 * min s.csu.shadow.imgN 48, wordFault s.csu.shadow o = false
  limits : s.csu.op.hasTable = true → ∃ lim, s.asu.limits = some lim ∧ LimitsLaw s.csu.shadow lim
  aspects : s.csu.op.hasTable = true → s.tcu.aspects = s.csu.shadow.aspectTable
  window : s.asu.window ≠ none ↔ s.csu.op.hasTable = true

/-- A fault message of a condition, where it began or ended (R55, R100). -/
def changeMsg (sender : Block) (before after : Bool) (m : FaultMsg) : List Msg :=
  if before = after then [] else [.fault sender (if after then .raise m else .clear m)]

/-! ## What the FSU hands on -/

/-- The requests of an operation that takes the field table from `before` to `after` (R16), with `s` as the operation
finds what the part last caused memory to hold. That a request in flight counts there is the model's choice (log 10). -/
def FieldsHanded (s : State) (before after : List Record) (sent : List Msg) : Prop :=
  ∃ ws : List OwnWrite, sent = (if ws = [] then [] else [.ownWrites .fsu ws]) ∧
    ∀ w, w ∈ ws ↔ ∃ (i : Nat) (q r : Record), before[i]? = some q ∧ after[i]? = some r ∧ q.shown ≠ r.shown ∧
      r.shown = some w.value ∧ s.lastCaused r.fixed.addr ≠ r.shown ∧ w.addr = r.fixed.addr ∧ w.origin = .field i

/-! ## The annunciation unit -/

/-- A re-evaluation of these functions: each takes the value its inputs give, and each changed one is handed to the FSU
(R119); outside RUNNING and STANDBY nothing is evaluated. -/
structure FunctionsHanded (op : OpState) (before after : Anu) (fs : List LampFn) (sent : List Msg) : Prop where
  evaluated : op.hasTable = true → ∀ f ∈ fs, after.fns.get f = true ↔ after.lights f
  others : ∀ f, op.hasTable = false ∨ f ∉ fs → after.fns.get f = before.fns.get f
  sent : sent = (fs.filter fun f => before.fns.get f != after.fns.get f).map fun f => .lampFunction f (after.fns.get f)

/-- The buzzer of one unit sounds as that of another. -/
def Anu.soundsAs (b a : Anu) : Prop := b.sounding = a.sounding ∧ b.buz = a.buz ∧ b.cadence = a.cadence

/-- The buzzer after an operation that may have changed the demands (R120, R121): while RUNNING the highest demanded
pattern sounds, from its beginning where another sounded before. -/
structure BuzzerFollows (op : OpState) (now : Nat) (before after : Anu) : Prop where
  outside : op ≠ .running → after.soundsAs before
  stays : op = .running → ∀ p, after.mustSound p → before.sounding = p → after.soundsAs before
  begins : op = .running → ∀ p, after.mustSound p → before.sounding ≠ p →
    after.sounding = p ∧ after.buz = true ∧
      after.cadence = (if p = .continuous then none else some (now + if p = .intermittent then 500 else 300))
  ends : op = .running → (∀ p, ¬ after.demands p) →
    if before.sounding = .chime ∨ before.sounding = .none then after.soundsAs before
    else after.sounding = .none ∧ after.buz = false ∧ after.cadence = none

/-- The stage of a known speed v against a reference r (R70, R71). -/
structure StageMoves (mw ma r v : Nat) (before after : Stage) : Prop where
  fromNormal : before = .normal ∨ before = .suspended →
    after = if r + ma < v then .alarm else if r + mw < v then .warning else .normal
  fromWarning : before = .warning →
    after = if r + ma < v then .alarm else if v = 0 ∨ v + 10 ≤ r + mw then .normal else .warning
  fromAlarm : before = .alarm →
    after = if v = 0 ∨ v + 10 ≤ r + mw then .normal else if v = 0 ∨ v + 10 ≤ r + ma then .warning else .alarm

/-- The ANU takes an input: `a` is its state with that input, to which the functions the event reaches and the buzzer
follow at once; then come the hand-overs of the functions, and `more` (R117, R119, R120). -/
structure InputTaken (s t : State) (a : Anu) (rest : List Msg) (fs : List LampFn) (more : List Msg) : Prop where
  anu : t.anu = { a with fns := t.anu.fns, sounding := t.anu.sounding, buz := t.anu.buz, cadence := t.anu.cadence }
  buzzer : BuzzerFollows s.csu.op t.now s.anu t.anu
  sent : ∃ fns, FunctionsHanded s.csu.op s.anu t.anu fs fns ∧ t.inFlight = rest ++ fns ++ more
  rest : t = { s with now := t.now, inFlight := t.inFlight, anu := t.anu }

/-- One evaluation of the stage, `a` being the ANU with the input that the evaluation takes: the stage, its events and
its place in the state word (R71, R73, R74). -/
structure StageEvaluated (s t : State) (a : Anu) (rest : List Msg) (fs : List LampFn) : Prop where
  unknown : ∀ c, a.copy = some c → c.selected = none → t.anu.stage = .suspended
  known : ∀ c v r, a.copy = some c → c.selected = some v → a.reference = some r →
    StageMoves s.csu.shadow.imgMw s.csu.shadow.imgMa r v s.anu.stage t.anu.stage
  absent : a.copy = none ∨ (∃ c v, a.copy = some c ∧ c.selected = some v ∧ a.reference = none) →
    t.anu.stage = s.anu.stage
  taken : InputTaken s t { a with stage := t.anu.stage } rest fs
    ((if t.anu.stage = .warning ∧ (s.anu.stage = .normal ∨ s.anu.stage = .suspended) then [.events .anu [.ow]]
      else if t.anu.stage = .alarm ∧ s.anu.stage ≠ .alarm then [.events .anu [.oa]] else [])
      ++ (if t.anu.stage = s.anu.stage then [] else [.report .anu [.stage t.anu.stage]]))

/-- A CHIME request is taken, by what sounds at that moment (R122). -/
structure ChimeTaken (op : OpState) (now : Nat) (before after : Anu) : Prop where
  dropped : op ≠ .running ∨ before.sounding = .continuous ∨ before.sounding = .intermittent → after.soundsAs before
  absorbed : op = .running → before.sounding = .repeatChime →
    after.sounding = .repeatChime ∧ after.buz = true ∧ after.cadence = some (now + 300)
  sounds : op = .running → before.sounding = .chime ∨ before.sounding = .none →
    after.sounding = .chime ∧ after.buz = true ∧ after.cadence = some (now + 300)

/-! ## The fault list -/

/-- The entry that a message makes, with its arrival number (R105). -/
def newEntry (m : FaultMsg) (arrival : BitVec 16) : Entry :=
  { unit := m.unit, code := m.code, severity := m.severity, text := m.text, state := .activeUnacked, arrival := arrival }

/-- A new entry is inserted at the place its keys give it (R102, R103, R105), after a rebase where the counter has come
round to the base. -/
structure Inserted (f g : Flu) (m : FaultMsg) : Prop where
  law : FaultListLaw g
  message : g.partialMsg = f.partialMsg
  plain : f.list = [] ∨ f.base ≠ some f.counter →
    g.list.Perm (newEntry m f.counter :: f.list) ∧ g.counter = f.counter + 1 ∧
      g.base = if f.list = [] then some f.counter else f.base
  rebased : f.list ≠ [] → f.base = some f.counter →
    g.list.Perm (newEntry m (BitVec.ofNat 16 f.list.length) :: f.list.map fun e =>
      { e with arrival := BitVec.ofNat 16
                 (f.list.countP fun x => decide ((x.arrival - f.counter).toNat < (e.arrival - f.counter).toNat)) }) ∧
      g.counter = BitVec.ofNat 16 f.list.length + 1 ∧ g.base = some 0

/-- An entry leaves the list; the base moves where it defined it (R102). -/
def Removed (f g : Flu) (e : Entry) : Prop :=
  FaultListLaw g ∧ g = { f with list := f.list.erase e, base := g.base }

/-- An entry of the list takes the place its new keys give it (R103). -/
def Resorted (f g : Flu) (old e : Entry) : Prop :=
  FaultListLaw g ∧ g = { f with list := g.list } ∧ g.list.Perm (e :: f.list.erase old)

/-- What an operation of the FLU hands on with these events and this chime (R110): where the list changed, to the FSU its
first S entries, to the ANU the summary and to the RPU the whole list; with no field table, in LOADING, the FSU's has no
effect and is not sent. A CHIME requested outside RUNNING is dropped. -/
def State.listSends (t : State) (changed : Bool) (events : List Event) (chime : Bool) : List Msg :=
  let list := t.flu.list
  let unseen := fun e : Entry => decide (e.state = .activeUnacked ∨ e.state = .clearedUnacked)
  (if changed then
      (if t.csu.op = .running ∨ t.csu.op = .standby then
          [.listFsu (list.take (t.fsu.table.countP fun r => r.fixed.kind == .faultSlot))] else [])
        ++ [.listAnu { anyAUnacked := list.any fun e => unseen e && decide (e.severity = .a)
                       anyUnacked := list.any unseen, entries := list.length, unacked := list.countP unseen },
            .listRpu list]
    else [])
    ++ (if events = [] then [] else [.events .flu events])
    ++ (if chime = true ∧ t.csu.op = .running then [.chime] else [])

/-! ## The report unit -/

/-- Every report and mirror word is laid out from the RPU's items as 13.6 and 13.7 give it. -/
structure ReportLayout (r : Rpu) : Prop where
  state : (r.content 0).toNat = r.op.code + 8 * r.standbyReq.toNat + 16 * r.codeState.code + 64 * r.stage.code
    + 256 * r.uncoded.toNat + 512 * r.lampTest.toNat + 1024 * r.restriction.toNat
  selected : (r.asu.selected = none → r.content 1 = 0xFFFF) ∧
    ∀ v < 65536, r.asu.selected = some v → (r.content 1).toNat = v
  speeds : (r.asu.v1 < 65536 → (r.content 2).toNat = r.asu.v1) ∧ (r.asu.v2 < 65536 → (r.content 3).toNat = r.asu.v2)
  channels : (r.content 4).toNat = r.asu.failed1.toNat + 2 * r.asu.failed2.toNat + 4 * r.asu.dir1.code
    + 16 * r.asu.dir2.code + 64 * r.asu.direction.code + 256 * r.asu.persistent.toNat + 512 * r.asu.dirDis.toNat
  codes : ∀ n < 8, r.receivedNo = none ∨ r.receivedNo = some n → (r.content 5).toNat = r.lastSampled.toNat
    + (match r.confirmed with
       | some c => 16 * c.toNat
       | none => 256)
    + (if r.receivedNo = none then 4096 else 512 * n)
  displayed : (r.displayed = none → r.content 6 = 0xFFFF) ∧
    ∀ a, r.displayed = some a → a.number < 8 → a.rank < 8 → a.ceiling < 512 →
      (r.content 6).toNat = a.number + 8 * a.rank + 64 * a.ceiling
  events : r.content 7 = r.events ∧ r.content 8 = r.enable
  counts : r.list.length ≤ 32 → (r.content 9).toNat = r.list.length + 256 * r.list.countP Entry.unacked
  bitmap : ∀ j < 3, ∀ k < 16, (r.content (10 + j)).getLsbD k = r.bitmap.getLsbD (16 * j + k)
  territory : (r.content 13).toNat = r.uncoded.toNat
  load : (r.content 14).toNat = r.verdict.code + 8 * (r.failures % 4) + 256 * r.failOff.toNat
  cause : (r.content 15).toNat = r.cause.code
  mirror : ∀ p < 32,
    (r.list[p]? = none → r.content (64 + 2 * p) = 0 ∧ r.content (65 + 2 * p) = 0) ∧
    ∀ e, r.list[p]? = some e → (r.content (64 + 2 * p)).toNat = e.code.toNat + 4096 * e.unit.toNat ∧
      (r.content (65 + 2 * p)).toNat = e.text.toNat + 1024 * e.severity.code + 4096 * e.state.code

/-- The items of the RPU that one item of a hand-over sets; the others stay (R155). -/
def ItemSets (r q : Rpu) : ReportItem → Prop
  | .opState op req => q = { r with op := op, standbyReq := req }
  | .codeState st => q = { r with codeState := st }
  | .territory u => q = { r with uncoded := u }
  | .stage st => q = { r with stage := st }
  | .restriction b => q = { r with restriction := b }
  | .lampTest b => q = { r with lampTest := b }
  | .published v => q = { r with asu := v }
  | .codes last confirmed received => q = { r with lastSampled := last, confirmed := confirmed, receivedNo := received }
  | .displayed a => q = { r with displayed := a }
  | .staleSet b => q = { r with bitmap := b }
  | .loadState verdict failures off => q = { r with verdict := verdict, failures := failures, failOff := off }

/-- The items of one hand-over are taken in their order. -/
def ItemsSet : List ReportItem → Rpu → Rpu → Prop
  | [], r, q => q = r
  | i :: is, r, q => ∃ m, ItemSets r m i ∧ ItemsSet is m q

/-- The report words, by offset from 1F00h, that are laid out from an item (R155): the state word, and with the territory
1F0Dh; 1F01h to 1F04h from the published values; 1F05h, 1F06h, 1F0Ah to 1F0Ch and 1F0Eh. -/
def ReportItem.reaches (k : Nat) : ReportItem → Prop
  | .opState _ _ | .codeState _ | .stage _ | .restriction _ | .lampTest _ => k = 0
  | .territory _ => k = 0 ∨ k = 13
  | .published _ => 1 ≤ k ∧ k ≤ 4
  | .codes _ _ _ => k = 5
  | .displayed _ => k = 6
  | .staleSet _ => 10 ≤ k ∧ k ≤ 12
  | .loadState _ _ _ => k = 14

/-- The RPU takes a hand-over that reaches these words: the others keep their content, and one request is handed for
each reached word whose content differs from what the part last caused memory to hold, by increasing offset; a hand-over
that leaves every content as it was hands nothing (R155). That a request in flight counts there is the model's choice
(log 10). -/
structure ReportsHanded (s t : State) (rest : List Msg) (reached : Nat → Prop) : Prop where
  layout : ReportLayout t.rpu
  unreached : ∀ k, ¬ reached k → t.rpu.content k = s.rpu.content k
  requests : ∃ ws : List OwnWrite, t.inFlight = rest ++ (if ws = [] then [] else [.ownWrites .rpu ws]) ∧
    ws.Pairwise (fun v w => v.origin.before w.origin = true) ∧
    ((∀ k < 128, t.rpu.content k = s.rpu.content k) → ws = []) ∧
    ((∃ k < 128, t.rpu.content k ≠ s.rpu.content k) →
      ∀ w, w ∈ ws ↔ ∃ k < 128, reached k ∧ w.origin = .report k ∧ w.addr = BitVec.ofNat 13 (0x1F00 + k) ∧
        w.value = t.rpu.content k ∧ State.lastCaused { s with inFlight := rest } w.addr ≠ some w.value)
  rest : t = { s with inFlight := t.inFlight, rpu := t.rpu }

/-! ## STANDBY and resets -/

/-- What a record shows at the return from STANDBY (R10): the word its kind and state give with the values current at
the return. -/
def returnShown (s : State) (i : Nat) (r : Record) : Option Word :=
  match r.fixed.kind with
  | .actual =>
    match r.state, r.written, s.fsu.speedCopy.selected with
    | .live, some w, some v | .corrected, some w, some v =>
      some (if w.toNat ≤ 400 ∧ 10 * w.toNat ≤ v + r.fixed.tolerance ∧ v ≤ 10 * w.toNat + r.fixed.tolerance then w
        else BitVec.ofNat 16 (s.fsu.speedCopy.d.getD 0))
    | .live, some w, none | .corrected, some w, none => some w
    | _, _, _ =>
      some (match s.fsu.speedCopy.selected, s.fsu.speedCopy.d with
        | some _, some d => BitVec.ofNat 16 d
        | _, _ => r.fixed.blank)
  | .permitted => some (permittedShown s.fsu.c r)
  | .target => some (targetShown s.fsu.reference r)
  | .aspect => s.tcu.displayed.map fun a => BitVec.ofNat 16 a.number
  | .lamps => some (lampsShown s.fsu.lampTest s.fsu.fns r)
  | .watched => watchedShown r
  | .faultSlot => some (slotWordAt s.flu.list (slotRank s.fsu.table i))

/-- A STANDBY entry (R177): every field blanked and handed on with its timer stopped (R10), the restriction, the lamp
test, the flash, the lockout and the buzzer ended (R96, R118, R123, R125, R130), SC and the request flag handed on. What
a lamp test, an older field drain or a press taken before has in flight is dropped (R112; log 13), and the CLEAR of 011h
is sent only where the restriction was pending (log 14). -/
structure StandbyEntered (s t : State) : Prop where
  csu : t.csu = { s.csu with op := .standby }
  table : t.fsu.table = s.fsu.table.map fun r =>
    { r with shown := some (if r.fixed.kind = .faultSlot then 0 else r.fixed.blank), age := none }
  fsu : t.fsu = { s.fsu with table := t.fsu.table, lampTest := false }
  anu : t.anu = { s.anu with
    pendingAck := false, ackTimer := t.anu.ackTimer, phase := true, flash := none, fns := t.anu.fns
    sounding := .none, cadence := none, buz := false, lockout := none, testActive := false, test := none }
  acknowledgement : s.anu.pendingAck = true → t.anu.ackTimer = none
  functions : ∀ f, if f = .overspeed ∨ f = .restrictAck then (t.anu.fns.get f = true ↔ t.anu.lights f)
    else t.anu.fns.get f = s.anu.fns.get f
  sent : ∃ tail : List Msg, t.inFlight =
      (s.inFlight.filter fun m => match m with
        | .lampTest _ | .drain | .fault _ .acknowledge => false
        | _ => true)
      ++ [.events .csu [.sc], .report .csu [.opState .running true]]
      ++ (if t.fsu.table = [] then [] else
        [.ownWrites .fsu (t.fsu.table.mapIdx fun i r =>
          { addr := r.fixed.addr, value := r.shown.getD 0, origin := .field i })]) ++ tail ∧
    (Msg.fault .anu (.clear (catalogue 0x011 .a 967)) ∈ tail ↔ s.anu.pendingAck = true) ∧
    (Msg.report .anu [.restriction false] ∈ tail ↔ s.anu.pendingAck = true) ∧
    (Msg.report .anu [.lampTest false] ∈ tail ↔ s.anu.testActive = true) ∧
    (∀ f v, Msg.lampFunction f v ∈ tail → v = t.anu.fns.get f) ∧
    ∀ f, t.anu.fns.get f ≠ s.anu.fns.get f → Msg.lampFunction f (t.anu.fns.get f) ∈ tail
  drain : t.mwq = { s.mwq with drainGiven := false }
  rest : t = { s with inFlight := t.inFlight, csu := t.csu, fsu := t.fsu, anu := t.anu, mwq := t.mwq }

/-- A return from STANDBY (R178): every record shows what its kind and state give now, by R8 where it is rechecked, with
a full period of its timer (R10), and every such value is handed on; the flash restarts on, and the highest demanded
pattern sounds from its beginning (R118, R123). -/
structure StandbyLeft (s t : State) : Prop where
  csu : t.csu = { s.csu with op := .running }
  fsu : t.fsu = { s.fsu with table := t.fsu.table }
  size : t.fsu.table.length = s.fsu.table.length
  table : ∀ (i : Nat) (r : Record), s.fsu.table[i]? = some r → t.fsu.table[i]? = some { r with
    shown := returnShown s i r
    age := if 0 < r.fixed.period then some (s.now + r.fixed.period) else none
    state := if (r.state = .live ∨ r.state = .corrected) ∧ returnShown s i r ≠ none ∧
        (r.fixed.kind = .actual ∨ r.fixed.kind = .permitted ∨ r.fixed.kind = .target ∨ r.fixed.kind = .aspect)
      then (if r.written = returnShown s i r then .live else .corrected) else r.state }
  anu : t.anu = { s.anu with phase := true, flash := some (s.now + 500), fns := t.anu.fns, sounding := t.anu.sounding
                             buz := t.anu.buz, cadence := t.anu.cadence }
  buzzer : BuzzerFollows .running s.now s.anu t.anu
  sent : ∃ (ws : List OwnWrite) (fns : List Msg), FunctionsHanded .running s.anu t.anu [.overspeed, .restrictAck] fns ∧
    t.inFlight = s.inFlight ++ [.events .csu [.sc], .report .csu [.opState .running false]]
      ++ (if ws = [] then [] else [.ownWrites .fsu ws]) ++ fns ∧
    ∀ w, w ∈ ws ↔ ∃ (i : Nat) (r : Record), t.fsu.table[i]? = some r ∧ r.shown = some w.value ∧
      w.addr = r.fixed.addr ∧ w.origin = .field i
  rest : t = { s with inFlight := t.inFlight, csu := t.csu, fsu := t.fsu, anu := t.anu }

/-- The part in RESET (R57, R81, R132, R154, R156, R172, R174), a power reset or a warm one. -/
structure InReset (s t : State) (power : Bool) : Prop where
  asu : t.asu = Asu.reset
  tcu : t.tcu = Tcu.reset
  fsu : t.fsu = Fsu.reset
  anu : t.anu = Anu.reset s.anu.ackb.line s.anu.ltstb.line
  mwq : t.mwq = Mwq.reset
  rpu : t.rpu = Rpu.reset
  csu : t.csu = { Csu.reset with
    pwrg := t.csu.pwrg, wrst := t.csu.wrst, powerReset := power, solo := s.csu.solo, cabLine := s.csu.cabLine
    cause := s.csu.cause, shadow := if power then [] else s.csu.shadow, locked := if power then false else s.csu.locked }
  rest : t.mem = s.mem ∧ t.held = s.held ∧ t.now = s.now ∧ t.pending = s.pending ∧ t.reads = s.reads ∧
    t.answer = s.answer ∧ t.inFlight = []

/-- In RESET every block holds its values after a reset (R57, R81, R132, R154, R156, R163, R174, R176), and nothing is in
flight (R172). -/
structure ResetLaw (s : State) : Prop where
  blocks : s.csu.op = .reset → s.asu = Asu.reset ∧ s.tcu = Tcu.reset ∧ s.fsu = Fsu.reset ∧
    s.anu = Anu.reset s.anu.ackb.line s.anu.ltstb.line ∧ s.mwq = Mwq.reset ∧ s.rpu = Rpu.reset
  load : s.csu.op = .reset → s.csu.failures = 0 ∧ s.csu.verdict = .pending ∧ s.csu.failOff = 0 ∧ s.csu.load = none ∧
    s.csu.cabActive = true ∧ s.csu.cabTimer = none ∧ s.csu.fbk = false
  quiet : s.csu.op = .reset → s.inFlight = [] ∧ s.flu.partialMsg = .none

/-- The command ends the last source of RESET, at this ms: the settle time runs out with WRST high, or WRST rises with
PWRG high and no settle time (R172). -/
def State.releasedBy (s : State) (c : Instr) (solo : Bool) (now : Nat) : Prop :=
  (c = .settleTimeExpiry solo ∧ s.csu.wrst = true ∧ ∃ e, s.csu.settle = some e ∧ now = max s.now e) ∨
  (c = .wrstRise solo ∧ s.csu.wrst = false ∧ s.csu.pwrg = true ∧ s.csu.settle = none ∧ now = s.now)

/-- A release (R173) as it leaves the part `u` to the cycle held through RESET, a write or a read, which is then decoded
and taken there (R18). -/
def HeldTaken (s u t : State) : Prop :=
  (s.held = none → t = u) ∧ (∀ a w, s.held = some (.write a w) → exec (.plainWrite a w) u = .next t) ∧
    ∀ a, s.held = some (.read a) → ReadTaken u t a

/-- What every release leaves (R112, R124, R154, R156, R173, R176): the SOLO latch, the filters started at the levels of
their lines, the list in the ANU's summary, and the RPU's contents with all eighty of its words requested, the first
sixteen queued and the rest marked. `op` is the state entered. That the requests, the list and the load state have been
taken within the release is the model's choice (log 11). -/
structure Released (s t : State) (solo : Bool) (now : Nat) (op : OpState) (cause : Cause) : Prop where
  csu : t.csu.op = op ∧ t.csu.solo = solo ∧ t.csu.cause = cause ∧ t.csu.powerReset = false ∧ t.csu.settle = none ∧
    t.csu.wrst = true ∧ t.csu.pwrg = s.csu.pwrg ∧ t.csu.cabLine = s.csu.cabLine ∧ t.csu.cabActive = true ∧
    t.csu.cabTimer = some (now + 100) ∧ t.csu.failures = 0 ∧ t.csu.fbk = s.csu.fbk
  summary : t.anu.summary = { anyAUnacked := s.flu.list.any fun e => e.unacked && e.severity == .a
                              anyUnacked := s.flu.list.any Entry.unacked, entries := s.flu.list.length
                              unacked := s.flu.list.countP Entry.unacked }
  buttons : t.anu.ackb = { line := s.anu.ackb.line, pressed := s.anu.ackb.line, timer := some (now + 20) } ∧
    t.anu.ltstb = { line := s.anu.ltstb.line, pressed := s.anu.ltstb.line, timer := some (now + 20) }
  rpu : t.rpu = { Rpu.reset with op := op, list := s.flu.list, verdict := t.csu.verdict, failOff := t.csu.failOff
                                 cause := cause }
  layout : ReportLayout t.rpu
  queue : t.mwq.queue = (List.range 16).map fun k =>
    { addr := BitVec.ofNat 13 (0x1F00 + k), value := t.rpu.content k, origin := .report k }
  marks : t.mwq.marks = (List.range 64).map fun k => .report (64 + k)
  turn : t.mwq.queueTurn = false
  rest : t.mem = s.mem ∧ t.held = s.held ∧ t.now = now ∧ t.pending = s.pending ∧ t.flu = s.flu ∧
    t.reads = s.reads ∧ t.answer = s.answer

end Sys2Proof.Machine

namespace Sys2Proof

/-- The address and the data of a computer write. -/
def Instr.write : Instr → Option (Addr × Word)
  | .actualWrite a w | .permittedWrite a w | .targetWrite a w | .aspectWrite a w | .lampsWrite a w
  | .watchedWrite a w | .faultSlotWrite a w | .standbyFieldWrite a w | .configurationCaptureWrite a w
  | .lockedConfigurationWrite a w | .plainWrite a w => some (a, w)
  | .eventWordWrite w => some (0x1F07, w)
  | .interruptEnableWrite w => some (0x1F08, w)
  | .territoryWrite w => some (0x1F0D, w)
  | .checkWordWrite w => some (0x1EFF, w)
  | .faultEntryUnitCodeWrite w => some (0x1F80, w)
  | .faultEntrySeverityActionWrite w => some (0x1F81, w)
  | .faultEntryTextIndexWrite w => some (0x1F82, w)
  | _ => none

end Sys2Proof
end

