-- ==== Sys2Proof/Certificates/Slice0/Obligations.lean ====
section
/-! DEFINITION. The statements for the provers: what each command does, by block, what always holds of commands and
hand-overs, and the invariants that every step keeps. -/

open Sys2Proof Sys2Proof.Machine

/-! ## The machine -/

/-- A step takes the command at the front of the queue. On an empty queue the computer makes the next of its reads
(log 7): outside RESET the read is taken and passed back the word memory holds (R19, R149, R151); in RESET it is
held, undecoded, and while a cycle is held the computer makes no other (R18). With no read to make, 1 ms passes. That
a step does the one or the other is the model's choice (log 3, log 7). -/
def Obligations.StepTakesFront : Prop :=
  ∀ s : State,
    (∀ c rest, s.pending = c :: rest → step s = exec c { s with pending := rest }) ∧
    (s.pending = [] → s.reads = [] → step s = .next { s with now := s.now + 1 }) ∧
    ∀ a rest, s.pending = [] → s.reads = a :: rest →
      (s.csu.op ≠ .reset → ∃ t, step s = .next t ∧ ReadTaken { s with reads := rest } t a) ∧
      (s.csu.op = .reset → s.held = none → step s = .next { s with reads := rest, held := some (.read a) }) ∧
      (s.csu.op = .reset → s.held ≠ none → step s = .next { s with now := s.now + 1 })

/-- The law of `takeFirst`, by which the model has a command take one hand-over (the model's choice, log 1): it gives
the oldest of the list that `p` picks, and leaves the others in their order. -/
def Obligations.TakesOldestOfPath : Prop :=
  ∀ (α : Type) (p : Msg → Option α) (ms : List Msg),
    (∀ x rest, takeFirst p ms = some (x, rest) ↔
      ∃ before m after, ms = before ++ m :: after ∧ (∀ k ∈ before, p k = none) ∧ p m = some x ∧
        rest = before ++ after) ∧
    (takeFirst p ms = none ↔ ∀ m ∈ ms, p m = none)

/-- Where the event of a command cannot occur, the part stays as it is (the model's choice, log 2): nothing of its
path is in flight, or the next of the path is of another kind; its timer is stopped, or for an age timer there is no
such record or the state is not RUNNING, where none runs (R134, R135); the queue of own writes is empty; the line has
the level already; or a second computer cycle comes in RESET while one is held. -/
def Obligations.NoEventNoEffect : Prop :=
  ∀ s : State,
    (takeFirst pickSpeed s.inFlight = none → exec .speedHandover s = .next s) ∧
    (takeFirst pickCompletion s.inFlight = none → exec .completionHandoverAnu s = .next s) ∧
    (takeFirst pickNewPr s.inFlight = none → exec .newPr s = .next s) ∧
    ((∀ w n rest, takeFirst pickAspectInput s.inFlight ≠ some (.written w n, rest)) →
      exec .writtenAspectTaken s = .next s) ∧
    ((∀ entered n rest, takeFirst pickAspectInput s.inFlight ≠ some (.stale entered n, rest)) →
      exec .aspectStaleNotice s = .next s) ∧
    (takeFirst pickDelivery s.inFlight = none → exec .aspectDelivery s = .next s) ∧
    (takeFirst pickRank s.inFlight = none → exec .rankDelivery s = .next s) ∧
    (∀ b, (∀ m rest, takeFirst (pickFault b) s.inFlight ≠ some (.raise m, rest)) → exec (.raise b) s = .next s) ∧
    (∀ b, (∀ m rest, takeFirst (pickFault b) s.inFlight ≠ some (.clear m, rest)) → exec (.clear b) s = .next s) ∧
    ((∀ rest, takeFirst (pickFault .anu) s.inFlight ≠ some (.acknowledge, rest)) → exec .acknowledge s = .next s) ∧
    (takeFirst pickListFsu s.inFlight = none → exec .listHandoverFsu s = .next s) ∧
    (takeFirst pickListAnu s.inFlight = none → exec .listHandoverAnu s = .next s) ∧
    (takeFirst pickListRpu s.inFlight = none → exec .listHandoverRpu s = .next s) ∧
    (takeFirst pickChime s.inFlight = none → exec .chimeRequest s = .next s) ∧
    (takeFirst pickLampFunction s.inFlight = none → exec .lampFunctionChange s = .next s) ∧
    (takeFirst pickInput s.inFlight = none → exec .functionInputHandover s = .next s) ∧
    (takeFirst pickStale s.inFlight = none → exec .staleNotice s = .next s) ∧
    ((∀ rest, takeFirst pickLampTest s.inFlight ≠ some (true, rest)) → exec .lampTestBegun s = .next s) ∧
    ((∀ rest, takeFirst pickLampTest s.inFlight ≠ some (false, rest)) → exec .lampTestEnded s = .next s) ∧
    (∀ b, takeFirst (pickEvents b) s.inFlight = none → exec (.setEvent b) s = .next s) ∧
    (∀ b, takeFirst (pickReport b) s.inFlight = none → exec (.reportHandover b) s = .next s) ∧
    (∀ b, takeFirst (pickOwnWrites b) s.inFlight = none → exec (.ownWriteRequest b) s = .next s) ∧
    (takeFirst pickDrain s.inFlight = none → exec .fieldDrainNotice s = .next s) ∧
    (s.mwq.queue = [] → exec .ownWriteGrant s = .next s) ∧
    (∀ brk, s.asu.window = none → exec (.windowCompletion brk) s = .next s) ∧
    (∀ i, s.csu.op ≠ .running ∨ s.fsu.table[i]? = none ∨ (∃ r, s.fsu.table[i]? = some r ∧ r.age = none) →
      exec (.ageTimerExpiry i) s = .next s) ∧
    (s.tcu.loss = none → exec .lossTimerExpiry s = .next s) ∧
    (s.tcu.hold = none → exec .holdTimerExpiry s = .next s) ∧
    (s.anu.ackTimer = none → exec .acknowledgementTimerExpiry s = .next s) ∧
    (s.anu.cadence = none → exec .cadenceTimerExpiry s = .next s) ∧
    (s.anu.flash = none → exec .flashTimerExpiry s = .next s) ∧
    (s.anu.lockout = none → exec .lockoutExpiry s = .next s) ∧
    (s.anu.test = none → exec .lampTestTimeout s = .next s) ∧
    (∀ b, (s.anu.button b).timer = none → exec (.buttonDebounceExpiry b) s = .next s) ∧
    (∀ b, exec (.buttonLineChange b (s.anu.button b).line) s = .next s) ∧
    (s.csu.load = none → exec .loadTimerExpiry s = .next s) ∧
    (s.csu.cabTimer = none → exec .cabactDebounceExpiry s = .next s) ∧
    (exec (.cabactLineChange s.csu.cabLine) s = .next s) ∧
    (∀ solo, s.csu.settle = none → exec (.settleTimeExpiry solo) s = .next s) ∧
    (s.csu.pwrg = false → exec .pwrgFall s = .next s) ∧ (s.csu.pwrg = true → exec .pwrgRise s = .next s) ∧
    (s.csu.wrst = false → exec .wrstFall s = .next s) ∧
    (∀ solo, s.csu.wrst = true → exec (.wrstRise solo) s = .next s) ∧
    (∀ c a w, Instr.write c = some (a, w) → s.csu.op = .reset → s.held ≠ none → exec c s = .next s)

/-! ## Computer writes: the port (chapter 2, R149) -/

/-- How a computer write comes to its take (R18, R20, R149; the model's operation of arrival and take, log 4): in
RESET it is held, undecoded, and one more is not presented (log 2); outside RESET a waiting queue that has the turn
has its head granted first, the write is taken and decided on the state that leaves, and the computer's cycle waits
for no further own write; and the write is decoded by its address and the state of the part alone, whatever row names
it. -/
def Obligations.ComputerWriteTaken : Prop :=
  ∀ (c : Instr) (s : State) (a : Addr) (w : Word), c.write = some (a, w) →
    (s.csu.op = .reset →
      (s.held = none → exec c s = .next { s with held := some (.write a w) }) ∧
      (s.held ≠ none → exec c s = .next s)) ∧
    (s.csu.op ≠ .reset → s.mwq.queueTurn = true → s.mwq.queue ≠ [] →
      ∃ u, exec .ownWriteGrant s = .next u ∧ u.csu.op ≠ .reset ∧ u.portFree ∧ exec c s = exec c u) ∧
    ∀ d : Instr, d.write = some (a, w) → exec d s = exec c s

/-- A PLAIN write is passed and reaches no owner (R20, R23, R35). The model's choices in it: an own-write request in
flight for the address is dropped (log 10); a re-derivation writes nothing for a marked field with no derived shown
value (log 26). -/
def Obligations.PlainWritePasses : Prop :=
  ∀ (s : State) (a : Addr) (w : Word), s.portFree → s.mem.wf = true →
    (s.csu.op = .fallback ∨
      (s.csu.op = .loading ∧ a.toNat < 0x1E00) ∨
      (s.csu.op.hasTable = true ∧ a.toNat < 0x1E00 ∧ ∀ r ∈ s.fsu.table, r.fixed.addr ≠ a) ∨
      (s.csu.op ≠ .reset ∧ ((0x1F10 ≤ a.toNat ∧ a.toNat < 0x1F40) ∨ 0x1F83 ≤ a.toNat))) →
    ∃ t, exec (.plainWrite a w) s = .next t ∧ Received s t a w [] ∧
      t = { s with mem := t.mem, mwq := t.mwq, inFlight := t.inFlight, held := none }

/-- A write to a part-owned report or mirror word is suppressed and sets no event (R20, R21, R33); in RUNNING and
STANDBY one to the configuration region is suppressed and sets event CI (R34, R170). -/
def Obligations.OwnedAndLockedSuppressed : Prop :=
  ∀ (c : Instr) (s : State) (a : Addr) (w : Word), c.write = some (a, w) → s.portFree →
    s.csu.op ≠ .reset → s.csu.op ≠ .fallback →
    (((0x1F00 ≤ a.toNat ∧ a.toNat < 0x1F10 ∧ a ≠ 0x1F07 ∧ a ≠ 0x1F08 ∧ a ≠ 0x1F0D) ∨
        (a = 0x1F0D ∧ s.csu.op = .loading) ∨ (0x1F40 ≤ a.toNat ∧ a.toNat < 0x1F80)) →
      exec c s = .next s.suppressed) ∧
    (s.csu.op.hasTable = true → 0x1E00 ≤ a.toNat → a.toNat ≤ 0x1EFF →
      exec c s = .next { s.suppressed with inFlight := s.inFlight ++ [.events .csu [.ci]] } ∧
      exec (.lockedConfigurationWrite a w) s = exec c s)

/-- A FAULT_SLOT write is suppressed in RUNNING and STANDBY, and changes nothing but the computer's turn (R31). -/
def Obligations.FaultSlotWriteSuppressed : Prop :=
  ∀ (s : State) (op : OpState) (a : Addr) (w : Word) (i : Nat) (r : Record), op.hasTable = true →
    FieldWrite s op a i r .faultSlot → exec (.faultSlotWrite a w) s = .next s.suppressed

/-! ## Computer writes to fields in RUNNING (R24) -/

/-- The ACTUAL field (R60, R61): passed within the tolerance of a known speed or while the speed is UNKNOWN, else
corrected to d. The model's choices in it: an own-write request in flight for the address is dropped (log 10); a
re-derivation writes nothing for a marked field with no derived shown value (log 26). -/
def Obligations.ActualWriteJudged : Prop :=
  ∀ (s : State) (a : Addr) (w : Word) (i : Nat) (r : Record), FieldWrite s .running a i r .actual →
    ∃ t, exec (.actualWrite a w) s = .next t ∧ t.fsu = { s.fsu with table := t.fsu.table, silent := t.fsu.silent } ∧
      (∀ j, j ≠ i → t.fsu.table[j]? = s.fsu.table[j]?) ∧
      (s.fsu.speedCopy.selected = none → FieldTaken s t a i r w w false [] []) ∧
      ∀ v, s.fsu.speedCopy.selected = some v →
        let ok : Prop := w.toNat ≤ 400 ∧ 10 * w.toNat ≤ v + r.fixed.tolerance ∧ v ≤ 10 * w.toNat + r.fixed.tolerance
        (ok → FieldTaken s t a i r w w false [] []) ∧
        ∀ d, s.fsu.speedCopy.d = some d → ¬ ok → FieldTaken s t a i r w (BitVec.ofNat 16 d) true [] []

/-- The PERMITTED field (R64, R65, R68): min(w, C) is shown and becomes PR; where PR changes the ANU is told, and the
TARGET record is re-derived in the same operation (R67), its own write handed on where its shown value changed (R16).
The model's choices in it: an own-write request in flight for the address is dropped (log 10); a re-derivation writes
nothing for a marked field with no derived shown value (log 26); an own-write request in flight counts as the word
last caused (log 10). -/
def Obligations.PermittedWriteLimited : Prop :=
  ∀ (s : State) (a : Addr) (w : Word) (i : Nat) (r : Record) (pr : Nat),
    FieldWrite s .running a i r .permitted → TableLaw s.fsu.table → pr = min w.toNat s.fsu.c →
    ∃ t cascade, exec (.permittedWrite a w) s = .next t ∧
      FieldTaken s t a i r w (BitVec.ofNat 16 pr) (decide (s.fsu.c < w.toNat)) cascade [] ∧
      t.fsu = { s.fsu with table := t.fsu.table, silent := t.fsu.silent, pr := some pr } ∧
      (∃ own, FieldsHanded { s with inFlight := dropRequests a s.inFlight, mwq := t.mwq } s.fsu.table t.fsu.table own ∧
        cascade = own ++ (if s.fsu.pr = some pr then [] else [.newPr pr])) ∧
      ∀ j q, j ≠ i → s.fsu.table[j]? = some q →
        t.fsu.table[j]? = some (if q.fixed.kind = .target ∧ s.fsu.pr ≠ some pr
          then q.recheck true (targetShown pr q) else q)

/-- The TARGET field (R67): min(w, PR) is shown. The model's choices in it: an own-write request in flight for the
address is dropped (log 10); a re-derivation writes nothing for a marked field with no derived shown value (log 26). -/
def Obligations.TargetWriteLimited : Prop :=
  ∀ (s : State) (a : Addr) (w : Word) (i : Nat) (r : Record), FieldWrite s .running a i r .target →
    ∃ t, exec (.targetWrite a w) s = .next t ∧
      FieldTaken s t a i r w (BitVec.ofNat 16 (min w.toNat s.fsu.reference)) (decide (s.fsu.reference < w.toNat)) [] [] ∧
      t.fsu = { s.fsu with table := t.fsu.table, silent := t.fsu.silent } ∧
      ∀ j, j ≠ i → t.fsu.table[j]? = s.fsu.table[j]?

/-- The ASPECT field (R91): memory receives the number of the aspect that would be displayed with w as the written
aspect (R89), or w where none would be, and the TCU is handed the written aspect. The model's choices in it: an
own-write request in flight for the address is dropped (log 10); a re-derivation writes nothing for a marked field
with no derived shown value (log 26); the leaving or entering of STALE travels with the ASPECT hand-over (log 15);
that hand-over carries the number judged or shown (log 25). -/
def Obligations.AspectWriteJudged : Prop :=
  ∀ (s : State) (a : Addr) (w x : Word) (n : Option Nat) (i : Nat) (r : Record), FieldWrite s .running a i r .aspect →
    n = (deriveDisplayed s.tcu.uncoded s.tcu.received (aspectOfWord s.tcu.aspects w) (lossAspect s.tcu.aspects)).map
      Aspect.number →
    x = (match n with
      | some k => BitVec.ofNat 16 k
      | none => w) →
    ∃ t, exec (.aspectWrite a w) s = .next t ∧
      FieldTaken s t a i r w x (decide (x ≠ w)) [] [.writtenAspect w n] ∧
      t.fsu = { s.fsu with table := t.fsu.table, silent := t.fsu.silent } ∧
      ∀ j, j ≠ i → t.fsu.table[j]? = s.fsu.table[j]?

/-- A LAMPS field takes the data with every assigned bit replaced by its function, or FFFFh during a lamp test, and
is never corrected (R27, R28); a WATCHED field takes the data (R30). The model's choices in it: an own-write request
in flight for the address is dropped (log 10); a re-derivation writes nothing for a marked field with no derived
shown value (log 26). -/
def Obligations.LampsAndWatchedWritesPass : Prop :=
  ∀ (s : State) (a : Addr) (w : Word) (i : Nat) (r : Record),
    (FieldWrite s .running a i r .lamps → (r.fixed.lamps.Pairwise fun p q => p.bit ≠ q.bit) →
      (∀ p ∈ r.fixed.lamps, p.bit < 16) →
      ∃ t x, exec (.lampsWrite a w) s = .next t ∧ FieldTaken s t a i r w x false [] [] ∧
        (s.fsu.lampTest = true → x = 0xFFFF) ∧
        (s.fsu.lampTest = false →
          (∀ p ∈ r.fixed.lamps, x.getLsbD p.bit = s.fsu.fns.get p.fn) ∧
          (∀ k, (∀ p ∈ r.fixed.lamps, p.bit ≠ k) → x.getLsbD k = w.getLsbD k)) ∧
        t.fsu = { s.fsu with table := t.fsu.table, silent := t.fsu.silent } ∧
        ∀ j, j ≠ i → t.fsu.table[j]? = s.fsu.table[j]?) ∧
    (FieldWrite s .running a i r .watched →
      ∃ t, exec (.watchedWrite a w) s = .next t ∧ FieldTaken s t a i r w w false [] [] ∧
        t.fsu = { s.fsu with table := t.fsu.table, silent := t.fsu.silent } ∧
        ∀ j, j ≠ i → t.fsu.table[j]? = s.fsu.table[j]?)

/-- A field write in STANDBY is suppressed and recorded as it would have been in RUNNING (R25): written value, state
and count, the correction fault and the leaving of STALE; the shown value and the stopped timer stay. A recorded
PERMITTED value enters PR at once, and the TARGET state follows it (R65, R68). The model's choices in it: the leaving
or entering of STALE travels with the ASPECT hand-over (log 15); that hand-over carries the number judged or shown
(log 25). -/
def Obligations.StandbyWriteRecorded : Prop :=
  ∀ (s : State) (a : Addr) (w : Word) (i : Nat) (r : Record) (kind : Kind), kind ≠ .faultSlot →
    FieldWrite s .standby a i r kind → TableLaw s.fsu.table →
    ∃ t u q, exec (.standbyFieldWrite a w) s = .next t ∧
      exec (.standbyFieldWrite a w) { s with csu := { s.csu with op := .running } } = .next u ∧
      u.fsu.table[i]? = some q ∧ (q.state = .live ∨ q.state = .corrected) ∧
      t = { s.suppressed with fsu := t.fsu, inFlight := t.inFlight } ∧
      t.fsu = { s.fsu with table := t.fsu.table, silent := t.fsu.silent, pr := t.fsu.pr } ∧
      t.fsu.table[i]? = some { r with state := q.state, written := some w, count := q.count } ∧
      (kind ≠ .permitted → t.fsu.pr = s.fsu.pr ∧ ∀ j, j ≠ i → t.fsu.table[j]? = s.fsu.table[j]?) ∧
      (kind = .permitted → t.fsu.pr = some (min w.toNat s.fsu.c) ∧
        ∀ j p, j ≠ i → s.fsu.table[j]? = some p →
          t.fsu.table[j]? = some (if p.fixed.kind = .target ∧ s.fsu.pr ≠ t.fsu.pr
            then p.recheck false (targetShown (min w.toNat s.fsu.c) p) else p)) ∧
      t.fsu.silent = (if r.state = .stale then silentHolds t.fsu.table else s.fsu.silent) ∧
      t.inFlight = s.inFlight
        ++ (if kind = .permitted ∧ s.fsu.pr ≠ t.fsu.pr then [.newPr (min w.toNat s.fsu.c)] else [])
        ++ correctionMsgs i r.count (decide (q.state = .corrected))
        ++ leavingMsgs r i t.fsu.table s.fsu.silent ++ (if kind = .aspect then [.writtenAspect w
          ((deriveDisplayed s.tcu.uncoded s.tcu.received (aspectOfWord s.tcu.aspects w) (lossAspect s.tcu.aspects)).map
            Aspect.number)] else [])

/-! ## Computer writes to the report block, the window and the configuration region -/

/-- A write to 1F07h clears the events it names, and memory receives the event word that is left; INTR follows (R159,
R161). The model's choices in it: an own-write request in flight for the address is dropped (log 10); a re-derivation
writes nothing for a marked field with no derived shown value (log 26). -/
def Obligations.EventWordClearedByOne : Prop :=
  ∀ (s : State) (m : Word), s.portFree → s.mem.wf = true → s.csu.op ≠ .reset → s.csu.op ≠ .fallback →
    ∃ t, exec (.eventWordWrite m) s = .next t ∧ Received { s with rpu := t.rpu } t 0x1F07 t.rpu.events [] ∧
      (∀ k, t.rpu.events.getLsbD k = (s.rpu.events.getLsbD k && !m.getLsbD k)) ∧
      (t.rpu.intr = true ↔ ∃ k < 12, t.rpu.events.getLsbD k = true ∧ s.rpu.enable.getLsbD k = true) ∧
      t = { s with mem := t.mem, mwq := t.mwq, inFlight := t.inFlight, held := none
                   rpu := { s.rpu with events := t.rpu.events, intr := t.rpu.intr } }

/-- A write to 1F08h is passed and becomes the enable, its unused positions with it; INTR follows (R160, R161). The
model's choices in it: an own-write request in flight for the address is dropped (log 10); a re-derivation writes
nothing for a marked field with no derived shown value (log 26). -/
def Obligations.InterruptEnableLatched : Prop :=
  ∀ (s : State) (m : Word), s.portFree → s.mem.wf = true → s.csu.op ≠ .reset → s.csu.op ≠ .fallback →
    ∃ t, exec (.interruptEnableWrite m) s = .next t ∧ Received { s with rpu := t.rpu } t 0x1F08 m [] ∧
      (t.rpu.intr = true ↔ ∃ k < 12, s.rpu.events.getLsbD k = true ∧ m.getLsbD k = true) ∧
      t = { s with mem := t.mem, mwq := t.mwq, inFlight := t.inFlight, held := none
                   rpu := { s.rpu with enable := m, intr := t.rpu.intr } }

/-- Outside resets the enable changes only by a computer write to 1F08h (R160), and an event bit that is set is
cleared only by a computer write to 1F07h that names it (R158); neither write does so in FALLBACK (R35). -/
def Obligations.EventsStayUntilCleared : Prop :=
  ∀ (c : Instr) (s t : State), StateLaw s.csu → exec c s = .next t → s.csu.op ≠ .reset → t.csu.op ≠ .reset →
    (t.rpu.enable = s.rpu.enable ∨
      s.csu.op ≠ .fallback ∧ ∃ w, c.write = some (0x1F08, w) ∧ t.rpu.enable = w) ∧
    ∀ k, s.rpu.events.getLsbD k = true → t.rpu.events.getLsbD k = true ∨
      s.csu.op ≠ .fallback ∧ ∃ m, c.write = some (0x1F07, m) ∧ m.getLsbD k = true

/-- A territory request is accepted for CODED always, for UNCODED in UNCODED territory, at a standstill or with the
code LOST; an accepted one is passed and changes the territory as a whole, a refused or malformed one is substituted
and sets TR (R86, R87, R88). The model's choices in it: an own-write request in flight for the address is dropped
(log 10); a re-derivation writes nothing for a marked field with no derived shown value (log 26); in LOST, an
accepted UNCODED request in UNCODED territory clears nothing (log 24). -/
def Obligations.TerritoryRequestJudged : Prop :=
  ∀ (s : State) (w : Word), s.portFree → s.mem.wf = true → s.csu.op.hasTable = true →
    ∃ t, exec (.territoryWrite w) s = .next t ∧
      t = { s with mem := t.mem, mwq := t.mwq, inFlight := t.inFlight, held := none, tcu := t.tcu } ∧
      let clears : List FluRequest := if s.tcu.state = .lost then [.clear (catalogue 0x010 .b 966)] else []
      let accepted : Prop := w = 0 ∨
        (w = 1 ∧ (s.tcu.uncoded = true ∨ (∃ v, s.asu.selected = some v ∧ v ≤ 4) ∨ s.tcu.state = .lost))
      (¬ accepted →
        Received s t 0x1F0D (if s.tcu.uncoded then 1 else 0) [.events .tcu [.tr]] ∧ t.tcu = s.tcu) ∧
      (accepted → (w = 1 ↔ s.tcu.uncoded = true) → Received s t 0x1F0D w [] ∧ t.tcu = s.tcu) ∧
      (accepted → ¬ (w = 1 ↔ s.tcu.uncoded = true) →
        Received s t 0x1F0D w (tcuSends s.csu.shadow.imgVmax s.tcu t.tcu clears false) ∧
        (w = 1 → t.tcu = { s.tcu with
          uncoded := true
          displayed := (match s.tcu.writtenAspect with
            | some a => some a
            | none => lossAspect s.tcu.aspects) }) ∧
        (w = 0 → t.tcu = { s.tcu with
          uncoded := false, state := .acquiring, candidate := none, confirmed := none, hold := none
          received := lossAspect s.tcu.aspects, loss := some (s.now + s.csu.shadow.imgTloss)
          displayed := codedDisplay s.tcu.writtenAspect (lossAspect s.tcu.aspects) }))

/-- A word of the fault entry window (R32, R97–R99): it is passed; the partial message moves by its address,
condition and content; a discard sets FS, and a completed message is taken by the list in the same step. The model's
choices in it: an own-write request in flight for the address is dropped (log 10); a re-derivation writes nothing for
a marked field with no derived shown value (log 26). -/
def Obligations.WindowWordsAssembled : Prop :=
  ∀ (s : State) (w : Word), s.portFree → s.mem.wf = true → s.csu.op ≠ .reset → s.csu.op ≠ .fallback →
    (∃ t, exec (.faultEntryUnitCodeWrite w) s = .next t ∧
      (w.toNat / 4096 = 15 → t.flu = { s.flu with partialMsg := .none } ∧
        Received s t 0x1F80 w [.events .flu [.fs]]) ∧
      (w.toNat / 4096 ≠ 15 → t.flu = { s.flu with partialMsg := .one (BitVec.ofNat 4 (w.toNat / 4096)) (w.setWidth 12) } ∧
        Received s t 0x1F80 w []) ∧
      t = { s with mem := t.mem, mwq := t.mwq, inFlight := t.inFlight, held := none, flu := t.flu }) ∧
    (∃ t, exec (.faultEntrySeverityActionWrite w) s = .next t ∧
      (∀ u c, s.flu.partialMsg = .one u c → w.toNat < 8 → w.toNat % 4 ≠ 0 → ∃ sev,
        sev = (if w.toNat % 4 = 1 then Severity.a else if w.toNat % 4 = 2 then .b else .c) ∧
        t.flu = { s.flu with partialMsg := .two u c sev (w.getLsbD 2) } ∧ Received s t 0x1F81 w []) ∧
      ((∀ u c, s.flu.partialMsg ≠ .one u c) ∨ 8 ≤ w.toNat ∨ w.toNat % 4 = 0 →
        t.flu = { s.flu with partialMsg := .none } ∧ Received s t 0x1F81 w [.events .flu [.fs]]) ∧
      t = { s with mem := t.mem, mwq := t.mwq, inFlight := t.inFlight, held := none, flu := t.flu }) ∧
    (∃ t, exec (.faultEntryTextIndexWrite w) s = .next t ∧
      (∀ u c sev clears, s.flu.partialMsg = .two u c sev clears → w.toNat < 960 →
        let m : FaultMsg := { unit := u, code := c, severity := sev, text := w.setWidth 10 }
        let f : Flu := { s.flu with partialMsg := .none }
        let e : FluEffect := if clears then { flu := f.clear m, events := [], chime := false } else f.raise m
        t.flu = e.flu ∧
          Received s t 0x1F82 w (t.listSends (decide (e.flu.list ≠ s.flu.list)) e.events e.chime)) ∧
      ((∀ u c sev clears, s.flu.partialMsg ≠ .two u c sev clears) ∨ 960 ≤ w.toNat →
        t.flu = { s.flu with partialMsg := .none } ∧ Received s t 0x1F82 w [.events .flu [.fs]]) ∧
      t = { s with mem := t.mem, mwq := t.mwq, inFlight := t.inFlight, held := none, flu := t.flu })

/-- A write to 1E00h–1EFEh in LOADING is passed and captured at its offset, and changes nothing of the load besides
(R165). The model's choices in it: an own-write request in flight for the address is dropped (log 10); a
re-derivation writes nothing for a marked field with no derived shown value (log 26). -/
def Obligations.ConfigurationCaptured : Prop :=
  ∀ (s : State) (a : Addr) (w : Word), s.portFree → MemoryLaw s.mem s.csu.shadow → s.csu.op = .loading →
    0x1E00 ≤ a.toNat → a.toNat < 0x1EFF →
    ∃ t, exec (.configurationCaptureWrite a w) s = .next t ∧ Received s t a w [] ∧
      (∀ o, t.csu.shadow.read o = if o = a.toNat - 0x1E00 then w else s.csu.shadow.read o) ∧
      t = { s with mem := t.mem, mwq := t.mwq, inFlight := t.inFlight, held := none
                   csu := { s.csu with shadow := t.csu.shadow } }

/-- A check that fails (R166, R168): at the CRC stage with 00FFh, at the content stage with the lowest offset at
fault. The first two failures stay in LOADING with the timer running; the third enters FALLBACK. That nothing is left
in flight at the FALLBACK entry is the model's choice (log 12). The model's choices in it besides: an own-write
request in flight for the address is dropped (log 10); a re-derivation writes nothing for a marked field with no
derived shown value (log 26). -/
def Obligations.FailedCheckCounted : Prop :=
  ∀ (s : State) (w : Word) (verdict : Verdict) (off : BitVec 8), s.portFree → MemoryLaw s.mem s.csu.shadow →
    s.csu.op = .loading → s.csu.failures < 3 →
    (let sh := s.csu.shadow.write 255 w
     (imageCrc sh ≠ w ∧ verdict = .crcFail ∧ off = 0xFF) ∨
     (imageCrc sh = w ∧ verdict = .contentFail ∧ ∃ o < 32 + 4 * min sh.imgN 48, off = BitVec.ofNat 8 o ∧
       wordFault sh o = true ∧ ∀ p < o, wordFault sh p = false)) →
    ∃ t, exec (.checkWordWrite w) s = .next t ∧
      t.csu.shadow = s.csu.shadow.write 255 w ∧ s.mem.oneWord t.mem 0x1EFF w ∧ t.mwq.queueTurn = true ∧ t.held = none ∧
      (s.csu.failures < 2 →
        Received s t 0x1EFF w [.report .csu [.loadState verdict (s.csu.failures + 1) off]] ∧
        t = { s with mem := t.mem, mwq := t.mwq, inFlight := t.inFlight, held := none
                     csu := { s.csu with shadow := t.csu.shadow, failures := s.csu.failures + 1, verdict := verdict
                                         failOff := off } }) ∧
      (s.csu.failures = 2 → FallbackEntered s t verdict 3 off)

/-- A check that passes (R168): the image is locked and taken, the load timer stops, the load state is handed on, and
RUNNING is entered (R175); with CABACT INACTIVE the STANDBY entry follows at once (R177). The model's choices in it:
an own-write request in flight for the address is dropped (log 10); a lamp test notice, an older drain notice and an
acknowledge in flight are dropped at the STANDBY entry (log 13); the CLEAR of 011h there is sent only where the
restriction was pending (log 14); the entry sets the receivers' copies itself and sends the hand-overs besides (log
16). -/
def Obligations.AcceptedImageRuns : Prop :=
  ∀ (s : State) (w : Word), s.portFree → MemoryLaw s.mem s.csu.shadow → s.csu.op = .loading →
    (let sh := s.csu.shadow.write 255 w
     imageCrc sh = w ∧ ∀ o < 32 + 4 * min sh.imgN 48, wordFault sh o = false) →
    ∃ t, exec (.checkWordWrite w) s = .next t ∧
      t.csu = { s.csu with op := if s.csu.cabActive then .running else .standby, shadow := s.csu.shadow.write 255 w
                           locked := true, load := none, verdict := .accepted, failOff := 0 } ∧
      s.mem.oneWord t.mem 0x1EFF w ∧ t.mwq.queueTurn = true ∧ t.held = none ∧
      ∃ u, u.csu.op = .running ∧
        RunningEntered (s.csu.shadow.write 255 w) s u
          (dropRequests 0x1EFF s.inFlight ++ [.report .csu [.loadState .accepted s.csu.failures 0]]) ∧
        u.anu.summary = s.anu.summary ∧ u.anu.ackb = s.anu.ackb ∧ u.anu.ltstb = s.anu.ltstb ∧
        (s.csu.cabActive = true → t = u) ∧ (s.csu.cabActive = false → StandbyEntered u t)

/-! ## The axle speed unit (chapter 3) -/

/-- A rising edge is counted in RUNNING and STANDBY, on channel 2 only with SOLO latched low, by the level of its B
line; everywhere else it has no effect (R36). -/
def Obligations.AxleEdgeCounted : Prop :=
  ∀ (s : State) (channel : AxleChannel) (b : Bool), ∃ t, exec (.axleEdge channel b) s = .next t ∧
    (¬ (s.csu.op = .running ∨ s.csu.op = .standby) ∨ (channel = .two ∧ s.csu.solo = true) → t = s) ∧
    ((s.csu.op = .running ∨ s.csu.op = .standby) → ¬ (channel = .two ∧ s.csu.solo = true) →
      t = { s with asu := { s.asu with ch1 := t.asu.ch1, ch2 := t.asu.ch2 } } ∧
      (channel = .one → EdgeCounted s.asu.ch1 t.asu.ch1 b ∧ t.asu.ch2 = s.asu.ch2) ∧
      (channel = .two → EdgeCounted s.asu.ch2 t.asu.ch2 b ∧ t.asu.ch1 = s.asu.ch1))

/-- Stages 1 to 4 of a completion (R38–R44): the timer restarts, and each counted channel gets its net count, speed,
direction, plausibility and state; with SOLO latched high channel 2 stays as it is. The model's choice in it: the ms
an expiry leaves in `now` (log 3). -/
def Obligations.WindowMeasuresChannels : Prop :=
  ∀ (s : State) (brk : Bool) (e : Nat), ImageLaw s → s.asu.window = some e →
    ∃ t lim, exec (.windowCompletion brk) s = .next t ∧ s.asu.limits = some lim ∧
      t = { s with now := max s.now e, asu := t.asu, inFlight := t.inFlight } ∧
      t.asu.window = some (t.now + s.csu.shadow.imgW) ∧ t.asu.limits = some lim ∧
      ChannelMeasured s.csu.shadow s.csu.shadow.imgD1 lim.vp lim.l1 s.asu.ch1 t.asu.ch1 ∧
      (s.csu.solo = true → t.asu.ch2 = s.asu.ch2) ∧
      (s.csu.solo = false → ChannelMeasured s.csu.shadow s.csu.shadow.imgD2 lim.vp lim.l2 s.asu.ch2 t.asu.ch2)

/-- Stages 5 and 6 of a completion: the selected speed and its supplier from the channel states and speeds of stage
4, SOLO, BRK and the disagreement time (R46–R51), and the selected direction (R53). -/
def Obligations.WindowSelectsSpeed : Prop :=
  ∀ (s : State) (brk : Bool) (e : Nat), s.asu.window = some e →
    ∃ t, exec (.windowCompletion brk) s = .next t ∧
      let c := t.asu.ch1
      let d := t.asu.ch2
      let limit := s.csu.shadow.imgTdis * 1000
      let higher := if d.v ≤ c.v then (some c.v, some AxleChannel.one) else (some d.v, some .two)
      let lower := if c.v ≤ d.v then (some c.v, some AxleChannel.one) else (some d.v, some .two)
      let band := max s.csu.shadow.imgA (max c.v d.v / 16)
      let agree : Prop := c.v ≤ d.v + band ∧ d.v ≤ c.v + band
      let chosen := (t.asu.selected, t.asu.supplier)
      let reversed : Prop := s.csu.solo = false ∧ c.failed = false ∧ d.failed = false ∧ c.dir ≠ .none ∧ d.dir ≠ .none ∧
        c.dir ≠ d.dir ∧ ∃ v, t.asu.selected = some v ∧ 20 ≤ v
      (s.csu.solo = true ∨ c.failed = true ∨ d.failed = true →
        t.asu.disTime = 0 ∧ t.asu.persistent = false ∧
        chosen = if c.failed = false then (some c.v, some .one)
          else if s.csu.solo = false ∧ d.failed = false then (some d.v, some .two) else (none, none)) ∧
      (s.csu.solo = false → c.failed = false → d.failed = false →
        (agree → chosen = higher ∧ t.asu.disTime = 0 ∧ t.asu.persistent = false) ∧
        (¬ agree → s.asu.persistent = true →
          chosen = higher ∧ t.asu.disTime = s.asu.disTime ∧ t.asu.persistent = true) ∧
        (¬ agree → s.asu.persistent = false → s.asu.disTime + s.csu.shadow.imgW < limit →
          chosen = (if brk then higher else lower) ∧ t.asu.disTime = s.asu.disTime + s.csu.shadow.imgW ∧
            t.asu.persistent = false) ∧
        (¬ agree → s.asu.persistent = false → limit ≤ s.asu.disTime + s.csu.shadow.imgW →
          chosen = higher ∧ t.asu.disTime = limit ∧ t.asu.persistent = true)) ∧
      (reversed → t.asu.dirDis = true ∧ t.asu.direction = .none) ∧
      (¬ reversed → t.asu.dirDis = false ∧
        t.asu.direction = (match t.asu.supplier with
          | some .one => c.dir
          | some .two => d.dir
          | none => .none))

/-- The display speed of a completion (R54): the selected speed in km/h, rounded half up, from 0 to 400, within 5
tenths of the selected speed and so within every tolerance an image may give; absent while the speed is UNKNOWN. -/
def Obligations.DisplaySpeedRounded : Prop :=
  ∀ (s : State) (brk : Bool) (e : Nat), s.asu.window = some e →
    ∃ t, exec (.windowCompletion brk) s = .next t ∧
      (t.asu.selected = none → t.asu.d = none) ∧
      ∀ v, t.asu.selected = some v → ∃ d, t.asu.d = some d ∧ isRounded d v 10 ∧ d = (2 * v + 10) / 20 ∧ d ≤ 400 ∧
        10 * d ≤ v + 5 ∧ v ≤ 10 * d + 5 ∧
        ∀ tolerance, 5 ≤ tolerance → withinTolerance tolerance v (BitVec.ofNat 16 d) = true

/-- Stage 8 of a completion: the fault messages of the conditions that began or ended, in order, event CF with a
channel that became FAILED, and the published values to the FSU, the ANU and the RPU (R43, R52, R55, R56). -/
def Obligations.WindowHandsResults : Prop :=
  ∀ (s : State) (brk : Bool) (e : Nat), s.asu.window = some e →
    ∃ t, exec (.windowCompletion brk) s = .next t ∧
      t.inFlight = s.inFlight
        ++ changeMsg .asu s.asu.ch1.failed t.asu.ch1.failed (catalogue 0x001 .b 961)
        ++ changeMsg .asu s.asu.ch2.failed t.asu.ch2.failed (catalogue 0x002 .b 962)
        ++ changeMsg .asu s.asu.persistent t.asu.persistent (catalogue 0x003 .b 963)
        ++ changeMsg .asu s.asu.dirDis t.asu.dirDis (catalogue 0x004 .b 964)
        ++ changeMsg .asu s.asu.selected.isNone t.asu.selected.isNone (catalogue 0x005 .a 965)
        ++ (if (s.asu.ch1.failed = false ∧ t.asu.ch1.failed = true) ∨ (s.asu.ch2.failed = false ∧ t.asu.ch2.failed = true)
            then [.events .asu [.cf]] else [])
        ++ [.speed { selected := t.asu.selected, d := t.asu.d },
            .completion { selected := t.asu.selected, direction := t.asu.direction, failed1 := t.asu.ch1.failed
                          failed2 := t.asu.ch2.failed, persistent := t.asu.persistent, dirDis := t.asu.dirDis },
            .report .asu [.published { selected := t.asu.selected, supplier := t.asu.supplier, d := t.asu.d
                                       v1 := t.asu.ch1.v, v2 := t.asu.ch2.v
                                       failed1 := t.asu.ch1.failed, failed2 := t.asu.ch2.failed
                                       dir1 := t.asu.ch1.dir, dir2 := t.asu.ch2.dir, direction := t.asu.direction
                                       persistent := t.asu.persistent, dirDis := t.asu.dirDis }]]

/-! ## The field supervision unit (chapters 1, 4, 5 and 8) -/

/-- A completion's values reach the FSU (R58, R62, R63): the speed copy is replaced; while RUNNING an ACTUAL record
that is UNSET or STALE follows d, and one that is LIVE or CORRECTED keeps its shown value within the tolerance and
takes d beyond it. The model's choices in it: the take of the oldest of its path (log 1); an own-write request in
flight counts as the word last caused (log 10). -/
def Obligations.SpeedHandoverRechecks : Prop :=
  ∀ (s : State) (c : SpeedCopy) (rest : List Msg), takeFirst pickSpeed s.inFlight = some (c, rest) →
    (s.csu.op ≠ .running →
      exec .speedHandover s = .next { s with inFlight := rest, fsu := { s.fsu with speed := some c } }) ∧
    (s.csu.op = .running → ∃ t own, exec .speedHandover s = .next t ∧
      t = { s with inFlight := rest ++ own, fsu := { s.fsu with speed := some c, table := t.fsu.table } } ∧
      FieldsHanded { s with inFlight := rest } s.fsu.table t.fsu.table own ∧
      ∀ (i : Nat) (r : Record), s.fsu.table[i]? = some r →
        (r.fixed.kind ≠ .actual → t.fsu.table[i]? = some r) ∧
        (r.fixed.kind = .actual → r.state = .unset ∨ r.state = .stale →
          t.fsu.table[i]? = some { r with shown := some (match c.selected, c.d with
            | some _, some d => BitVec.ofNat 16 d
            | _, _ => r.fixed.blank) }) ∧
        (r.fixed.kind = .actual → r.state = .live ∨ r.state = .corrected →
          (c.selected = none → t.fsu.table[i]? = some r) ∧
          ∀ (v d : Nat) (x y : Word), c.selected = some v → c.d = some d → r.shown = some x →
            y = (if 10 * x.toNat ≤ v + r.fixed.tolerance ∧ v ≤ 10 * x.toNat + r.fixed.tolerance then x
                 else BitVec.ofNat 16 d) →
            t.fsu.table[i]? = some { r with shown := some y
                                            state := if r.written = some y then .live else .corrected }))

/-- A displayed aspect reaches the FSU (R92, R59, R68): while RUNNING the ASPECT record shows its number; where C
differs the ceiling changes as one operation: PERMITTED against the new C, PR, and TARGET against the new PR. In
STANDBY the states alone follow. PERMITTED is handed on before TARGET. The model's choices in it: the take of the
oldest of its path (log 1); an own-write request in flight counts as the word last caused (log 10). -/
def Obligations.AspectDeliveryApplied : Prop :=
  ∀ (s : State) (n c : Nat) (rest : List Msg), takeFirst pickDelivery s.inFlight = some ((n, c), rest) →
    TableLaw s.fsu.table →
    ∃ t own, exec .aspectDelivery s = .next t ∧
      t = { s with
        inFlight := rest ++ own ++ (if t.fsu.pr = s.fsu.pr then [] else [.newPr t.fsu.reference])
        fsu := { s.fsu with ceiling := some c, pr := t.fsu.pr, table := t.fsu.table } } ∧
      FieldsHanded { s with inFlight := rest } s.fsu.table t.fsu.table own ∧
      (∀ ws, own = [.ownWrites .fsu ws] → ws.Pairwise fun v w =>
        ¬ (requestIs t.fsu.table .target v = true ∧ requestIs t.fsu.table .permitted w = true)) ∧
      (s.fsu.ceiling = some c → t.fsu.pr = s.fsu.pr) ∧
      (s.fsu.ceiling ≠ some c →
        (∀ (i : Nat) (r : Record) (w : Word), s.fsu.table[i]? = some r → r.fixed.kind = .permitted → r.state = .live ∨ r.state = .corrected →
          r.written = some w → t.fsu.pr = some (min w.toNat c)) ∧
        ((∀ r ∈ s.fsu.table, r.fixed.kind = .permitted → r.state = .unset ∨ r.state = .stale) → t.fsu.pr = some c)) ∧
      ∀ (i : Nat) (r : Record), s.fsu.table[i]? = some r → t.fsu.table[i]? = some (
        let running := decide (s.csu.op = .running)
        match r.fixed.kind with
        | .aspect => if running then r.recheck true (BitVec.ofNat 16 n) else r
        | .permitted => if s.fsu.ceiling = some c then r else r.recheck running (permittedShown c r)
        | .target => if t.fsu.pr = s.fsu.pr then r else r.recheck running (targetShown t.fsu.reference r)
        | .actual | .lamps | .watched | .faultSlot => r)

/-- A list change reaches the FSU (R15): while RUNNING every FAULT_SLOT record shows the slot word of the entry at
its rank, or 0000h; in STANDBY the slots stay. The model's choices in it: the take of the oldest of its path (log 1);
an own-write request in flight counts as the word last caused (log 10). -/
def Obligations.SlotsFollowList : Prop :=
  ∀ (s : State) (es : List Entry) (rest : List Msg), takeFirst pickListFsu s.inFlight = some (es, rest) →
    (s.csu.op ≠ .running → exec .listHandoverFsu s = .next { s with inFlight := rest }) ∧
    (s.csu.op = .running → ∃ t own, exec .listHandoverFsu s = .next t ∧
      t = { s with inFlight := rest ++ own, fsu := { s.fsu with table := t.fsu.table } } ∧
      FieldsHanded { s with inFlight := rest } s.fsu.table t.fsu.table own ∧
      ∀ (i : Nat) (r : Record), s.fsu.table[i]? = some r →
        (r.fixed.kind ≠ .faultSlot → t.fsu.table[i]? = some r) ∧
        (r.fixed.kind = .faultSlot → ∃ w : Word, t.fsu.table[i]? = some { r with shown := some w } ∧
          (∀ e, es[(s.fsu.table.take i).countP fun q => q.fixed.kind == .faultSlot]? = some e →
            w.toNat = e.text.toNat + 1024 * e.severity.code + 4096 * e.state.code) ∧
          (es[(s.fsu.table.take i).countP fun q => q.fixed.kind == .faultSlot]? = none → w = 0)))

/-- A lamp function change re-derives the LAMPS records assigned to the function (R14); a lamp test start or end
re-derives every LAMPS record (R13, R128, R129). State, written value, timer and count stay. A notice of the other
kind is not taken (log 1). The model's choice in it: an own-write request in flight counts as the word last caused
(log 10). -/
def Obligations.LampsFollowFunctions : Prop :=
  ∀ (s : State),
    (∀ f v rest, takeFirst pickLampFunction s.inFlight = some ((f, v), rest) →
      ∃ t own, exec .lampFunctionChange s = .next t ∧
        t = { s with inFlight := rest ++ own, fsu := { s.fsu with fns := t.fsu.fns, table := t.fsu.table } } ∧
        (∀ g, t.fsu.fns.get g = if g = f then v else s.fsu.fns.get g) ∧
        FieldsHanded { s with inFlight := rest } s.fsu.table t.fsu.table own ∧
        ∀ (i : Nat) (r : Record), s.fsu.table[i]? = some r → t.fsu.table[i]? = some (
          if s.csu.op = .running ∧ r.fixed.kind = .lamps ∧ ∃ p ∈ r.fixed.lamps, p.fn = f then
            { r with shown := some (if s.fsu.lampTest then 0xFFFF else mergeLamps t.fsu.fns r.fixed.lamps (lampsBase r)) }
          else r)) ∧
    (∀ begun rest, takeFirst pickLampTest s.inFlight = some (begun, rest) →
      exec (if begun then .lampTestEnded else .lampTestBegun) s = .next s ∧
      ∃ t own, exec (if begun then .lampTestBegun else .lampTestEnded) s = .next t ∧
        t = { s with inFlight := rest ++ own, fsu := { s.fsu with lampTest := begun, table := t.fsu.table } } ∧
        FieldsHanded { s with inFlight := rest } s.fsu.table t.fsu.table own ∧
        ∀ (i : Nat) (r : Record), s.fsu.table[i]? = some r → t.fsu.table[i]? = some (
          if s.csu.op = .running ∧ r.fixed.kind = .lamps then
            { r with shown := some (if begun then 0xFFFF else mergeLamps s.fsu.fns r.fixed.lamps (lampsBase r)) }
          else r))

/-- An age timer expires in RUNNING (R135–R138, R141): the record goes STALE with the stale value of its kind, event
ST, its fault and the stale set; a PERMITTED record that goes STALE leaves PR at C (R65). A record already STALE only
stops its timer. The model's choices in it: the ms an expiry leaves in `now` (log 3); an own-write request in flight
counts as the word last caused (log 10); the leaving or entering of STALE travels with the ASPECT hand-over (log 15);
that hand-over carries the number judged or shown (log 25). -/
def Obligations.AgeExpiryMakesStale : Prop :=
  ∀ (s : State) (i : Nat) (r : Record) (e : Nat), s.csu.op = .running → s.fsu.table[i]? = some r → r.age = some e →
    TableLaw s.fsu.table →
    (r.state = .stale → exec (.ageTimerExpiry i) s = .next { s with
      now := max s.now e, fsu := { s.fsu with table := s.fsu.table.set i { r with age := none } } }) ∧
    (r.state ≠ .stale → ∃ t own x, exec (.ageTimerExpiry i) s = .next t ∧
      t.fsu.table[i]? = some { r with state := .stale, age := none, shown := x } ∧
      x = (match r.fixed.kind with
        | .actual => some (match s.fsu.speedCopy.selected, s.fsu.speedCopy.d with
          | some _, some d => BitVec.ofNat 16 d
          | _, _ => r.fixed.blank)
        | .permitted => some (BitVec.ofNat 16 s.fsu.c)
        | .target => some (match r.written with
          | some w => if r.fixed.action = .hold then BitVec.ofNat 16 (min w.toNat s.fsu.reference) else r.fixed.blank
          | none => r.fixed.blank)
        | .aspect => (if s.tcu.uncoded then lossAspect s.tcu.aspects else s.tcu.received).map fun a =>
            BitVec.ofNat 16 a.number
        | .lamps => some (if s.fsu.lampTest then 0xFFFF else mergeLamps s.fsu.fns r.fixed.lamps (match r.written with
          | some w => if r.fixed.action = .hold then w else r.fixed.blank
          | none => r.fixed.blank))
        | .watched => if r.fixed.action = .hold then r.written else some r.fixed.blank
        | .faultSlot => r.shown) ∧
      t = { s with now := max s.now e, inFlight := t.inFlight, fsu := { s.fsu with
        table := t.fsu.table, silent := silentHolds t.fsu.table, pr := t.fsu.pr } } ∧
      t.fsu.pr = (if r.fixed.kind = .permitted then some s.fsu.c else s.fsu.pr) ∧
      (∀ j q, j ≠ i → s.fsu.table[j]? = some q → t.fsu.table[j]? = some (
        if q.fixed.kind = .target ∧ t.fsu.pr ≠ s.fsu.pr then q.recheck true (targetShown s.fsu.c q) else q)) ∧
      (∀ k < 48, (staleBitmap t.fsu.table).getLsbD k = true ↔ ∃ q, t.fsu.table[k]? = some q ∧ q.state = .stale) ∧
      FieldsHanded s s.fsu.table t.fsu.table own ∧
      t.inFlight = s.inFlight ++ own ++ (if t.fsu.pr = s.fsu.pr then [] else [.newPr s.fsu.c])
        ++ [.events .fsu [.st], .report .fsu [.staleSet (staleBitmap t.fsu.table)],
            .fault .fsu (.raise (staleFault r.fixed.kind i)), .staleNotice true]
        ++ silentMsgs s.fsu.silent t.fsu.silent ++ (if r.fixed.kind = .aspect then [.aspectStale true
          ((if s.tcu.uncoded then lossAspect s.tcu.aspects else s.tcu.received).map Aspect.number)] else []))

/-! ## The track code unit (chapter 5) -/

/-- A strobe (R78, R79): it is taken in RUNNING and STANDBY, the first since the entry always and a later one at 40
ms or more after the last taken; an ignored one leaves the TCU as it is. A taken one is sampled, restarts the loss
timer and joins the candidate, whose count saturates at K; where no run of K ends, nothing else changes. The model's
choice in it: the time since the command before it, which the strobe carries (log 3). -/
def Obligations.StrobeSampled : Prop :=
  ∀ (s : State) (code : BitVec 4) (elapsed : Nat), ∃ t, exec (.strobe code elapsed) s = .next t ∧
    t.now = s.now + elapsed ∧
    let k := s.csu.shadow.imgK
    let taken : Prop := (s.csu.op = .running ∨ s.csu.op = .standby) ∧ ∀ x, s.tcu.lastStrobe = some x → x + 40 ≤ t.now
    let sampled : Tcu := { s.tcu with lastStrobe := some t.now, lastSampled := code, candidate := t.tcu.candidate
                                      loss := some (t.now + s.csu.shadow.imgTloss) }
    (¬ taken → t = { s with now := t.now }) ∧
    (taken → t = { s with now := t.now, tcu := t.tcu, inFlight := t.inFlight } ∧
      (s.tcu.candidate = none → t.tcu.candidate = some (code, 1)) ∧
      (∀ x n, s.tcu.candidate = some (x, n) →
        t.tcu.candidate = some (code, if x = code then (if n < k then n + 1 else n) else 1)) ∧
      ((∀ n, s.tcu.candidate = some (code, n) → n + 1 ≠ k) →
        t.tcu = sampled ∧ t.inFlight = s.inFlight ++ tcuSends s.csu.shadow.imgVmax s.tcu t.tcu [] false))

/-- The K-th equal sample confirms its code as one operation (R80, R84): the code already confirmed changes nothing;
a valid one gives CONFIRMED and its aspect and clears 010h where the code was LOST; one that is not valid gives LOST
and the loss aspect and raises 010h in CODED territory, and in LOST changes the confirmed code alone. What changed is
handed on afterwards (R90). The model's choice in it: the time since the command before it, which the strobe carries
(log 3). -/
def Obligations.CodeConfirmed : Prop :=
  ∀ (s : State) (code : BitVec 4) (elapsed n : Nat), (s.csu.op = .running ∨ s.csu.op = .standby) →
    (∀ x, s.tcu.lastStrobe = some x → x + 40 ≤ s.now + elapsed) → s.tcu.candidate = some (code, n) →
    n + 1 = s.csu.shadow.imgK →
    ∃ t faults, exec (.strobe code elapsed) s = .next t ∧
      t = { s with now := s.now + elapsed, tcu := t.tcu, inFlight := t.inFlight } ∧
      t.inFlight = s.inFlight ++ tcuSends s.csu.shadow.imgVmax s.tcu t.tcu faults false ∧
      let sampled : Tcu := { s.tcu with lastStrobe := some t.now, lastSampled := code, candidate := some (code, n + 1)
                                        loss := some (t.now + s.csu.shadow.imgTloss) }
      let again : Prop := s.tcu.state = .confirmed ∧ s.tcu.confirmed = some code
      (again → t.tcu = sampled ∧ faults = []) ∧
      (¬ again → ∀ e, s.tcu.aspects[code.toNat]? = some e → e.valid = true →
        ReceivesAspect { sampled with confirmed := some code, state := .confirmed, hold := none } t.tcu
          (some { number := e.number, rank := e.rank, ceiling := e.ceiling }) ∧
        faults = if s.tcu.state = .lost then [.clear (catalogue 0x010 .b 966)] else []) ∧
      (¬ again → (∀ e, s.tcu.aspects[code.toNat]? = some e → e.valid = false) →
        (s.tcu.state = .lost → t.tcu = { sampled with confirmed := some code } ∧ faults = []) ∧
        (s.tcu.state ≠ .lost → LostEntered { sampled with confirmed := some code } t.tcu ∧
          faults = lossRaise s.tcu.uncoded))

/-- The loss timer expires (R82, R84): the candidate is none and the timer stopped; CONFIRMED goes to HOLDING for
T_hold, or to LOST where T_hold is 0; ACQUIRING goes to LOST; HOLDING and LOST stay. The hold timer's expiry (R83)
gives LOST. The model's choice in it: the ms an expiry leaves in `now` (log 3). -/
def Obligations.TimersLoseCode : Prop :=
  ∀ (s : State) (e : Nat),
    (s.tcu.loss = some e → ∃ t faults, exec .lossTimerExpiry s = .next t ∧
      t = { s with now := max s.now e, tcu := t.tcu, inFlight := t.inFlight } ∧
      t.inFlight = s.inFlight ++ tcuSends s.csu.shadow.imgVmax s.tcu t.tcu faults false ∧
      let u : Tcu := { s.tcu with candidate := none, loss := none }
      (s.tcu.state = .confirmed → 0 < s.csu.shadow.imgThold →
        t.tcu = { u with state := .holding, hold := some (t.now + s.csu.shadow.imgThold) } ∧ faults = []) ∧
      (s.tcu.state = .acquiring ∨ (s.tcu.state = .confirmed ∧ s.csu.shadow.imgThold = 0) →
        LostEntered u t.tcu ∧ faults = lossRaise s.tcu.uncoded) ∧
      (s.tcu.state = .holding ∨ s.tcu.state = .lost → t.tcu = u ∧ faults = [])) ∧
    (s.tcu.hold = some e → ∃ t, exec .holdTimerExpiry s = .next t ∧
      t = { s with now := max s.now e, tcu := t.tcu, inFlight := t.inFlight } ∧ LostEntered s.tcu t.tcu ∧
      t.inFlight = s.inFlight ++ tcuSends s.csu.shadow.imgVmax s.tcu t.tcu (lossRaise s.tcu.uncoded) false)

/-- The TCU takes a new written aspect, with the record's leaving of STALE (R91), or the notice that the ASPECT
record entered or left STALE (R89): the displayed aspect is recomputed, and it is delivered where its number changed
(R90) or is not the number that the FSU found when the record last changed, an operation of the TCU having come
between (R91–R93; log 25). The two come by one path, and the one is not taken for the other (log 1, log 15). -/
def Obligations.WrittenAspectRecomputed : Prop :=
  ∀ (s : State) (rest : List Msg),
    (∀ w n, takeFirst pickAspectInput s.inFlight = some (.written w n, rest) →
      exec .aspectStaleNotice s = .next s ∧
      ∃ t, exec .writtenAspectTaken s = .next t ∧ DisplayRule t.tcu ∧
        t = { s with tcu := { s.tcu with written := some w, aspectStale := false, displayed := t.tcu.displayed }
                     inFlight := rest ++ tcuSends s.csu.shadow.imgVmax s.tcu t.tcu []
                       (decide (t.tcu.displayed.map Aspect.number ≠ n)) }) ∧
    (∀ b n, takeFirst pickAspectInput s.inFlight = some (.stale b n, rest) →
      exec .writtenAspectTaken s = .next s ∧
      ∃ t, exec .aspectStaleNotice s = .next t ∧ DisplayRule t.tcu ∧
        t = { s with tcu := { s.tcu with aspectStale := b, displayed := t.tcu.displayed }
                     inFlight := rest ++ tcuSends s.csu.shadow.imgVmax s.tcu t.tcu []
                       (decide (t.tcu.displayed.map Aspect.number ≠ n)) })

/-! ## The fault list unit (chapter 6) -/

/-- A RAISE of a unit and code that the list holds (R104): severity and text follow the message, an acknowledged
entry that grows graver and a cleared one become ACTIVE_UNACKED, and the entry is re-sorted with its arrival number;
a list change is handed on, severity A from B or C sets FA, and B from C requests a CHIME. One that changes nothing
hands nothing. The messages of one sender are taken in the order sent (R109). -/
def Obligations.RaiseOfHeldEntry : Prop :=
  ∀ (s : State) (b : Block) (m : FaultMsg) (rest : List Msg) (old e : Entry), FaultListLaw s.flu →
    takeFirst (pickFault b) s.inFlight = some (.raise m, rest) →
    old ∈ s.flu.list → old.unit = m.unit → old.code = m.code →
    e = { old with
      severity := m.severity, text := m.text
      state := if old.state = .activeAcked ∧ old.severity.code ≤ m.severity.code then .activeAcked
        else .activeUnacked } →
    exec (.clear b) s = .next s ∧
    (e = old → exec (.raise b) s = .next { s with inFlight := rest }) ∧
    (e ≠ old → ∃ t, exec (.raise b) s = .next t ∧ Resorted s.flu t.flu old e ∧
      t = { s with
        flu := t.flu
        inFlight := rest ++ t.listSends true (if m.severity = .a ∧ old.severity ≠ .a then [.fa] else [])
          (decide (m.severity = .b ∧ old.severity = .c)) })

/-- A RAISE of a unit and code that the list does not hold: with room, a new ACTIVE_UNACKED entry at its place, FA
for severity A and a CHIME for severity B (R105); with the list full, the last entry that is ACTIVE_ACKED or of
severity C gives way where it is not graver, and otherwise the message is lost with event FL (R106). The messages of
one sender are taken in the order sent (R109). -/
def Obligations.RaiseOfNewEntry : Prop :=
  ∀ (s : State) (b : Block) (m : FaultMsg) (rest : List Msg), FaultListLaw s.flu →
    takeFirst (pickFault b) s.inFlight = some (.raise m, rest) →
    (∀ e ∈ s.flu.list, ¬ (e.unit = m.unit ∧ e.code = m.code)) →
    ∃ t, exec (.raise b) s = .next t ∧
      let eligible := fun e : Entry => e.state = .activeAcked ∨ e.severity = .c
      let entered := t.listSends true (if m.severity = .a then [.fa] else []) (decide (m.severity = .b))
      t = { s with flu := t.flu, inFlight := t.inFlight } ∧
      (s.flu.list.length < 32 → Inserted s.flu t.flu m ∧ t.inFlight = rest ++ entered) ∧
      (s.flu.list.length = 32 →
        (∀ front v back, s.flu.list = front ++ v :: back → eligible v → (∀ e ∈ back, ¬ eligible e) →
          (m.severity.code ≤ v.severity.code →
            (∃ f, Removed s.flu f v ∧ Inserted f t.flu m) ∧ t.inFlight = rest ++ entered) ∧
          (v.severity.code < m.severity.code →
            t.flu = s.flu ∧ t.inFlight = rest ++ [.events .flu [.fl]])) ∧
        ((∀ e ∈ s.flu.list, ¬ eligible e) → t.flu = s.flu ∧ t.inFlight = rest ++ [.events .flu [.fl]]))

/-- A CLEAR, matched by unit and code alone (R107): an acknowledged entry, and one of severity C, leaves the list; an
unacknowledged active one of severity A or B becomes CLEARED_UNACKED where it stands; a cleared or absent one stays
as it is, and nothing is handed on. The messages of one sender are taken in the order sent (R109). -/
def Obligations.ClearOfEntry : Prop :=
  ∀ (s : State) (b : Block) (m : FaultMsg) (rest : List Msg), FaultListLaw s.flu →
    takeFirst (pickFault b) s.inFlight = some (.clear m, rest) →
    exec (.raise b) s = .next s ∧
    ((∀ e ∈ s.flu.list, ¬ (e.unit = m.unit ∧ e.code = m.code)) →
      exec (.clear b) s = .next { s with inFlight := rest }) ∧
    ∀ e ∈ s.flu.list, e.unit = m.unit → e.code = m.code → ∃ t, exec (.clear b) s = .next t ∧
      t = { s with flu := t.flu, inFlight := rest ++ t.listSends (decide (e.state ≠ .clearedUnacked)) [] false } ∧
      (e.state = .clearedUnacked → t.flu = s.flu) ∧
      (e.state = .activeAcked ∨ (e.state = .activeUnacked ∧ e.severity = .c) → Removed s.flu t.flu e) ∧
      (e.state = .activeUnacked → e.severity ≠ .c → t.flu = { s.flu with
        list := s.flu.list.map fun x => if x = e then { x with state := .clearedUnacked } else x })

/-- An acknowledge goes to the first unacknowledged entry of the list as the FLU takes it (R108): ACTIVE_UNACKED
becomes ACTIVE_ACKED and is re-sorted, CLEARED_UNACKED leaves; with none, nothing changes. Outside RUNNING none
arrives, and no entry is acknowledged (R112; log 13). -/
def Obligations.AcknowledgeFirstUnseen : Prop :=
  ∀ (s : State) (rest : List Msg), FaultListLaw s.flu →
    takeFirst (pickFault .anu) s.inFlight = some (.acknowledge, rest) →
    exec (.raise .anu) s = .next s ∧ exec (.clear .anu) s = .next s ∧
    (s.csu.op ≠ .running ∨ (∀ e ∈ s.flu.list, e.state = .activeAcked) →
      exec .acknowledge s = .next { s with inFlight := rest }) ∧
    ∀ front e back, s.csu.op = .running → s.flu.list = front ++ e :: back → (∀ x ∈ front, x.state = .activeAcked) →
      e.state ≠ .activeAcked →
      ∃ t, exec .acknowledge s = .next t ∧
        t = { s with flu := t.flu, inFlight := rest ++ t.listSends true [] false } ∧
        (e.state = .activeUnacked → Resorted s.flu t.flu e { e with state := .activeAcked }) ∧
        (e.state = .clearedUnacked → Removed s.flu t.flu e)

/-! ## The annunciation unit (chapters 4, 5 and 7) -/

/-- A completion's hand-over and a new PR are each one evaluation of the overspeed stage (R70–R74): the copy, or the
reference 10 × PR, is replaced, and the functions the event reaches, the buzzer and the state word follow. The
model's choice in it: the take of the oldest of its path (log 1). -/
def Obligations.StageEvaluatedOnce : Prop :=
  ∀ (s : State) (rest : List Msg),
    (∀ c, takeFirst pickCompletion s.inFlight = some (c, rest) → ∃ t, exec .completionHandoverAnu s = .next t ∧
      t.now = s.now ∧ StageEvaluated s t { s.anu with copy := some c } rest
        [.overspeed, .speedUnknown, .dirFwd, .dirRev, .channelFault]) ∧
    (∀ pr, takeFirst pickNewPr s.inFlight = some (pr, rest) → ∃ t, exec .newPr s = .next t ∧
      t.now = s.now ∧ StageEvaluated s t { s.anu with reference := some (10 * pr) } rest [.overspeed])

/-- The ANU takes a rank (R94): it is recorded, and a fall while RUNNING makes the restriction pending, starts the
acknowledgement timer anew, sets AD and hands the flag where it changed. The timer's expiry raises 011h and leaves
the restriction pending (R95). The model's choices in it: the take of the oldest of its path (log 1); the ms an
expiry leaves in `now` (log 3). -/
def Obligations.FallOfRankPends : Prop :=
  ∀ (s : State) (rest : List Msg),
    (∀ r, takeFirst pickRank s.inFlight = some (r, rest) → ∃ t, exec .rankDelivery s = .next t ∧
      let fallen : Prop := s.csu.op = .running ∧ ∃ old, s.anu.rank = some old ∧ r < old
      (¬ fallen → t = { s with inFlight := rest, anu := { s.anu with rank := some r } }) ∧
      (fallen → t.now = s.now ∧ InputTaken s t
        { s.anu with rank := some r, pendingAck := true, ackTimer := some (s.now + 1000 * s.csu.shadow.imgTack) } rest
        [.restrictAck] ([.events .anu [.ad]] ++ (if s.anu.pendingAck then [] else [.report .anu [.restriction true]])))) ∧
    (∀ e, s.anu.ackTimer = some e → exec .acknowledgementTimerExpiry s = .next { s with
      now := max s.now e, anu := { s.anu with ackTimer := none }
      inFlight := s.inFlight ++ [.fault .anu (.raise (catalogue 0x011 .a 967))] })

/-- The ANU takes the inputs of other blocks (R117): a list change replaces the summary, with functions 5, 6 and 7
and the demand of the buzzer; a code state or territory change gives CODE_LOST or UNCODED; a notice of STALE counts
up or down, with STALE_ANY. The model's choice in it: the take of the oldest of its path (log 1). -/
def Obligations.FunctionInputsTaken : Prop :=
  ∀ (s : State) (rest : List Msg),
    (∀ x, takeFirst pickListAnu s.inFlight = some (x, rest) → ∃ t, exec .listHandoverAnu s = .next t ∧ t.now = s.now ∧
      InputTaken s t { s.anu with summary := x } rest [.faultA, .faultAny, .faultMore] []) ∧
    (∀ b, takeFirst pickInput s.inFlight = some (.codeLost b, rest) → ∃ t fns,
      exec .functionInputHandover s = .next t ∧ FunctionsHanded s.csu.op s.anu t.anu [.codeLost] fns ∧
      t = { s with inFlight := rest ++ fns, anu := { s.anu with codeLost := b, fns := t.anu.fns } }) ∧
    (∀ b, takeFirst pickInput s.inFlight = some (.uncoded b, rest) → ∃ t fns,
      exec .functionInputHandover s = .next t ∧ FunctionsHanded s.csu.op s.anu t.anu [.uncoded] fns ∧
      t = { s with inFlight := rest ++ fns, anu := { s.anu with uncoded := b, fns := t.anu.fns } }) ∧
    (∀ entered, takeFirst pickStale s.inFlight = some (entered, rest) → ∃ t fns n,
      exec .staleNotice s = .next t ∧ FunctionsHanded s.csu.op s.anu t.anu [.staleAny] fns ∧
      n = (if entered then s.anu.staleCount + 1 else s.anu.staleCount - 1) ∧
      t = { s with inFlight := rest ++ fns, anu := { s.anu with staleCount := n, fns := t.anu.fns } })

/-- The flash timer reverses the phase every 500 ms, with the functions that follow it (R118); the cadence timer
steps the tone of the sounding pattern (R121); a CHIME request is taken by what sounds (R122). The model's choices in
it: the take of the oldest of its path (log 1); the ms an expiry leaves in `now` (log 3). -/
def Obligations.FlashCadenceAndChime : Prop :=
  ∀ (s : State),
    (∀ e, s.anu.flash = some e → ∃ t fns, exec .flashTimerExpiry s = .next t ∧
      FunctionsHanded s.csu.op s.anu t.anu [.overspeed, .restrictAck] fns ∧
      t = { s with
        now := max s.now e, inFlight := s.inFlight ++ fns
        anu := { s.anu with phase := !s.anu.phase, flash := some (max s.now e + 500), fns := t.anu.fns } }) ∧
    (∀ e, s.anu.cadence = some e → ∃ t, exec .cadenceTimerExpiry s = .next t ∧
      t = { s with now := max s.now e
                   anu := { s.anu with sounding := t.anu.sounding, buz := t.anu.buz, cadence := t.anu.cadence } } ∧
      (s.anu.sounding = .intermittent →
        t.anu.sounding = .intermittent ∧ t.anu.buz = !s.anu.buz ∧ t.anu.cadence = some (t.now + 500)) ∧
      (s.anu.sounding = .repeatChime → s.anu.buz = true →
        t.anu.sounding = .repeatChime ∧ t.anu.buz = false ∧ t.anu.cadence = some (t.now + 1700)) ∧
      (s.anu.sounding = .repeatChime → s.anu.buz = false →
        t.anu.sounding = .repeatChime ∧ t.anu.buz = true ∧ t.anu.cadence = some (t.now + 300)) ∧
      (s.anu.sounding = .chime → t.anu.sounding = .none ∧ t.anu.buz = false ∧ t.anu.cadence = none)) ∧
    (∀ u rest, takeFirst pickChime s.inFlight = some (u, rest) → ∃ t, exec .chimeRequest s = .next t ∧
      ChimeTaken s.csu.op s.now s.anu t.anu ∧
      t = { s with
        inFlight := rest
        anu := { s.anu with sounding := t.anu.sounding, buz := t.anu.buz, cadence := t.anu.cadence } })

/-- The debounce timer of ACKB expires (R124–R127): the level takes the line's. A press while RUNNING with no lockout
starts the lockout and serves one claimant: the pending restriction, else the fault list where its summary shows an
unacknowledged entry, else nothing. Any other expiry sets the level alone. The lockout's expiry ends it. The model's
choice in it: the ms an expiry leaves in `now` (log 3). -/
def Obligations.AcknowledgePressArbitrated : Prop :=
  ∀ (s : State) (e : Nat),
    (s.anu.ackb.timer = some e → ∃ t, exec (.buttonDebounceExpiry .ackb) s = .next t ∧ t.now = max s.now e ∧
      let level : Anu := { s.anu with ackb := { line := s.anu.ackb.line, pressed := s.anu.ackb.line, timer := none } }
      let locked : Anu := { level with lockout := some (t.now + 300) }
      let taken : Prop := s.csu.op = .running ∧ s.anu.ackb.line = true ∧ s.anu.ackb.pressed = false ∧ s.anu.lockout = none
      (¬ taken → t = { s with now := t.now, anu := level }) ∧
      (taken → s.anu.pendingAck = true →
        InputTaken s t { locked with pendingAck := false, ackTimer := none } s.inFlight [.restrictAck]
          [.fault .anu (.clear (catalogue 0x011 .a 967)), .report .anu [.restriction false]]) ∧
      (taken → s.anu.pendingAck = false → t = { s with
        now := t.now, anu := locked
        inFlight := s.inFlight ++ (if s.anu.summary.anyUnacked then [.fault .anu .acknowledge] else []) })) ∧
    (s.anu.lockout = some e → exec .lockoutExpiry s = .next { s with
      now := max s.now e, anu := { s.anu with lockout := none } })

/-- The debounce timer of LTSTB expires (R124, R128, R129): while RUNNING a press starts a lamp test of at most 10 s
with a chime, and a release ends it; any other expiry sets the level alone. The test timer ends a test too. The
model's choices in it: the ms an expiry leaves in `now` (log 3); the chime of a lamp test start is applied in the
same operation (log 21). -/
def Obligations.LampTestStartsAndEnds : Prop :=
  ∀ (s : State) (e : Nat),
    (s.anu.ltstb.timer = some e → ∃ t, exec (.buttonDebounceExpiry .ltstb) s = .next t ∧ t.now = max s.now e ∧
      let level : Anu := { s.anu with
        ltstb := { line := s.anu.ltstb.line, pressed := s.anu.ltstb.line, timer := none } }
      let press : Prop := s.csu.op = .running ∧ s.anu.ltstb.line = true ∧ s.anu.ltstb.pressed = false ∧
        s.anu.testActive = false
      let release : Prop := s.csu.op = .running ∧ s.anu.ltstb.line = false ∧ s.anu.ltstb.pressed = true ∧
        s.anu.testActive = true
      (press → ChimeTaken .running t.now s.anu t.anu ∧ t = { s with
        now := t.now
        anu := { level with testActive := true, test := some (t.now + 10000), sounding := t.anu.sounding
                            buz := t.anu.buz, cadence := t.anu.cadence }
        inFlight := s.inFlight ++ [.lampTest true, .report .anu [.lampTest true]] }) ∧
      (release → t = { s with
        now := t.now, anu := { level with testActive := false, test := none }
        inFlight := s.inFlight ++ [.lampTest false, .report .anu [.lampTest false]] }) ∧
      (¬ press → ¬ release → t = { s with now := t.now, anu := level })) ∧
    (s.anu.test = some e → exec .lampTestTimeout s = .next { s with
      now := max s.now e, anu := { s.anu with testActive := false, test := none }
      inFlight := s.inFlight ++ [.lampTest false, .report .anu [.lampTest false]] })

/-- The debounce filters of ACKB, LTSTB and CABACT (R124, R176): a change of a line restarts its timer, 20 ms for a
button and 100 ms for CABACT; in RESET the line alone changes (R172). A level the line has already is no change (log
2). -/
def Obligations.LineChangesRestartFilters : Prop :=
  ∀ (s : State) (high : Bool),
    let timer := fun (old : Timer) (ms : Nat) => if s.csu.op = .reset then old else some (s.now + ms)
    exec (.buttonLineChange .ackb high) s = .next (if s.anu.ackb.line = high then s else { s with
      anu := { s.anu with ackb := { s.anu.ackb with line := high, timer := timer s.anu.ackb.timer 20 } } }) ∧
    exec (.buttonLineChange .ltstb high) s = .next (if s.anu.ltstb.line = high then s else { s with
      anu := { s.anu with ltstb := { s.anu.ltstb with line := high, timer := timer s.anu.ltstb.timer 20 } } }) ∧
    exec (.cabactLineChange high) s = .next (if s.csu.cabLine = high then s else { s with
      csu := { s.csu with cabLine := high, cabTimer := timer s.csu.cabTimer 100 } })

/-! ## The report unit (chapter 10) -/

/-- The causes of one operation are set together (R158): a bit already set changes nothing; a clear one changes the
event word, INTR follows at once (R161), and 1F07h is requested in every state but FALLBACK. The model's choices in
it: the take of the oldest of its path (log 1); an own-write request in flight counts as the word last caused (log
10). -/
def Obligations.EventsSetTogether : Prop :=
  ∀ (s : State) (b : Block) (es : List Event) (rest : List Msg),
    takeFirst (pickEvents b) s.inFlight = some (es, rest) → ∃ t, exec (.setEvent b) s = .next t ∧
      (∀ k, t.rpu.events.getLsbD k = true ↔ s.rpu.events.getLsbD k = true ∨ ∃ e ∈ es, e.bit = k) ∧
      ((∀ e ∈ es, s.rpu.events.getLsbD e.bit = true) → t = { s with inFlight := rest }) ∧
      ((∃ e ∈ es, s.rpu.events.getLsbD e.bit = false) →
        (t.rpu.intr = true ↔ ∃ k < 12, t.rpu.events.getLsbD k = true ∧ s.rpu.enable.getLsbD k = true) ∧
        t = { s with
          rpu := { s.rpu with events := t.rpu.events, intr := t.rpu.intr }
          inFlight := rest ++ (if s.csu.op = .fallback ∨
              State.lastCaused { s with inFlight := rest } 0x1F07 = some t.rpu.events then []
            else [.ownWrites .rpu [{ addr := 0x1F07, value := t.rpu.events, origin := .report 7 }]]) })

/-- The RPU takes the items of one operation of a sender, or the list, whole (R155, R157): each item is set, the
words they reach are laid out anew as 13.6 and 13.7 give them, and where a content changed those that differ from
memory's are requested. The model's choices in it: the take of the oldest of its path (log 1); an own-write request
in flight counts as the word last caused (log 10). -/
def Obligations.ReportsFollowHandovers : Prop :=
  ∀ (s : State) (rest : List Msg),
    (∀ b items, takeFirst (pickReport b) s.inFlight = some (items, rest) → ∃ t, exec (.reportHandover b) s = .next t ∧
      ItemsSet items s.rpu t.rpu ∧ ReportsHanded s t rest fun k => ∃ i ∈ items, i.reaches k) ∧
    (∀ es, takeFirst pickListRpu s.inFlight = some (es, rest) → ∃ t, exec .listHandoverRpu s = .next t ∧
      t.rpu = { s.rpu with list := es } ∧ ReportsHanded s t rest fun k => k = 9 ∨ (64 ≤ k ∧ k < 128))

/-! ## The memory write queue (chapter 9) -/

/-- The MWQ takes the requests of one owner operation as one enqueue, in order: each replaces the value of the entry
for its address in place, is added at the tail, or marks its origin (R145, R146). The model's choice in it: the take
of the oldest of its path (log 1). -/
def Obligations.OwnWritesEnqueued : Prop :=
  ∀ (s : State) (b : Block) (ws : List OwnWrite) (rest : List Msg), QueueLaw s.mwq →
    takeFirst (pickOwnWrites b) s.inFlight = some (ws, rest) → ∃ t, exec (.ownWriteRequest b) s = .next t ∧
      EnqueuedAll ws s.mwq t.mwq ∧ t = { s with inFlight := rest, mwq := t.mwq }

/-- The head entry is granted the port (R149, R150): its word is written, it leaves, the turn goes to COMPUTER, and
the first marked origin, in repaint order, whose owner's value differs from its memory value takes the freed place,
every origin tried losing its mark (R147). In STANDBY the completed field drain is noticed once (R152). The model's
choices in it: the granted word is performed in the same step (log 6); a re-derivation writes nothing for a marked
field with no derived shown value (log 26). -/
def Obligations.HeadGrantedAndRederived : Prop :=
  ∀ (s : State) (e : OwnWrite) (es : List OwnWrite), QueueLaw s.mwq → s.mem.wf = true → s.mwq.queue = e :: es →
    ∃ (t u : State) (q : Mwq) (drain : List Msg), exec .ownWriteGrant s = .next t ∧ s.mem.oneWord t.mem e.addr e.value ∧
      t = { s with mem := t.mem, mwq := t.mwq, inFlight := s.inFlight ++ drain } ∧
      u = { s with mem := t.mem, mwq := { s.mwq with queue := es, queueTurn := false, known := u.mwq.known } } ∧
      (∀ x, knownAt u.mwq.known x = if x = e.addr.toNat then some e.value else knownAt s.mwq.known x) ∧
      Rederived u q ∧ s.drainNoticed q t.mwq drain

/-! ## The configuration and state unit (chapters 11 and 12) -/

/-- The load timer's expiry enters FALLBACK with verdict TIMEOUT and the last check's offset (R169, R179); that
nothing is left in flight there is the model's choice (log 12). The field drain notice has the state word read
STANDBY, and outside STANDBY changes nothing (R177). The model's choices in it besides: the take of the oldest of its
path (log 1); the ms an expiry leaves in `now` (log 3). -/
def Obligations.LoadTimeoutAndDrain : Prop :=
  ∀ (s : State),
    (∀ e, s.csu.load = some e → ∃ t, exec .loadTimerExpiry s = .next t ∧
      FallbackEntered { s with now := max s.now e } t .timeout s.csu.failures s.csu.failOff ∧
      t.csu.shadow = s.csu.shadow ∧ t.mem = s.mem ∧ t.held = s.held ∧ t.mwq.queueTurn = s.mwq.queueTurn ∧
      t.mwq.drainGiven = s.mwq.drainGiven ∧
      ∀ x, x ≠ 0x1F00 → x ≠ 0x1F0E → knownAt t.mwq.known x = knownAt s.mwq.known x) ∧
    (∀ u rest, takeFirst pickDrain s.inFlight = some (u, rest) → exec .fieldDrainNotice s = .next { s with
      inFlight := rest ++ if s.csu.op = .standby then [.report .csu [.opState .standby false]] else [] })

/-- The CABACT filter expires (R176): the debounced level takes the line's; in RUNNING a change to INACTIVE enters
STANDBY (R177), in STANDBY a change to ACTIVE returns to RUNNING (R178), and in any other state the level alone
changes. The model's choices in it: the ms an expiry leaves in `now` (log 3); a lamp test notice, an older drain
notice and an acknowledge in flight are dropped at the STANDBY entry (log 13); the CLEAR of 011h there is sent only
where the restriction was pending (log 14). -/
def Obligations.CabLevelFollowed : Prop :=
  ∀ (s : State) (e : Nat), s.csu.cabTimer = some e → ∃ t, exec .cabactDebounceExpiry s = .next t ∧
      let u : State := { s with now := max s.now e, csu := { s.csu with cabActive := s.csu.cabLine, cabTimer := none } }
      let inactive : Prop := s.csu.op = .running ∧ s.csu.cabActive = true ∧ s.csu.cabLine = false
      let active : Prop := s.csu.op = .standby ∧ s.csu.cabActive = false ∧ s.csu.cabLine = true
      (inactive → StandbyEntered u t) ∧ (active → StandbyLeft u t) ∧ (¬ inactive → ¬ active → t = u)

/-! ## Resets (12.1) -/

/-- A fall of PWRG from any state is a power reset (R172): the fault list is empty with no base, the arrival counter
0 and the partial message NONE (R113), and every block is in RESET, each with the values its own chapter gives (R57,
R81, R132, R154, R156, R163). The lamp functions and S at 0 are the model's choice (log 20). -/
def Obligations.PowerResetClears : Prop :=
  ∀ s : State, s.csu.pwrg = true → ∃ t, exec .pwrgFall s = .next t ∧
    t.flu.list = [] ∧ t.flu.base = none ∧ t.flu.counter = 0 ∧ t.flu.partialMsg = .none ∧
    t.csu.pwrg = false ∧ t.csu.wrst = s.csu.wrst ∧ InReset s t true

/-- A fall of WRST out of RESET is a warm reset (R172, R174): it keeps the shadow and the lock, the reset cause, and
the entries of severity A with their order, the arrival counter and a base at the earliest of them (R114). In RESET
the inputs change their own levels and the settle time alone, while a source of RESET remains. The model's choices in
it: the ms an expiry leaves in `now` (log 3); the lamp functions and S are 0 in RESET (log 20). -/
def Obligations.WarmResetKeeps : Prop :=
  ∀ s : State,
    (s.csu.wrst = true → s.csu.op ≠ .reset → FaultListLaw s.flu → ∃ t, exec .wrstFall s = .next t ∧ InReset s t false ∧
      t.csu.wrst = false ∧ t.csu.pwrg = s.csu.pwrg ∧ FaultListLaw t.flu ∧
      t.flu.list = s.flu.list.filter (fun e => e.severity = .a) ∧ t.flu.counter = s.flu.counter ∧
      t.flu.partialMsg = .none ∧
      ∀ b n, s.flu.base = some b → t.flu.base = some n → ∀ e ∈ t.flu.list, (n - b).toNat ≤ (e.arrival - b).toNat) ∧
    (s.csu.wrst = true → s.csu.op = .reset →
      exec .wrstFall s = .next { s with csu := { s.csu with wrst := false } }) ∧
    (s.csu.pwrg = false → exec .pwrgRise s = .next { s with
      csu := { s.csu with pwrg := true, settle := some (s.now + 50) } }) ∧
    (∀ e solo, s.csu.settle = some e → s.csu.wrst = false → exec (.settleTimeExpiry solo) s = .next { s with
      now := max s.now e, csu := { s.csu with settle := none } }) ∧
    (∀ solo, s.csu.wrst = false → s.csu.pwrg = false ∨ s.csu.settle ≠ none → exec (.wrstRise solo) s = .next { s with
      csu := { s.csu with wrst := true } })

/-- A release that enters LOADING (R164, R171, R173): after a power reset, after a warm one without a locked image,
and after one whose retained image fails its check, with verdict RETAINED_FAIL and the offset at fault. The shadow is
cleared, the load timer starts, and a cycle held through RESET is then taken. That the held cycle comes first (log
5), and that the RPU's requests, the list and the load state have been taken within the release (log 11), is the
model's choice. The model's choice in it besides: the ms an expiry leaves in `now` (log 3). -/
def Obligations.ReleaseEntersLoading : Prop :=
  ∀ (s : State) (c : Instr) (solo : Bool) (now : Nat), ResetLaw s → s.csu.op = .reset → s.releasedBy c solo now →
    ∀ (cause : Cause) (verdict : Verdict) (off : BitVec 8),
      ((s.csu.powerReset = true ∧ cause = .power ∧ verdict = .pending ∧ off = 0) ∨
       (s.csu.powerReset = false ∧ s.csu.locked = false ∧ cause = .warm ∧ verdict = .pending ∧ off = 0) ∨
       (s.csu.powerReset = false ∧ s.csu.locked = true ∧ cause = .warmImageLost ∧ verdict = .retainedFail ∧
         ((imageCrc s.csu.shadow ≠ s.csu.shadow.read 255 ∧ off = 0xFF) ∨
          (imageCrc s.csu.shadow = s.csu.shadow.read 255 ∧ ∃ o < 32 + 4 * min s.csu.shadow.imgN 48,
            off = BitVec.ofNat 8 o ∧ wordFault s.csu.shadow o = true ∧ ∀ p < o, wordFault s.csu.shadow p = false)))) →
      ∃ u t, exec c s = .next t ∧ HeldTaken s u t ∧ Released s u solo now .loading cause ∧
        u.csu.shadow = [] ∧ u.csu.locked = false ∧ u.csu.load = some (now + 10000) ∧ u.csu.verdict = verdict ∧
        u.csu.failOff = off ∧
        u.inFlight = [.report .csu [.opState .loading false, .loadState verdict 0 off], .events .csu [.sc]] ∧
        u.asu = Asu.reset ∧ u.tcu = Tcu.reset ∧ u.fsu = Fsu.reset

/-- A warm release with a locked image that passes its check enters RUNNING with the image kept (R171, R173, R175),
every block handing on its entry values; a cycle held through RESET is then taken. That the held cycle comes first
(log 5), and that the RPU's requests, the list and the load state have been taken within the release (log 11), is the
model's choice. The model's choices in it besides: the ms an expiry leaves in `now` (log 3); the entry sets the
receivers' copies itself and sends the hand-overs besides (log 16). -/
def Obligations.RetainedImageRuns : Prop :=
  ∀ (s : State) (c : Instr) (solo : Bool) (now : Nat), ResetLaw s → s.csu.op = .reset → s.releasedBy c solo now →
    s.csu.powerReset = false → s.csu.locked = true →
    imageCrc s.csu.shadow = s.csu.shadow.read 255 →
    (∀ o < 32 + 4 * min s.csu.shadow.imgN 48, wordFault s.csu.shadow o = false) →
    ∃ u t, exec c s = .next t ∧ HeldTaken s u t ∧ Released s u solo now .running .warmImageKept ∧
      RunningEntered s.csu.shadow { s with now := now } u [] ∧
      u.csu.shadow = s.csu.shadow ∧ u.csu.locked = true ∧ u.csu.verdict = .accepted ∧ u.csu.failOff = 0

/-! ## Invariants of every step -/

/-- Every step keeps the canonical form of memory and shadow, the shape of the write queue (R145, R146) and of the
fault list (R101–R103, R106), and INTR at the level its events and enable give (R161). The model's choice in it: an
unlisted memory word reads as 0000h (log 8). -/
def Obligations.StorageLawsKept : Prop :=
  ∀ s t : State, step s = .next t →
    (MemoryLaw s.mem s.csu.shadow → MemoryLaw t.mem t.csu.shadow) ∧
    (QueueLaw s.mwq → QueueLaw t.mwq) ∧
    (FaultListLaw s.flu → FaultListLaw t.flu) ∧
    (InterruptLaw s.rpu → InterruptLaw t.rpu)

/-- Every step keeps what each operating state says of the inputs, the load and the outputs (R163, R169, R172, R179),
of the blocks in RESET, of the image in force (R41, R76, R168), of the displayed aspect (R83, R89), of the lamp
functions (R117, R119) and of the buzzer (R120–R123). The model's choice in it: the lamp functions and S are 0 in
RESET (log 20). -/
def Obligations.StateLawsKept : Prop :=
  ∀ s t : State, step s = .next t →
    (StateLaw s.csu → StateLaw t.csu) ∧
    (ResetLaw s → ResetLaw t) ∧
    (StateLaw s.csu → ImageLaw s → ImageLaw t) ∧
    (AspectLaw s.csu.op s.tcu → AspectLaw t.csu.op t.tcu) ∧
    (FunctionLaw s.csu.op s.anu → FunctionLaw t.csu.op t.anu) ∧
    (StateLaw s.csu → BuzzerLaw s.csu.op s.anu → BuzzerLaw t.csu.op t.anu)

/-- Every step keeps the field table as an accepted image may give it (R1–R4), the runtime part of every record (R5,
R7, R11, R133, R135, R141), and while RUNNING the fields: no PERMITTED field above C and no TARGET field above PR
(R65–R67), the ACTUAL field within its tolerance (R60–R63) with the display speed that of the selected speed (R54,
R58), every lamp word merged (R13), and the ASPECT field showing the displayed aspect, but for what is in flight
(R91–R93). The model's choice in it: the ASPECT hand-overs carry the number judged or shown (log 25). -/
def Obligations.FieldLawsKept : Prop :=
  ∀ s t : State, step s = .next t →
    (TableLaw s.fsu.table → TableLaw t.fsu.table) ∧
    (StateLaw s.csu → TableLaw s.fsu.table → SupervisionLaw s.csu.op s.fsu → SupervisionLaw t.csu.op t.fsu) ∧
    (CeilingLaw s.csu.op s.fsu → CeilingLaw t.csu.op t.fsu) ∧
    (SpeedLaw s → SpeedLaw t) ∧
    (TableLaw s.fsu.table → SupervisionLaw s.csu.op s.fsu → SpeedLaw s → ActualLaw s.csu.op s.fsu →
      ActualLaw t.csu.op t.fsu) ∧
    (LampsLaw s.csu.op s.fsu → LampsLaw t.csu.op t.fsu) ∧
    (TableLaw s.fsu.table → AspectShownLaw s → AspectShownLaw t)

/-- The state after reset meets every one of these invariants. The model's choices in it: the state after reset is
the part held in RESET by a power reset (log 9); the lamp functions and S are 0 in RESET (log 20); an unlisted memory
word reads as 0000h (log 8). -/
def Obligations.ResetMeetsInvariants : Prop :=
  let s := State.reset
  (MemoryLaw s.mem s.csu.shadow ∧ QueueLaw s.mwq ∧ FaultListLaw s.flu ∧ InterruptLaw s.rpu) ∧
  (StateLaw s.csu ∧ ResetLaw s ∧ ImageLaw s ∧ AspectLaw s.csu.op s.tcu ∧ FunctionLaw s.csu.op s.anu ∧
    BuzzerLaw s.csu.op s.anu) ∧
  TableLaw s.fsu.table ∧ SupervisionLaw s.csu.op s.fsu ∧ CeilingLaw s.csu.op s.fsu ∧ SpeedLaw s ∧
    ActualLaw s.csu.op s.fsu ∧ LampsLaw s.csu.op s.fsu ∧ AspectShownLaw s
end

