-- ==== Sys2Proof/Laws/Memory.lean ====
section
/-! SUPPORT. The laws of memory: a read after a write, and the canonical form that every write keeps. -/

namespace Sys2Proof.Machine

@[simp] theorem Memory.read_nil (a : Nat) : Memory.read [] a = Config.powerOnWord := rfl

theorem Memory.read_cons (k a : Nat) (v : Word) (m : Memory) :
    Memory.read ((k, v) :: m) a = if k = a then v else Memory.read m a := rfl

/-- Below every listed address nothing is listed. -/
theorem Memory.read_eq_powerOn {m : Memory} {a : Nat} (h : ∀ c ∈ m, a < c.1) :
    m.read a = Config.powerOnWord := by
  induction m with
  | nil => rfl
  | cons c m ih =>
    obtain ⟨k, v⟩ := c
    have hk : a < k := h (k, v) (by simp)
    rw [Memory.read_cons, if_neg (by omega)]
    exact ih fun c hc => h c (by simp [hc])

/-- The canonical form, as a proposition. -/
theorem Memory.wf_iff (m : Memory) :
    m.wf = true ↔ m.Pairwise (fun x y => x.1 < y.1) ∧ ∀ c ∈ m, c.2 ≠ Config.powerOnWord := by
  simp [Memory.wf]

@[simp] theorem Memory.wf_nil : Memory.wf [] = true := rfl

/-- Every entry of a written memory is the written one or was there before. -/
theorem Memory.mem_write {m : Memory} {a : Nat} {w : Word} {c : Nat × Word} (h : c ∈ m.write a w) :
    c = (a, w) ∨ c ∈ m := by
  induction m with
  | nil =>
    simp only [Memory.write] at h
    split at h <;> simp_all
  | cons d m ih =>
    obtain ⟨k, v⟩ := d
    simp only [Memory.write] at h
    split at h
    · split at h <;> simp_all
    · split at h
      · split at h
        · exact .inr (by simp [h])
        · rcases List.mem_cons.mp h with h | h
          · exact .inl h
          · exact .inr (by simp [h])
      · rcases List.mem_cons.mp h with h | h
        · exact .inr (by simp [h])
        · exact (ih h).imp_right fun h => by simp [h]

/-- A write keeps the canonical form. -/
theorem Memory.write_wf {m : Memory} (h : m.wf = true) (a : Nat) (w : Word) : (m.write a w).wf = true := by
  rw [Memory.wf_iff] at h ⊢
  induction m with
  | nil =>
    simp only [Memory.write]
    split <;> simp_all
  | cons d m ih =>
    obtain ⟨k, v⟩ := d
    obtain ⟨hp, hv⟩ := h
    have hp' := List.pairwise_cons.mp hp
    have hm : m.Pairwise (fun x y => x.1 < y.1) ∧ ∀ c ∈ m, c.2 ≠ Config.powerOnWord :=
      ⟨hp'.2, fun c hc => hv c (by simp [hc])⟩
    simp only [Memory.write]
    split
    · rename_i hak
      split
      · exact ⟨hp, hv⟩
      · refine ⟨List.pairwise_cons.mpr ⟨?_, hp⟩, ?_⟩
        · intro c hc
          rcases List.mem_cons.mp hc with rfl | hc
          · exact hak
          · exact Nat.lt_trans hak (hp'.1 c hc)
        · intro c hc
          rcases List.mem_cons.mp hc with rfl | hc
          · assumption
          · exact hv c hc
    · split
      · rename_i hak
        split
        · exact hm
        · refine ⟨List.pairwise_cons.mpr ⟨fun c hc => ?_, hm.1⟩, ?_⟩
          · show a < c.1
            have := hp'.1 c hc
            omega
          · intro c hc
            rcases List.mem_cons.mp hc with rfl | hc
            · assumption
            · exact hm.2 c hc
      · obtain ⟨ih1, ih2⟩ := ih hm
        refine ⟨List.pairwise_cons.mpr ⟨fun c hc => ?_, ih1⟩, ?_⟩
        · rcases Memory.mem_write hc with rfl | hc
          · show k < a
            omega
          · exact hp'.1 c hc
        · intro c hc
          rcases List.mem_cons.mp hc with rfl | hc
          · exact hv (k, v) (by simp)
          · exact ih2 c hc

/-- A read of another address is not changed by a write. -/
theorem Memory.read_write_ne {m : Memory} {a b : Nat} (w : Word) (h : b ≠ a) :
    (m.write a w).read b = m.read b := by
  induction m with
  | nil =>
    simp only [Memory.write]
    split
    · rfl
    · rw [Memory.read_cons, if_neg (Ne.symm h)]
  | cons d m ih =>
    obtain ⟨k, v⟩ := d
    simp only [Memory.write]
    split
    · split
      · rfl
      · rw [Memory.read_cons, if_neg (Ne.symm h)]
    · split
      · rename_i hak
        subst hak
        split
        · rw [Memory.read_cons, if_neg (Ne.symm h)]
        · rw [Memory.read_cons, if_neg (Ne.symm h), Memory.read_cons, if_neg (Ne.symm h)]
      · rw [Memory.read_cons, Memory.read_cons, ih]

/-- A read of the written address gives the written word. -/
theorem Memory.read_write_self {m : Memory} (h : m.wf = true) (a : Nat) (w : Word) : (m.write a w).read a = w := by
  rw [Memory.wf_iff] at h
  induction m with
  | nil =>
    simp only [Memory.write]
    split
    · simp_all
    · simp [Memory.read_cons]
  | cons d m ih =>
    obtain ⟨k, v⟩ := d
    obtain ⟨hp, hv⟩ := h
    have hp' := List.pairwise_cons.mp hp
    simp only [Memory.write]
    split
    · rename_i hak
      split
      · rename_i hw
        rw [hw]
        refine Memory.read_eq_powerOn fun c hc => ?_
        rcases List.mem_cons.mp hc with rfl | hc
        · exact hak
        · exact Nat.lt_trans hak (hp'.1 c hc)
      · simp [Memory.read_cons]
    · split
      · rename_i hak
        split
        · rename_i hw
          rw [hw]
          exact Memory.read_eq_powerOn fun c hc => hak ▸ hp'.1 c hc
        · simp [Memory.read_cons]
      · rename_i h1 h2
        rw [Memory.read_cons, if_neg (Ne.symm h2)]
        exact ih ⟨hp'.2, fun c hc => hv c (by simp [hc])⟩

/-- Both laws of a write as one. -/
theorem Memory.read_write {m : Memory} (h : m.wf = true) (a b : Nat) (w : Word) :
    (m.write a w).read b = if b = a then w else m.read b := by
  split
  · rename_i hb
    rw [hb, Memory.read_write_self h]
  · rename_i hb
    rw [Memory.read_write_ne w hb]

/-- The memory value just set is the one read. -/
@[simp] theorem knownAt_setKnown_self (l : List (Nat × Word)) (a : Nat) (w : Word) :
    knownAt (setKnown l a w) a = some w := by
  induction l with
  | nil => simp [setKnown, knownAt]
  | cons d l ih =>
    obtain ⟨k, v⟩ := d
    simp only [setKnown]
    split
    · simp [knownAt]
    · split
      · simp [knownAt]
      · rename_i h1 h2
        simp [knownAt, Ne.symm h2, ih]

/-- Setting one memory value leaves the others. -/
theorem knownAt_setKnown_ne (l : List (Nat × Word)) {a b : Nat} (w : Word) (h : b ≠ a) :
    knownAt (setKnown l a w) b = knownAt l b := by
  induction l with
  | nil => simp [setKnown, knownAt, Ne.symm h]
  | cons d l ih =>
    obtain ⟨k, v⟩ := d
    simp only [setKnown]
    split
    · simp [knownAt, Ne.symm h]
    · split
      · rename_i hak
        subst hak
        simp [knownAt, Ne.symm h]
      · simp [knownAt, ih]

end Sys2Proof.Machine
end

