-- ==== Sys2Proof/Laws/State.lean ====
section
/-! SUPPORT. What each shared operation leaves unchanged: one lemma for each field of State it does not write, and
what it does to the fields it writes. -/

namespace Sys2Proof.Machine

@[simp] theorem State.reach_pending (s : State) (n : Nat) : (s.reach n).pending = s.pending := rfl
@[simp] theorem State.reach_reads (s : State) (n : Nat) : (s.reach n).reads = s.reads := rfl
@[simp] theorem State.reach_answer (s : State) (n : Nat) : (s.reach n).answer = s.answer := rfl
@[simp] theorem State.reach_inFlight (s : State) (n : Nat) : (s.reach n).inFlight = s.inFlight := rfl
@[simp] theorem State.reach_mem (s : State) (n : Nat) : (s.reach n).mem = s.mem := rfl
@[simp] theorem State.reach_held (s : State) (n : Nat) : (s.reach n).held = s.held := rfl
@[simp] theorem State.reach_csu (s : State) (n : Nat) : (s.reach n).csu = s.csu := rfl
@[simp] theorem State.reach_fsu (s : State) (n : Nat) : (s.reach n).fsu = s.fsu := rfl
@[simp] theorem State.reach_asu (s : State) (n : Nat) : (s.reach n).asu = s.asu := rfl
@[simp] theorem State.reach_tcu (s : State) (n : Nat) : (s.reach n).tcu = s.tcu := rfl
@[simp] theorem State.reach_flu (s : State) (n : Nat) : (s.reach n).flu = s.flu := rfl
@[simp] theorem State.reach_anu (s : State) (n : Nat) : (s.reach n).anu = s.anu := rfl
@[simp] theorem State.reach_mwq (s : State) (n : Nat) : (s.reach n).mwq = s.mwq := rfl
@[simp] theorem State.reach_rpu (s : State) (n : Nat) : (s.reach n).rpu = s.rpu := rfl

@[simp] theorem State.send_pending (s : State) (ms : List Msg) : (s.send ms).pending = s.pending := rfl
@[simp] theorem State.send_reads (s : State) (ms : List Msg) : (s.send ms).reads = s.reads := rfl
@[simp] theorem State.send_answer (s : State) (ms : List Msg) : (s.send ms).answer = s.answer := rfl
@[simp] theorem State.send_now (s : State) (ms : List Msg) : (s.send ms).now = s.now := rfl
@[simp] theorem State.send_mem (s : State) (ms : List Msg) : (s.send ms).mem = s.mem := rfl
@[simp] theorem State.send_held (s : State) (ms : List Msg) : (s.send ms).held = s.held := rfl
@[simp] theorem State.send_csu (s : State) (ms : List Msg) : (s.send ms).csu = s.csu := rfl
@[simp] theorem State.send_fsu (s : State) (ms : List Msg) : (s.send ms).fsu = s.fsu := rfl
@[simp] theorem State.send_asu (s : State) (ms : List Msg) : (s.send ms).asu = s.asu := rfl
@[simp] theorem State.send_tcu (s : State) (ms : List Msg) : (s.send ms).tcu = s.tcu := rfl
@[simp] theorem State.send_flu (s : State) (ms : List Msg) : (s.send ms).flu = s.flu := rfl
@[simp] theorem State.send_anu (s : State) (ms : List Msg) : (s.send ms).anu = s.anu := rfl
@[simp] theorem State.send_mwq (s : State) (ms : List Msg) : (s.send ms).mwq = s.mwq := rfl
@[simp] theorem State.send_rpu (s : State) (ms : List Msg) : (s.send ms).rpu = s.rpu := rfl

@[simp] theorem State.sendFlu_pending (s : State) (b : Block) (rs : List FluRequest) : (s.sendFlu b rs).pending = s.pending := rfl
@[simp] theorem State.sendFlu_reads (s : State) (b : Block) (rs : List FluRequest) : (s.sendFlu b rs).reads = s.reads := rfl
@[simp] theorem State.sendFlu_answer (s : State) (b : Block) (rs : List FluRequest) : (s.sendFlu b rs).answer = s.answer := rfl
@[simp] theorem State.sendFlu_now (s : State) (b : Block) (rs : List FluRequest) : (s.sendFlu b rs).now = s.now := rfl
@[simp] theorem State.sendFlu_mem (s : State) (b : Block) (rs : List FluRequest) : (s.sendFlu b rs).mem = s.mem := rfl
@[simp] theorem State.sendFlu_held (s : State) (b : Block) (rs : List FluRequest) : (s.sendFlu b rs).held = s.held := rfl
@[simp] theorem State.sendFlu_csu (s : State) (b : Block) (rs : List FluRequest) : (s.sendFlu b rs).csu = s.csu := rfl
@[simp] theorem State.sendFlu_fsu (s : State) (b : Block) (rs : List FluRequest) : (s.sendFlu b rs).fsu = s.fsu := rfl
@[simp] theorem State.sendFlu_asu (s : State) (b : Block) (rs : List FluRequest) : (s.sendFlu b rs).asu = s.asu := rfl
@[simp] theorem State.sendFlu_tcu (s : State) (b : Block) (rs : List FluRequest) : (s.sendFlu b rs).tcu = s.tcu := rfl
@[simp] theorem State.sendFlu_flu (s : State) (b : Block) (rs : List FluRequest) : (s.sendFlu b rs).flu = s.flu := rfl
@[simp] theorem State.sendFlu_anu (s : State) (b : Block) (rs : List FluRequest) : (s.sendFlu b rs).anu = s.anu := rfl
@[simp] theorem State.sendFlu_mwq (s : State) (b : Block) (rs : List FluRequest) : (s.sendFlu b rs).mwq = s.mwq := rfl
@[simp] theorem State.sendFlu_rpu (s : State) (b : Block) (rs : List FluRequest) : (s.sendFlu b rs).rpu = s.rpu := rfl

@[simp] theorem State.sendEvents_pending (s : State) (b : Block) (es : List Event) : (s.sendEvents b es).pending = s.pending := by
  unfold State.sendEvents; split <;> rfl
@[simp] theorem State.sendEvents_reads (s : State) (b : Block) (es : List Event) : (s.sendEvents b es).reads = s.reads := by
  unfold State.sendEvents; split <;> rfl
@[simp] theorem State.sendEvents_answer (s : State) (b : Block) (es : List Event) : (s.sendEvents b es).answer = s.answer := by
  unfold State.sendEvents; split <;> rfl
@[simp] theorem State.sendEvents_now (s : State) (b : Block) (es : List Event) : (s.sendEvents b es).now = s.now := by
  unfold State.sendEvents; split <;> rfl
@[simp] theorem State.sendEvents_mem (s : State) (b : Block) (es : List Event) : (s.sendEvents b es).mem = s.mem := by
  unfold State.sendEvents; split <;> rfl
@[simp] theorem State.sendEvents_held (s : State) (b : Block) (es : List Event) : (s.sendEvents b es).held = s.held := by
  unfold State.sendEvents; split <;> rfl
@[simp] theorem State.sendEvents_csu (s : State) (b : Block) (es : List Event) : (s.sendEvents b es).csu = s.csu := by
  unfold State.sendEvents; split <;> rfl
@[simp] theorem State.sendEvents_fsu (s : State) (b : Block) (es : List Event) : (s.sendEvents b es).fsu = s.fsu := by
  unfold State.sendEvents; split <;> rfl
@[simp] theorem State.sendEvents_asu (s : State) (b : Block) (es : List Event) : (s.sendEvents b es).asu = s.asu := by
  unfold State.sendEvents; split <;> rfl
@[simp] theorem State.sendEvents_tcu (s : State) (b : Block) (es : List Event) : (s.sendEvents b es).tcu = s.tcu := by
  unfold State.sendEvents; split <;> rfl
@[simp] theorem State.sendEvents_flu (s : State) (b : Block) (es : List Event) : (s.sendEvents b es).flu = s.flu := by
  unfold State.sendEvents; split <;> rfl
@[simp] theorem State.sendEvents_anu (s : State) (b : Block) (es : List Event) : (s.sendEvents b es).anu = s.anu := by
  unfold State.sendEvents; split <;> rfl
@[simp] theorem State.sendEvents_mwq (s : State) (b : Block) (es : List Event) : (s.sendEvents b es).mwq = s.mwq := by
  unfold State.sendEvents; split <;> rfl
@[simp] theorem State.sendEvents_rpu (s : State) (b : Block) (es : List Event) : (s.sendEvents b es).rpu = s.rpu := by
  unfold State.sendEvents; split <;> rfl

@[simp] theorem State.sendReport_pending (s : State) (b : Block) (is : List ReportItem) : (s.sendReport b is).pending = s.pending := by
  unfold State.sendReport; split <;> rfl
@[simp] theorem State.sendReport_reads (s : State) (b : Block) (is : List ReportItem) : (s.sendReport b is).reads = s.reads := by
  unfold State.sendReport; split <;> rfl
@[simp] theorem State.sendReport_answer (s : State) (b : Block) (is : List ReportItem) : (s.sendReport b is).answer = s.answer := by
  unfold State.sendReport; split <;> rfl
@[simp] theorem State.sendReport_now (s : State) (b : Block) (is : List ReportItem) : (s.sendReport b is).now = s.now := by
  unfold State.sendReport; split <;> rfl
@[simp] theorem State.sendReport_mem (s : State) (b : Block) (is : List ReportItem) : (s.sendReport b is).mem = s.mem := by
  unfold State.sendReport; split <;> rfl
@[simp] theorem State.sendReport_held (s : State) (b : Block) (is : List ReportItem) : (s.sendReport b is).held = s.held := by
  unfold State.sendReport; split <;> rfl
@[simp] theorem State.sendReport_csu (s : State) (b : Block) (is : List ReportItem) : (s.sendReport b is).csu = s.csu := by
  unfold State.sendReport; split <;> rfl
@[simp] theorem State.sendReport_fsu (s : State) (b : Block) (is : List ReportItem) : (s.sendReport b is).fsu = s.fsu := by
  unfold State.sendReport; split <;> rfl
@[simp] theorem State.sendReport_asu (s : State) (b : Block) (is : List ReportItem) : (s.sendReport b is).asu = s.asu := by
  unfold State.sendReport; split <;> rfl
@[simp] theorem State.sendReport_tcu (s : State) (b : Block) (is : List ReportItem) : (s.sendReport b is).tcu = s.tcu := by
  unfold State.sendReport; split <;> rfl
@[simp] theorem State.sendReport_flu (s : State) (b : Block) (is : List ReportItem) : (s.sendReport b is).flu = s.flu := by
  unfold State.sendReport; split <;> rfl
@[simp] theorem State.sendReport_anu (s : State) (b : Block) (is : List ReportItem) : (s.sendReport b is).anu = s.anu := by
  unfold State.sendReport; split <;> rfl
@[simp] theorem State.sendReport_mwq (s : State) (b : Block) (is : List ReportItem) : (s.sendReport b is).mwq = s.mwq := by
  unfold State.sendReport; split <;> rfl
@[simp] theorem State.sendReport_rpu (s : State) (b : Block) (is : List ReportItem) : (s.sendReport b is).rpu = s.rpu := by
  unfold State.sendReport; split <;> rfl

@[simp] theorem State.request_pending (s : State) (b : Block) (ws : List OwnWrite) : (s.request b ws).pending = s.pending := by
  unfold State.request; split <;> rfl
@[simp] theorem State.request_reads (s : State) (b : Block) (ws : List OwnWrite) : (s.request b ws).reads = s.reads := by
  unfold State.request; split <;> rfl
@[simp] theorem State.request_answer (s : State) (b : Block) (ws : List OwnWrite) : (s.request b ws).answer = s.answer := by
  unfold State.request; split <;> rfl
@[simp] theorem State.request_now (s : State) (b : Block) (ws : List OwnWrite) : (s.request b ws).now = s.now := by
  unfold State.request; split <;> rfl
@[simp] theorem State.request_mem (s : State) (b : Block) (ws : List OwnWrite) : (s.request b ws).mem = s.mem := by
  unfold State.request; split <;> rfl
@[simp] theorem State.request_held (s : State) (b : Block) (ws : List OwnWrite) : (s.request b ws).held = s.held := by
  unfold State.request; split <;> rfl
@[simp] theorem State.request_csu (s : State) (b : Block) (ws : List OwnWrite) : (s.request b ws).csu = s.csu := by
  unfold State.request; split <;> rfl
@[simp] theorem State.request_fsu (s : State) (b : Block) (ws : List OwnWrite) : (s.request b ws).fsu = s.fsu := by
  unfold State.request; split <;> rfl
@[simp] theorem State.request_asu (s : State) (b : Block) (ws : List OwnWrite) : (s.request b ws).asu = s.asu := by
  unfold State.request; split <;> rfl
@[simp] theorem State.request_tcu (s : State) (b : Block) (ws : List OwnWrite) : (s.request b ws).tcu = s.tcu := by
  unfold State.request; split <;> rfl
@[simp] theorem State.request_flu (s : State) (b : Block) (ws : List OwnWrite) : (s.request b ws).flu = s.flu := by
  unfold State.request; split <;> rfl
@[simp] theorem State.request_anu (s : State) (b : Block) (ws : List OwnWrite) : (s.request b ws).anu = s.anu := by
  unfold State.request; split <;> rfl
@[simp] theorem State.request_mwq (s : State) (b : Block) (ws : List OwnWrite) : (s.request b ws).mwq = s.mwq := by
  unfold State.request; split <;> rfl
@[simp] theorem State.request_rpu (s : State) (b : Block) (ws : List OwnWrite) : (s.request b ws).rpu = s.rpu := by
  unfold State.request; split <;> rfl

@[simp] theorem State.setMem_pending (s : State) (a : Addr) (w : Word) : (s.setMem a w).pending = s.pending := rfl
@[simp] theorem State.setMem_reads (s : State) (a : Addr) (w : Word) : (s.setMem a w).reads = s.reads := rfl
@[simp] theorem State.setMem_answer (s : State) (a : Addr) (w : Word) : (s.setMem a w).answer = s.answer := rfl
@[simp] theorem State.setMem_inFlight (s : State) (a : Addr) (w : Word) : (s.setMem a w).inFlight = s.inFlight := rfl
@[simp] theorem State.setMem_now (s : State) (a : Addr) (w : Word) : (s.setMem a w).now = s.now := rfl
@[simp] theorem State.setMem_held (s : State) (a : Addr) (w : Word) : (s.setMem a w).held = s.held := rfl
@[simp] theorem State.setMem_csu (s : State) (a : Addr) (w : Word) : (s.setMem a w).csu = s.csu := rfl
@[simp] theorem State.setMem_fsu (s : State) (a : Addr) (w : Word) : (s.setMem a w).fsu = s.fsu := rfl
@[simp] theorem State.setMem_asu (s : State) (a : Addr) (w : Word) : (s.setMem a w).asu = s.asu := rfl
@[simp] theorem State.setMem_tcu (s : State) (a : Addr) (w : Word) : (s.setMem a w).tcu = s.tcu := rfl
@[simp] theorem State.setMem_flu (s : State) (a : Addr) (w : Word) : (s.setMem a w).flu = s.flu := rfl
@[simp] theorem State.setMem_anu (s : State) (a : Addr) (w : Word) : (s.setMem a w).anu = s.anu := rfl
@[simp] theorem State.setMem_mwq (s : State) (a : Addr) (w : Word) : (s.setMem a w).mwq = s.mwq := rfl
@[simp] theorem State.setMem_rpu (s : State) (a : Addr) (w : Word) : (s.setMem a w).rpu = s.rpu := rfl

@[simp] theorem State.noteMemory_pending (s : State) (a : Addr) (w : Word) : (s.noteMemory a w).pending = s.pending := by
  unfold State.noteMemory; split <;> rfl
@[simp] theorem State.noteMemory_reads (s : State) (a : Addr) (w : Word) : (s.noteMemory a w).reads = s.reads := by
  unfold State.noteMemory; split <;> rfl
@[simp] theorem State.noteMemory_answer (s : State) (a : Addr) (w : Word) : (s.noteMemory a w).answer = s.answer := by
  unfold State.noteMemory; split <;> rfl
@[simp] theorem State.noteMemory_inFlight (s : State) (a : Addr) (w : Word) : (s.noteMemory a w).inFlight = s.inFlight := by
  unfold State.noteMemory; split <;> rfl
@[simp] theorem State.noteMemory_now (s : State) (a : Addr) (w : Word) : (s.noteMemory a w).now = s.now := by
  unfold State.noteMemory; split <;> rfl
@[simp] theorem State.noteMemory_mem (s : State) (a : Addr) (w : Word) : (s.noteMemory a w).mem = s.mem := by
  unfold State.noteMemory; split <;> rfl
@[simp] theorem State.noteMemory_held (s : State) (a : Addr) (w : Word) : (s.noteMemory a w).held = s.held := by
  unfold State.noteMemory; split <;> rfl
@[simp] theorem State.noteMemory_csu (s : State) (a : Addr) (w : Word) : (s.noteMemory a w).csu = s.csu := by
  unfold State.noteMemory; split <;> rfl
@[simp] theorem State.noteMemory_fsu (s : State) (a : Addr) (w : Word) : (s.noteMemory a w).fsu = s.fsu := by
  unfold State.noteMemory; split <;> rfl
@[simp] theorem State.noteMemory_asu (s : State) (a : Addr) (w : Word) : (s.noteMemory a w).asu = s.asu := by
  unfold State.noteMemory; split <;> rfl
@[simp] theorem State.noteMemory_tcu (s : State) (a : Addr) (w : Word) : (s.noteMemory a w).tcu = s.tcu := by
  unfold State.noteMemory; split <;> rfl
@[simp] theorem State.noteMemory_flu (s : State) (a : Addr) (w : Word) : (s.noteMemory a w).flu = s.flu := by
  unfold State.noteMemory; split <;> rfl
@[simp] theorem State.noteMemory_anu (s : State) (a : Addr) (w : Word) : (s.noteMemory a w).anu = s.anu := by
  unfold State.noteMemory; split <;> rfl
@[simp] theorem State.noteMemory_rpu (s : State) (a : Addr) (w : Word) : (s.noteMemory a w).rpu = s.rpu := by
  unfold State.noteMemory; split <;> rfl

@[simp] theorem State.rederive_pending (s : State) : (s.rederive).pending = s.pending := by
  unfold State.rederive; dsimp only; split <;> rfl
@[simp] theorem State.rederive_reads (s : State) : (s.rederive).reads = s.reads := by
  unfold State.rederive; dsimp only; split <;> rfl
@[simp] theorem State.rederive_answer (s : State) : (s.rederive).answer = s.answer := by
  unfold State.rederive; dsimp only; split <;> rfl
@[simp] theorem State.rederive_inFlight (s : State) : (s.rederive).inFlight = s.inFlight := by
  unfold State.rederive; dsimp only; split <;> rfl
@[simp] theorem State.rederive_now (s : State) : (s.rederive).now = s.now := by
  unfold State.rederive; dsimp only; split <;> rfl
@[simp] theorem State.rederive_mem (s : State) : (s.rederive).mem = s.mem := by
  unfold State.rederive; dsimp only; split <;> rfl
@[simp] theorem State.rederive_held (s : State) : (s.rederive).held = s.held := by
  unfold State.rederive; dsimp only; split <;> rfl
@[simp] theorem State.rederive_csu (s : State) : (s.rederive).csu = s.csu := by
  unfold State.rederive; dsimp only; split <;> rfl
@[simp] theorem State.rederive_fsu (s : State) : (s.rederive).fsu = s.fsu := by
  unfold State.rederive; dsimp only; split <;> rfl
@[simp] theorem State.rederive_asu (s : State) : (s.rederive).asu = s.asu := by
  unfold State.rederive; dsimp only; split <;> rfl
@[simp] theorem State.rederive_tcu (s : State) : (s.rederive).tcu = s.tcu := by
  unfold State.rederive; dsimp only; split <;> rfl
@[simp] theorem State.rederive_flu (s : State) : (s.rederive).flu = s.flu := by
  unfold State.rederive; dsimp only; split <;> rfl
@[simp] theorem State.rederive_anu (s : State) : (s.rederive).anu = s.anu := by
  unfold State.rederive; dsimp only; split <;> rfl
@[simp] theorem State.rederive_rpu (s : State) : (s.rederive).rpu = s.rpu := by
  unfold State.rederive; dsimp only; split <;> rfl

@[simp] theorem State.noticeDrain_pending (s : State) : (s.noticeDrain).pending = s.pending := by
  unfold State.noticeDrain; split <;> rfl
@[simp] theorem State.noticeDrain_reads (s : State) : (s.noticeDrain).reads = s.reads := by
  unfold State.noticeDrain; split <;> rfl
@[simp] theorem State.noticeDrain_answer (s : State) : (s.noticeDrain).answer = s.answer := by
  unfold State.noticeDrain; split <;> rfl
@[simp] theorem State.noticeDrain_now (s : State) : (s.noticeDrain).now = s.now := by
  unfold State.noticeDrain; split <;> rfl
@[simp] theorem State.noticeDrain_mem (s : State) : (s.noticeDrain).mem = s.mem := by
  unfold State.noticeDrain; split <;> rfl
@[simp] theorem State.noticeDrain_held (s : State) : (s.noticeDrain).held = s.held := by
  unfold State.noticeDrain; split <;> rfl
@[simp] theorem State.noticeDrain_csu (s : State) : (s.noticeDrain).csu = s.csu := by
  unfold State.noticeDrain; split <;> rfl
@[simp] theorem State.noticeDrain_fsu (s : State) : (s.noticeDrain).fsu = s.fsu := by
  unfold State.noticeDrain; split <;> rfl
@[simp] theorem State.noticeDrain_asu (s : State) : (s.noticeDrain).asu = s.asu := by
  unfold State.noticeDrain; split <;> rfl
@[simp] theorem State.noticeDrain_tcu (s : State) : (s.noticeDrain).tcu = s.tcu := by
  unfold State.noticeDrain; split <;> rfl
@[simp] theorem State.noticeDrain_flu (s : State) : (s.noticeDrain).flu = s.flu := by
  unfold State.noticeDrain; split <;> rfl
@[simp] theorem State.noticeDrain_anu (s : State) : (s.noticeDrain).anu = s.anu := by
  unfold State.noticeDrain; split <;> rfl
@[simp] theorem State.noticeDrain_rpu (s : State) : (s.noticeDrain).rpu = s.rpu := by
  unfold State.noticeDrain; split <;> rfl

@[simp] theorem State.grantHead_pending (s : State) : (s.grantHead).pending = s.pending := by
  unfold State.grantHead; split <;> simp
@[simp] theorem State.grantHead_reads (s : State) : (s.grantHead).reads = s.reads := by
  unfold State.grantHead; split <;> simp
@[simp] theorem State.grantHead_answer (s : State) : (s.grantHead).answer = s.answer := by
  unfold State.grantHead; split <;> simp
@[simp] theorem State.grantHead_now (s : State) : (s.grantHead).now = s.now := by
  unfold State.grantHead; split <;> simp
@[simp] theorem State.grantHead_held (s : State) : (s.grantHead).held = s.held := by
  unfold State.grantHead; split <;> simp
@[simp] theorem State.grantHead_csu (s : State) : (s.grantHead).csu = s.csu := by
  unfold State.grantHead; split <;> simp
@[simp] theorem State.grantHead_fsu (s : State) : (s.grantHead).fsu = s.fsu := by
  unfold State.grantHead; split <;> simp
@[simp] theorem State.grantHead_asu (s : State) : (s.grantHead).asu = s.asu := by
  unfold State.grantHead; split <;> simp
@[simp] theorem State.grantHead_tcu (s : State) : (s.grantHead).tcu = s.tcu := by
  unfold State.grantHead; split <;> simp
@[simp] theorem State.grantHead_flu (s : State) : (s.grantHead).flu = s.flu := by
  unfold State.grantHead; split <;> simp
@[simp] theorem State.grantHead_anu (s : State) : (s.grantHead).anu = s.anu := by
  unfold State.grantHead; split <;> simp
@[simp] theorem State.grantHead_rpu (s : State) : (s.grantHead).rpu = s.rpu := by
  unfold State.grantHead; split <;> simp

@[simp] theorem State.supersede_pending (s : State) (a : Addr) : (s.supersede a).pending = s.pending := by
  unfold State.supersede; dsimp only; split <;> simp
@[simp] theorem State.supersede_reads (s : State) (a : Addr) : (s.supersede a).reads = s.reads := by
  unfold State.supersede; dsimp only; split <;> simp
@[simp] theorem State.supersede_answer (s : State) (a : Addr) : (s.supersede a).answer = s.answer := by
  unfold State.supersede; dsimp only; split <;> simp
@[simp] theorem State.supersede_now (s : State) (a : Addr) : (s.supersede a).now = s.now := by
  unfold State.supersede; dsimp only; split <;> simp
@[simp] theorem State.supersede_mem (s : State) (a : Addr) : (s.supersede a).mem = s.mem := by
  unfold State.supersede; dsimp only; split <;> simp
@[simp] theorem State.supersede_held (s : State) (a : Addr) : (s.supersede a).held = s.held := by
  unfold State.supersede; dsimp only; split <;> simp
@[simp] theorem State.supersede_csu (s : State) (a : Addr) : (s.supersede a).csu = s.csu := by
  unfold State.supersede; dsimp only; split <;> simp
@[simp] theorem State.supersede_fsu (s : State) (a : Addr) : (s.supersede a).fsu = s.fsu := by
  unfold State.supersede; dsimp only; split <;> simp
@[simp] theorem State.supersede_asu (s : State) (a : Addr) : (s.supersede a).asu = s.asu := by
  unfold State.supersede; dsimp only; split <;> simp
@[simp] theorem State.supersede_tcu (s : State) (a : Addr) : (s.supersede a).tcu = s.tcu := by
  unfold State.supersede; dsimp only; split <;> simp
@[simp] theorem State.supersede_flu (s : State) (a : Addr) : (s.supersede a).flu = s.flu := by
  unfold State.supersede; dsimp only; split <;> simp
@[simp] theorem State.supersede_anu (s : State) (a : Addr) : (s.supersede a).anu = s.anu := by
  unfold State.supersede; dsimp only; split <;> simp
@[simp] theorem State.supersede_rpu (s : State) (a : Addr) : (s.supersede a).rpu = s.rpu := by
  unfold State.supersede; dsimp only; split <;> simp

@[simp] theorem State.receive_pending (s : State) (a : Addr) (w : Word) : (s.receive a w).pending = s.pending := by
  simp [State.receive]
@[simp] theorem State.receive_reads (s : State) (a : Addr) (w : Word) : (s.receive a w).reads = s.reads := by
  simp [State.receive]
@[simp] theorem State.receive_answer (s : State) (a : Addr) (w : Word) : (s.receive a w).answer = s.answer := by
  simp [State.receive]
@[simp] theorem State.receive_now (s : State) (a : Addr) (w : Word) : (s.receive a w).now = s.now := by
  simp [State.receive]
@[simp] theorem State.receive_held (s : State) (a : Addr) (w : Word) : (s.receive a w).held = s.held := by
  simp [State.receive]
@[simp] theorem State.receive_csu (s : State) (a : Addr) (w : Word) : (s.receive a w).csu = s.csu := by
  simp [State.receive]
@[simp] theorem State.receive_fsu (s : State) (a : Addr) (w : Word) : (s.receive a w).fsu = s.fsu := by
  simp [State.receive]
@[simp] theorem State.receive_asu (s : State) (a : Addr) (w : Word) : (s.receive a w).asu = s.asu := by
  simp [State.receive]
@[simp] theorem State.receive_tcu (s : State) (a : Addr) (w : Word) : (s.receive a w).tcu = s.tcu := by
  simp [State.receive]
@[simp] theorem State.receive_flu (s : State) (a : Addr) (w : Word) : (s.receive a w).flu = s.flu := by
  simp [State.receive]
@[simp] theorem State.receive_anu (s : State) (a : Addr) (w : Word) : (s.receive a w).anu = s.anu := by
  simp [State.receive]
@[simp] theorem State.receive_rpu (s : State) (a : Addr) (w : Word) : (s.receive a w).rpu = s.rpu := by
  simp [State.receive]

@[simp] theorem State.serveQueueTurn_pending (s : State) : (s.serveQueueTurn).pending = s.pending := by
  unfold State.serveQueueTurn; split <;> simp
@[simp] theorem State.serveQueueTurn_reads (s : State) : (s.serveQueueTurn).reads = s.reads := by
  unfold State.serveQueueTurn; split <;> simp
@[simp] theorem State.serveQueueTurn_answer (s : State) : (s.serveQueueTurn).answer = s.answer := by
  unfold State.serveQueueTurn; split <;> simp
@[simp] theorem State.serveQueueTurn_now (s : State) : (s.serveQueueTurn).now = s.now := by
  unfold State.serveQueueTurn; split <;> simp
@[simp] theorem State.serveQueueTurn_held (s : State) : (s.serveQueueTurn).held = s.held := by
  unfold State.serveQueueTurn; split <;> simp
@[simp] theorem State.serveQueueTurn_csu (s : State) : (s.serveQueueTurn).csu = s.csu := by
  unfold State.serveQueueTurn; split <;> simp
@[simp] theorem State.serveQueueTurn_fsu (s : State) : (s.serveQueueTurn).fsu = s.fsu := by
  unfold State.serveQueueTurn; split <;> simp
@[simp] theorem State.serveQueueTurn_asu (s : State) : (s.serveQueueTurn).asu = s.asu := by
  unfold State.serveQueueTurn; split <;> simp
@[simp] theorem State.serveQueueTurn_tcu (s : State) : (s.serveQueueTurn).tcu = s.tcu := by
  unfold State.serveQueueTurn; split <;> simp
@[simp] theorem State.serveQueueTurn_flu (s : State) : (s.serveQueueTurn).flu = s.flu := by
  unfold State.serveQueueTurn; split <;> simp
@[simp] theorem State.serveQueueTurn_anu (s : State) : (s.serveQueueTurn).anu = s.anu := by
  unfold State.serveQueueTurn; split <;> simp
@[simp] theorem State.serveQueueTurn_rpu (s : State) : (s.serveQueueTurn).rpu = s.rpu := by
  unfold State.serveQueueTurn; split <;> simp

@[simp] theorem State.grantComputer_pending (s : State) : (s.grantComputer).pending = s.pending := rfl
@[simp] theorem State.grantComputer_reads (s : State) : (s.grantComputer).reads = s.reads := rfl
@[simp] theorem State.grantComputer_answer (s : State) : (s.grantComputer).answer = s.answer := rfl
@[simp] theorem State.grantComputer_inFlight (s : State) : (s.grantComputer).inFlight = s.inFlight := rfl
@[simp] theorem State.grantComputer_now (s : State) : (s.grantComputer).now = s.now := rfl
@[simp] theorem State.grantComputer_mem (s : State) : (s.grantComputer).mem = s.mem := rfl
@[simp] theorem State.grantComputer_csu (s : State) : (s.grantComputer).csu = s.csu := rfl
@[simp] theorem State.grantComputer_fsu (s : State) : (s.grantComputer).fsu = s.fsu := rfl
@[simp] theorem State.grantComputer_asu (s : State) : (s.grantComputer).asu = s.asu := rfl
@[simp] theorem State.grantComputer_tcu (s : State) : (s.grantComputer).tcu = s.tcu := rfl
@[simp] theorem State.grantComputer_flu (s : State) : (s.grantComputer).flu = s.flu := rfl
@[simp] theorem State.grantComputer_anu (s : State) : (s.grantComputer).anu = s.anu := rfl
@[simp] theorem State.grantComputer_rpu (s : State) : (s.grantComputer).rpu = s.rpu := rfl

@[simp] theorem State.takeRead_pending (s : State) (a : Addr) : (s.takeRead a).pending = s.pending := by
  simp [State.takeRead]
@[simp] theorem State.takeRead_reads (s : State) (a : Addr) : (s.takeRead a).reads = s.reads := by
  simp [State.takeRead]
@[simp] theorem State.takeRead_now (s : State) (a : Addr) : (s.takeRead a).now = s.now := by
  simp [State.takeRead]
@[simp] theorem State.takeRead_csu (s : State) (a : Addr) : (s.takeRead a).csu = s.csu := by
  simp [State.takeRead]
@[simp] theorem State.takeRead_fsu (s : State) (a : Addr) : (s.takeRead a).fsu = s.fsu := by
  simp [State.takeRead]
@[simp] theorem State.takeRead_asu (s : State) (a : Addr) : (s.takeRead a).asu = s.asu := by
  simp [State.takeRead]
@[simp] theorem State.takeRead_tcu (s : State) (a : Addr) : (s.takeRead a).tcu = s.tcu := by
  simp [State.takeRead]
@[simp] theorem State.takeRead_flu (s : State) (a : Addr) : (s.takeRead a).flu = s.flu := by
  simp [State.takeRead]
@[simp] theorem State.takeRead_anu (s : State) (a : Addr) : (s.takeRead a).anu = s.anu := by
  simp [State.takeRead]
@[simp] theorem State.takeRead_rpu (s : State) (a : Addr) : (s.takeRead a).rpu = s.rpu := by
  simp [State.takeRead]
@[simp] theorem State.takeRead_inFlight (s : State) (a : Addr) :
    (s.takeRead a).inFlight = s.serveQueueTurn.inFlight := rfl
@[simp] theorem State.takeRead_mem (s : State) (a : Addr) : (s.takeRead a).mem = s.serveQueueTurn.mem := rfl
@[simp] theorem State.takeRead_held (s : State) (a : Addr) : (s.takeRead a).held = none := rfl
@[simp] theorem State.takeRead_answer (s : State) (a : Addr) :
    (s.takeRead a).answer = some (s.serveQueueTurn.mem.read a.toNat) := rfl
@[simp] theorem State.takeRead_mwq (s : State) (a : Addr) :
    (s.takeRead a).mwq = s.serveQueueTurn.grantComputer.mwq := rfl

@[simp] theorem State.tick_pending (s : State) : s.tick.pending = s.pending := rfl
@[simp] theorem State.tick_reads (s : State) : s.tick.reads = s.reads := rfl
@[simp] theorem State.tick_inFlight (s : State) : s.tick.inFlight = s.inFlight := rfl
@[simp] theorem State.tick_mem (s : State) : s.tick.mem = s.mem := rfl
@[simp] theorem State.tick_held (s : State) : s.tick.held = s.held := rfl
@[simp] theorem State.tick_answer (s : State) : s.tick.answer = s.answer := rfl
@[simp] theorem State.tick_csu (s : State) : s.tick.csu = s.csu := rfl
@[simp] theorem State.tick_fsu (s : State) : s.tick.fsu = s.fsu := rfl
@[simp] theorem State.tick_asu (s : State) : s.tick.asu = s.asu := rfl
@[simp] theorem State.tick_tcu (s : State) : s.tick.tcu = s.tcu := rfl
@[simp] theorem State.tick_flu (s : State) : s.tick.flu = s.flu := rfl
@[simp] theorem State.tick_anu (s : State) : s.tick.anu = s.anu := rfl
@[simp] theorem State.tick_mwq (s : State) : s.tick.mwq = s.mwq := rfl
@[simp] theorem State.tick_rpu (s : State) : s.tick.rpu = s.rpu := rfl

/-! ## Fields an operation writes -/

@[simp] theorem State.tick_now (s : State) : s.tick.now = s.now + 1 := rfl
@[simp] theorem State.reach_now (s : State) (n : Nat) : (s.reach n).now = max s.now n := rfl
@[simp] theorem State.send_inFlight (s : State) (ms : List Msg) : (s.send ms).inFlight = s.inFlight ++ ms := rfl
@[simp] theorem State.sendFlu_inFlight (s : State) (b : Block) (rs : List FluRequest) :
    (s.sendFlu b rs).inFlight = s.inFlight ++ rs.map (Msg.fault b) := rfl
@[simp] theorem State.sendEvents_inFlight (s : State) (b : Block) (es : List Event) :
    (s.sendEvents b es).inFlight = s.inFlight ++ (if es = [] then [] else [.events b es]) := by
  unfold State.sendEvents; split <;> simp_all
@[simp] theorem State.sendReport_inFlight (s : State) (b : Block) (is : List ReportItem) :
    (s.sendReport b is).inFlight = s.inFlight ++ (if is = [] then [] else [.report b is]) := by
  unfold State.sendReport; split <;> simp_all
@[simp] theorem State.request_inFlight (s : State) (b : Block) (ws : List OwnWrite) :
    (s.request b ws).inFlight = s.inFlight ++ (if ws = [] then [] else [.ownWrites b ws]) := by
  unfold State.request; split <;> simp_all
@[simp] theorem State.setMem_mem (s : State) (a : Addr) (w : Word) : (s.setMem a w).mem = s.mem.write a.toNat w := rfl
@[simp] theorem State.receive_mem (s : State) (a : Addr) (w : Word) :
    (s.receive a w).mem = s.mem.write a.toNat w := by
  simp [State.receive]
@[simp] theorem State.grantComputer_held (s : State) : s.grantComputer.held = none := rfl
@[simp] theorem State.grantComputer_mwq (s : State) : s.grantComputer.mwq = { s.mwq with queueTurn := true } := rfl

/-- A grant writes the head entry and nothing else of memory (R150). -/
theorem State.grantHead_mem (s : State) :
    s.grantHead.mem = match s.mwq.queue with
      | [] => s.mem
      | e :: _ => s.mem.write e.addr.toNat e.value := by
  unfold State.grantHead
  split <;> simp_all

end Sys2Proof.Machine
end

