-- ==== Sys2Proof/Laws/Blocks.lean ====
section
/-! SUPPORT. What each operation of a block leaves unchanged: one lemma for each field of State it does not write. -/

namespace Sys2Proof.Machine

/-! ## Operations of the axle speed unit -/

@[simp] theorem State.handPublished_pending (s : State) : (s.handPublished).pending = s.pending := rfl
@[simp] theorem State.handPublished_reads (s : State) : (s.handPublished).reads = s.reads := rfl
@[simp] theorem State.handPublished_answer (s : State) : (s.handPublished).answer = s.answer := rfl
@[simp] theorem State.handPublished_now (s : State) : (s.handPublished).now = s.now := rfl
@[simp] theorem State.handPublished_mem (s : State) : (s.handPublished).mem = s.mem := rfl
@[simp] theorem State.handPublished_held (s : State) : (s.handPublished).held = s.held := rfl
@[simp] theorem State.handPublished_csu (s : State) : (s.handPublished).csu = s.csu := rfl
@[simp] theorem State.handPublished_fsu (s : State) : (s.handPublished).fsu = s.fsu := rfl
@[simp] theorem State.handPublished_asu (s : State) : (s.handPublished).asu = s.asu := rfl
@[simp] theorem State.handPublished_tcu (s : State) : (s.handPublished).tcu = s.tcu := rfl
@[simp] theorem State.handPublished_flu (s : State) : (s.handPublished).flu = s.flu := rfl
@[simp] theorem State.handPublished_anu (s : State) : (s.handPublished).anu = s.anu := rfl
@[simp] theorem State.handPublished_mwq (s : State) : (s.handPublished).mwq = s.mwq := rfl
@[simp] theorem State.handPublished_rpu (s : State) : (s.handPublished).rpu = s.rpu := rfl

@[simp] theorem State.completeWindow_pending (s : State) (brk : Bool) : (s.completeWindow brk).pending = s.pending := by
  simp [State.completeWindow]
@[simp] theorem State.completeWindow_reads (s : State) (brk : Bool) : (s.completeWindow brk).reads = s.reads := by
  simp [State.completeWindow]
@[simp] theorem State.completeWindow_answer (s : State) (brk : Bool) : (s.completeWindow brk).answer = s.answer := by
  simp [State.completeWindow]
@[simp] theorem State.completeWindow_now (s : State) (brk : Bool) : (s.completeWindow brk).now = s.now := by
  simp [State.completeWindow]
@[simp] theorem State.completeWindow_mem (s : State) (brk : Bool) : (s.completeWindow brk).mem = s.mem := by
  simp [State.completeWindow]
@[simp] theorem State.completeWindow_held (s : State) (brk : Bool) : (s.completeWindow brk).held = s.held := by
  simp [State.completeWindow]
@[simp] theorem State.completeWindow_csu (s : State) (brk : Bool) : (s.completeWindow brk).csu = s.csu := by
  simp [State.completeWindow]
@[simp] theorem State.completeWindow_fsu (s : State) (brk : Bool) : (s.completeWindow brk).fsu = s.fsu := by
  simp [State.completeWindow]
@[simp] theorem State.completeWindow_tcu (s : State) (brk : Bool) : (s.completeWindow brk).tcu = s.tcu := by
  simp [State.completeWindow]
@[simp] theorem State.completeWindow_flu (s : State) (brk : Bool) : (s.completeWindow brk).flu = s.flu := by
  simp [State.completeWindow]
@[simp] theorem State.completeWindow_anu (s : State) (brk : Bool) : (s.completeWindow brk).anu = s.anu := by
  simp [State.completeWindow]
@[simp] theorem State.completeWindow_mwq (s : State) (brk : Bool) : (s.completeWindow brk).mwq = s.mwq := by
  simp [State.completeWindow]
@[simp] theorem State.completeWindow_rpu (s : State) (brk : Bool) : (s.completeWindow brk).rpu = s.rpu := by
  simp [State.completeWindow]

@[simp] theorem State.asuEntry_pending (s : State) : (s.asuEntry).pending = s.pending := by
  simp [State.asuEntry]
@[simp] theorem State.asuEntry_reads (s : State) : (s.asuEntry).reads = s.reads := by
  simp [State.asuEntry]
@[simp] theorem State.asuEntry_answer (s : State) : (s.asuEntry).answer = s.answer := by
  simp [State.asuEntry]
@[simp] theorem State.asuEntry_now (s : State) : (s.asuEntry).now = s.now := by
  simp [State.asuEntry]
@[simp] theorem State.asuEntry_mem (s : State) : (s.asuEntry).mem = s.mem := by
  simp [State.asuEntry]
@[simp] theorem State.asuEntry_held (s : State) : (s.asuEntry).held = s.held := by
  simp [State.asuEntry]
@[simp] theorem State.asuEntry_csu (s : State) : (s.asuEntry).csu = s.csu := by
  simp [State.asuEntry]
@[simp] theorem State.asuEntry_fsu (s : State) : (s.asuEntry).fsu = s.fsu := by
  simp [State.asuEntry]
@[simp] theorem State.asuEntry_tcu (s : State) : (s.asuEntry).tcu = s.tcu := by
  simp [State.asuEntry]
@[simp] theorem State.asuEntry_flu (s : State) : (s.asuEntry).flu = s.flu := by
  simp [State.asuEntry]
@[simp] theorem State.asuEntry_anu (s : State) : (s.asuEntry).anu = s.anu := by
  simp [State.asuEntry]
@[simp] theorem State.asuEntry_mwq (s : State) : (s.asuEntry).mwq = s.mwq := by
  simp [State.asuEntry]
@[simp] theorem State.asuEntry_rpu (s : State) : (s.asuEntry).rpu = s.rpu := by
  simp [State.asuEntry]

/-! ## Operations of the fault list unit -/

@[simp] theorem State.applyFlu_pending (s : State) (e : FluEffect) : (s.applyFlu e).pending = s.pending := by
  unfold State.applyFlu; dsimp only; (repeat' split) <;> simp
@[simp] theorem State.applyFlu_reads (s : State) (e : FluEffect) : (s.applyFlu e).reads = s.reads := by
  unfold State.applyFlu; dsimp only; (repeat' split) <;> simp
@[simp] theorem State.applyFlu_answer (s : State) (e : FluEffect) : (s.applyFlu e).answer = s.answer := by
  unfold State.applyFlu; dsimp only; (repeat' split) <;> simp
@[simp] theorem State.applyFlu_now (s : State) (e : FluEffect) : (s.applyFlu e).now = s.now := by
  unfold State.applyFlu; dsimp only; (repeat' split) <;> simp
@[simp] theorem State.applyFlu_mem (s : State) (e : FluEffect) : (s.applyFlu e).mem = s.mem := by
  unfold State.applyFlu; dsimp only; (repeat' split) <;> simp
@[simp] theorem State.applyFlu_held (s : State) (e : FluEffect) : (s.applyFlu e).held = s.held := by
  unfold State.applyFlu; dsimp only; (repeat' split) <;> simp
@[simp] theorem State.applyFlu_csu (s : State) (e : FluEffect) : (s.applyFlu e).csu = s.csu := by
  unfold State.applyFlu; dsimp only; (repeat' split) <;> simp
@[simp] theorem State.applyFlu_fsu (s : State) (e : FluEffect) : (s.applyFlu e).fsu = s.fsu := by
  unfold State.applyFlu; dsimp only; (repeat' split) <;> simp
@[simp] theorem State.applyFlu_asu (s : State) (e : FluEffect) : (s.applyFlu e).asu = s.asu := by
  unfold State.applyFlu; dsimp only; (repeat' split) <;> simp
@[simp] theorem State.applyFlu_tcu (s : State) (e : FluEffect) : (s.applyFlu e).tcu = s.tcu := by
  unfold State.applyFlu; dsimp only; (repeat' split) <;> simp
@[simp] theorem State.applyFlu_anu (s : State) (e : FluEffect) : (s.applyFlu e).anu = s.anu := by
  unfold State.applyFlu; dsimp only; (repeat' split) <;> simp
@[simp] theorem State.applyFlu_mwq (s : State) (e : FluEffect) : (s.applyFlu e).mwq = s.mwq := by
  unfold State.applyFlu; dsimp only; (repeat' split) <;> simp
@[simp] theorem State.applyFlu_rpu (s : State) (e : FluEffect) : (s.applyFlu e).rpu = s.rpu := by
  unfold State.applyFlu; dsimp only; (repeat' split) <;> simp

@[simp] theorem State.takeRequest_pending (s : State) (r : FluRequest) : (s.takeRequest r).pending = s.pending := by
  unfold State.takeRequest; (repeat' split) <;> simp
@[simp] theorem State.takeRequest_reads (s : State) (r : FluRequest) : (s.takeRequest r).reads = s.reads := by
  unfold State.takeRequest; (repeat' split) <;> simp
@[simp] theorem State.takeRequest_answer (s : State) (r : FluRequest) : (s.takeRequest r).answer = s.answer := by
  unfold State.takeRequest; (repeat' split) <;> simp
@[simp] theorem State.takeRequest_now (s : State) (r : FluRequest) : (s.takeRequest r).now = s.now := by
  unfold State.takeRequest; (repeat' split) <;> simp
@[simp] theorem State.takeRequest_mem (s : State) (r : FluRequest) : (s.takeRequest r).mem = s.mem := by
  unfold State.takeRequest; (repeat' split) <;> simp
@[simp] theorem State.takeRequest_held (s : State) (r : FluRequest) : (s.takeRequest r).held = s.held := by
  unfold State.takeRequest; (repeat' split) <;> simp
@[simp] theorem State.takeRequest_csu (s : State) (r : FluRequest) : (s.takeRequest r).csu = s.csu := by
  unfold State.takeRequest; (repeat' split) <;> simp
@[simp] theorem State.takeRequest_fsu (s : State) (r : FluRequest) : (s.takeRequest r).fsu = s.fsu := by
  unfold State.takeRequest; (repeat' split) <;> simp
@[simp] theorem State.takeRequest_asu (s : State) (r : FluRequest) : (s.takeRequest r).asu = s.asu := by
  unfold State.takeRequest; (repeat' split) <;> simp
@[simp] theorem State.takeRequest_tcu (s : State) (r : FluRequest) : (s.takeRequest r).tcu = s.tcu := by
  unfold State.takeRequest; (repeat' split) <;> simp
@[simp] theorem State.takeRequest_anu (s : State) (r : FluRequest) : (s.takeRequest r).anu = s.anu := by
  unfold State.takeRequest; (repeat' split) <;> simp
@[simp] theorem State.takeRequest_mwq (s : State) (r : FluRequest) : (s.takeRequest r).mwq = s.mwq := by
  unfold State.takeRequest; (repeat' split) <;> simp
@[simp] theorem State.takeRequest_rpu (s : State) (r : FluRequest) : (s.takeRequest r).rpu = s.rpu := by
  unfold State.takeRequest; (repeat' split) <;> simp

@[simp] theorem State.takeWindow_pending (s : State) (p : WindowStep) : (s.takeWindow p).pending = s.pending := by
  unfold State.takeWindow; dsimp only; (repeat' split) <;> simp
@[simp] theorem State.takeWindow_reads (s : State) (p : WindowStep) : (s.takeWindow p).reads = s.reads := by
  unfold State.takeWindow; dsimp only; (repeat' split) <;> simp
@[simp] theorem State.takeWindow_answer (s : State) (p : WindowStep) : (s.takeWindow p).answer = s.answer := by
  unfold State.takeWindow; dsimp only; (repeat' split) <;> simp
@[simp] theorem State.takeWindow_now (s : State) (p : WindowStep) : (s.takeWindow p).now = s.now := by
  unfold State.takeWindow; dsimp only; (repeat' split) <;> simp
@[simp] theorem State.takeWindow_mem (s : State) (p : WindowStep) : (s.takeWindow p).mem = s.mem := by
  unfold State.takeWindow; dsimp only; (repeat' split) <;> simp
@[simp] theorem State.takeWindow_held (s : State) (p : WindowStep) : (s.takeWindow p).held = s.held := by
  unfold State.takeWindow; dsimp only; (repeat' split) <;> simp
@[simp] theorem State.takeWindow_csu (s : State) (p : WindowStep) : (s.takeWindow p).csu = s.csu := by
  unfold State.takeWindow; dsimp only; (repeat' split) <;> simp
@[simp] theorem State.takeWindow_fsu (s : State) (p : WindowStep) : (s.takeWindow p).fsu = s.fsu := by
  unfold State.takeWindow; dsimp only; (repeat' split) <;> simp
@[simp] theorem State.takeWindow_asu (s : State) (p : WindowStep) : (s.takeWindow p).asu = s.asu := by
  unfold State.takeWindow; dsimp only; (repeat' split) <;> simp
@[simp] theorem State.takeWindow_tcu (s : State) (p : WindowStep) : (s.takeWindow p).tcu = s.tcu := by
  unfold State.takeWindow; dsimp only; (repeat' split) <;> simp
@[simp] theorem State.takeWindow_anu (s : State) (p : WindowStep) : (s.takeWindow p).anu = s.anu := by
  unfold State.takeWindow; dsimp only; (repeat' split) <;> simp
@[simp] theorem State.takeWindow_mwq (s : State) (p : WindowStep) : (s.takeWindow p).mwq = s.mwq := by
  unfold State.takeWindow; dsimp only; (repeat' split) <;> simp
@[simp] theorem State.takeWindow_rpu (s : State) (p : WindowStep) : (s.takeWindow p).rpu = s.rpu := by
  unfold State.takeWindow; dsimp only; (repeat' split) <;> simp

/-! ## Operations of the track code unit -/

@[simp] theorem State.tcuCommit_pending (s : State) (u : Tcu) (rs : List FluRequest) (b : Bool) : (s.tcuCommit u rs b).pending = s.pending := by
  unfold State.tcuCommit; dsimp only; (repeat' split) <;> simp
@[simp] theorem State.tcuCommit_reads (s : State) (u : Tcu) (rs : List FluRequest) (b : Bool) : (s.tcuCommit u rs b).reads = s.reads := by
  unfold State.tcuCommit; dsimp only; (repeat' split) <;> simp
@[simp] theorem State.tcuCommit_answer (s : State) (u : Tcu) (rs : List FluRequest) (b : Bool) : (s.tcuCommit u rs b).answer = s.answer := by
  unfold State.tcuCommit; dsimp only; (repeat' split) <;> simp
@[simp] theorem State.tcuCommit_now (s : State) (u : Tcu) (rs : List FluRequest) (b : Bool) : (s.tcuCommit u rs b).now = s.now := by
  unfold State.tcuCommit; dsimp only; (repeat' split) <;> simp
@[simp] theorem State.tcuCommit_mem (s : State) (u : Tcu) (rs : List FluRequest) (b : Bool) : (s.tcuCommit u rs b).mem = s.mem := by
  unfold State.tcuCommit; dsimp only; (repeat' split) <;> simp
@[simp] theorem State.tcuCommit_held (s : State) (u : Tcu) (rs : List FluRequest) (b : Bool) : (s.tcuCommit u rs b).held = s.held := by
  unfold State.tcuCommit; dsimp only; (repeat' split) <;> simp
@[simp] theorem State.tcuCommit_csu (s : State) (u : Tcu) (rs : List FluRequest) (b : Bool) : (s.tcuCommit u rs b).csu = s.csu := by
  unfold State.tcuCommit; dsimp only; (repeat' split) <;> simp
@[simp] theorem State.tcuCommit_fsu (s : State) (u : Tcu) (rs : List FluRequest) (b : Bool) : (s.tcuCommit u rs b).fsu = s.fsu := by
  unfold State.tcuCommit; dsimp only; (repeat' split) <;> simp
@[simp] theorem State.tcuCommit_asu (s : State) (u : Tcu) (rs : List FluRequest) (b : Bool) : (s.tcuCommit u rs b).asu = s.asu := by
  unfold State.tcuCommit; dsimp only; (repeat' split) <;> simp
@[simp] theorem State.tcuCommit_flu (s : State) (u : Tcu) (rs : List FluRequest) (b : Bool) : (s.tcuCommit u rs b).flu = s.flu := by
  unfold State.tcuCommit; dsimp only; (repeat' split) <;> simp
@[simp] theorem State.tcuCommit_anu (s : State) (u : Tcu) (rs : List FluRequest) (b : Bool) : (s.tcuCommit u rs b).anu = s.anu := by
  unfold State.tcuCommit; dsimp only; (repeat' split) <;> simp
@[simp] theorem State.tcuCommit_mwq (s : State) (u : Tcu) (rs : List FluRequest) (b : Bool) : (s.tcuCommit u rs b).mwq = s.mwq := by
  unfold State.tcuCommit; dsimp only; (repeat' split) <;> simp
@[simp] theorem State.tcuCommit_rpu (s : State) (u : Tcu) (rs : List FluRequest) (b : Bool) : (s.tcuCommit u rs b).rpu = s.rpu := by
  unfold State.tcuCommit; dsimp only; (repeat' split) <;> simp

@[simp] theorem State.tcuTake_pending (s : State) (u : Tcu) (n : Option Nat) : (s.tcuTake u n).pending = s.pending := by
  simp [State.tcuTake]
@[simp] theorem State.tcuTake_reads (s : State) (u : Tcu) (n : Option Nat) : (s.tcuTake u n).reads = s.reads := by
  simp [State.tcuTake]
@[simp] theorem State.tcuTake_answer (s : State) (u : Tcu) (n : Option Nat) : (s.tcuTake u n).answer = s.answer := by
  simp [State.tcuTake]
@[simp] theorem State.tcuTake_now (s : State) (u : Tcu) (n : Option Nat) : (s.tcuTake u n).now = s.now := by
  simp [State.tcuTake]
@[simp] theorem State.tcuTake_mem (s : State) (u : Tcu) (n : Option Nat) : (s.tcuTake u n).mem = s.mem := by
  simp [State.tcuTake]
@[simp] theorem State.tcuTake_held (s : State) (u : Tcu) (n : Option Nat) : (s.tcuTake u n).held = s.held := by
  simp [State.tcuTake]
@[simp] theorem State.tcuTake_csu (s : State) (u : Tcu) (n : Option Nat) : (s.tcuTake u n).csu = s.csu := by
  simp [State.tcuTake]
@[simp] theorem State.tcuTake_fsu (s : State) (u : Tcu) (n : Option Nat) : (s.tcuTake u n).fsu = s.fsu := by
  simp [State.tcuTake]
@[simp] theorem State.tcuTake_asu (s : State) (u : Tcu) (n : Option Nat) : (s.tcuTake u n).asu = s.asu := by
  simp [State.tcuTake]
@[simp] theorem State.tcuTake_flu (s : State) (u : Tcu) (n : Option Nat) : (s.tcuTake u n).flu = s.flu := by
  simp [State.tcuTake]
@[simp] theorem State.tcuTake_anu (s : State) (u : Tcu) (n : Option Nat) : (s.tcuTake u n).anu = s.anu := by
  simp [State.tcuTake]
@[simp] theorem State.tcuTake_mwq (s : State) (u : Tcu) (n : Option Nat) : (s.tcuTake u n).mwq = s.mwq := by
  simp [State.tcuTake]
@[simp] theorem State.tcuTake_rpu (s : State) (u : Tcu) (n : Option Nat) : (s.tcuTake u n).rpu = s.rpu := by
  simp [State.tcuTake]

@[simp] theorem State.strobe_pending (s : State) (code : BitVec 4) : (s.strobe code).pending = s.pending := by
  unfold State.strobe; dsimp only; (repeat' split) <;> simp
@[simp] theorem State.strobe_reads (s : State) (code : BitVec 4) : (s.strobe code).reads = s.reads := by
  unfold State.strobe; dsimp only; (repeat' split) <;> simp
@[simp] theorem State.strobe_answer (s : State) (code : BitVec 4) : (s.strobe code).answer = s.answer := by
  unfold State.strobe; dsimp only; (repeat' split) <;> simp
@[simp] theorem State.strobe_now (s : State) (code : BitVec 4) : (s.strobe code).now = s.now := by
  unfold State.strobe; dsimp only; (repeat' split) <;> simp
@[simp] theorem State.strobe_mem (s : State) (code : BitVec 4) : (s.strobe code).mem = s.mem := by
  unfold State.strobe; dsimp only; (repeat' split) <;> simp
@[simp] theorem State.strobe_held (s : State) (code : BitVec 4) : (s.strobe code).held = s.held := by
  unfold State.strobe; dsimp only; (repeat' split) <;> simp
@[simp] theorem State.strobe_csu (s : State) (code : BitVec 4) : (s.strobe code).csu = s.csu := by
  unfold State.strobe; dsimp only; (repeat' split) <;> simp
@[simp] theorem State.strobe_fsu (s : State) (code : BitVec 4) : (s.strobe code).fsu = s.fsu := by
  unfold State.strobe; dsimp only; (repeat' split) <;> simp
@[simp] theorem State.strobe_asu (s : State) (code : BitVec 4) : (s.strobe code).asu = s.asu := by
  unfold State.strobe; dsimp only; (repeat' split) <;> simp
@[simp] theorem State.strobe_flu (s : State) (code : BitVec 4) : (s.strobe code).flu = s.flu := by
  unfold State.strobe; dsimp only; (repeat' split) <;> simp
@[simp] theorem State.strobe_anu (s : State) (code : BitVec 4) : (s.strobe code).anu = s.anu := by
  unfold State.strobe; dsimp only; (repeat' split) <;> simp
@[simp] theorem State.strobe_mwq (s : State) (code : BitVec 4) : (s.strobe code).mwq = s.mwq := by
  unfold State.strobe; dsimp only; (repeat' split) <;> simp
@[simp] theorem State.strobe_rpu (s : State) (code : BitVec 4) : (s.strobe code).rpu = s.rpu := by
  unfold State.strobe; dsimp only; (repeat' split) <;> simp

@[simp] theorem State.loseStrobes_pending (s : State) : (s.loseStrobes).pending = s.pending := by
  unfold State.loseStrobes; dsimp only; (repeat' split) <;> simp
@[simp] theorem State.loseStrobes_reads (s : State) : (s.loseStrobes).reads = s.reads := by
  unfold State.loseStrobes; dsimp only; (repeat' split) <;> simp
@[simp] theorem State.loseStrobes_answer (s : State) : (s.loseStrobes).answer = s.answer := by
  unfold State.loseStrobes; dsimp only; (repeat' split) <;> simp
@[simp] theorem State.loseStrobes_now (s : State) : (s.loseStrobes).now = s.now := by
  unfold State.loseStrobes; dsimp only; (repeat' split) <;> simp
@[simp] theorem State.loseStrobes_mem (s : State) : (s.loseStrobes).mem = s.mem := by
  unfold State.loseStrobes; dsimp only; (repeat' split) <;> simp
@[simp] theorem State.loseStrobes_held (s : State) : (s.loseStrobes).held = s.held := by
  unfold State.loseStrobes; dsimp only; (repeat' split) <;> simp
@[simp] theorem State.loseStrobes_csu (s : State) : (s.loseStrobes).csu = s.csu := by
  unfold State.loseStrobes; dsimp only; (repeat' split) <;> simp
@[simp] theorem State.loseStrobes_fsu (s : State) : (s.loseStrobes).fsu = s.fsu := by
  unfold State.loseStrobes; dsimp only; (repeat' split) <;> simp
@[simp] theorem State.loseStrobes_asu (s : State) : (s.loseStrobes).asu = s.asu := by
  unfold State.loseStrobes; dsimp only; (repeat' split) <;> simp
@[simp] theorem State.loseStrobes_flu (s : State) : (s.loseStrobes).flu = s.flu := by
  unfold State.loseStrobes; dsimp only; (repeat' split) <;> simp
@[simp] theorem State.loseStrobes_anu (s : State) : (s.loseStrobes).anu = s.anu := by
  unfold State.loseStrobes; dsimp only; (repeat' split) <;> simp
@[simp] theorem State.loseStrobes_mwq (s : State) : (s.loseStrobes).mwq = s.mwq := by
  unfold State.loseStrobes; dsimp only; (repeat' split) <;> simp
@[simp] theorem State.loseStrobes_rpu (s : State) : (s.loseStrobes).rpu = s.rpu := by
  unfold State.loseStrobes; dsimp only; (repeat' split) <;> simp

@[simp] theorem State.endHold_pending (s : State) : (s.endHold).pending = s.pending := by
  unfold State.endHold; dsimp only; simp
@[simp] theorem State.endHold_reads (s : State) : (s.endHold).reads = s.reads := by
  unfold State.endHold; dsimp only; simp
@[simp] theorem State.endHold_answer (s : State) : (s.endHold).answer = s.answer := by
  unfold State.endHold; dsimp only; simp
@[simp] theorem State.endHold_now (s : State) : (s.endHold).now = s.now := by
  unfold State.endHold; dsimp only; simp
@[simp] theorem State.endHold_mem (s : State) : (s.endHold).mem = s.mem := by
  unfold State.endHold; dsimp only; simp
@[simp] theorem State.endHold_held (s : State) : (s.endHold).held = s.held := by
  unfold State.endHold; dsimp only; simp
@[simp] theorem State.endHold_csu (s : State) : (s.endHold).csu = s.csu := by
  unfold State.endHold; dsimp only; simp
@[simp] theorem State.endHold_fsu (s : State) : (s.endHold).fsu = s.fsu := by
  unfold State.endHold; dsimp only; simp
@[simp] theorem State.endHold_asu (s : State) : (s.endHold).asu = s.asu := by
  unfold State.endHold; dsimp only; simp
@[simp] theorem State.endHold_flu (s : State) : (s.endHold).flu = s.flu := by
  unfold State.endHold; dsimp only; simp
@[simp] theorem State.endHold_anu (s : State) : (s.endHold).anu = s.anu := by
  unfold State.endHold; dsimp only; simp
@[simp] theorem State.endHold_mwq (s : State) : (s.endHold).mwq = s.mwq := by
  unfold State.endHold; dsimp only; simp
@[simp] theorem State.endHold_rpu (s : State) : (s.endHold).rpu = s.rpu := by
  unfold State.endHold; dsimp only; simp

@[simp] theorem State.changeTerritory_pending (s : State) (u : Bool) : (s.changeTerritory u).pending = s.pending := by
  unfold State.changeTerritory; dsimp only; (repeat' split) <;> simp
@[simp] theorem State.changeTerritory_reads (s : State) (u : Bool) : (s.changeTerritory u).reads = s.reads := by
  unfold State.changeTerritory; dsimp only; (repeat' split) <;> simp
@[simp] theorem State.changeTerritory_answer (s : State) (u : Bool) : (s.changeTerritory u).answer = s.answer := by
  unfold State.changeTerritory; dsimp only; (repeat' split) <;> simp
@[simp] theorem State.changeTerritory_now (s : State) (u : Bool) : (s.changeTerritory u).now = s.now := by
  unfold State.changeTerritory; dsimp only; (repeat' split) <;> simp
@[simp] theorem State.changeTerritory_mem (s : State) (u : Bool) : (s.changeTerritory u).mem = s.mem := by
  unfold State.changeTerritory; dsimp only; (repeat' split) <;> simp
@[simp] theorem State.changeTerritory_held (s : State) (u : Bool) : (s.changeTerritory u).held = s.held := by
  unfold State.changeTerritory; dsimp only; (repeat' split) <;> simp
@[simp] theorem State.changeTerritory_csu (s : State) (u : Bool) : (s.changeTerritory u).csu = s.csu := by
  unfold State.changeTerritory; dsimp only; (repeat' split) <;> simp
@[simp] theorem State.changeTerritory_fsu (s : State) (u : Bool) : (s.changeTerritory u).fsu = s.fsu := by
  unfold State.changeTerritory; dsimp only; (repeat' split) <;> simp
@[simp] theorem State.changeTerritory_asu (s : State) (u : Bool) : (s.changeTerritory u).asu = s.asu := by
  unfold State.changeTerritory; dsimp only; (repeat' split) <;> simp
@[simp] theorem State.changeTerritory_flu (s : State) (u : Bool) : (s.changeTerritory u).flu = s.flu := by
  unfold State.changeTerritory; dsimp only; (repeat' split) <;> simp
@[simp] theorem State.changeTerritory_anu (s : State) (u : Bool) : (s.changeTerritory u).anu = s.anu := by
  unfold State.changeTerritory; dsimp only; (repeat' split) <;> simp
@[simp] theorem State.changeTerritory_mwq (s : State) (u : Bool) : (s.changeTerritory u).mwq = s.mwq := by
  unfold State.changeTerritory; dsimp only; (repeat' split) <;> simp
@[simp] theorem State.changeTerritory_rpu (s : State) (u : Bool) : (s.changeTerritory u).rpu = s.rpu := by
  unfold State.changeTerritory; dsimp only; (repeat' split) <;> simp

@[simp] theorem State.tcuEntry_pending (s : State) : (s.tcuEntry).pending = s.pending := by
  simp [State.tcuEntry]
@[simp] theorem State.tcuEntry_reads (s : State) : (s.tcuEntry).reads = s.reads := by
  simp [State.tcuEntry]
@[simp] theorem State.tcuEntry_answer (s : State) : (s.tcuEntry).answer = s.answer := by
  simp [State.tcuEntry]
@[simp] theorem State.tcuEntry_now (s : State) : (s.tcuEntry).now = s.now := by
  simp [State.tcuEntry]
@[simp] theorem State.tcuEntry_mem (s : State) : (s.tcuEntry).mem = s.mem := by
  simp [State.tcuEntry]
@[simp] theorem State.tcuEntry_held (s : State) : (s.tcuEntry).held = s.held := by
  simp [State.tcuEntry]
@[simp] theorem State.tcuEntry_csu (s : State) : (s.tcuEntry).csu = s.csu := by
  simp [State.tcuEntry]
@[simp] theorem State.tcuEntry_fsu (s : State) : (s.tcuEntry).fsu = s.fsu := by
  simp [State.tcuEntry]
@[simp] theorem State.tcuEntry_asu (s : State) : (s.tcuEntry).asu = s.asu := by
  simp [State.tcuEntry]
@[simp] theorem State.tcuEntry_flu (s : State) : (s.tcuEntry).flu = s.flu := by
  simp [State.tcuEntry]
@[simp] theorem State.tcuEntry_anu (s : State) : (s.tcuEntry).anu = s.anu := by
  simp [State.tcuEntry]
@[simp] theorem State.tcuEntry_mwq (s : State) : (s.tcuEntry).mwq = s.mwq := by
  simp [State.tcuEntry]
@[simp] theorem State.tcuEntry_rpu (s : State) : (s.tcuEntry).rpu = s.rpu := by
  simp [State.tcuEntry]

/-! ## Operations of the annunciation unit -/

@[simp] theorem State.reevaluate_pending (s : State) (fs : List LampFn) : (s.reevaluate fs).pending = s.pending := by
  unfold State.reevaluate; dsimp only; (repeat' split) <;> simp
@[simp] theorem State.reevaluate_reads (s : State) (fs : List LampFn) : (s.reevaluate fs).reads = s.reads := by
  unfold State.reevaluate; dsimp only; (repeat' split) <;> simp
@[simp] theorem State.reevaluate_answer (s : State) (fs : List LampFn) : (s.reevaluate fs).answer = s.answer := by
  unfold State.reevaluate; dsimp only; (repeat' split) <;> simp
@[simp] theorem State.reevaluate_now (s : State) (fs : List LampFn) : (s.reevaluate fs).now = s.now := by
  unfold State.reevaluate; dsimp only; (repeat' split) <;> simp
@[simp] theorem State.reevaluate_mem (s : State) (fs : List LampFn) : (s.reevaluate fs).mem = s.mem := by
  unfold State.reevaluate; dsimp only; (repeat' split) <;> simp
@[simp] theorem State.reevaluate_held (s : State) (fs : List LampFn) : (s.reevaluate fs).held = s.held := by
  unfold State.reevaluate; dsimp only; (repeat' split) <;> simp
@[simp] theorem State.reevaluate_csu (s : State) (fs : List LampFn) : (s.reevaluate fs).csu = s.csu := by
  unfold State.reevaluate; dsimp only; (repeat' split) <;> simp
@[simp] theorem State.reevaluate_fsu (s : State) (fs : List LampFn) : (s.reevaluate fs).fsu = s.fsu := by
  unfold State.reevaluate; dsimp only; (repeat' split) <;> simp
@[simp] theorem State.reevaluate_asu (s : State) (fs : List LampFn) : (s.reevaluate fs).asu = s.asu := by
  unfold State.reevaluate; dsimp only; (repeat' split) <;> simp
@[simp] theorem State.reevaluate_tcu (s : State) (fs : List LampFn) : (s.reevaluate fs).tcu = s.tcu := by
  unfold State.reevaluate; dsimp only; (repeat' split) <;> simp
@[simp] theorem State.reevaluate_flu (s : State) (fs : List LampFn) : (s.reevaluate fs).flu = s.flu := by
  unfold State.reevaluate; dsimp only; (repeat' split) <;> simp
@[simp] theorem State.reevaluate_mwq (s : State) (fs : List LampFn) : (s.reevaluate fs).mwq = s.mwq := by
  unfold State.reevaluate; dsimp only; (repeat' split) <;> simp
@[simp] theorem State.reevaluate_rpu (s : State) (fs : List LampFn) : (s.reevaluate fs).rpu = s.rpu := by
  unfold State.reevaluate; dsimp only; (repeat' split) <;> simp

@[simp] theorem State.startPattern_pending (s : State) (p : Pattern) : (s.startPattern p).pending = s.pending := rfl
@[simp] theorem State.startPattern_reads (s : State) (p : Pattern) : (s.startPattern p).reads = s.reads := rfl
@[simp] theorem State.startPattern_answer (s : State) (p : Pattern) : (s.startPattern p).answer = s.answer := rfl
@[simp] theorem State.startPattern_inFlight (s : State) (p : Pattern) : (s.startPattern p).inFlight = s.inFlight := rfl
@[simp] theorem State.startPattern_now (s : State) (p : Pattern) : (s.startPattern p).now = s.now := rfl
@[simp] theorem State.startPattern_mem (s : State) (p : Pattern) : (s.startPattern p).mem = s.mem := rfl
@[simp] theorem State.startPattern_held (s : State) (p : Pattern) : (s.startPattern p).held = s.held := rfl
@[simp] theorem State.startPattern_csu (s : State) (p : Pattern) : (s.startPattern p).csu = s.csu := rfl
@[simp] theorem State.startPattern_fsu (s : State) (p : Pattern) : (s.startPattern p).fsu = s.fsu := rfl
@[simp] theorem State.startPattern_asu (s : State) (p : Pattern) : (s.startPattern p).asu = s.asu := rfl
@[simp] theorem State.startPattern_tcu (s : State) (p : Pattern) : (s.startPattern p).tcu = s.tcu := rfl
@[simp] theorem State.startPattern_flu (s : State) (p : Pattern) : (s.startPattern p).flu = s.flu := rfl
@[simp] theorem State.startPattern_mwq (s : State) (p : Pattern) : (s.startPattern p).mwq = s.mwq := rfl
@[simp] theorem State.startPattern_rpu (s : State) (p : Pattern) : (s.startPattern p).rpu = s.rpu := rfl

@[simp] theorem State.followDemands_pending (s : State) : (s.followDemands).pending = s.pending := by
  unfold State.followDemands; (repeat' split) <;> simp
@[simp] theorem State.followDemands_reads (s : State) : (s.followDemands).reads = s.reads := by
  unfold State.followDemands; (repeat' split) <;> simp
@[simp] theorem State.followDemands_answer (s : State) : (s.followDemands).answer = s.answer := by
  unfold State.followDemands; (repeat' split) <;> simp
@[simp] theorem State.followDemands_inFlight (s : State) : (s.followDemands).inFlight = s.inFlight := by
  unfold State.followDemands; (repeat' split) <;> simp
@[simp] theorem State.followDemands_now (s : State) : (s.followDemands).now = s.now := by
  unfold State.followDemands; (repeat' split) <;> simp
@[simp] theorem State.followDemands_mem (s : State) : (s.followDemands).mem = s.mem := by
  unfold State.followDemands; (repeat' split) <;> simp
@[simp] theorem State.followDemands_held (s : State) : (s.followDemands).held = s.held := by
  unfold State.followDemands; (repeat' split) <;> simp
@[simp] theorem State.followDemands_csu (s : State) : (s.followDemands).csu = s.csu := by
  unfold State.followDemands; (repeat' split) <;> simp
@[simp] theorem State.followDemands_fsu (s : State) : (s.followDemands).fsu = s.fsu := by
  unfold State.followDemands; (repeat' split) <;> simp
@[simp] theorem State.followDemands_asu (s : State) : (s.followDemands).asu = s.asu := by
  unfold State.followDemands; (repeat' split) <;> simp
@[simp] theorem State.followDemands_tcu (s : State) : (s.followDemands).tcu = s.tcu := by
  unfold State.followDemands; (repeat' split) <;> simp
@[simp] theorem State.followDemands_flu (s : State) : (s.followDemands).flu = s.flu := by
  unfold State.followDemands; (repeat' split) <;> simp
@[simp] theorem State.followDemands_mwq (s : State) : (s.followDemands).mwq = s.mwq := by
  unfold State.followDemands; (repeat' split) <;> simp
@[simp] theorem State.followDemands_rpu (s : State) : (s.followDemands).rpu = s.rpu := by
  unfold State.followDemands; (repeat' split) <;> simp

@[simp] theorem State.chime_pending (s : State) : (s.chime).pending = s.pending := by
  unfold State.chime; (repeat' split) <;> simp
@[simp] theorem State.chime_reads (s : State) : (s.chime).reads = s.reads := by
  unfold State.chime; (repeat' split) <;> simp
@[simp] theorem State.chime_answer (s : State) : (s.chime).answer = s.answer := by
  unfold State.chime; (repeat' split) <;> simp
@[simp] theorem State.chime_inFlight (s : State) : (s.chime).inFlight = s.inFlight := by
  unfold State.chime; (repeat' split) <;> simp
@[simp] theorem State.chime_now (s : State) : (s.chime).now = s.now := by
  unfold State.chime; (repeat' split) <;> simp
@[simp] theorem State.chime_mem (s : State) : (s.chime).mem = s.mem := by
  unfold State.chime; (repeat' split) <;> simp
@[simp] theorem State.chime_held (s : State) : (s.chime).held = s.held := by
  unfold State.chime; (repeat' split) <;> simp
@[simp] theorem State.chime_csu (s : State) : (s.chime).csu = s.csu := by
  unfold State.chime; (repeat' split) <;> simp
@[simp] theorem State.chime_fsu (s : State) : (s.chime).fsu = s.fsu := by
  unfold State.chime; (repeat' split) <;> simp
@[simp] theorem State.chime_asu (s : State) : (s.chime).asu = s.asu := by
  unfold State.chime; (repeat' split) <;> simp
@[simp] theorem State.chime_tcu (s : State) : (s.chime).tcu = s.tcu := by
  unfold State.chime; (repeat' split) <;> simp
@[simp] theorem State.chime_flu (s : State) : (s.chime).flu = s.flu := by
  unfold State.chime; (repeat' split) <;> simp
@[simp] theorem State.chime_mwq (s : State) : (s.chime).mwq = s.mwq := by
  unfold State.chime; (repeat' split) <;> simp
@[simp] theorem State.chime_rpu (s : State) : (s.chime).rpu = s.rpu := by
  unfold State.chime; (repeat' split) <;> simp

@[simp] theorem State.stepCadence_pending (s : State) : (s.stepCadence).pending = s.pending := by
  unfold State.stepCadence; dsimp only; (repeat' split) <;> simp
@[simp] theorem State.stepCadence_reads (s : State) : (s.stepCadence).reads = s.reads := by
  unfold State.stepCadence; dsimp only; (repeat' split) <;> simp
@[simp] theorem State.stepCadence_answer (s : State) : (s.stepCadence).answer = s.answer := by
  unfold State.stepCadence; dsimp only; (repeat' split) <;> simp
@[simp] theorem State.stepCadence_inFlight (s : State) : (s.stepCadence).inFlight = s.inFlight := by
  unfold State.stepCadence; dsimp only; (repeat' split) <;> simp
@[simp] theorem State.stepCadence_now (s : State) : (s.stepCadence).now = s.now := by
  unfold State.stepCadence; dsimp only; (repeat' split) <;> simp
@[simp] theorem State.stepCadence_mem (s : State) : (s.stepCadence).mem = s.mem := by
  unfold State.stepCadence; dsimp only; (repeat' split) <;> simp
@[simp] theorem State.stepCadence_held (s : State) : (s.stepCadence).held = s.held := by
  unfold State.stepCadence; dsimp only; (repeat' split) <;> simp
@[simp] theorem State.stepCadence_csu (s : State) : (s.stepCadence).csu = s.csu := by
  unfold State.stepCadence; dsimp only; (repeat' split) <;> simp
@[simp] theorem State.stepCadence_fsu (s : State) : (s.stepCadence).fsu = s.fsu := by
  unfold State.stepCadence; dsimp only; (repeat' split) <;> simp
@[simp] theorem State.stepCadence_asu (s : State) : (s.stepCadence).asu = s.asu := by
  unfold State.stepCadence; dsimp only; (repeat' split) <;> simp
@[simp] theorem State.stepCadence_tcu (s : State) : (s.stepCadence).tcu = s.tcu := by
  unfold State.stepCadence; dsimp only; (repeat' split) <;> simp
@[simp] theorem State.stepCadence_flu (s : State) : (s.stepCadence).flu = s.flu := by
  unfold State.stepCadence; dsimp only; (repeat' split) <;> simp
@[simp] theorem State.stepCadence_mwq (s : State) : (s.stepCadence).mwq = s.mwq := by
  unfold State.stepCadence; dsimp only; (repeat' split) <;> simp
@[simp] theorem State.stepCadence_rpu (s : State) : (s.stepCadence).rpu = s.rpu := by
  unfold State.stepCadence; dsimp only; (repeat' split) <;> simp

@[simp] theorem State.evaluate_pending (s : State) (fs : List LampFn) : (s.evaluate fs).pending = s.pending := by
  unfold State.evaluate; dsimp only; (repeat' split) <;> simp
@[simp] theorem State.evaluate_reads (s : State) (fs : List LampFn) : (s.evaluate fs).reads = s.reads := by
  unfold State.evaluate; dsimp only; (repeat' split) <;> simp
@[simp] theorem State.evaluate_answer (s : State) (fs : List LampFn) : (s.evaluate fs).answer = s.answer := by
  unfold State.evaluate; dsimp only; (repeat' split) <;> simp
@[simp] theorem State.evaluate_now (s : State) (fs : List LampFn) : (s.evaluate fs).now = s.now := by
  unfold State.evaluate; dsimp only; (repeat' split) <;> simp
@[simp] theorem State.evaluate_mem (s : State) (fs : List LampFn) : (s.evaluate fs).mem = s.mem := by
  unfold State.evaluate; dsimp only; (repeat' split) <;> simp
@[simp] theorem State.evaluate_held (s : State) (fs : List LampFn) : (s.evaluate fs).held = s.held := by
  unfold State.evaluate; dsimp only; (repeat' split) <;> simp
@[simp] theorem State.evaluate_csu (s : State) (fs : List LampFn) : (s.evaluate fs).csu = s.csu := by
  unfold State.evaluate; dsimp only; (repeat' split) <;> simp
@[simp] theorem State.evaluate_fsu (s : State) (fs : List LampFn) : (s.evaluate fs).fsu = s.fsu := by
  unfold State.evaluate; dsimp only; (repeat' split) <;> simp
@[simp] theorem State.evaluate_asu (s : State) (fs : List LampFn) : (s.evaluate fs).asu = s.asu := by
  unfold State.evaluate; dsimp only; (repeat' split) <;> simp
@[simp] theorem State.evaluate_tcu (s : State) (fs : List LampFn) : (s.evaluate fs).tcu = s.tcu := by
  unfold State.evaluate; dsimp only; (repeat' split) <;> simp
@[simp] theorem State.evaluate_flu (s : State) (fs : List LampFn) : (s.evaluate fs).flu = s.flu := by
  unfold State.evaluate; dsimp only; (repeat' split) <;> simp
@[simp] theorem State.evaluate_mwq (s : State) (fs : List LampFn) : (s.evaluate fs).mwq = s.mwq := by
  unfold State.evaluate; dsimp only; (repeat' split) <;> simp
@[simp] theorem State.evaluate_rpu (s : State) (fs : List LampFn) : (s.evaluate fs).rpu = s.rpu := by
  unfold State.evaluate; dsimp only; (repeat' split) <;> simp

@[simp] theorem State.endRestriction_pending (s : State) : (s.endRestriction).pending = s.pending := by
  unfold State.endRestriction; dsimp only; (repeat' split) <;> simp
@[simp] theorem State.endRestriction_reads (s : State) : (s.endRestriction).reads = s.reads := by
  unfold State.endRestriction; dsimp only; (repeat' split) <;> simp
@[simp] theorem State.endRestriction_answer (s : State) : (s.endRestriction).answer = s.answer := by
  unfold State.endRestriction; dsimp only; (repeat' split) <;> simp
@[simp] theorem State.endRestriction_now (s : State) : (s.endRestriction).now = s.now := by
  unfold State.endRestriction; dsimp only; (repeat' split) <;> simp
@[simp] theorem State.endRestriction_mem (s : State) : (s.endRestriction).mem = s.mem := by
  unfold State.endRestriction; dsimp only; (repeat' split) <;> simp
@[simp] theorem State.endRestriction_held (s : State) : (s.endRestriction).held = s.held := by
  unfold State.endRestriction; dsimp only; (repeat' split) <;> simp
@[simp] theorem State.endRestriction_csu (s : State) : (s.endRestriction).csu = s.csu := by
  unfold State.endRestriction; dsimp only; (repeat' split) <;> simp
@[simp] theorem State.endRestriction_fsu (s : State) : (s.endRestriction).fsu = s.fsu := by
  unfold State.endRestriction; dsimp only; (repeat' split) <;> simp
@[simp] theorem State.endRestriction_asu (s : State) : (s.endRestriction).asu = s.asu := by
  unfold State.endRestriction; dsimp only; (repeat' split) <;> simp
@[simp] theorem State.endRestriction_tcu (s : State) : (s.endRestriction).tcu = s.tcu := by
  unfold State.endRestriction; dsimp only; (repeat' split) <;> simp
@[simp] theorem State.endRestriction_flu (s : State) : (s.endRestriction).flu = s.flu := by
  unfold State.endRestriction; dsimp only; (repeat' split) <;> simp
@[simp] theorem State.endRestriction_mwq (s : State) : (s.endRestriction).mwq = s.mwq := by
  unfold State.endRestriction; dsimp only; (repeat' split) <;> simp
@[simp] theorem State.endRestriction_rpu (s : State) : (s.endRestriction).rpu = s.rpu := by
  unfold State.endRestriction; dsimp only; (repeat' split) <;> simp

@[simp] theorem State.startLampTest_pending (s : State) : (s.startLampTest).pending = s.pending := by
  unfold State.startLampTest; dsimp only; simp
@[simp] theorem State.startLampTest_reads (s : State) : (s.startLampTest).reads = s.reads := by
  unfold State.startLampTest; dsimp only; simp
@[simp] theorem State.startLampTest_answer (s : State) : (s.startLampTest).answer = s.answer := by
  unfold State.startLampTest; dsimp only; simp
@[simp] theorem State.startLampTest_now (s : State) : (s.startLampTest).now = s.now := by
  unfold State.startLampTest; dsimp only; simp
@[simp] theorem State.startLampTest_mem (s : State) : (s.startLampTest).mem = s.mem := by
  unfold State.startLampTest; dsimp only; simp
@[simp] theorem State.startLampTest_held (s : State) : (s.startLampTest).held = s.held := by
  unfold State.startLampTest; dsimp only; simp
@[simp] theorem State.startLampTest_csu (s : State) : (s.startLampTest).csu = s.csu := by
  unfold State.startLampTest; dsimp only; simp
@[simp] theorem State.startLampTest_fsu (s : State) : (s.startLampTest).fsu = s.fsu := by
  unfold State.startLampTest; dsimp only; simp
@[simp] theorem State.startLampTest_asu (s : State) : (s.startLampTest).asu = s.asu := by
  unfold State.startLampTest; dsimp only; simp
@[simp] theorem State.startLampTest_tcu (s : State) : (s.startLampTest).tcu = s.tcu := by
  unfold State.startLampTest; dsimp only; simp
@[simp] theorem State.startLampTest_flu (s : State) : (s.startLampTest).flu = s.flu := by
  unfold State.startLampTest; dsimp only; simp
@[simp] theorem State.startLampTest_mwq (s : State) : (s.startLampTest).mwq = s.mwq := by
  unfold State.startLampTest; dsimp only; simp
@[simp] theorem State.startLampTest_rpu (s : State) : (s.startLampTest).rpu = s.rpu := by
  unfold State.startLampTest; dsimp only; simp

@[simp] theorem State.endLampTest_pending (s : State) : (s.endLampTest).pending = s.pending := by
  unfold State.endLampTest; dsimp only; simp
@[simp] theorem State.endLampTest_reads (s : State) : (s.endLampTest).reads = s.reads := by
  unfold State.endLampTest; dsimp only; simp
@[simp] theorem State.endLampTest_answer (s : State) : (s.endLampTest).answer = s.answer := by
  unfold State.endLampTest; dsimp only; simp
@[simp] theorem State.endLampTest_now (s : State) : (s.endLampTest).now = s.now := by
  unfold State.endLampTest; dsimp only; simp
@[simp] theorem State.endLampTest_mem (s : State) : (s.endLampTest).mem = s.mem := by
  unfold State.endLampTest; dsimp only; simp
@[simp] theorem State.endLampTest_held (s : State) : (s.endLampTest).held = s.held := by
  unfold State.endLampTest; dsimp only; simp
@[simp] theorem State.endLampTest_csu (s : State) : (s.endLampTest).csu = s.csu := by
  unfold State.endLampTest; dsimp only; simp
@[simp] theorem State.endLampTest_fsu (s : State) : (s.endLampTest).fsu = s.fsu := by
  unfold State.endLampTest; dsimp only; simp
@[simp] theorem State.endLampTest_asu (s : State) : (s.endLampTest).asu = s.asu := by
  unfold State.endLampTest; dsimp only; simp
@[simp] theorem State.endLampTest_tcu (s : State) : (s.endLampTest).tcu = s.tcu := by
  unfold State.endLampTest; dsimp only; simp
@[simp] theorem State.endLampTest_flu (s : State) : (s.endLampTest).flu = s.flu := by
  unfold State.endLampTest; dsimp only; simp
@[simp] theorem State.endLampTest_mwq (s : State) : (s.endLampTest).mwq = s.mwq := by
  unfold State.endLampTest; dsimp only; simp
@[simp] theorem State.endLampTest_rpu (s : State) : (s.endLampTest).rpu = s.rpu := by
  unfold State.endLampTest; dsimp only; simp

@[simp] theorem State.arbitrate_pending (s : State) : (s.arbitrate).pending = s.pending := by
  unfold State.arbitrate; (repeat' split) <;> simp
@[simp] theorem State.arbitrate_reads (s : State) : (s.arbitrate).reads = s.reads := by
  unfold State.arbitrate; (repeat' split) <;> simp
@[simp] theorem State.arbitrate_answer (s : State) : (s.arbitrate).answer = s.answer := by
  unfold State.arbitrate; (repeat' split) <;> simp
@[simp] theorem State.arbitrate_now (s : State) : (s.arbitrate).now = s.now := by
  unfold State.arbitrate; (repeat' split) <;> simp
@[simp] theorem State.arbitrate_mem (s : State) : (s.arbitrate).mem = s.mem := by
  unfold State.arbitrate; (repeat' split) <;> simp
@[simp] theorem State.arbitrate_held (s : State) : (s.arbitrate).held = s.held := by
  unfold State.arbitrate; (repeat' split) <;> simp
@[simp] theorem State.arbitrate_csu (s : State) : (s.arbitrate).csu = s.csu := by
  unfold State.arbitrate; (repeat' split) <;> simp
@[simp] theorem State.arbitrate_fsu (s : State) : (s.arbitrate).fsu = s.fsu := by
  unfold State.arbitrate; (repeat' split) <;> simp
@[simp] theorem State.arbitrate_asu (s : State) : (s.arbitrate).asu = s.asu := by
  unfold State.arbitrate; (repeat' split) <;> simp
@[simp] theorem State.arbitrate_tcu (s : State) : (s.arbitrate).tcu = s.tcu := by
  unfold State.arbitrate; (repeat' split) <;> simp
@[simp] theorem State.arbitrate_flu (s : State) : (s.arbitrate).flu = s.flu := by
  unfold State.arbitrate; (repeat' split) <;> simp
@[simp] theorem State.arbitrate_mwq (s : State) : (s.arbitrate).mwq = s.mwq := by
  unfold State.arbitrate; (repeat' split) <;> simp
@[simp] theorem State.arbitrate_rpu (s : State) : (s.arbitrate).rpu = s.rpu := by
  unfold State.arbitrate; (repeat' split) <;> simp

@[simp] theorem State.pressAck_pending (s : State) : (s.pressAck).pending = s.pending := by
  unfold State.pressAck; dsimp only; (repeat' split) <;> simp
@[simp] theorem State.pressAck_reads (s : State) : (s.pressAck).reads = s.reads := by
  unfold State.pressAck; dsimp only; (repeat' split) <;> simp
@[simp] theorem State.pressAck_answer (s : State) : (s.pressAck).answer = s.answer := by
  unfold State.pressAck; dsimp only; (repeat' split) <;> simp
@[simp] theorem State.pressAck_now (s : State) : (s.pressAck).now = s.now := by
  unfold State.pressAck; dsimp only; (repeat' split) <;> simp
@[simp] theorem State.pressAck_mem (s : State) : (s.pressAck).mem = s.mem := by
  unfold State.pressAck; dsimp only; (repeat' split) <;> simp
@[simp] theorem State.pressAck_held (s : State) : (s.pressAck).held = s.held := by
  unfold State.pressAck; dsimp only; (repeat' split) <;> simp
@[simp] theorem State.pressAck_csu (s : State) : (s.pressAck).csu = s.csu := by
  unfold State.pressAck; dsimp only; (repeat' split) <;> simp
@[simp] theorem State.pressAck_fsu (s : State) : (s.pressAck).fsu = s.fsu := by
  unfold State.pressAck; dsimp only; (repeat' split) <;> simp
@[simp] theorem State.pressAck_asu (s : State) : (s.pressAck).asu = s.asu := by
  unfold State.pressAck; dsimp only; (repeat' split) <;> simp
@[simp] theorem State.pressAck_tcu (s : State) : (s.pressAck).tcu = s.tcu := by
  unfold State.pressAck; dsimp only; (repeat' split) <;> simp
@[simp] theorem State.pressAck_flu (s : State) : (s.pressAck).flu = s.flu := by
  unfold State.pressAck; dsimp only; (repeat' split) <;> simp
@[simp] theorem State.pressAck_mwq (s : State) : (s.pressAck).mwq = s.mwq := by
  unfold State.pressAck; dsimp only; (repeat' split) <;> simp
@[simp] theorem State.pressAck_rpu (s : State) : (s.pressAck).rpu = s.rpu := by
  unfold State.pressAck; dsimp only; (repeat' split) <;> simp

@[simp] theorem State.buttonChanged_pending (s : State) (b : Button) (p : Bool) : (s.buttonChanged b p).pending = s.pending := by
  unfold State.buttonChanged; (repeat' split) <;> simp
@[simp] theorem State.buttonChanged_reads (s : State) (b : Button) (p : Bool) : (s.buttonChanged b p).reads = s.reads := by
  unfold State.buttonChanged; (repeat' split) <;> simp
@[simp] theorem State.buttonChanged_answer (s : State) (b : Button) (p : Bool) : (s.buttonChanged b p).answer = s.answer := by
  unfold State.buttonChanged; (repeat' split) <;> simp
@[simp] theorem State.buttonChanged_now (s : State) (b : Button) (p : Bool) : (s.buttonChanged b p).now = s.now := by
  unfold State.buttonChanged; (repeat' split) <;> simp
@[simp] theorem State.buttonChanged_mem (s : State) (b : Button) (p : Bool) : (s.buttonChanged b p).mem = s.mem := by
  unfold State.buttonChanged; (repeat' split) <;> simp
@[simp] theorem State.buttonChanged_held (s : State) (b : Button) (p : Bool) : (s.buttonChanged b p).held = s.held := by
  unfold State.buttonChanged; (repeat' split) <;> simp
@[simp] theorem State.buttonChanged_csu (s : State) (b : Button) (p : Bool) : (s.buttonChanged b p).csu = s.csu := by
  unfold State.buttonChanged; (repeat' split) <;> simp
@[simp] theorem State.buttonChanged_fsu (s : State) (b : Button) (p : Bool) : (s.buttonChanged b p).fsu = s.fsu := by
  unfold State.buttonChanged; (repeat' split) <;> simp
@[simp] theorem State.buttonChanged_asu (s : State) (b : Button) (p : Bool) : (s.buttonChanged b p).asu = s.asu := by
  unfold State.buttonChanged; (repeat' split) <;> simp
@[simp] theorem State.buttonChanged_tcu (s : State) (b : Button) (p : Bool) : (s.buttonChanged b p).tcu = s.tcu := by
  unfold State.buttonChanged; (repeat' split) <;> simp
@[simp] theorem State.buttonChanged_flu (s : State) (b : Button) (p : Bool) : (s.buttonChanged b p).flu = s.flu := by
  unfold State.buttonChanged; (repeat' split) <;> simp
@[simp] theorem State.buttonChanged_mwq (s : State) (b : Button) (p : Bool) : (s.buttonChanged b p).mwq = s.mwq := by
  unfold State.buttonChanged; (repeat' split) <;> simp
@[simp] theorem State.buttonChanged_rpu (s : State) (b : Button) (p : Bool) : (s.buttonChanged b p).rpu = s.rpu := by
  unfold State.buttonChanged; (repeat' split) <;> simp

@[simp] theorem State.anuEntry_pending (s : State) (n : Nat) : (s.anuEntry n).pending = s.pending := by
  simp [State.anuEntry]
@[simp] theorem State.anuEntry_reads (s : State) (n : Nat) : (s.anuEntry n).reads = s.reads := by
  simp [State.anuEntry]
@[simp] theorem State.anuEntry_answer (s : State) (n : Nat) : (s.anuEntry n).answer = s.answer := by
  simp [State.anuEntry]
@[simp] theorem State.anuEntry_now (s : State) (n : Nat) : (s.anuEntry n).now = s.now := by
  simp [State.anuEntry]
@[simp] theorem State.anuEntry_mem (s : State) (n : Nat) : (s.anuEntry n).mem = s.mem := by
  simp [State.anuEntry]
@[simp] theorem State.anuEntry_held (s : State) (n : Nat) : (s.anuEntry n).held = s.held := by
  simp [State.anuEntry]
@[simp] theorem State.anuEntry_csu (s : State) (n : Nat) : (s.anuEntry n).csu = s.csu := by
  simp [State.anuEntry]
@[simp] theorem State.anuEntry_fsu (s : State) (n : Nat) : (s.anuEntry n).fsu = s.fsu := by
  simp [State.anuEntry]
@[simp] theorem State.anuEntry_asu (s : State) (n : Nat) : (s.anuEntry n).asu = s.asu := by
  simp [State.anuEntry]
@[simp] theorem State.anuEntry_tcu (s : State) (n : Nat) : (s.anuEntry n).tcu = s.tcu := by
  simp [State.anuEntry]
@[simp] theorem State.anuEntry_flu (s : State) (n : Nat) : (s.anuEntry n).flu = s.flu := by
  simp [State.anuEntry]
@[simp] theorem State.anuEntry_mwq (s : State) (n : Nat) : (s.anuEntry n).mwq = s.mwq := by
  simp [State.anuEntry]
@[simp] theorem State.anuEntry_rpu (s : State) (n : Nat) : (s.anuEntry n).rpu = s.rpu := by
  simp [State.anuEntry]

@[simp] theorem State.anuStandby_pending (s : State) : (s.anuStandby).pending = s.pending := by
  unfold State.anuStandby; dsimp only; (repeat' split) <;> simp
@[simp] theorem State.anuStandby_reads (s : State) : (s.anuStandby).reads = s.reads := by
  unfold State.anuStandby; dsimp only; (repeat' split) <;> simp
@[simp] theorem State.anuStandby_answer (s : State) : (s.anuStandby).answer = s.answer := by
  unfold State.anuStandby; dsimp only; (repeat' split) <;> simp
@[simp] theorem State.anuStandby_now (s : State) : (s.anuStandby).now = s.now := by
  unfold State.anuStandby; dsimp only; (repeat' split) <;> simp
@[simp] theorem State.anuStandby_mem (s : State) : (s.anuStandby).mem = s.mem := by
  unfold State.anuStandby; dsimp only; (repeat' split) <;> simp
@[simp] theorem State.anuStandby_held (s : State) : (s.anuStandby).held = s.held := by
  unfold State.anuStandby; dsimp only; (repeat' split) <;> simp
@[simp] theorem State.anuStandby_csu (s : State) : (s.anuStandby).csu = s.csu := by
  unfold State.anuStandby; dsimp only; (repeat' split) <;> simp
@[simp] theorem State.anuStandby_fsu (s : State) : (s.anuStandby).fsu = s.fsu := by
  unfold State.anuStandby; dsimp only; (repeat' split) <;> simp
@[simp] theorem State.anuStandby_asu (s : State) : (s.anuStandby).asu = s.asu := by
  unfold State.anuStandby; dsimp only; (repeat' split) <;> simp
@[simp] theorem State.anuStandby_tcu (s : State) : (s.anuStandby).tcu = s.tcu := by
  unfold State.anuStandby; dsimp only; (repeat' split) <;> simp
@[simp] theorem State.anuStandby_flu (s : State) : (s.anuStandby).flu = s.flu := by
  unfold State.anuStandby; dsimp only; (repeat' split) <;> simp
@[simp] theorem State.anuStandby_mwq (s : State) : (s.anuStandby).mwq = s.mwq := by
  unfold State.anuStandby; dsimp only; (repeat' split) <;> simp
@[simp] theorem State.anuStandby_rpu (s : State) : (s.anuStandby).rpu = s.rpu := by
  unfold State.anuStandby; dsimp only; (repeat' split) <;> simp

@[simp] theorem State.anuReturn_pending (s : State) : (s.anuReturn).pending = s.pending := by
  simp [State.anuReturn]
@[simp] theorem State.anuReturn_reads (s : State) : (s.anuReturn).reads = s.reads := by
  simp [State.anuReturn]
@[simp] theorem State.anuReturn_answer (s : State) : (s.anuReturn).answer = s.answer := by
  simp [State.anuReturn]
@[simp] theorem State.anuReturn_now (s : State) : (s.anuReturn).now = s.now := by
  simp [State.anuReturn]
@[simp] theorem State.anuReturn_mem (s : State) : (s.anuReturn).mem = s.mem := by
  simp [State.anuReturn]
@[simp] theorem State.anuReturn_held (s : State) : (s.anuReturn).held = s.held := by
  simp [State.anuReturn]
@[simp] theorem State.anuReturn_csu (s : State) : (s.anuReturn).csu = s.csu := by
  simp [State.anuReturn]
@[simp] theorem State.anuReturn_fsu (s : State) : (s.anuReturn).fsu = s.fsu := by
  simp [State.anuReturn]
@[simp] theorem State.anuReturn_asu (s : State) : (s.anuReturn).asu = s.asu := by
  simp [State.anuReturn]
@[simp] theorem State.anuReturn_tcu (s : State) : (s.anuReturn).tcu = s.tcu := by
  simp [State.anuReturn]
@[simp] theorem State.anuReturn_flu (s : State) : (s.anuReturn).flu = s.flu := by
  simp [State.anuReturn]
@[simp] theorem State.anuReturn_mwq (s : State) : (s.anuReturn).mwq = s.mwq := by
  simp [State.anuReturn]
@[simp] theorem State.anuReturn_rpu (s : State) : (s.anuReturn).rpu = s.rpu := by
  simp [State.anuReturn]

/-! ## Operations of the field supervision unit -/

@[simp] theorem State.fsuCommit_pending (s : State) (f : Fsu) : (s.fsuCommit f).pending = s.pending := by
  unfold State.fsuCommit; dsimp only; (repeat' split) <;> simp
@[simp] theorem State.fsuCommit_reads (s : State) (f : Fsu) : (s.fsuCommit f).reads = s.reads := by
  unfold State.fsuCommit; dsimp only; (repeat' split) <;> simp
@[simp] theorem State.fsuCommit_answer (s : State) (f : Fsu) : (s.fsuCommit f).answer = s.answer := by
  unfold State.fsuCommit; dsimp only; (repeat' split) <;> simp
@[simp] theorem State.fsuCommit_now (s : State) (f : Fsu) : (s.fsuCommit f).now = s.now := by
  unfold State.fsuCommit; dsimp only; (repeat' split) <;> simp
@[simp] theorem State.fsuCommit_mem (s : State) (f : Fsu) : (s.fsuCommit f).mem = s.mem := by
  unfold State.fsuCommit; dsimp only; (repeat' split) <;> simp
@[simp] theorem State.fsuCommit_held (s : State) (f : Fsu) : (s.fsuCommit f).held = s.held := by
  unfold State.fsuCommit; dsimp only; (repeat' split) <;> simp
@[simp] theorem State.fsuCommit_csu (s : State) (f : Fsu) : (s.fsuCommit f).csu = s.csu := by
  unfold State.fsuCommit; dsimp only; (repeat' split) <;> simp
@[simp] theorem State.fsuCommit_asu (s : State) (f : Fsu) : (s.fsuCommit f).asu = s.asu := by
  unfold State.fsuCommit; dsimp only; (repeat' split) <;> simp
@[simp] theorem State.fsuCommit_tcu (s : State) (f : Fsu) : (s.fsuCommit f).tcu = s.tcu := by
  unfold State.fsuCommit; dsimp only; (repeat' split) <;> simp
@[simp] theorem State.fsuCommit_flu (s : State) (f : Fsu) : (s.fsuCommit f).flu = s.flu := by
  unfold State.fsuCommit; dsimp only; (repeat' split) <;> simp
@[simp] theorem State.fsuCommit_anu (s : State) (f : Fsu) : (s.fsuCommit f).anu = s.anu := by
  unfold State.fsuCommit; dsimp only; (repeat' split) <;> simp
@[simp] theorem State.fsuCommit_mwq (s : State) (f : Fsu) : (s.fsuCommit f).mwq = s.mwq := by
  unfold State.fsuCommit; dsimp only; (repeat' split) <;> simp
@[simp] theorem State.fsuCommit_rpu (s : State) (f : Fsu) : (s.fsuCommit f).rpu = s.rpu := by
  unfold State.fsuCommit; dsimp only; (repeat' split) <;> simp

@[simp] theorem State.evaluateSilent_pending (s : State) : (s.evaluateSilent).pending = s.pending := by
  simp [State.evaluateSilent]
@[simp] theorem State.evaluateSilent_reads (s : State) : (s.evaluateSilent).reads = s.reads := by
  simp [State.evaluateSilent]
@[simp] theorem State.evaluateSilent_answer (s : State) : (s.evaluateSilent).answer = s.answer := by
  simp [State.evaluateSilent]
@[simp] theorem State.evaluateSilent_now (s : State) : (s.evaluateSilent).now = s.now := by
  simp [State.evaluateSilent]
@[simp] theorem State.evaluateSilent_mem (s : State) : (s.evaluateSilent).mem = s.mem := by
  simp [State.evaluateSilent]
@[simp] theorem State.evaluateSilent_held (s : State) : (s.evaluateSilent).held = s.held := by
  simp [State.evaluateSilent]
@[simp] theorem State.evaluateSilent_csu (s : State) : (s.evaluateSilent).csu = s.csu := by
  simp [State.evaluateSilent]
@[simp] theorem State.evaluateSilent_asu (s : State) : (s.evaluateSilent).asu = s.asu := by
  simp [State.evaluateSilent]
@[simp] theorem State.evaluateSilent_tcu (s : State) : (s.evaluateSilent).tcu = s.tcu := by
  simp [State.evaluateSilent]
@[simp] theorem State.evaluateSilent_flu (s : State) : (s.evaluateSilent).flu = s.flu := by
  simp [State.evaluateSilent]
@[simp] theorem State.evaluateSilent_anu (s : State) : (s.evaluateSilent).anu = s.anu := by
  simp [State.evaluateSilent]
@[simp] theorem State.evaluateSilent_mwq (s : State) : (s.evaluateSilent).mwq = s.mwq := by
  simp [State.evaluateSilent]
@[simp] theorem State.evaluateSilent_rpu (s : State) : (s.evaluateSilent).rpu = s.rpu := by
  simp [State.evaluateSilent]

@[simp] theorem State.staleChanged_pending (s : State) (i : Nat) (k : Kind) (e : Bool) : (s.staleChanged i k e).pending = s.pending := by
  simp [State.staleChanged]
@[simp] theorem State.staleChanged_reads (s : State) (i : Nat) (k : Kind) (e : Bool) : (s.staleChanged i k e).reads = s.reads := by
  simp [State.staleChanged]
@[simp] theorem State.staleChanged_answer (s : State) (i : Nat) (k : Kind) (e : Bool) : (s.staleChanged i k e).answer = s.answer := by
  simp [State.staleChanged]
@[simp] theorem State.staleChanged_now (s : State) (i : Nat) (k : Kind) (e : Bool) : (s.staleChanged i k e).now = s.now := by
  simp [State.staleChanged]
@[simp] theorem State.staleChanged_mem (s : State) (i : Nat) (k : Kind) (e : Bool) : (s.staleChanged i k e).mem = s.mem := by
  simp [State.staleChanged]
@[simp] theorem State.staleChanged_held (s : State) (i : Nat) (k : Kind) (e : Bool) : (s.staleChanged i k e).held = s.held := by
  simp [State.staleChanged]
@[simp] theorem State.staleChanged_csu (s : State) (i : Nat) (k : Kind) (e : Bool) : (s.staleChanged i k e).csu = s.csu := by
  simp [State.staleChanged]
@[simp] theorem State.staleChanged_asu (s : State) (i : Nat) (k : Kind) (e : Bool) : (s.staleChanged i k e).asu = s.asu := by
  simp [State.staleChanged]
@[simp] theorem State.staleChanged_tcu (s : State) (i : Nat) (k : Kind) (e : Bool) : (s.staleChanged i k e).tcu = s.tcu := by
  simp [State.staleChanged]
@[simp] theorem State.staleChanged_flu (s : State) (i : Nat) (k : Kind) (e : Bool) : (s.staleChanged i k e).flu = s.flu := by
  simp [State.staleChanged]
@[simp] theorem State.staleChanged_anu (s : State) (i : Nat) (k : Kind) (e : Bool) : (s.staleChanged i k e).anu = s.anu := by
  simp [State.staleChanged]
@[simp] theorem State.staleChanged_mwq (s : State) (i : Nat) (k : Kind) (e : Bool) : (s.staleChanged i k e).mwq = s.mwq := by
  simp [State.staleChanged]
@[simp] theorem State.staleChanged_rpu (s : State) (i : Nat) (k : Kind) (e : Bool) : (s.staleChanged i k e).rpu = s.rpu := by
  simp [State.staleChanged]

@[simp] theorem State.receiveField_pending (s : State) (a : Addr) (j : Judgement) : (s.receiveField a j).pending = s.pending := by
  unfold State.receiveField; (repeat' split) <;> simp
@[simp] theorem State.receiveField_reads (s : State) (a : Addr) (j : Judgement) : (s.receiveField a j).reads = s.reads := by
  unfold State.receiveField; (repeat' split) <;> simp
@[simp] theorem State.receiveField_answer (s : State) (a : Addr) (j : Judgement) : (s.receiveField a j).answer = s.answer := by
  unfold State.receiveField; (repeat' split) <;> simp
@[simp] theorem State.receiveField_now (s : State) (a : Addr) (j : Judgement) : (s.receiveField a j).now = s.now := by
  unfold State.receiveField; (repeat' split) <;> simp
@[simp] theorem State.receiveField_held (s : State) (a : Addr) (j : Judgement) : (s.receiveField a j).held = s.held := by
  unfold State.receiveField; (repeat' split) <;> simp
@[simp] theorem State.receiveField_csu (s : State) (a : Addr) (j : Judgement) : (s.receiveField a j).csu = s.csu := by
  unfold State.receiveField; (repeat' split) <;> simp
@[simp] theorem State.receiveField_fsu (s : State) (a : Addr) (j : Judgement) : (s.receiveField a j).fsu = s.fsu := by
  unfold State.receiveField; (repeat' split) <;> simp
@[simp] theorem State.receiveField_asu (s : State) (a : Addr) (j : Judgement) : (s.receiveField a j).asu = s.asu := by
  unfold State.receiveField; (repeat' split) <;> simp
@[simp] theorem State.receiveField_tcu (s : State) (a : Addr) (j : Judgement) : (s.receiveField a j).tcu = s.tcu := by
  unfold State.receiveField; (repeat' split) <;> simp
@[simp] theorem State.receiveField_flu (s : State) (a : Addr) (j : Judgement) : (s.receiveField a j).flu = s.flu := by
  unfold State.receiveField; (repeat' split) <;> simp
@[simp] theorem State.receiveField_anu (s : State) (a : Addr) (j : Judgement) : (s.receiveField a j).anu = s.anu := by
  unfold State.receiveField; (repeat' split) <;> simp
@[simp] theorem State.receiveField_rpu (s : State) (a : Addr) (j : Judgement) : (s.receiveField a j).rpu = s.rpu := by
  unfold State.receiveField; (repeat' split) <;> simp

@[simp] theorem State.fieldWrite_pending (s : State) (i : Nat) (w : Word) : (s.fieldWrite i w).pending = s.pending := by
  unfold State.fieldWrite; dsimp only; (repeat' split) <;> simp
@[simp] theorem State.fieldWrite_reads (s : State) (i : Nat) (w : Word) : (s.fieldWrite i w).reads = s.reads := by
  unfold State.fieldWrite; dsimp only; (repeat' split) <;> simp
@[simp] theorem State.fieldWrite_answer (s : State) (i : Nat) (w : Word) : (s.fieldWrite i w).answer = s.answer := by
  unfold State.fieldWrite; dsimp only; (repeat' split) <;> simp
@[simp] theorem State.fieldWrite_now (s : State) (i : Nat) (w : Word) : (s.fieldWrite i w).now = s.now := by
  unfold State.fieldWrite; dsimp only; (repeat' split) <;> simp
@[simp] theorem State.fieldWrite_held (s : State) (i : Nat) (w : Word) : (s.fieldWrite i w).held = s.held := by
  unfold State.fieldWrite; dsimp only; (repeat' split) <;> simp
@[simp] theorem State.fieldWrite_csu (s : State) (i : Nat) (w : Word) : (s.fieldWrite i w).csu = s.csu := by
  unfold State.fieldWrite; dsimp only; (repeat' split) <;> simp
@[simp] theorem State.fieldWrite_asu (s : State) (i : Nat) (w : Word) : (s.fieldWrite i w).asu = s.asu := by
  unfold State.fieldWrite; dsimp only; (repeat' split) <;> simp
@[simp] theorem State.fieldWrite_tcu (s : State) (i : Nat) (w : Word) : (s.fieldWrite i w).tcu = s.tcu := by
  unfold State.fieldWrite; dsimp only; (repeat' split) <;> simp
@[simp] theorem State.fieldWrite_flu (s : State) (i : Nat) (w : Word) : (s.fieldWrite i w).flu = s.flu := by
  unfold State.fieldWrite; dsimp only; (repeat' split) <;> simp
@[simp] theorem State.fieldWrite_anu (s : State) (i : Nat) (w : Word) : (s.fieldWrite i w).anu = s.anu := by
  unfold State.fieldWrite; dsimp only; (repeat' split) <;> simp
@[simp] theorem State.fieldWrite_rpu (s : State) (i : Nat) (w : Word) : (s.fieldWrite i w).rpu = s.rpu := by
  unfold State.fieldWrite; dsimp only; (repeat' split) <;> simp

@[simp] theorem State.setLampTest_pending (s : State) (b : Bool) : (s.setLampTest b).pending = s.pending := by
  simp [State.setLampTest]
@[simp] theorem State.setLampTest_reads (s : State) (b : Bool) : (s.setLampTest b).reads = s.reads := by
  simp [State.setLampTest]
@[simp] theorem State.setLampTest_answer (s : State) (b : Bool) : (s.setLampTest b).answer = s.answer := by
  simp [State.setLampTest]
@[simp] theorem State.setLampTest_now (s : State) (b : Bool) : (s.setLampTest b).now = s.now := by
  simp [State.setLampTest]
@[simp] theorem State.setLampTest_mem (s : State) (b : Bool) : (s.setLampTest b).mem = s.mem := by
  simp [State.setLampTest]
@[simp] theorem State.setLampTest_held (s : State) (b : Bool) : (s.setLampTest b).held = s.held := by
  simp [State.setLampTest]
@[simp] theorem State.setLampTest_csu (s : State) (b : Bool) : (s.setLampTest b).csu = s.csu := by
  simp [State.setLampTest]
@[simp] theorem State.setLampTest_asu (s : State) (b : Bool) : (s.setLampTest b).asu = s.asu := by
  simp [State.setLampTest]
@[simp] theorem State.setLampTest_tcu (s : State) (b : Bool) : (s.setLampTest b).tcu = s.tcu := by
  simp [State.setLampTest]
@[simp] theorem State.setLampTest_flu (s : State) (b : Bool) : (s.setLampTest b).flu = s.flu := by
  simp [State.setLampTest]
@[simp] theorem State.setLampTest_anu (s : State) (b : Bool) : (s.setLampTest b).anu = s.anu := by
  simp [State.setLampTest]
@[simp] theorem State.setLampTest_mwq (s : State) (b : Bool) : (s.setLampTest b).mwq = s.mwq := by
  simp [State.setLampTest]
@[simp] theorem State.setLampTest_rpu (s : State) (b : Bool) : (s.setLampTest b).rpu = s.rpu := by
  simp [State.setLampTest]

@[simp] theorem State.goStale_pending (s : State) (i : Nat) (r : Record) : (s.goStale i r).pending = s.pending := by
  unfold State.goStale; dsimp only; (repeat' split) <;> simp
@[simp] theorem State.goStale_reads (s : State) (i : Nat) (r : Record) : (s.goStale i r).reads = s.reads := by
  unfold State.goStale; dsimp only; (repeat' split) <;> simp
@[simp] theorem State.goStale_answer (s : State) (i : Nat) (r : Record) : (s.goStale i r).answer = s.answer := by
  unfold State.goStale; dsimp only; (repeat' split) <;> simp
@[simp] theorem State.goStale_now (s : State) (i : Nat) (r : Record) : (s.goStale i r).now = s.now := by
  unfold State.goStale; dsimp only; (repeat' split) <;> simp
@[simp] theorem State.goStale_mem (s : State) (i : Nat) (r : Record) : (s.goStale i r).mem = s.mem := by
  unfold State.goStale; dsimp only; (repeat' split) <;> simp
@[simp] theorem State.goStale_held (s : State) (i : Nat) (r : Record) : (s.goStale i r).held = s.held := by
  unfold State.goStale; dsimp only; (repeat' split) <;> simp
@[simp] theorem State.goStale_csu (s : State) (i : Nat) (r : Record) : (s.goStale i r).csu = s.csu := by
  unfold State.goStale; dsimp only; (repeat' split) <;> simp
@[simp] theorem State.goStale_asu (s : State) (i : Nat) (r : Record) : (s.goStale i r).asu = s.asu := by
  unfold State.goStale; dsimp only; (repeat' split) <;> simp
@[simp] theorem State.goStale_tcu (s : State) (i : Nat) (r : Record) : (s.goStale i r).tcu = s.tcu := by
  unfold State.goStale; dsimp only; (repeat' split) <;> simp
@[simp] theorem State.goStale_flu (s : State) (i : Nat) (r : Record) : (s.goStale i r).flu = s.flu := by
  unfold State.goStale; dsimp only; (repeat' split) <;> simp
@[simp] theorem State.goStale_anu (s : State) (i : Nat) (r : Record) : (s.goStale i r).anu = s.anu := by
  unfold State.goStale; dsimp only; (repeat' split) <;> simp
@[simp] theorem State.goStale_mwq (s : State) (i : Nat) (r : Record) : (s.goStale i r).mwq = s.mwq := by
  unfold State.goStale; dsimp only; (repeat' split) <;> simp
@[simp] theorem State.goStale_rpu (s : State) (i : Nat) (r : Record) : (s.goStale i r).rpu = s.rpu := by
  unfold State.goStale; dsimp only; (repeat' split) <;> simp

@[simp] theorem State.fsuEntry_pending (s : State) : (s.fsuEntry).pending = s.pending := by
  simp [State.fsuEntry]
@[simp] theorem State.fsuEntry_reads (s : State) : (s.fsuEntry).reads = s.reads := by
  simp [State.fsuEntry]
@[simp] theorem State.fsuEntry_answer (s : State) : (s.fsuEntry).answer = s.answer := by
  simp [State.fsuEntry]
@[simp] theorem State.fsuEntry_now (s : State) : (s.fsuEntry).now = s.now := by
  simp [State.fsuEntry]
@[simp] theorem State.fsuEntry_mem (s : State) : (s.fsuEntry).mem = s.mem := by
  simp [State.fsuEntry]
@[simp] theorem State.fsuEntry_held (s : State) : (s.fsuEntry).held = s.held := by
  simp [State.fsuEntry]
@[simp] theorem State.fsuEntry_csu (s : State) : (s.fsuEntry).csu = s.csu := by
  simp [State.fsuEntry]
@[simp] theorem State.fsuEntry_asu (s : State) : (s.fsuEntry).asu = s.asu := by
  simp [State.fsuEntry]
@[simp] theorem State.fsuEntry_tcu (s : State) : (s.fsuEntry).tcu = s.tcu := by
  simp [State.fsuEntry]
@[simp] theorem State.fsuEntry_flu (s : State) : (s.fsuEntry).flu = s.flu := by
  simp [State.fsuEntry]
@[simp] theorem State.fsuEntry_anu (s : State) : (s.fsuEntry).anu = s.anu := by
  simp [State.fsuEntry]
@[simp] theorem State.fsuEntry_mwq (s : State) : (s.fsuEntry).mwq = s.mwq := by
  simp [State.fsuEntry]
@[simp] theorem State.fsuEntry_rpu (s : State) : (s.fsuEntry).rpu = s.rpu := by
  simp [State.fsuEntry]

@[simp] theorem State.fsuStandby_pending (s : State) : (s.fsuStandby).pending = s.pending := by
  simp [State.fsuStandby]
@[simp] theorem State.fsuStandby_reads (s : State) : (s.fsuStandby).reads = s.reads := by
  simp [State.fsuStandby]
@[simp] theorem State.fsuStandby_answer (s : State) : (s.fsuStandby).answer = s.answer := by
  simp [State.fsuStandby]
@[simp] theorem State.fsuStandby_now (s : State) : (s.fsuStandby).now = s.now := by
  simp [State.fsuStandby]
@[simp] theorem State.fsuStandby_mem (s : State) : (s.fsuStandby).mem = s.mem := by
  simp [State.fsuStandby]
@[simp] theorem State.fsuStandby_held (s : State) : (s.fsuStandby).held = s.held := by
  simp [State.fsuStandby]
@[simp] theorem State.fsuStandby_csu (s : State) : (s.fsuStandby).csu = s.csu := by
  simp [State.fsuStandby]
@[simp] theorem State.fsuStandby_asu (s : State) : (s.fsuStandby).asu = s.asu := by
  simp [State.fsuStandby]
@[simp] theorem State.fsuStandby_tcu (s : State) : (s.fsuStandby).tcu = s.tcu := by
  simp [State.fsuStandby]
@[simp] theorem State.fsuStandby_flu (s : State) : (s.fsuStandby).flu = s.flu := by
  simp [State.fsuStandby]
@[simp] theorem State.fsuStandby_anu (s : State) : (s.fsuStandby).anu = s.anu := by
  simp [State.fsuStandby]
@[simp] theorem State.fsuStandby_mwq (s : State) : (s.fsuStandby).mwq = s.mwq := by
  simp [State.fsuStandby]
@[simp] theorem State.fsuStandby_rpu (s : State) : (s.fsuStandby).rpu = s.rpu := by
  simp [State.fsuStandby]

@[simp] theorem State.fsuReturn_pending (s : State) : (s.fsuReturn).pending = s.pending := by
  simp [State.fsuReturn]
@[simp] theorem State.fsuReturn_reads (s : State) : (s.fsuReturn).reads = s.reads := by
  simp [State.fsuReturn]
@[simp] theorem State.fsuReturn_answer (s : State) : (s.fsuReturn).answer = s.answer := by
  simp [State.fsuReturn]
@[simp] theorem State.fsuReturn_now (s : State) : (s.fsuReturn).now = s.now := by
  simp [State.fsuReturn]
@[simp] theorem State.fsuReturn_mem (s : State) : (s.fsuReturn).mem = s.mem := by
  simp [State.fsuReturn]
@[simp] theorem State.fsuReturn_held (s : State) : (s.fsuReturn).held = s.held := by
  simp [State.fsuReturn]
@[simp] theorem State.fsuReturn_csu (s : State) : (s.fsuReturn).csu = s.csu := by
  simp [State.fsuReturn]
@[simp] theorem State.fsuReturn_asu (s : State) : (s.fsuReturn).asu = s.asu := by
  simp [State.fsuReturn]
@[simp] theorem State.fsuReturn_tcu (s : State) : (s.fsuReturn).tcu = s.tcu := by
  simp [State.fsuReturn]
@[simp] theorem State.fsuReturn_flu (s : State) : (s.fsuReturn).flu = s.flu := by
  simp [State.fsuReturn]
@[simp] theorem State.fsuReturn_anu (s : State) : (s.fsuReturn).anu = s.anu := by
  simp [State.fsuReturn]
@[simp] theorem State.fsuReturn_mwq (s : State) : (s.fsuReturn).mwq = s.mwq := by
  simp [State.fsuReturn]
@[simp] theorem State.fsuReturn_rpu (s : State) : (s.fsuReturn).rpu = s.rpu := by
  simp [State.fsuReturn]

/-! ## Operations of the report unit -/

@[simp] theorem State.rpuCommit_pending (s : State) (r : Rpu) (os : List Nat) : (s.rpuCommit r os).pending = s.pending := by
  unfold State.rpuCommit; (repeat' split) <;> simp
@[simp] theorem State.rpuCommit_reads (s : State) (r : Rpu) (os : List Nat) : (s.rpuCommit r os).reads = s.reads := by
  unfold State.rpuCommit; (repeat' split) <;> simp
@[simp] theorem State.rpuCommit_answer (s : State) (r : Rpu) (os : List Nat) : (s.rpuCommit r os).answer = s.answer := by
  unfold State.rpuCommit; (repeat' split) <;> simp
@[simp] theorem State.rpuCommit_now (s : State) (r : Rpu) (os : List Nat) : (s.rpuCommit r os).now = s.now := by
  unfold State.rpuCommit; (repeat' split) <;> simp
@[simp] theorem State.rpuCommit_mem (s : State) (r : Rpu) (os : List Nat) : (s.rpuCommit r os).mem = s.mem := by
  unfold State.rpuCommit; (repeat' split) <;> simp
@[simp] theorem State.rpuCommit_held (s : State) (r : Rpu) (os : List Nat) : (s.rpuCommit r os).held = s.held := by
  unfold State.rpuCommit; (repeat' split) <;> simp
@[simp] theorem State.rpuCommit_csu (s : State) (r : Rpu) (os : List Nat) : (s.rpuCommit r os).csu = s.csu := by
  unfold State.rpuCommit; (repeat' split) <;> simp
@[simp] theorem State.rpuCommit_fsu (s : State) (r : Rpu) (os : List Nat) : (s.rpuCommit r os).fsu = s.fsu := by
  unfold State.rpuCommit; (repeat' split) <;> simp
@[simp] theorem State.rpuCommit_asu (s : State) (r : Rpu) (os : List Nat) : (s.rpuCommit r os).asu = s.asu := by
  unfold State.rpuCommit; (repeat' split) <;> simp
@[simp] theorem State.rpuCommit_tcu (s : State) (r : Rpu) (os : List Nat) : (s.rpuCommit r os).tcu = s.tcu := by
  unfold State.rpuCommit; (repeat' split) <;> simp
@[simp] theorem State.rpuCommit_flu (s : State) (r : Rpu) (os : List Nat) : (s.rpuCommit r os).flu = s.flu := by
  unfold State.rpuCommit; (repeat' split) <;> simp
@[simp] theorem State.rpuCommit_anu (s : State) (r : Rpu) (os : List Nat) : (s.rpuCommit r os).anu = s.anu := by
  unfold State.rpuCommit; (repeat' split) <;> simp
@[simp] theorem State.rpuCommit_mwq (s : State) (r : Rpu) (os : List Nat) : (s.rpuCommit r os).mwq = s.mwq := by
  unfold State.rpuCommit; (repeat' split) <;> simp

@[simp] theorem State.setEvents_pending (s : State) (es : List Event) : (s.setEvents es).pending = s.pending := by
  unfold State.setEvents; (repeat' split) <;> simp
@[simp] theorem State.setEvents_reads (s : State) (es : List Event) : (s.setEvents es).reads = s.reads := by
  unfold State.setEvents; (repeat' split) <;> simp
@[simp] theorem State.setEvents_answer (s : State) (es : List Event) : (s.setEvents es).answer = s.answer := by
  unfold State.setEvents; (repeat' split) <;> simp
@[simp] theorem State.setEvents_now (s : State) (es : List Event) : (s.setEvents es).now = s.now := by
  unfold State.setEvents; (repeat' split) <;> simp
@[simp] theorem State.setEvents_mem (s : State) (es : List Event) : (s.setEvents es).mem = s.mem := by
  unfold State.setEvents; (repeat' split) <;> simp
@[simp] theorem State.setEvents_held (s : State) (es : List Event) : (s.setEvents es).held = s.held := by
  unfold State.setEvents; (repeat' split) <;> simp
@[simp] theorem State.setEvents_csu (s : State) (es : List Event) : (s.setEvents es).csu = s.csu := by
  unfold State.setEvents; (repeat' split) <;> simp
@[simp] theorem State.setEvents_fsu (s : State) (es : List Event) : (s.setEvents es).fsu = s.fsu := by
  unfold State.setEvents; (repeat' split) <;> simp
@[simp] theorem State.setEvents_asu (s : State) (es : List Event) : (s.setEvents es).asu = s.asu := by
  unfold State.setEvents; (repeat' split) <;> simp
@[simp] theorem State.setEvents_tcu (s : State) (es : List Event) : (s.setEvents es).tcu = s.tcu := by
  unfold State.setEvents; (repeat' split) <;> simp
@[simp] theorem State.setEvents_flu (s : State) (es : List Event) : (s.setEvents es).flu = s.flu := by
  unfold State.setEvents; (repeat' split) <;> simp
@[simp] theorem State.setEvents_anu (s : State) (es : List Event) : (s.setEvents es).anu = s.anu := by
  unfold State.setEvents; (repeat' split) <;> simp
@[simp] theorem State.setEvents_mwq (s : State) (es : List Event) : (s.setEvents es).mwq = s.mwq := by
  unfold State.setEvents; (repeat' split) <;> simp

@[simp] theorem State.writeEvents_pending (s : State) (m : Word) : (s.writeEvents m).pending = s.pending := by
  simp [State.writeEvents]
@[simp] theorem State.writeEvents_reads (s : State) (m : Word) : (s.writeEvents m).reads = s.reads := by
  simp [State.writeEvents]
@[simp] theorem State.writeEvents_answer (s : State) (m : Word) : (s.writeEvents m).answer = s.answer := by
  simp [State.writeEvents]
@[simp] theorem State.writeEvents_now (s : State) (m : Word) : (s.writeEvents m).now = s.now := by
  simp [State.writeEvents]
@[simp] theorem State.writeEvents_held (s : State) (m : Word) : (s.writeEvents m).held = s.held := by
  simp [State.writeEvents]
@[simp] theorem State.writeEvents_csu (s : State) (m : Word) : (s.writeEvents m).csu = s.csu := by
  simp [State.writeEvents]
@[simp] theorem State.writeEvents_fsu (s : State) (m : Word) : (s.writeEvents m).fsu = s.fsu := by
  simp [State.writeEvents]
@[simp] theorem State.writeEvents_asu (s : State) (m : Word) : (s.writeEvents m).asu = s.asu := by
  simp [State.writeEvents]
@[simp] theorem State.writeEvents_tcu (s : State) (m : Word) : (s.writeEvents m).tcu = s.tcu := by
  simp [State.writeEvents]
@[simp] theorem State.writeEvents_flu (s : State) (m : Word) : (s.writeEvents m).flu = s.flu := by
  simp [State.writeEvents]
@[simp] theorem State.writeEvents_anu (s : State) (m : Word) : (s.writeEvents m).anu = s.anu := by
  simp [State.writeEvents]

@[simp] theorem State.writeEnable_pending (s : State) (m : Word) : (s.writeEnable m).pending = s.pending := by
  simp [State.writeEnable]
@[simp] theorem State.writeEnable_reads (s : State) (m : Word) : (s.writeEnable m).reads = s.reads := by
  simp [State.writeEnable]
@[simp] theorem State.writeEnable_answer (s : State) (m : Word) : (s.writeEnable m).answer = s.answer := by
  simp [State.writeEnable]
@[simp] theorem State.writeEnable_now (s : State) (m : Word) : (s.writeEnable m).now = s.now := by
  simp [State.writeEnable]
@[simp] theorem State.writeEnable_held (s : State) (m : Word) : (s.writeEnable m).held = s.held := by
  simp [State.writeEnable]
@[simp] theorem State.writeEnable_csu (s : State) (m : Word) : (s.writeEnable m).csu = s.csu := by
  simp [State.writeEnable]
@[simp] theorem State.writeEnable_fsu (s : State) (m : Word) : (s.writeEnable m).fsu = s.fsu := by
  simp [State.writeEnable]
@[simp] theorem State.writeEnable_asu (s : State) (m : Word) : (s.writeEnable m).asu = s.asu := by
  simp [State.writeEnable]
@[simp] theorem State.writeEnable_tcu (s : State) (m : Word) : (s.writeEnable m).tcu = s.tcu := by
  simp [State.writeEnable]
@[simp] theorem State.writeEnable_flu (s : State) (m : Word) : (s.writeEnable m).flu = s.flu := by
  simp [State.writeEnable]
@[simp] theorem State.writeEnable_anu (s : State) (m : Word) : (s.writeEnable m).anu = s.anu := by
  simp [State.writeEnable]

/-! ## Operations of the configuration and state unit, and the transfer path -/

@[simp] theorem State.enterLoading_pending (s : State) (v : Verdict) (o : BitVec 8) : (s.enterLoading v o).pending = s.pending := by
  simp [State.enterLoading]
@[simp] theorem State.enterLoading_reads (s : State) (v : Verdict) (o : BitVec 8) : (s.enterLoading v o).reads = s.reads := by
  simp [State.enterLoading]
@[simp] theorem State.enterLoading_answer (s : State) (v : Verdict) (o : BitVec 8) : (s.enterLoading v o).answer = s.answer := by
  simp [State.enterLoading]
@[simp] theorem State.enterLoading_now (s : State) (v : Verdict) (o : BitVec 8) : (s.enterLoading v o).now = s.now := by
  simp [State.enterLoading]
@[simp] theorem State.enterLoading_mem (s : State) (v : Verdict) (o : BitVec 8) : (s.enterLoading v o).mem = s.mem := by
  simp [State.enterLoading]
@[simp] theorem State.enterLoading_held (s : State) (v : Verdict) (o : BitVec 8) : (s.enterLoading v o).held = s.held := by
  simp [State.enterLoading]
@[simp] theorem State.enterLoading_fsu (s : State) (v : Verdict) (o : BitVec 8) : (s.enterLoading v o).fsu = s.fsu := by
  simp [State.enterLoading]
@[simp] theorem State.enterLoading_asu (s : State) (v : Verdict) (o : BitVec 8) : (s.enterLoading v o).asu = s.asu := by
  simp [State.enterLoading]
@[simp] theorem State.enterLoading_tcu (s : State) (v : Verdict) (o : BitVec 8) : (s.enterLoading v o).tcu = s.tcu := by
  simp [State.enterLoading]
@[simp] theorem State.enterLoading_flu (s : State) (v : Verdict) (o : BitVec 8) : (s.enterLoading v o).flu = s.flu := by
  simp [State.enterLoading]
@[simp] theorem State.enterLoading_anu (s : State) (v : Verdict) (o : BitVec 8) : (s.enterLoading v o).anu = s.anu := by
  simp [State.enterLoading]
@[simp] theorem State.enterLoading_mwq (s : State) (v : Verdict) (o : BitVec 8) : (s.enterLoading v o).mwq = s.mwq := by
  simp [State.enterLoading]
@[simp] theorem State.enterLoading_rpu (s : State) (v : Verdict) (o : BitVec 8) : (s.enterLoading v o).rpu = s.rpu := by
  simp [State.enterLoading]

@[simp] theorem State.takeImage_pending (s : State) : (s.takeImage).pending = s.pending := rfl
@[simp] theorem State.takeImage_reads (s : State) : (s.takeImage).reads = s.reads := rfl
@[simp] theorem State.takeImage_answer (s : State) : (s.takeImage).answer = s.answer := rfl
@[simp] theorem State.takeImage_inFlight (s : State) : (s.takeImage).inFlight = s.inFlight := rfl
@[simp] theorem State.takeImage_now (s : State) : (s.takeImage).now = s.now := rfl
@[simp] theorem State.takeImage_mem (s : State) : (s.takeImage).mem = s.mem := rfl
@[simp] theorem State.takeImage_held (s : State) : (s.takeImage).held = s.held := rfl
@[simp] theorem State.takeImage_csu (s : State) : (s.takeImage).csu = s.csu := rfl
@[simp] theorem State.takeImage_fsu (s : State) : (s.takeImage).fsu = s.fsu := rfl
@[simp] theorem State.takeImage_flu (s : State) : (s.takeImage).flu = s.flu := rfl
@[simp] theorem State.takeImage_anu (s : State) : (s.takeImage).anu = s.anu := rfl
@[simp] theorem State.takeImage_mwq (s : State) : (s.takeImage).mwq = s.mwq := rfl
@[simp] theorem State.takeImage_rpu (s : State) : (s.takeImage).rpu = s.rpu := rfl

@[simp] theorem State.capture_pending (s : State) (a : Addr) (w : Word) : (s.capture a w).pending = s.pending := rfl
@[simp] theorem State.capture_reads (s : State) (a : Addr) (w : Word) : (s.capture a w).reads = s.reads := rfl
@[simp] theorem State.capture_answer (s : State) (a : Addr) (w : Word) : (s.capture a w).answer = s.answer := rfl
@[simp] theorem State.capture_inFlight (s : State) (a : Addr) (w : Word) : (s.capture a w).inFlight = s.inFlight := rfl
@[simp] theorem State.capture_now (s : State) (a : Addr) (w : Word) : (s.capture a w).now = s.now := rfl
@[simp] theorem State.capture_mem (s : State) (a : Addr) (w : Word) : (s.capture a w).mem = s.mem := rfl
@[simp] theorem State.capture_held (s : State) (a : Addr) (w : Word) : (s.capture a w).held = s.held := rfl
@[simp] theorem State.capture_fsu (s : State) (a : Addr) (w : Word) : (s.capture a w).fsu = s.fsu := rfl
@[simp] theorem State.capture_asu (s : State) (a : Addr) (w : Word) : (s.capture a w).asu = s.asu := rfl
@[simp] theorem State.capture_tcu (s : State) (a : Addr) (w : Word) : (s.capture a w).tcu = s.tcu := rfl
@[simp] theorem State.capture_flu (s : State) (a : Addr) (w : Word) : (s.capture a w).flu = s.flu := rfl
@[simp] theorem State.capture_anu (s : State) (a : Addr) (w : Word) : (s.capture a w).anu = s.anu := rfl
@[simp] theorem State.capture_mwq (s : State) (a : Addr) (w : Word) : (s.capture a w).mwq = s.mwq := rfl
@[simp] theorem State.capture_rpu (s : State) (a : Addr) (w : Word) : (s.capture a w).rpu = s.rpu := rfl

@[simp] theorem State.enterStandby_pending (s : State) : (s.enterStandby).pending = s.pending := by
  simp [State.enterStandby]
@[simp] theorem State.enterStandby_reads (s : State) : (s.enterStandby).reads = s.reads := by
  simp [State.enterStandby]
@[simp] theorem State.enterStandby_answer (s : State) : (s.enterStandby).answer = s.answer := by
  simp [State.enterStandby]
@[simp] theorem State.enterStandby_now (s : State) : (s.enterStandby).now = s.now := by
  simp [State.enterStandby]
@[simp] theorem State.enterStandby_mem (s : State) : (s.enterStandby).mem = s.mem := by
  simp [State.enterStandby]
@[simp] theorem State.enterStandby_held (s : State) : (s.enterStandby).held = s.held := by
  simp [State.enterStandby]
@[simp] theorem State.enterStandby_asu (s : State) : (s.enterStandby).asu = s.asu := by
  simp [State.enterStandby]
@[simp] theorem State.enterStandby_tcu (s : State) : (s.enterStandby).tcu = s.tcu := by
  simp [State.enterStandby]
@[simp] theorem State.enterStandby_flu (s : State) : (s.enterStandby).flu = s.flu := by
  simp [State.enterStandby]
@[simp] theorem State.enterStandby_rpu (s : State) : (s.enterStandby).rpu = s.rpu := by
  simp [State.enterStandby]

@[simp] theorem State.returnToRunning_pending (s : State) : (s.returnToRunning).pending = s.pending := by
  simp [State.returnToRunning]
@[simp] theorem State.returnToRunning_reads (s : State) : (s.returnToRunning).reads = s.reads := by
  simp [State.returnToRunning]
@[simp] theorem State.returnToRunning_answer (s : State) : (s.returnToRunning).answer = s.answer := by
  simp [State.returnToRunning]
@[simp] theorem State.returnToRunning_now (s : State) : (s.returnToRunning).now = s.now := by
  simp [State.returnToRunning]
@[simp] theorem State.returnToRunning_mem (s : State) : (s.returnToRunning).mem = s.mem := by
  simp [State.returnToRunning]
@[simp] theorem State.returnToRunning_held (s : State) : (s.returnToRunning).held = s.held := by
  simp [State.returnToRunning]
@[simp] theorem State.returnToRunning_asu (s : State) : (s.returnToRunning).asu = s.asu := by
  simp [State.returnToRunning]
@[simp] theorem State.returnToRunning_tcu (s : State) : (s.returnToRunning).tcu = s.tcu := by
  simp [State.returnToRunning]
@[simp] theorem State.returnToRunning_flu (s : State) : (s.returnToRunning).flu = s.flu := by
  simp [State.returnToRunning]
@[simp] theorem State.returnToRunning_mwq (s : State) : (s.returnToRunning).mwq = s.mwq := by
  simp [State.returnToRunning]
@[simp] theorem State.returnToRunning_rpu (s : State) : (s.returnToRunning).rpu = s.rpu := by
  simp [State.returnToRunning]

@[simp] theorem State.enterRunningOnly_pending (s : State) : (s.enterRunningOnly).pending = s.pending := by
  simp [State.enterRunningOnly]
@[simp] theorem State.enterRunningOnly_reads (s : State) : (s.enterRunningOnly).reads = s.reads := by
  simp [State.enterRunningOnly]
@[simp] theorem State.enterRunningOnly_answer (s : State) : (s.enterRunningOnly).answer = s.answer := by
  simp [State.enterRunningOnly]
@[simp] theorem State.enterRunningOnly_now (s : State) : (s.enterRunningOnly).now = s.now := by
  simp [State.enterRunningOnly]
@[simp] theorem State.enterRunningOnly_mem (s : State) : (s.enterRunningOnly).mem = s.mem := by
  simp [State.enterRunningOnly]
@[simp] theorem State.enterRunningOnly_held (s : State) : (s.enterRunningOnly).held = s.held := by
  simp [State.enterRunningOnly]
@[simp] theorem State.enterRunningOnly_flu (s : State) : (s.enterRunningOnly).flu = s.flu := by
  simp [State.enterRunningOnly]
@[simp] theorem State.enterRunningOnly_mwq (s : State) : (s.enterRunningOnly).mwq = s.mwq := by
  simp [State.enterRunningOnly]
@[simp] theorem State.enterRunningOnly_rpu (s : State) : (s.enterRunningOnly).rpu = s.rpu := by
  simp [State.enterRunningOnly]

@[simp] theorem State.enterRunning_pending (s : State) : (s.enterRunning).pending = s.pending := by
  unfold State.enterRunning; dsimp only; (repeat' split) <;> simp
@[simp] theorem State.enterRunning_reads (s : State) : (s.enterRunning).reads = s.reads := by
  unfold State.enterRunning; dsimp only; (repeat' split) <;> simp
@[simp] theorem State.enterRunning_answer (s : State) : (s.enterRunning).answer = s.answer := by
  unfold State.enterRunning; dsimp only; (repeat' split) <;> simp
@[simp] theorem State.enterRunning_now (s : State) : (s.enterRunning).now = s.now := by
  unfold State.enterRunning; dsimp only; (repeat' split) <;> simp
@[simp] theorem State.enterRunning_mem (s : State) : (s.enterRunning).mem = s.mem := by
  unfold State.enterRunning; dsimp only; (repeat' split) <;> simp
@[simp] theorem State.enterRunning_held (s : State) : (s.enterRunning).held = s.held := by
  unfold State.enterRunning; dsimp only; (repeat' split) <;> simp
@[simp] theorem State.enterRunning_flu (s : State) : (s.enterRunning).flu = s.flu := by
  unfold State.enterRunning; dsimp only; (repeat' split) <;> simp
@[simp] theorem State.enterRunning_rpu (s : State) : (s.enterRunning).rpu = s.rpu := by
  unfold State.enterRunning; dsimp only; (repeat' split) <;> simp

@[simp] theorem State.enterFallback_pending (s : State) : (s.enterFallback).pending = s.pending := rfl
@[simp] theorem State.enterFallback_reads (s : State) : (s.enterFallback).reads = s.reads := rfl
@[simp] theorem State.enterFallback_answer (s : State) : (s.enterFallback).answer = s.answer := rfl
@[simp] theorem State.enterFallback_now (s : State) : (s.enterFallback).now = s.now := rfl
@[simp] theorem State.enterFallback_mem (s : State) : (s.enterFallback).mem = s.mem := rfl
@[simp] theorem State.enterFallback_held (s : State) : (s.enterFallback).held = s.held := rfl
@[simp] theorem State.enterFallback_fsu (s : State) : (s.enterFallback).fsu = s.fsu := rfl
@[simp] theorem State.enterFallback_asu (s : State) : (s.enterFallback).asu = s.asu := rfl
@[simp] theorem State.enterFallback_tcu (s : State) : (s.enterFallback).tcu = s.tcu := rfl

@[simp] theorem State.acceptImage_pending (s : State) : (s.acceptImage).pending = s.pending := by
  simp [State.acceptImage]
@[simp] theorem State.acceptImage_reads (s : State) : (s.acceptImage).reads = s.reads := by
  simp [State.acceptImage]
@[simp] theorem State.acceptImage_answer (s : State) : (s.acceptImage).answer = s.answer := by
  simp [State.acceptImage]
@[simp] theorem State.acceptImage_now (s : State) : (s.acceptImage).now = s.now := by
  simp [State.acceptImage]
@[simp] theorem State.acceptImage_mem (s : State) : (s.acceptImage).mem = s.mem := by
  simp [State.acceptImage]
@[simp] theorem State.acceptImage_held (s : State) : (s.acceptImage).held = s.held := by
  simp [State.acceptImage]
@[simp] theorem State.acceptImage_flu (s : State) : (s.acceptImage).flu = s.flu := by
  simp [State.acceptImage]
@[simp] theorem State.acceptImage_rpu (s : State) : (s.acceptImage).rpu = s.rpu := by
  simp [State.acceptImage]

@[simp] theorem State.rejectImage_pending (s : State) (v : Verdict) (o : BitVec 8) : (s.rejectImage v o).pending = s.pending := by
  unfold State.rejectImage; dsimp only; (repeat' split) <;> simp
@[simp] theorem State.rejectImage_reads (s : State) (v : Verdict) (o : BitVec 8) : (s.rejectImage v o).reads = s.reads := by
  unfold State.rejectImage; dsimp only; (repeat' split) <;> simp
@[simp] theorem State.rejectImage_answer (s : State) (v : Verdict) (o : BitVec 8) : (s.rejectImage v o).answer = s.answer := by
  unfold State.rejectImage; dsimp only; (repeat' split) <;> simp
@[simp] theorem State.rejectImage_now (s : State) (v : Verdict) (o : BitVec 8) : (s.rejectImage v o).now = s.now := by
  unfold State.rejectImage; dsimp only; (repeat' split) <;> simp
@[simp] theorem State.rejectImage_mem (s : State) (v : Verdict) (o : BitVec 8) : (s.rejectImage v o).mem = s.mem := by
  unfold State.rejectImage; dsimp only; (repeat' split) <;> simp
@[simp] theorem State.rejectImage_held (s : State) (v : Verdict) (o : BitVec 8) : (s.rejectImage v o).held = s.held := by
  unfold State.rejectImage; dsimp only; (repeat' split) <;> simp
@[simp] theorem State.rejectImage_fsu (s : State) (v : Verdict) (o : BitVec 8) : (s.rejectImage v o).fsu = s.fsu := by
  unfold State.rejectImage; dsimp only; (repeat' split) <;> simp
@[simp] theorem State.rejectImage_asu (s : State) (v : Verdict) (o : BitVec 8) : (s.rejectImage v o).asu = s.asu := by
  unfold State.rejectImage; dsimp only; (repeat' split) <;> simp
@[simp] theorem State.rejectImage_tcu (s : State) (v : Verdict) (o : BitVec 8) : (s.rejectImage v o).tcu = s.tcu := by
  unfold State.rejectImage; dsimp only; (repeat' split) <;> simp

@[simp] theorem State.applyCheck_pending (s : State) (r : CheckResult) : (s.applyCheck r).pending = s.pending := by
  cases r <;> simp [State.applyCheck]
@[simp] theorem State.applyCheck_reads (s : State) (r : CheckResult) : (s.applyCheck r).reads = s.reads := by
  cases r <;> simp [State.applyCheck]
@[simp] theorem State.applyCheck_answer (s : State) (r : CheckResult) : (s.applyCheck r).answer = s.answer := by
  cases r <;> simp [State.applyCheck]
@[simp] theorem State.applyCheck_now (s : State) (r : CheckResult) : (s.applyCheck r).now = s.now := by
  cases r <;> simp [State.applyCheck]
@[simp] theorem State.applyCheck_mem (s : State) (r : CheckResult) : (s.applyCheck r).mem = s.mem := by
  cases r <;> simp [State.applyCheck]
@[simp] theorem State.applyCheck_held (s : State) (r : CheckResult) : (s.applyCheck r).held = s.held := by
  cases r <;> simp [State.applyCheck]

@[simp] theorem State.judgeImage_pending (s : State) : (s.judgeImage).pending = s.pending := by
  rw [State.judgeImage, State.applyCheck_pending]
@[simp] theorem State.judgeImage_reads (s : State) : (s.judgeImage).reads = s.reads := by
  rw [State.judgeImage, State.applyCheck_reads]
@[simp] theorem State.judgeImage_answer (s : State) : (s.judgeImage).answer = s.answer := by
  rw [State.judgeImage, State.applyCheck_answer]
@[simp] theorem State.judgeImage_now (s : State) : (s.judgeImage).now = s.now := by
  rw [State.judgeImage, State.applyCheck_now]
@[simp] theorem State.judgeImage_mem (s : State) : (s.judgeImage).mem = s.mem := by
  rw [State.judgeImage, State.applyCheck_mem]
@[simp] theorem State.judgeImage_held (s : State) : (s.judgeImage).held = s.held := by
  rw [State.judgeImage, State.applyCheck_held]

@[simp] theorem State.writeTerritory_pending (s : State) (w : Word) : (s.writeTerritory w).pending = s.pending := by
  unfold State.writeTerritory; dsimp only; (repeat' split) <;> simp
@[simp] theorem State.writeTerritory_reads (s : State) (w : Word) : (s.writeTerritory w).reads = s.reads := by
  unfold State.writeTerritory; dsimp only; (repeat' split) <;> simp
@[simp] theorem State.writeTerritory_answer (s : State) (w : Word) : (s.writeTerritory w).answer = s.answer := by
  unfold State.writeTerritory; dsimp only; (repeat' split) <;> simp
@[simp] theorem State.writeTerritory_now (s : State) (w : Word) : (s.writeTerritory w).now = s.now := by
  unfold State.writeTerritory; dsimp only; (repeat' split) <;> simp
@[simp] theorem State.writeTerritory_held (s : State) (w : Word) : (s.writeTerritory w).held = s.held := by
  unfold State.writeTerritory; dsimp only; (repeat' split) <;> simp
@[simp] theorem State.writeTerritory_csu (s : State) (w : Word) : (s.writeTerritory w).csu = s.csu := by
  unfold State.writeTerritory; dsimp only; (repeat' split) <;> simp
@[simp] theorem State.writeTerritory_fsu (s : State) (w : Word) : (s.writeTerritory w).fsu = s.fsu := by
  unfold State.writeTerritory; dsimp only; (repeat' split) <;> simp
@[simp] theorem State.writeTerritory_asu (s : State) (w : Word) : (s.writeTerritory w).asu = s.asu := by
  unfold State.writeTerritory; dsimp only; (repeat' split) <;> simp
@[simp] theorem State.writeTerritory_flu (s : State) (w : Word) : (s.writeTerritory w).flu = s.flu := by
  unfold State.writeTerritory; dsimp only; (repeat' split) <;> simp
@[simp] theorem State.writeTerritory_anu (s : State) (w : Word) : (s.writeTerritory w).anu = s.anu := by
  unfold State.writeTerritory; dsimp only; (repeat' split) <;> simp
@[simp] theorem State.writeTerritory_rpu (s : State) (w : Word) : (s.writeTerritory w).rpu = s.rpu := by
  unfold State.writeTerritory; dsimp only; (repeat' split) <;> simp

@[simp] theorem State.decideWrite_pending (s : State) (a : Addr) (w : Word) : (s.decideWrite a w).pending = s.pending := by
  unfold State.decideWrite; (repeat' split) <;> simp
@[simp] theorem State.decideWrite_reads (s : State) (a : Addr) (w : Word) : (s.decideWrite a w).reads = s.reads := by
  unfold State.decideWrite; (repeat' split) <;> simp
@[simp] theorem State.decideWrite_answer (s : State) (a : Addr) (w : Word) : (s.decideWrite a w).answer = s.answer := by
  unfold State.decideWrite; (repeat' split) <;> simp
@[simp] theorem State.decideWrite_now (s : State) (a : Addr) (w : Word) : (s.decideWrite a w).now = s.now := by
  unfold State.decideWrite; (repeat' split) <;> simp
@[simp] theorem State.decideWrite_held (s : State) (a : Addr) (w : Word) : (s.decideWrite a w).held = s.held := by
  unfold State.decideWrite; (repeat' split) <;> simp

@[simp] theorem State.computerWrite_pending (s : State) (a : Addr) (w : Word) : (s.computerWrite a w).pending = s.pending := by
  unfold State.computerWrite State.computerCycle State.takeCycle; dsimp only; (repeat' split) <;> first | rfl | simp
@[simp] theorem State.computerWrite_reads (s : State) (a : Addr) (w : Word) : (s.computerWrite a w).reads = s.reads := by
  unfold State.computerWrite State.computerCycle State.takeCycle; dsimp only; (repeat' split) <;> first | rfl | simp
@[simp] theorem State.computerWrite_answer (s : State) (a : Addr) (w : Word) : (s.computerWrite a w).answer = s.answer := by
  unfold State.computerWrite State.computerCycle State.takeCycle; dsimp only; (repeat' split) <;> first | rfl | simp
@[simp] theorem State.computerWrite_now (s : State) (a : Addr) (w : Word) : (s.computerWrite a w).now = s.now := by
  unfold State.computerWrite State.computerCycle State.takeCycle; dsimp only; (repeat' split) <;> first | rfl | simp

@[simp] theorem State.atRelease_pending (s : State) (c : Csu) (o : OpState) : (s.atRelease c o).pending = s.pending := by
  simp [State.atRelease]
@[simp] theorem State.atRelease_reads (s : State) (c : Csu) (o : OpState) : (s.atRelease c o).reads = s.reads := by
  simp [State.atRelease]
@[simp] theorem State.atRelease_answer (s : State) (c : Csu) (o : OpState) : (s.atRelease c o).answer = s.answer := by
  simp [State.atRelease]
@[simp] theorem State.atRelease_inFlight (s : State) (c : Csu) (o : OpState) : (s.atRelease c o).inFlight = s.inFlight := by
  simp [State.atRelease]
@[simp] theorem State.atRelease_now (s : State) (c : Csu) (o : OpState) : (s.atRelease c o).now = s.now := by
  simp [State.atRelease]
@[simp] theorem State.atRelease_mem (s : State) (c : Csu) (o : OpState) : (s.atRelease c o).mem = s.mem := by
  simp [State.atRelease]
@[simp] theorem State.atRelease_held (s : State) (c : Csu) (o : OpState) : (s.atRelease c o).held = s.held := by
  simp [State.atRelease]
@[simp] theorem State.atRelease_fsu (s : State) (c : Csu) (o : OpState) : (s.atRelease c o).fsu = s.fsu := by
  simp [State.atRelease]
@[simp] theorem State.atRelease_asu (s : State) (c : Csu) (o : OpState) : (s.atRelease c o).asu = s.asu := by
  simp [State.atRelease]
@[simp] theorem State.atRelease_tcu (s : State) (c : Csu) (o : OpState) : (s.atRelease c o).tcu = s.tcu := by
  simp [State.atRelease]
@[simp] theorem State.atRelease_flu (s : State) (c : Csu) (o : OpState) : (s.atRelease c o).flu = s.flu := by
  simp [State.atRelease]

/-- What a release gives the CSU, the RPU and the write queue. -/
theorem State.atRelease_csu (s : State) (c : Csu) (o : OpState) :
    (s.atRelease c o).csu =
      { c with cabActive := true, cabTimer := s.startTimer Config.cabDebounce, powerReset := false } := by
  simp only [State.atRelease]
theorem State.atRelease_rpu (s : State) (c : Csu) (o : OpState) : (s.atRelease c o).rpu = s.rpuAtRelease c o := by
  simp only [State.atRelease]
theorem State.atRelease_mwq (s : State) (c : Csu) (o : OpState) :
    (s.atRelease c o).mwq = s.mwq.enqueueAll (s.rpuAtRelease c o).allRequests := by
  simp only [State.atRelease]

@[simp] theorem State.enterReset_pending (s : State) (p : Bool) : (s.enterReset p).pending = s.pending := rfl
@[simp] theorem State.enterReset_reads (s : State) (p : Bool) : (s.enterReset p).reads = s.reads := rfl
@[simp] theorem State.enterReset_answer (s : State) (p : Bool) : (s.enterReset p).answer = s.answer := rfl
@[simp] theorem State.enterReset_now (s : State) (p : Bool) : (s.enterReset p).now = s.now := rfl
@[simp] theorem State.enterReset_mem (s : State) (p : Bool) : (s.enterReset p).mem = s.mem := rfl
@[simp] theorem State.enterReset_held (s : State) (p : Bool) : (s.enterReset p).held = s.held := rfl

@[simp] theorem State.releaseRetained_pending (s : State) (c : Csu) (r : CheckResult) : (s.releaseRetained c r).pending = s.pending := by
  cases r <;> simp [State.releaseRetained]
@[simp] theorem State.releaseRetained_reads (s : State) (c : Csu) (r : CheckResult) : (s.releaseRetained c r).reads = s.reads := by
  cases r <;> simp [State.releaseRetained]
@[simp] theorem State.releaseRetained_answer (s : State) (c : Csu) (r : CheckResult) : (s.releaseRetained c r).answer = s.answer := by
  cases r <;> simp [State.releaseRetained]
@[simp] theorem State.releaseRetained_now (s : State) (c : Csu) (r : CheckResult) : (s.releaseRetained c r).now = s.now := by
  cases r <;> simp [State.releaseRetained]
@[simp] theorem State.releaseRetained_mem (s : State) (c : Csu) (r : CheckResult) : (s.releaseRetained c r).mem = s.mem := by
  cases r <;> simp [State.releaseRetained]
@[simp] theorem State.releaseRetained_held (s : State) (c : Csu) (r : CheckResult) : (s.releaseRetained c r).held = s.held := by
  cases r <;> simp [State.releaseRetained]
@[simp] theorem State.releaseRetained_flu (s : State) (c : Csu) (r : CheckResult) : (s.releaseRetained c r).flu = s.flu := by
  cases r <;> simp [State.releaseRetained]

@[simp] theorem State.releaseTo_pending (s : State) (b : Bool) : (s.releaseTo b).pending = s.pending := by
  unfold State.releaseTo; dsimp only; (repeat' split) <;> simp
@[simp] theorem State.releaseTo_reads (s : State) (b : Bool) : (s.releaseTo b).reads = s.reads := by
  unfold State.releaseTo; dsimp only; (repeat' split) <;> simp
@[simp] theorem State.releaseTo_answer (s : State) (b : Bool) : (s.releaseTo b).answer = s.answer := by
  unfold State.releaseTo; dsimp only; (repeat' split) <;> simp
@[simp] theorem State.releaseTo_now (s : State) (b : Bool) : (s.releaseTo b).now = s.now := by
  unfold State.releaseTo; dsimp only; (repeat' split) <;> simp
@[simp] theorem State.releaseTo_mem (s : State) (b : Bool) : (s.releaseTo b).mem = s.mem := by
  unfold State.releaseTo; dsimp only; (repeat' split) <;> simp
@[simp] theorem State.releaseTo_held (s : State) (b : Bool) : (s.releaseTo b).held = s.held := by
  unfold State.releaseTo; dsimp only; (repeat' split) <;> simp
@[simp] theorem State.releaseTo_flu (s : State) (b : Bool) : (s.releaseTo b).flu = s.flu := by
  unfold State.releaseTo; dsimp only; (repeat' split) <;> simp

@[simp] theorem State.takeHeld_pending (s : State) : (s.takeHeld).pending = s.pending := by
  unfold State.takeHeld State.computerCycle State.takeCycle State.takeRead; (repeat' split) <;> simp
@[simp] theorem State.takeHeld_reads (s : State) : (s.takeHeld).reads = s.reads := by
  unfold State.takeHeld State.computerCycle State.takeCycle State.takeRead; (repeat' split) <;> simp
@[simp] theorem State.takeHeld_now (s : State) : (s.takeHeld).now = s.now := by
  unfold State.takeHeld State.computerCycle State.takeCycle State.takeRead; (repeat' split) <;> simp

end Sys2Proof.Machine
end

