-- ==== Sys2Proof/Laws/Queue.lean ====
section
/-! SUPPORT. What the operations over the own-write queue and the memories keep: depth, one entry for an address (R145),
and the canonical form of memory (log 8). -/

namespace Sys2Proof.Machine

/-! ## Enqueue (R145) -/

theorem Mwq.holds_iff {q : Mwq} {a : Addr} : q.holds a = true ↔ ∃ e ∈ q.queue, e.addr = a := by
  simp [Mwq.holds, List.any_eq_true]

theorem replaceEntry_addrs (w : OwnWrite) (l : List OwnWrite) :
    (replaceEntry w l).map OwnWrite.addr = l.map OwnWrite.addr := by
  induction l with
  | nil => rfl
  | cons e es ih =>
    unfold replaceEntry
    split
    · rfl
    · rw [List.map_cons, List.map_cons, ih]

/-! ## The repaint order (R146) -/

theorem Origin.before_irrefl (o : Origin) : o.before o = false := by
  cases o <;> simp [Origin.before]

theorem Origin.before_trans {o p q : Origin} (h : o.before p = true) (h' : p.before q = true) : o.before q = true := by
  cases o <;> cases p <;> cases q <;> simp_all [Origin.before] <;> omega

theorem Origin.before_total {o p : Origin} (h : o ≠ p) (h' : o.before p ≠ true) : p.before o = true := by
  cases o <;> cases p <;> simp_all [Origin.before] <;> omega

theorem mem_insertMark {o x : Origin} {l : List Origin} : x ∈ insertMark o l ↔ x = o ∨ x ∈ l := by
  induction l with
  | nil => simp [insertMark]
  | cons y ys ih =>
    unfold insertMark
    split
    · rename_i h
      subst h
      simp
    · split
      · simp
      · simp only [List.mem_cons, ih]
        tauto

/-- A mark takes its place in repaint order, once. -/
theorem insertMark_order (o : Origin) {l : List Origin} (h : l.Pairwise fun x y => x.before y = true) :
    (insertMark o l).Pairwise fun x y => x.before y = true := by
  induction l with
  | nil => exact List.pairwise_singleton _ _
  | cons y ys ih =>
    obtain ⟨hy, hys⟩ := List.pairwise_cons.mp h
    unfold insertMark
    split
    · exact h
    · rename_i hne
      split
      · rename_i hb
        refine List.pairwise_cons.mpr ⟨fun x hx => ?_, h⟩
        rcases List.mem_cons.mp hx with rfl | hx
        · exact hb
        · exact Origin.before_trans hb (hy x hx)
      · rename_i hb
        refine List.pairwise_cons.mpr ⟨fun x hx => ?_, ih hys⟩
        rcases mem_insertMark.mp hx with rfl | hx
        · exact Origin.before_total hne hb
        · exact hy x hx

/-- The marks that a re-derivation leaves are the last of those it found. -/
theorem State.firstBehind_sublist (s : State) (ms : List Origin) : (s.firstBehind ms).2.Sublist ms := by
  induction ms with
  | nil => exact List.Sublist.refl _
  | cons o os ih =>
    unfold State.firstBehind
    repeat' split
    all_goals first
      | exact ih.trans (List.sublist_cons_self _ _)
      | exact List.sublist_cons_self _ _

/-! ## What keeps the law -/

theorem QueueLaw.enqueue {q : Mwq} (h : QueueLaw q) (w : OwnWrite) : QueueLaw (q.enqueue w) := by
  unfold Mwq.enqueue
  split
  · refine ⟨?_, ?_, h.marks⟩
    · show (replaceEntry w q.queue).length ≤ 16
      rw [← List.length_map (f := OwnWrite.addr), replaceEntry_addrs, List.length_map]
      exact h.depth
    · show (replaceEntry w q.queue).Pairwise fun e f => e.addr ≠ f.addr
      rw [← List.pairwise_map (f := OwnWrite.addr) (R := (· ≠ ·)), replaceEntry_addrs, List.pairwise_map]
      exact h.distinct
  · rename_i hn
    split
    · rename_i hroom
      refine ⟨?_, ?_, h.marks.sublist List.erase_sublist⟩
      · show (q.queue ++ [w]).length ≤ 16
        rw [List.length_append, List.length_singleton]
        exact hroom
      · refine List.pairwise_append.mpr ⟨h.distinct, List.pairwise_singleton _ _, fun e he f hf heq => ?_⟩
        rw [List.mem_singleton] at hf
        subst hf
        exact hn (Mwq.holds_iff.mpr ⟨e, he, heq⟩)
    · exact ⟨h.depth, h.distinct, insertMark_order _ h.marks⟩

theorem QueueLaw.enqueueAll {q : Mwq} (h : QueueLaw q) (ws : List OwnWrite) : QueueLaw (q.enqueueAll ws) := by
  unfold Mwq.enqueueAll
  induction ws generalizing q with
  | nil => exact h
  | cons w ws ih => exact ih (h.enqueue w)

/-- Any queue with the entries and the marks of a lawful one, or fewer, is lawful. -/
theorem QueueLaw.sublist {q r : Mwq} (h : QueueLaw q) (hs : r.queue.Sublist q.queue) (hm : r.marks.Sublist q.marks) :
    QueueLaw r :=
  ⟨hs.length_le.trans h.depth, h.distinct.sublist hs, h.marks.sublist hm⟩

theorem QueueLaw.rederive {s : State} (h : QueueLaw s.mwq) : QueueLaw s.rederive.mwq := by
  have h' : QueueLaw { s.mwq with marks := (s.firstBehind s.mwq.marks).2 } :=
    h.sublist (List.Sublist.refl _) (s.firstBehind_sublist _)
  unfold State.rederive
  dsimp only
  split
  · exact h'.enqueue _
  · exact h'

theorem QueueLaw.noticeDrain {s : State} (h : QueueLaw s.mwq) : QueueLaw s.noticeDrain.mwq := by
  unfold State.noticeDrain
  split
  · exact ⟨h.depth, h.distinct, h.marks⟩
  · exact h

theorem QueueLaw.grantHead {s : State} (h : QueueLaw s.mwq) : QueueLaw s.grantHead.mwq := by
  unfold State.grantHead
  split
  · exact h
  · rename_i e es he
    refine QueueLaw.noticeDrain (QueueLaw.rederive ?_)
    exact h.sublist (he ▸ List.sublist_cons_self e es) (List.Sublist.refl _)

theorem QueueLaw.supersede {s : State} (h : QueueLaw s.mwq) (a : Addr) : QueueLaw (s.supersede a).mwq := by
  unfold State.supersede
  dsimp only
  split
  · exact QueueLaw.noticeDrain (QueueLaw.rederive (h.sublist List.filter_sublist List.filter_sublist))
  · exact h.sublist (List.Sublist.refl _) List.filter_sublist

theorem QueueLaw.receive {s : State} (h : QueueLaw s.mwq) (a : Addr) (w : Word) : QueueLaw (s.receive a w).mwq := by
  unfold State.receive
  refine QueueLaw.supersede ?_ a
  unfold State.noteMemory
  split
  · exact ⟨h.depth, h.distinct, h.marks⟩
  · exact h

theorem QueueLaw.serveQueueTurn {s : State} (h : QueueLaw s.mwq) : QueueLaw s.serveQueueTurn.mwq := by
  unfold State.serveQueueTurn
  split
  · exact h.grantHead
  · exact h

theorem QueueLaw.grantComputer {s : State} (h : QueueLaw s.mwq) : QueueLaw s.grantComputer.mwq :=
  ⟨h.depth, h.distinct, h.marks⟩

/-- After a supersede no own write waits for the address (R148). -/
theorem State.supersede_holds (s : State) (a : Addr) : (s.supersede a).mwq.holds a = false := by
  have hmark : ∀ {t : State} {os : List Origin} {w : OwnWrite}, (t.firstBehind os).1 = some w →
      ∃ o ∈ os, t.originAddr o = some w.addr := by
    intro t os w
    induction os with
    | nil => nofun
    | cons o os ih =>
      unfold State.firstBehind
      split
      · rename_i x v hx hv
        split
        · intro h
          obtain ⟨o', ho', h'⟩ := ih h
          exact ⟨o', List.mem_cons_of_mem _ ho', h'⟩
        · intro h
          cases h
          exact ⟨o, List.mem_cons_self, hx⟩
      · intro h
        obtain ⟨o', ho', h'⟩ := ih h
        exact ⟨o', List.mem_cons_of_mem _ ho', h'⟩
  unfold State.supersede
  dsimp only
  split
  · have hnd : ∀ t : State, t.noticeDrain.mwq.queue = t.mwq.queue := by
      intro t; unfold State.noticeDrain; split <;> rfl
    rw [Mwq.holds, hnd, ← Mwq.holds]
    unfold State.rederive
    dsimp only
    split
    · rename_i w hw
      obtain ⟨o, ho, hoa⟩ := hmark hw
      have hwa : w.addr ≠ a := by
        rintro rfl
        have := (List.mem_filter.mp ho).2
        rw [State.marksAt] at this
        have heq : s.originAddr o = some w.addr := hoa
        rw [heq] at this
        simp at this
      by_contra hc
      rw [Bool.not_eq_false, Mwq.holds_iff] at hc
      obtain ⟨e, he, rfl⟩ := hc
      unfold Mwq.enqueue at he
      split at he
      · have : e.addr ∈ (replaceEntry w (s.mwq.queue.filter fun x => x.addr != e.addr)).map OwnWrite.addr :=
          List.mem_map_of_mem he
        rw [replaceEntry_addrs] at this
        obtain ⟨f, hf, hfe⟩ := List.mem_map.mp this
        have := (List.mem_filter.mp hf).2
        rw [hfe] at this
        simp at this
      · split at he
        · rcases List.mem_append.mp he with he | he
          · have := (List.mem_filter.mp he).2
            simp at this
          · exact hwa (List.mem_singleton.mp he ▸ rfl)
        · have := (List.mem_filter.mp he).2
          simp at this
    · simp [Mwq.holds, List.any_eq_false]
  · rename_i hn
    show s.mwq.holds a = false
    simpa using hn

/-! ## Memory (log 8) -/

theorem MemoryLaw.write {m sh : Memory} (h : MemoryLaw m sh) (a : Nat) (w : Word) : MemoryLaw (m.write a w) sh :=
  ⟨Memory.write_wf h.1 a w, h.2⟩

theorem MemoryLaw.writeShadow {m sh : Memory} (h : MemoryLaw m sh) (a : Nat) (w : Word) :
    MemoryLaw m (sh.write a w) := ⟨h.1, Memory.write_wf h.2 a w⟩

theorem MemoryLaw.clearShadow {m sh : Memory} (h : MemoryLaw m sh) : MemoryLaw m [] := ⟨h.1, rfl⟩

theorem MemoryLaw.grantHead {s : State} (h : MemoryLaw s.mem s.csu.shadow) :
    MemoryLaw s.grantHead.mem s.grantHead.csu.shadow := by
  rw [State.grantHead_csu]
  unfold State.grantHead
  split
  · exact h
  · simpa [State.setMem] using h.write _ _

theorem MemoryLaw.receive {s : State} (h : MemoryLaw s.mem s.csu.shadow) (a : Addr) (w : Word) :
    MemoryLaw (s.receive a w).mem (s.receive a w).csu.shadow := by
  rw [State.receive_csu, State.receive_mem]
  exact h.write _ _

theorem MemoryLaw.serveQueueTurn {s : State} (h : MemoryLaw s.mem s.csu.shadow) :
    MemoryLaw s.serveQueueTurn.mem s.serveQueueTurn.csu.shadow := by
  unfold State.serveQueueTurn
  split
  · exact h.grantHead
  · exact h

end Sys2Proof.Machine
end

