-- ==== Sys2Proof/Laws/Enqueue.lean ====
section
/-! SUPPORT. What the queue of own writes takes in, which mark is re-derived, and when the drain is given (chapter 9). -/

namespace Sys2Proof.Machine

/-- The known value of any address after one address is set. -/
theorem knownAt_setKnown_eq (l : List (Nat × Word)) (a : Nat) (w : Word) (x : Nat) : knownAt (setKnown l a w) x = if x = a then some w else knownAt l x := by
  by_cases h : x = a
  · subst h; simp
  · rw [if_neg h, knownAt_setKnown_ne _ _ h]

/-- R145: where addresses are distinct, replacing an entry changes the value of the one entry of that address. -/
theorem replaceEntry_eq_map {l : List OwnWrite} (h : l.Pairwise fun e f => e.addr ≠ f.addr) (w : OwnWrite) : replaceEntry w l = l.map (fun e => if e.addr = w.addr then { e with value := w.value } else e) := by
  induction l with
  | nil => rfl
  | cons e es ih =>
    rw [List.pairwise_cons] at h
    unfold replaceEntry
    by_cases he : e.addr = w.addr
    · rw [if_pos he, List.map_cons, if_pos he]
      congr 1
      symm
      rw [List.map_congr_left (g := id)]
      · simp
      · intro f hf; rw [if_neg (fun hh => h.1 f hf (he.trans hh.symm))]; rfl
    · rw [if_neg he, List.map_cons, if_neg he, ih h.2]

/-- R145 to R147: what one own-write request does to the queue, the marks and the known values. -/
theorem QueueLaw.enqueued {q : Mwq} (h : QueueLaw q) (w : OwnWrite) : Enqueued q (q.enqueue w) w := by
  have hl := h.enqueue w
  by_cases hh : q.holds w.addr = true
  · have hx := Mwq.holds_iff.1 hh
    have he : q.enqueue w = { q with queue := replaceEntry w q.queue, known := setKnown q.known w.addr.toNat w.value } := by
      unfold Mwq.enqueue; rw [if_pos hh]
    rw [he] at hl ⊢
    refine ⟨⟨rfl, rfl⟩, fun _ => ⟨replaceEntry_eq_map h.distinct w, rfl⟩, fun hn => ?_, fun hn => ?_, fun x => ?_, hl⟩
    · obtain ⟨e, h1, h2⟩ := hx; exact absurd h2 (hn e h1)
    · obtain ⟨e, h1, h2⟩ := hx; exact absurd h2 (hn e h1)
    · show knownAt (setKnown q.known w.addr.toNat w.value) x = _
      rw [knownAt_setKnown_eq]
      simp only [hx, true_or, and_true]
  · have hx : ¬ ∃ e ∈ q.queue, e.addr = w.addr := fun hx => hh (Mwq.holds_iff.2 hx)
    by_cases hr : q.queue.length < 16
    · have he : q.enqueue w = { q with queue := q.queue ++ [w], marks := q.marks.erase w.origin, known := setKnown q.known w.addr.toNat w.value } := by
        unfold Mwq.enqueue; rw [if_neg hh, if_pos (show q.queue.length < Config.queueDepth from hr)]
      rw [he] at hl ⊢
      refine ⟨⟨rfl, rfl⟩, fun hn => absurd hn hx, fun _ _ => ⟨rfl, fun o => ?_⟩, fun _ hn => ?_, fun x => ?_, hl⟩
      · have hnd : q.marks.Nodup := h.marks.imp (fun {a b} hab hc => by subst hc; rw [Origin.before_irrefl] at hab; cases hab)
        show o ∈ q.marks.erase w.origin ↔ _
        rw [hnd.mem_erase_iff]; exact And.comm
      · omega
      · show knownAt (setKnown q.known w.addr.toNat w.value) x = _
        rw [knownAt_setKnown_eq]
        simp only [hr, or_true, and_true]
    · have he : q.enqueue w = { q with marks := insertMark w.origin q.marks } := by
        unfold Mwq.enqueue; rw [if_neg hh, if_neg (show ¬ q.queue.length < Config.queueDepth from hr)]
      rw [he] at hl ⊢
      refine ⟨⟨rfl, rfl⟩, fun hn => absurd hn hx, fun _ hn => absurd hn hr, fun _ _ => ⟨rfl, fun o => ?_⟩, fun x => ?_, hl⟩
      · show o ∈ insertMark w.origin q.marks ↔ _
        rw [mem_insertMark]; exact Or.comm
      · rw [if_neg]; rintro ⟨-, h | h⟩
        · exact hx h
        · exact hr h

/-- R147: an origin is behind when its owner holds a value that memory is not known to hold. -/
theorem State.behind_iff (s : State) (o w) : s.behind o w ↔ ∃ a v, s.originAddr o = some a ∧ s.ownerValue o = some v ∧ knownAt s.mwq.known a.toNat ≠ some v ∧ w = { addr := a, value := v, origin := o } := by
  unfold State.behind
  constructor
  · rintro ⟨h1, h2, h3, h4⟩; exact ⟨_, _, h2, h3, h4, by cases w; simp only at h1; subst h1; rfl⟩
  · rintro ⟨a, v, h1, h2, h3, rfl⟩; exact ⟨rfl, h1, h2, h3⟩

/-- R147: no origin of the list is behind, so no write is made and every mark goes. -/
theorem State.firstBehind_none (s : State) : ∀ ms : List Origin, (∀ o ∈ ms, ∀ w, ¬ s.behind o w) → s.firstBehind ms = (none, [])
  | [], _ => rfl
  | o :: os, h => by
    have ih := State.firstBehind_none s os (fun p hp => h p (List.mem_cons_of_mem _ hp))
    unfold State.firstBehind
    split
    · rename_i a v h1 h2
      split
      · exact ih
      · rename_i h3
        exact absurd ((State.behind_iff s o _).2 ⟨a, v, h1, h2, h3, rfl⟩) (h o List.mem_cons_self _)
    · exact ih

/-- R147: the first origin that is behind gives the write, and the marks up to it go. -/
theorem State.firstBehind_of_split (s : State) (o after w) (hw : s.behind o w) : ∀ before : List Origin, (∀ p ∈ before, ∀ v, ¬ s.behind p v) → s.firstBehind (before ++ o :: after) = (some w, after)
  | [], _ => by
    obtain ⟨a, v, h1, h2, h3, rfl⟩ := (State.behind_iff s o w).1 hw
    show s.firstBehind (o :: after) = _
    unfold State.firstBehind
    rw [h1, h2]; dsimp only; rw [if_neg h3]
  | p :: ps, h => by
    have ih := State.firstBehind_of_split s o after w hw ps (fun p hp => h p (List.mem_cons_of_mem _ hp))
    show s.firstBehind (p :: (ps ++ o :: after)) = _
    unfold State.firstBehind
    split
    · rename_i a v h1 h2
      split
      · exact ih
      · rename_i h3
        exact absurd ((State.behind_iff s p _).2 ⟨a, v, h1, h2, h3, rfl⟩) (h p List.mem_cons_self _)
    · exact ih

/-- R147: all that a re-derivation can do to the queue. -/
theorem State.rederive_spec {s : State} (h : QueueLaw s.mwq) : Rederived s s.rederive.mwq := by
  refine ⟨fun hn => ?_, fun before o after w hm hb hw => ?_⟩
  · unfold State.rederive
    rw [s.firstBehind_none _ hn]
  · have he : s.rederive.mwq = ({ s.mwq with marks := after } : Mwq).enqueue w := by
      unfold State.rederive
      rw [hm, s.firstBehind_of_split o after w hw before hb]
    rw [he]
    refine QueueLaw.enqueued (h.sublist (r := { s.mwq with marks := after }) (List.Sublist.refl _) ?_) w
    rw [hm]
    exact (List.sublist_cons_self o after).trans (List.sublist_append_right before _)

/-- R152: no field write stands in the queue, among the marks or in flight. -/
theorem State.drained_iff (s : State) : s.drained = true ↔ (∀ e ∈ s.mwq.queue, ∀ i, e.origin ≠ .field i) ∧
    (∀ o ∈ s.mwq.marks, ∀ i, o ≠ .field i) ∧ ∀ ws, Msg.ownWrites .fsu ws ∉ s.inFlight := by
  unfold State.drained
  simp only [Bool.and_eq_true, Bool.not_eq_true', List.any_eq_false, Bool.not_eq_true]
  rw [and_assoc]
  have hf : ∀ o : Origin, o.isField = false ↔ ∀ i, o ≠ .field i := by
    intro o; cases o <;> simp [Origin.isField]
  refine and_congr ?_ (and_congr ?_ ?_)
  · exact forall₂_congr fun e _ => hf e.origin
  · exact forall₂_congr fun e _ => hf e
  · constructor
    · intro h ws hm; have := h _ hm; cases this
    · intro h m hm
      cases m with
      | ownWrites b ws => cases b <;> first | rfl | exact absurd hm (h ws)
      | _ => rfl

/-- R152: all that the drain notice can do. -/
theorem State.noticeDrain_spec (s : State) : ∃ drain, s.drainNoticed s.mwq s.noticeDrain.mwq drain ∧ s.noticeDrain = { s with mwq := s.noticeDrain.mwq, inFlight := s.inFlight ++ drain } := by
  unfold State.drainNoticed
  by_cases h : s.csu.op = .standby ∧ s.mwq.drainGiven = false ∧ s.drained = true
  · have he : s.noticeDrain = { s with mwq := { s.mwq with drainGiven := true }, inFlight := s.inFlight ++ [.drain] } := by
      unfold State.noticeDrain; rw [if_pos h]; rfl
    refine ⟨[.drain], ⟨fun _ => ⟨by rw [he], rfl⟩, fun hn => ?_⟩, by rw [he]⟩
    exact absurd ⟨h.1, h.2.1, (State.drained_iff s).1 h.2.2⟩ hn
  · have he : s.noticeDrain = s := by
      unfold State.noticeDrain; rw [if_neg h]
    refine ⟨[], ⟨fun hn => ?_, fun _ => ⟨by rw [he], rfl⟩⟩, by rw [he]; simp⟩
    exact absurd ⟨hn.1, hn.2.1, (State.drained_iff s).2 hn.2.2⟩ h

/-- R147, R152: a re-derivation and the drain notice after it. -/
theorem State.rederive_noticeDrain {s : State} : ∃ drain,
    s.drainNoticed s.rederive.mwq s.rederive.noticeDrain.mwq drain ∧
      s.rederive.noticeDrain = { s with mwq := s.rederive.noticeDrain.mwq, inFlight := s.inFlight ++ drain } := by
  obtain ⟨drain, h1, h2⟩ := s.rederive.noticeDrain_spec
  refine ⟨drain, ?_, ?_⟩
  · unfold State.drainNoticed at h1 ⊢
    rw [State.rederive_csu, State.rederive_inFlight] at h1
    exact h1
  · refine h2.trans ?_
    simp

end Sys2Proof.Machine
end

