-- ==== Sys2Proof/Laws/Ops.lean ====
section
/-! SUPPORT. What the shared operations can do, each said once: taking a hand-over, and the take of a computer write. -/

namespace Sys2Proof.Machine

/-! ## Taking a hand-over (log 1, log 2) -/

/-- Nothing of the path in flight: the state stays as it is. -/
theorem State.takeMsg_none {α : Type} {p : Msg → Option α} {s : State} (act : α → State → State)
    (h : takeFirst p s.inFlight = none) : s.takeMsg p act = s := by
  simp [State.takeMsg, h]

/-- The oldest of the path is taken, and the receiver acts on it. -/
theorem State.takeMsg_some {α : Type} {p : Msg → Option α} {s : State} (act : α → State → State) {x : α}
    {rest : List Msg} (h : takeFirst p s.inFlight = some (x, rest)) :
    s.takeMsg p act = act x { s with inFlight := rest } := by
  simp [State.takeMsg, h]

/-- What holds of a state, and of the receiver's action on it, holds after a take. -/
theorem State.takeMsg_ind {α : Type} {p : Msg → Option α} {s : State} {act : α → State → State}
    {P : State → Prop} (hs : P s)
    (h : ∀ x rest, takeFirst p s.inFlight = some (x, rest) → P (act x { s with inFlight := rest })) :
    P (s.takeMsg p act) := by
  unfold State.takeMsg
  split
  · exact h _ _ ‹_›
  · exact hs

/-! ## The take of a computer write (R18, R149) -/

/-- With the port free no own write goes first. -/
@[simp] theorem State.serveQueueTurn_free {s : State} (h : s.mwq.queueTurn = false ∨ s.mwq.queue = []) :
    s.serveQueueTurn = s := by
  unfold State.serveQueueTurn
  split
  · rename_i hc
    rcases h with h | h
    · rw [h] at hc; cases hc.1
    · exact absurd h hc.2
  · rfl

/-- In RESET a cycle is held, undecoded, and a further one is not presented (R18). -/
theorem State.computerCycle_reset {s : State} (h : s.csu.op = .reset) (c : HeldCycle) :
    s.computerCycle c = { s with held := some (s.held.getD c) } := by
  unfold State.computerCycle
  rw [if_pos h]
  split
  · rename_i hn
    rw [hn]
    rfl
  · rename_i hn
    rw [hn]
    cases s
    simp_all

/-- In RESET a write is held, and a further one is not presented. -/
theorem State.computerWrite_reset {s : State} (h : s.csu.op = .reset) (a : Addr) (w : Word) :
    s.computerWrite a w = { s with held := some (s.held.getD (.write a w)) } := State.computerCycle_reset h _

/-- Outside RESET a write is taken once the own write that has the turn, if any, has been granted. -/
theorem State.computerWrite_taken {s : State} (h : s.csu.op ≠ .reset) (a : Addr) (w : Word) :
    s.computerWrite a w = (s.serveQueueTurn.grantComputer).decideWrite a w := by
  unfold State.computerWrite State.computerCycle
  rw [if_neg h]
  rfl

/-- What every cycle keeps: it holds of the state as it is held, of a read taken, and of a write taken. -/
theorem State.computerCycle_ind {s : State} {P : State → Prop} (c : HeldCycle) (hs : P s)
    (held : ∀ h, P { s with held := h })
    (read : s.csu.op ≠ .reset → ∀ a, P (s.takeRead a))
    (taken : s.csu.op ≠ .reset → ∀ a w, P ((s.serveQueueTurn.grantComputer).decideWrite a w)) :
    P (s.computerCycle c) := by
  unfold State.computerCycle
  split
  · split
    · exact held _
    · exact hs
  · cases c with
    | read a => exact read ‹_› a
    | write a w => exact taken ‹_› a w

/-- What every taken write keeps: it holds of the state as it is taken, and of what a grant leaves. -/
theorem State.computerWrite_ind {s : State} {P : State → Prop} (a : Addr) (w : Word) (hs : P s)
    (held : ∀ h, P { s with held := h })
    (taken : s.csu.op ≠ .reset → P ((s.serveQueueTurn.grantComputer).decideWrite a w)) :
    P (s.computerWrite a w) := by
  unfold State.computerWrite State.computerCycle
  split
  · split
    · exact held _
    · exact hs
  · exact taken ‹_›

/-- What the part keeps while no command waits: it holds as time passes, and of the next read, held or taken. -/
theorem State.idle_ind {s : State} {P : State → Prop} (tick : P s.tick)
    (held : ∀ rest h, P { s with reads := rest, held := h })
    (read : ∀ rest a, s.csu.op ≠ .reset → P (({ s with reads := rest } : State).takeRead a)) : P s.idle := by
  unfold State.idle
  split
  · exact tick
  · rename_i a rest _
    split
    · exact tick
    · unfold State.computerCycle
      split
      · split
        · exact held _ _
        · exact held _ _
      · exact read _ _ ‹_›

/-! ## A field write and the port (R24, R25) -/

/-- A field write reaches memory only in RUNNING, where its judgement has a word for it. -/
theorem State.receiveField_cases (s : State) (a : Addr) (j : Judgement) :
    s.receiveField a j = s ∨ ∃ x, s.csu.op = .running ∧ j.word = some x ∧ s.receiveField a j = s.receive a x := by
  unfold State.receiveField
  split
  · split
    · exact .inr ⟨_, ‹_›, ‹_›, rfl⟩
    · exact .inl rfl
  · exact .inl rfl

/-- A field write reaches memory and the queue through one reception at its record's address, or not at all. -/
theorem State.fieldWrite_port (s : State) (i : Nat) (w : Word) :
    ((s.fieldWrite i w).mem = s.mem ∧ (s.fieldWrite i w).mwq = s.mwq) ∨
      ∃ r x, s.fsu.table[i]? = some r ∧ (s.fieldWrite i w).mem = (s.receive r.fixed.addr x).mem ∧
        (s.fieldWrite i w).mwq = (s.receive r.fixed.addr x).mwq := by
  unfold State.fieldWrite
  split
  · exact .inl ⟨rfl, rfl⟩
  · rename_i r hr
    split
    · exact .inl ⟨rfl, rfl⟩
    · dsimp only
      rcases s.receiveField_cases r.fixed.addr (s.judge r w) with hu | ⟨x, -, -, hu⟩
      · refine .inl ?_
        rw [hu]
        split <;> split <;> exact ⟨by simp, by simp⟩
      · refine .inr ⟨r, x, hr, ?_⟩
        rw [hu]
        split <;> split <;> exact ⟨by simp, by simp⟩

/-! ## The class of a word (R20) -/

/-- The classes while a field table exists. -/
theorem wordClass_hasTable {op : OpState} (h : op.hasTable = true) (table : List Record) (a : Addr) :
    wordClass op table a =
      if a.toNat < 0x1E00 then
        match fieldAt table a with
        | some i => .field i
        | none => .plain
      else if a.toNat < 0x1F00 then .locked
      else if a.toNat = 0x1F07 then .eventWord
      else if a.toNat = 0x1F08 then .enable
      else if a.toNat = 0x1F0D then .territory
      else if a.toNat < 0x1F10 then .partOwned
      else if a.toNat < 0x1F40 then .plain
      else if a.toNat < 0x1F80 then .partOwned
      else if a.toNat = 0x1F80 then .unitCode
      else if a.toNat = 0x1F81 then .severityAction
      else if a.toNat = 0x1F82 then .textIndex
      else .plain := by
  cases op <;> first | rfl | cases h

/-- A display word that a record supervises. -/
theorem wordClass_field {op : OpState} (h : op.hasTable = true) {table : List Record} {a : Addr} {i : Nat}
    (ha : a.toNat < 0x1E00) (hi : fieldAt table a = some i) : wordClass op table a = .field i := by
  rw [wordClass_hasTable h, if_pos ha, hi]

/-- A display word that no record supervises. -/
theorem wordClass_display {op : OpState} (h : op.hasTable = true) {table : List Record} {a : Addr}
    (ha : a.toNat < 0x1E00) (hi : fieldAt table a = none) : wordClass op table a = .plain := by
  rw [wordClass_hasTable h, if_pos ha, hi]

/-- Of the classes that a chain of tests on the address chooses from, the two sides of a test are all there is. -/
theorem ite_class_ne {c : Prop} [Decidable c] {x y k : WordClass} (hx : x ≠ k) (hy : y ≠ k) :
    (if c then x else y) ≠ k := by
  split <;> assumption

/-- The check word starts a check only in LOADING (R166). -/
theorem wordClass_check {op : OpState} {table : List Record} {a : Addr} (h : wordClass op table a = .check) :
    op = .loading := by
  by_contra hop
  by_cases ht : op.hasTable = true
  · rw [wordClass_hasTable ht] at h
    by_cases h1 : a.toNat < 0x1E00
    · rw [if_pos h1] at h
      cases hf : fieldAt table a <;> rw [hf] at h <;> nomatch h
    · rw [if_neg h1] at h
      revert h
      exact ite_class_ne nofun <| ite_class_ne nofun <| ite_class_ne nofun <| ite_class_ne nofun <|
        ite_class_ne nofun <| ite_class_ne nofun <| ite_class_ne nofun <| ite_class_ne nofun <|
        ite_class_ne nofun <| ite_class_ne nofun nofun
  · cases op <;> first | exact hop rfl | exact ht rfl | nomatch h

/-- A word is captured only in LOADING (R165). -/
theorem wordClass_capture {op : OpState} {table : List Record} {a : Addr} (h : wordClass op table a = .capture) :
    op = .loading := by
  by_contra hop
  by_cases ht : op.hasTable = true
  · rw [wordClass_hasTable ht] at h
    by_cases h1 : a.toNat < 0x1E00
    · rw [if_pos h1] at h
      cases hf : fieldAt table a <;> rw [hf] at h <;> nomatch h
    · rw [if_neg h1] at h
      revert h
      exact ite_class_ne nofun <| ite_class_ne nofun <| ite_class_ne nofun <| ite_class_ne nofun <|
        ite_class_ne nofun <| ite_class_ne nofun <| ite_class_ne nofun <| ite_class_ne nofun <|
        ite_class_ne nofun <| ite_class_ne nofun nofun
  · cases op <;> first | exact hop rfl | exact ht rfl | nomatch h

/-- A field is written only while a table exists, at a display address that its record supervises. -/
theorem wordClass_field_inv {op : OpState} {table : List Record} {a : Addr} {i : Nat}
    (h : wordClass op table a = .field i) :
    op.hasTable = true ∧ a.toNat < 0x1E00 ∧ fieldAt table a = some i := by
  by_cases ht : op.hasTable = true
  · rw [wordClass_hasTable ht] at h
    by_cases h1 : a.toNat < 0x1E00
    · rw [if_pos h1] at h
      cases hf : fieldAt table a <;> rw [hf] at h <;> simp_all
    · rw [if_neg h1] at h
      exact absurd h <| ite_class_ne nofun <| ite_class_ne nofun <| ite_class_ne nofun <| ite_class_ne nofun <|
        ite_class_ne nofun <| ite_class_ne nofun <| ite_class_ne nofun <| ite_class_ne nofun <|
        ite_class_ne nofun <| ite_class_ne nofun nofun
  · exfalso
    cases op
    case running => exact ht rfl
    case standby => exact ht rfl
    case reset => nomatch h
    case fallback => nomatch h
    case loading =>
      refine absurd h ?_
      exact ite_class_ne nofun <| ite_class_ne nofun <| ite_class_ne nofun <| ite_class_ne nofun <|
        ite_class_ne nofun <| ite_class_ne nofun <| ite_class_ne nofun <| ite_class_ne nofun <|
        ite_class_ne nofun <| ite_class_ne nofun <| ite_class_ne nofun nofun

/-- The record a lookup by address finds has that address. -/
theorem fieldAt_addr {table : List Record} {a : Addr} {i : Nat} {r : Record} (h : fieldAt table a = some i)
    (hr : table[i]? = some r) : r.fixed.addr = a := by
  obtain ⟨hlt, hp, -⟩ := List.findIdx?_eq_some_iff_getElem.mp h
  rw [List.getElem?_eq_getElem hlt] at hr
  cases hr
  simpa using hp

end Sys2Proof.Machine
end

