-- ==== Sys2Proof/Laws/Receive.lean ====
section
/-! SUPPORT. The take of a computer write with the port free: what it comes to, and what the reception of its word does
to memory and the queue. -/

namespace Sys2Proof.Machine

/-- Two states are equal when every part of them is. -/
theorem State.eq_of_parts {t u : State} (pending : t.pending = u.pending) (reads : t.reads = u.reads)
    (answer : t.answer = u.answer) (inFlight : t.inFlight = u.inFlight)
    (now : t.now = u.now) (mem : t.mem = u.mem) (held : t.held = u.held) (csu : t.csu = u.csu) (fsu : t.fsu = u.fsu)
    (asu : t.asu = u.asu) (tcu : t.tcu = u.tcu) (flu : t.flu = u.flu) (anu : t.anu = u.anu) (mwq : t.mwq = u.mwq)
    (rpu : t.rpu = u.rpu) : t = u := by
  cases t
  cases u
  simp_all

/-! ## The take -/

@[simp] theorem State.suppressed_pending (s : State) : s.suppressed.pending = s.pending := rfl
@[simp] theorem State.suppressed_reads (s : State) : s.suppressed.reads = s.reads := rfl
@[simp] theorem State.suppressed_answer (s : State) : s.suppressed.answer = s.answer := rfl
@[simp] theorem State.suppressed_inFlight (s : State) : s.suppressed.inFlight = s.inFlight := rfl
@[simp] theorem State.suppressed_now (s : State) : s.suppressed.now = s.now := rfl
@[simp] theorem State.suppressed_mem (s : State) : s.suppressed.mem = s.mem := rfl
@[simp] theorem State.suppressed_held (s : State) : s.suppressed.held = none := rfl
@[simp] theorem State.suppressed_csu (s : State) : s.suppressed.csu = s.csu := rfl
@[simp] theorem State.suppressed_fsu (s : State) : s.suppressed.fsu = s.fsu := rfl
@[simp] theorem State.suppressed_asu (s : State) : s.suppressed.asu = s.asu := rfl
@[simp] theorem State.suppressed_tcu (s : State) : s.suppressed.tcu = s.tcu := rfl
@[simp] theorem State.suppressed_flu (s : State) : s.suppressed.flu = s.flu := rfl
@[simp] theorem State.suppressed_anu (s : State) : s.suppressed.anu = s.anu := rfl
@[simp] theorem State.suppressed_rpu (s : State) : s.suppressed.rpu = s.rpu := rfl
@[simp] theorem State.suppressed_mwq (s : State) : s.suppressed.mwq = { s.mwq with queueTurn := true } := rfl

/-- Every write command is the take of its address and data. -/
theorem exec_write {c : Instr} {a : Addr} {w : Word} (h : c.write = some (a, w)) (s : State) :
    exec c s = .next (s.computerWrite a w) := by
  cases c <;> first
    | (simp only [Instr.write, Option.some.injEq, Prod.mk.injEq] at h
       obtain ⟨rfl, rfl⟩ := h
       rfl)
    | (simp [Instr.write] at h)

/-- Outside RESET a computer read is taken as R19 says. -/
theorem State.computerCycle_read {s : State} (h : s.csu.op ≠ .reset) (a : Addr) :
    ReadTaken s (s.computerCycle (.read a)) a := by
  unfold State.computerCycle
  rw [if_neg h]
  refine ⟨s.serveQueueTurn, fun hf => State.serveQueueTurn_free hf, fun hf => ?_, rfl⟩
  show Host.Outcome.next _ = _
  unfold State.serveQueueTurn
  rw [if_pos]
  unfold State.portFree at hf
  exact ⟨by by_contra hc; exact hf (Or.inl (by simpa using hc)), fun hc => hf (Or.inr hc)⟩

/-- Outside RESET, with the port free, a write is decided at once on the state as it is. -/
theorem State.computerWrite_free {s : State} (h : s.csu.op ≠ .reset) (hf : s.portFree) (a : Addr) (w : Word) :
    s.computerWrite a w = s.suppressed.decideWrite a w := by
  rw [State.computerWrite_taken h, State.serveQueueTurn_free hf]
  rfl

/-! ## The re-derivation of one pending origin (R147) -/

theorem State.noticeDrain_mwq (s : State) : s.noticeDrain.mwq = { s.mwq with drainGiven := s.noticeDrain.mwq.drainGiven } := by
  unfold State.noticeDrain
  split <;> rfl

theorem State.noticeDrain_inFlight (s : State) :
    s.noticeDrain.inFlight = s.inFlight ∨ (s.csu.op = .standby ∧ s.noticeDrain.inFlight = s.inFlight ++ [.drain]) := by
  unfold State.noticeDrain
  split
  · rename_i h
    exact .inr ⟨h.1, rfl⟩
  · exact .inl rfl

@[simp] theorem Mwq.enqueue_queueTurn (q : Mwq) (w : OwnWrite) : (q.enqueue w).queueTurn = q.queueTurn := by
  unfold Mwq.enqueue
  repeat' split
  all_goals rfl

/-- The addresses after an enqueue: at most the request's is new, at the tail. -/
theorem Mwq.enqueue_addrs (q : Mwq) (w : OwnWrite) : ∃ fresh : List Addr, fresh.length ≤ 1 ∧
    (q.enqueue w).queue.map (·.addr) = q.queue.map (·.addr) ++ fresh ∧ ∀ x ∈ fresh, x = w.addr := by
  unfold Mwq.enqueue
  split
  · exact ⟨[], by simp, by simp [replaceEntry_addrs], by simp⟩
  · split
    · exact ⟨[w.addr], by simp, by simp, by simp⟩
    · exact ⟨[], by simp, by simp, by simp⟩

theorem Mwq.mem_enqueue_marks {q : Mwq} {w : OwnWrite} {o : Origin} (h : o ∈ (q.enqueue w).marks) :
    o ∈ q.marks ∨ o = w.origin := by
  unfold Mwq.enqueue at h
  split at h
  · exact .inl h
  · split at h
    · exact .inl (List.mem_of_mem_erase h)
    · exact (mem_insertMark.1 h).symm

theorem Mwq.enqueue_known {q : Mwq} {w : OwnWrite} {x : Nat} (h : x ≠ w.addr.toNat) :
    knownAt (q.enqueue w).known x = knownAt q.known x := by
  unfold Mwq.enqueue
  split
  · exact knownAt_setKnown_ne _ _ h
  · split
    · exact knownAt_setKnown_ne _ _ h
    · rfl

/-- The origin that a re-derivation enqueues is a marked one, at its own address. -/
theorem State.firstBehind_some {s : State} {ms : List Origin} {w : OwnWrite} (h : (s.firstBehind ms).1 = some w) :
    w.origin ∈ ms ∧ s.originAddr w.origin = some w.addr := by
  induction ms with
  | nil => simp [State.firstBehind] at h
  | cons o os ih =>
    unfold State.firstBehind at h
    split at h
    · split at h
      · exact ⟨List.mem_cons_of_mem _ (ih h).1, (ih h).2⟩
      · simp only [Option.some.injEq] at h
        subst h
        exact ⟨by simp, by assumption⟩
    · exact ⟨List.mem_cons_of_mem _ (ih h).1, (ih h).2⟩

/-- All a re-derivation can do to the queue: nothing is added, or one marked origin is enqueued at its address. -/
theorem State.rederive_cases (s : State) :
    ∃ ms, ms ⊆ s.mwq.marks ∧ (s.rederive = { s with mwq := { s.mwq with marks := ms } } ∨
      ∃ w, w.origin ∈ s.mwq.marks ∧ s.originAddr w.origin = some w.addr ∧
        s.rederive = { s with mwq := ({ s.mwq with marks := ms } : Mwq).enqueue w }) := by
  refine ⟨(s.firstBehind s.mwq.marks).2, (s.firstBehind_sublist _).subset, ?_⟩
  unfold State.rederive
  dsimp only
  split
  · rename_i w hw
    exact .inr ⟨w, (State.firstBehind_some hw).1, (State.firstBehind_some hw).2, rfl⟩
  · exact .inl rfl

/-! ## The reception of a word (R22, R148) -/

theorem addr_toNat_ne {a b : Addr} (h : a ≠ b) : a.toNat ≠ b.toNat := fun e => h (BitVec.eq_of_toNat_eq e)

/-- The memory write and the note of it, before the supersede. -/
theorem State.setMem_noteMemory (s : State) (a : Addr) (x : Word) :
    (s.setMem a x).noteMemory a x = { s with
      mem := s.mem.write a.toNat x
      mwq := { s.mwq with
        known := if s.originAt a = none then s.mwq.known else setKnown s.mwq.known a.toNat x } } := by
  unfold State.noteMemory
  rw [show (s.setMem a x).originAt a = s.originAt a from rfl]
  cases s.originAt a <;> rfl

/-- Memory receives a word at the take of a computer write: `Received` says all of it. -/
theorem received {s : State} (hwf : s.mem.wf = true) (a : Addr) (x : Word) :
    Received s (s.suppressed.receive a x) a x [] := by
  unfold State.receive
  rw [State.setMem_noteMemory]
  generalize hk : (if s.suppressed.originAt a = none then s.suppressed.mwq.known
    else setKnown s.suppressed.mwq.known a.toNat x) = k
  have hkn : s.originAt a ≠ none → knownAt k a.toNat = some x := by
    intro h
    rw [← hk, if_neg (by exact h)]
    simp
  have hky : ∀ y, knownAt k y = if y = a.toNat ∧ s.originAt a ≠ none then some x else knownAt s.mwq.known y := by
    intro y
    rw [← hk]
    by_cases ho : s.originAt a = none
    · rw [if_pos (by exact ho), if_neg (by simp [ho])]
      rfl
    · rw [if_neg (by exact ho), knownAt_setKnown_eq]
      simp only [ne_eq, ho, not_false_iff, and_true]
      rfl
  unfold State.supersede
  dsimp only
  split
  · generalize hs1 : ({ s.suppressed with
      mem := s.suppressed.mem.write a.toNat x
      inFlight := dropRequests a s.suppressed.inFlight
      mwq := { s.suppressed.mwq with
        known := k, marks := s.suppressed.mwq.marks.filter (fun o => !s.marksAt a o)
        queue := s.suppressed.mwq.queue.filter (fun e => e.addr != a) } } : State) = s1
    suffices h : Received s s1.rederive.noticeDrain a x [] by
      rw [← hs1] at h
      exact h
    have hmarks : ∀ o ∈ s1.mwq.marks, s.originAddr o ≠ some a := by
      intro o ho
      rw [← hs1] at ho
      simpa [State.marksAt] using (List.mem_filter.1 ho).2
    have hqueue : ∀ e ∈ s1.mwq.queue, e.addr ≠ a := by
      intro e he
      rw [← hs1] at he
      simpa using (List.mem_filter.1 he).2
    have horigin : ∀ o, s1.originAddr o = s.originAddr o := by
      intro o
      rw [← hs1]
      cases o <;> rfl
    have hheldq : ∃ e ∈ s.mwq.queue, e.addr = a := Mwq.holds_iff.1 ‹_›
    have hsent : ∃ (u : State) (q : Mwq) (drain : List Msg),
        u = { s with
          mem := u.mem, inFlight := dropRequests a s.inFlight
          mwq := { s.mwq with
            queue := s.mwq.queue.filter fun e => e.addr != a, queueTurn := true, known := u.mwq.known
            marks := s.mwq.marks.filter fun o => s.originAddr o != some a } } ∧
        (∀ y, knownAt u.mwq.known y = if y = a.toNat ∧ s.originAt a ≠ none then some x else knownAt s.mwq.known y) ∧
        ((∀ e ∈ s.mwq.queue, e.addr ≠ a) → q = u.mwq ∧ s1.rederive.noticeDrain.mwq = q ∧ drain = []) ∧
        ((∃ e ∈ s.mwq.queue, e.addr = a) → (QueueLaw s.mwq → Rederived u q) ∧
          u.drainNoticed q s1.rederive.noticeDrain.mwq drain) ∧
        s1.rederive.noticeDrain.inFlight = dropRequests a s.inFlight ++ drain ++ [] := by
      obtain ⟨drain, hd, hr⟩ := s1.rederive_noticeDrain
      refine ⟨{ s1 with held := s.held }, s1.rederive.mwq, drain, ?_, ?_, ?_, fun _ => ⟨fun hq => ?_, ?_⟩, ?_⟩
      · rw [← hs1]
        rfl
      · intro y
        rw [← hs1]
        exact hky y
      · obtain ⟨e, he, hea⟩ := hheldq
        exact fun hn => absurd hea (hn e he)
      · have hq1 : QueueLaw s1.mwq := by
          rw [← hs1]
          exact hq.sublist List.filter_sublist List.filter_sublist
        exact ⟨(s1.rederive_spec hq1).settled, (s1.rederive_spec hq1).first⟩
      · exact hd
      · rw [hr, List.append_nil, ← hs1]
        rfl
    have hmem : s1.rederive.noticeDrain.mem = s.mem.write a.toNat x := by
      rw [State.noticeDrain_mem, State.rederive_mem, ← hs1]
      rfl
    have hheld : s1.rederive.noticeDrain.held = none := by
      rw [State.noticeDrain_held, State.rederive_held, ← hs1]
      rfl
    have hturn : s1.mwq.queueTurn = true := by rw [← hs1]; rfl
    have hknown : s1.mwq.known = k := by rw [← hs1]
    have haddrs : s1.mwq.queue = s.mwq.queue.filter (fun e => e.addr != a) := by rw [← hs1]; rfl
    have hone : s.mem.oneWord s1.rederive.noticeDrain.mem a x := by
      intro y
      rw [hmem]
      exact Memory.read_write hwf _ _ _
    have hnd := s1.rederive.noticeDrain_mwq
    obtain ⟨ms, hms, h | ⟨w, hw, hwa, h⟩⟩ := s1.rederive_cases
    · have hq : s1.rederive.mwq = { s1.mwq with marks := ms } := by rw [h]
      refine ⟨hone, hheld, ?_, ?_, ?_, ?_, ⟨[], by simp, ?_⟩, hsent⟩
      · rw [hnd, hq]; exact hturn
      · rw [Bool.eq_false_iff]
        intro hh
        obtain ⟨e, he, hea⟩ := Mwq.holds_iff.1 hh
        rw [hnd, hq] at he
        exact hqueue e he hea
      · intro o ho
        rw [hnd, hq] at ho
        exact hmarks o (hms ho)
      · intro ho
        rw [hnd, hq]
        exact hknown ▸ hkn ho
      · rw [hnd, hq, ← haddrs]
        simp
    · have hq : s1.rederive.mwq = ({ s1.mwq with marks := ms } : Mwq).enqueue w := by rw [h]
      have hne : w.addr ≠ a := by
        intro e
        refine hmarks _ hw ?_
        rw [← horigin, hwa, e]
      obtain ⟨fresh, hlen, hmap, hfresh⟩ := Mwq.enqueue_addrs { s1.mwq with marks := ms } w
      refine ⟨hone, hheld, ?_, ?_, ?_, ?_, ⟨fresh, hlen, ?_⟩, hsent⟩
      · rw [hnd, hq]
        simp [hturn]
      · rw [Bool.eq_false_iff]
        intro hh
        obtain ⟨e, he, hea⟩ := Mwq.holds_iff.1 hh
        rw [hnd, hq] at he
        have hm : a ∈ (({ s1.mwq with marks := ms } : Mwq).enqueue w).queue.map (·.addr) := List.mem_map.2 ⟨e, he, hea⟩
        rw [hmap] at hm
        rcases List.mem_append.1 hm with hm | hm
        · obtain ⟨f, hf, hfa⟩ := List.mem_map.1 hm
          exact hqueue f hf hfa
        · exact hne (hfresh a hm).symm
      · intro o ho
        rw [hnd, hq] at ho
        rcases Mwq.mem_enqueue_marks ho with ho | rfl
        · exact hmarks o (hms ho)
        · rw [← horigin, hwa]
          simpa using hne
      · intro ho
        rw [hnd, hq]
        refine (Mwq.enqueue_known (addr_toNat_ne (Ne.symm hne))).trans ?_
        exact hknown ▸ hkn ho
      · rw [hnd, hq, ← haddrs]
        exact hmap
  · rename_i hh
    have hnone : ∀ e ∈ s.mwq.queue, e.addr ≠ a := fun e he hea => hh (Mwq.holds_iff.2 ⟨e, he, hea⟩)
    refine ⟨fun y => Memory.read_write hwf _ _ _, rfl, rfl, Bool.eq_false_iff.2 hh, ?_, hkn, ⟨[], by simp, ?_⟩, ?_⟩
    · intro o ho e
      have := (List.mem_filter.1 ho).2
      rw [Bool.not_eq_true', Bool.eq_false_iff] at this
      exact this (beq_iff_eq.2 e)
    · have : s.mwq.queue.filter (fun e => e.addr != a) = s.mwq.queue := by
        rw [List.filter_eq_self]
        intro e he
        simpa using hnone e he
      rw [this]
      simp
    · refine ⟨{ s with
        mem := s.mem.write a.toNat x, inFlight := dropRequests a s.inFlight
        mwq := { s.mwq with
          queue := s.mwq.queue.filter fun e => e.addr != a, queueTurn := true, known := k
          marks := s.mwq.marks.filter fun o => s.originAddr o != some a } }, _, [], rfl, hky, fun _ => ⟨rfl, ?_, rfl⟩,
        fun ⟨e, he, hea⟩ => absurd hea (hnone e he), by simp⟩
      have : s.mwq.queue.filter (fun e => e.addr != a) = s.mwq.queue := by
        rw [List.filter_eq_self]
        intro e he
        simpa using hnone e he
      rw [this]
      rfl

/-- What the owner sends after the reception. -/
theorem Received.after {s t u : State} {a : Addr} {x : Word} {sent : List Msg} (h : Received s t a x [])
    (mem : u.mem = t.mem) (held : u.held = t.held) (mwq : u.mwq = t.mwq) (inFlight : u.inFlight = t.inFlight ++ sent) :
    Received s u a x sent := by
  obtain ⟨v, q, drain, h1, h2, h3, h4, h5⟩ := h.sent
  refine ⟨mem ▸ h.memory, held ▸ h.held, mwq ▸ h.turn, mwq ▸ h.gone, mwq ▸ h.marks, mwq ▸ h.known, mwq ▸ h.queue,
    v, q, drain, h1, h2, mwq ▸ h3, mwq ▸ h4, ?_⟩
  rw [inFlight, h5]
  simp

/-- The reception changes memory, the queue and what is in flight, and nothing else. -/
theorem State.receive_rest (s : State) (a : Addr) (x : Word) :
    s.suppressed.receive a x = { s with
      mem := (s.suppressed.receive a x).mem, mwq := (s.suppressed.receive a x).mwq
      inFlight := (s.suppressed.receive a x).inFlight, held := none } := by
  apply State.eq_of_parts
  all_goals first
    | rfl
    | simp

end Sys2Proof.Machine
end

