-- ==== Sys2Proof/Laws/Results.lean ====
section
/-! SUPPORT. What each operation of a block makes of the field it writes, where Laws/Blocks says what it leaves. -/

namespace Sys2Proof.Machine

/-! ## The axle speed, track code and fault list units -/

@[simp] theorem State.completeWindow_asu (s : State) (brk : Bool) :
    (s.completeWindow brk).asu = { s.asu.complete s.csu.shadow s.csu.solo brk with
      window := s.startTimer s.csu.shadow.imgW } := by
  simp [State.completeWindow]

@[simp] theorem State.tcuCommit_tcu (s : State) (u : Tcu) (rs : List FluRequest) (b : Bool) :
    (s.tcuCommit u rs b).tcu = u := by
  unfold State.tcuCommit
  dsimp only
  split <;> simp

@[simp] theorem State.tcuTake_tcu (s : State) (u : Tcu) (n : Option Nat) : (s.tcuTake u n).tcu = u.recompute := by
  simp [State.tcuTake]

@[simp] theorem State.applyFlu_flu (s : State) (e : FluEffect) : (s.applyFlu e).flu = e.flu := by
  unfold State.applyFlu
  dsimp only
  (repeat' split) <;> first | rfl | simp

/-! ## The annunciation unit -/

@[simp] theorem State.reevaluate_anu (s : State) (fs : List LampFn) :
    (s.reevaluate fs).anu =
      { s.anu with fns := if s.csu.op.hasTable = true then s.anu.reevaluated fs else s.anu.fns } := by
  unfold State.reevaluate
  split <;> simp_all

/-- Following the demands changes the sound and nothing else of the ANU. -/
theorem State.followDemands_anu (s : State) :
    s.followDemands.anu = { s.anu with sounding := s.followDemands.anu.sounding
                                       buz := s.followDemands.anu.buz
                                       cadence := s.followDemands.anu.cadence } := by
  unfold State.followDemands
  split
  · split
    · split
      · rfl
      · rfl
    · split
      · rfl
      · rfl
  · rfl

/-- A CHIME request changes the sound and nothing else of the ANU. -/
theorem State.chime_anu (s : State) :
    s.chime.anu = { s.anu with sounding := s.chime.anu.sounding, buz := s.chime.anu.buz
                               cadence := s.chime.anu.cadence } := by
  unfold State.chime
  split
  · split <;> rfl
  · rfl

/-! ## The field supervision unit -/

@[simp] theorem State.fsuCommit_fsu (s : State) (f : Fsu) : (s.fsuCommit f).fsu = f := by
  unfold State.fsuCommit
  dsimp only
  split <;> simp

@[simp] theorem State.evaluateSilent_fsu (s : State) :
    s.evaluateSilent.fsu = { s.fsu with silent := silentHolds s.fsu.table } := by
  simp [State.evaluateSilent]

@[simp] theorem State.staleChanged_fsu (s : State) (i : Nat) (k : Kind) (e : Bool) :
    (s.staleChanged i k e).fsu = { s.fsu with silent := silentHolds s.fsu.table } := by
  simp [State.staleChanged]

/-- The FSU after record i has taken a new value of its runtime part; PR follows a PERMITTED record (R65). -/
def Fsu.withRecord (f : Fsu) (running : Bool) (i : Nat) (kind : Kind) (r : Record) : Fsu :=
  if kind = .permitted then { f with table := f.table.set i r }.withPr running
  else { f with table := f.table.set i r }

/-- A field write of a record that is no FAULT_SLOT (R24, R25, R140). -/
theorem State.fieldWrite_fsu {s : State} {i : Nat} {r : Record} (w : Word) (hr : s.fsu.table[i]? = some r)
    (hk : r.fixed.kind ≠ .faultSlot) :
    (s.fieldWrite i w).fsu =
      let f := s.fsu.withRecord (decide (s.csu.op = .running)) i r.fixed.kind (s.writtenRecord r w (s.judge r w))
      if r.state = .stale then { f with silent := silentHolds f.table } else f := by
  unfold State.fieldWrite Fsu.withRecord
  rw [hr]
  dsimp only
  rw [if_neg hk]
  by_cases h1 : r.fixed.kind = .aspect <;> by_cases h2 : r.state = .stale <;> simp [h1, h2]

/-- A FAULT_SLOT write (R31), and a write to a record that does not exist. -/
theorem State.fieldWrite_slot {s : State} {i : Nat} (w : Word)
    (h : ∀ r, s.fsu.table[i]? = some r → r.fixed.kind = .faultSlot) : s.fieldWrite i w = s := by
  unfold State.fieldWrite
  split
  · rfl
  · rename_i r hr
    rw [if_pos (h r hr)]

/-- Record i goes STALE (R135, R138). -/
theorem State.goStale_fsu (s : State) (i : Nat) (r : Record) :
    (s.goStale i r).fsu =
      let r1 := { r with state := .stale, age := none }
      let f := s.fsu.withRecord true i r.fixed.kind { r1 with shown := s.staleShown r1 }
      { f with silent := silentHolds f.table } := by
  unfold State.goStale Fsu.withRecord
  by_cases h1 : r.fixed.kind = .aspect <;> simp [h1]

@[simp] theorem State.setLampTest_fsu (s : State) (b : Bool) :
    (s.setLampTest b).fsu =
      { s.fsu with
        lampTest := b
        table := if s.csu.op = .running then s.fsu.table.map (relamp b s.fsu.fns) else s.fsu.table } := by
  simp [State.setLampTest]

@[simp] theorem State.fsuEntry_fsu (s : State) :
    s.fsuEntry.fsu = { s.blankFsu with
      table := s.blankFsu.table.mapIdx fun i r =>
        { r with shown := s.freshShown s.blankFsu s.blankFsu.table i r } } := by
  simp [State.fsuEntry]

/-- Every record of the entry's table is one that R6 makes. -/
theorem State.mem_blankFsu {s : State} {r : Record} (h : r ∈ s.blankFsu.table) : ∃ i, r = s.newRecord i := by
  obtain ⟨i, -, rfl⟩ := List.mem_map.mp h
  exact ⟨i, rfl⟩

@[simp] theorem State.fsuStandby_fsu (s : State) :
    s.fsuStandby.fsu = { s.fsu with
      table := s.fsu.table.map fun r => { r with shown := some r.fixed.blankWord, age := none }
      lampTest := false } := by
  simp [State.fsuStandby]

@[simp] theorem State.fsuReturn_fsu (s : State) :
    s.fsuReturn.fsu = { s.fsu with
      table := s.fsu.table.mapIdx fun i r =>
        { r.refreshed (s.freshShown s.fsu s.fsu.table i r) with age := s.fullPeriod r } } := by
  simp [State.fsuReturn]

/-! ## The report unit -/

@[simp] theorem State.rpuCommit_rpu (s : State) (r : Rpu) (os : List Nat) : (s.rpuCommit r os).rpu = r := by
  unfold State.rpuCommit
  split <;> simp

/-! ## The configuration and state unit -/

@[simp] theorem State.enterRunningOnly_csu (s : State) : s.enterRunningOnly.csu = { s.csu with op := .running } := by
  simp [State.enterRunningOnly]

@[simp] theorem State.enterStandby_csu (s : State) : s.enterStandby.csu = { s.csu with op := .standby } := by
  simp [State.enterStandby]

@[simp] theorem State.returnToRunning_csu (s : State) :
    s.returnToRunning.csu = { s.csu with op := .running } := by
  simp [State.returnToRunning]

theorem State.enterRunning_csu (s : State) :
    s.enterRunning.csu = { s.csu with op := if s.csu.cabActive = true then .running else .standby } := by
  unfold State.enterRunning
  simp only [State.enterRunningOnly_csu]
  split <;> simp_all

@[simp] theorem State.enterLoading_csu (s : State) (v : Verdict) (o : BitVec 8) :
    (s.enterLoading v o).csu = { s.csu with op := .loading, shadow := [], locked := false, failures := 0
                                            load := s.startTimer Config.loadTime, verdict := v, failOff := o } := by
  simp [State.enterLoading]

end Sys2Proof.Machine
end

