-- ==== Sys2Proof/Laws/Fields.lean ====
section
/-! SUPPORT. What the FSU hands over when its table changes (chapter 4). -/

namespace Sys2Proof.Machine

/-- Inserting a request after another adds that request and no other. -/
theorem mem_insertAfter {p} {x w : OwnWrite} {l} : x ∈ insertAfter p w l ↔ x = w ∨ x ∈ l := by
  induction l with
  | nil => simp [insertAfter]
  | cons y ys ih => unfold insertAfter; split <;> simp [ih] <;> tauto

/-- R68: the order of requests changes, the requests do not. -/
theorem mem_permittedFirst {t} {x : OwnWrite} {l} : x ∈ permittedFirst t l ↔ x ∈ l := by
  induction l with
  | nil => simp [permittedFirst]
  | cons y ys ih => unfold permittedFirst; split <;> simp [mem_insertAfter, ih]

/-- A record and its index in the table. -/
theorem mem_zipIdx_iff {l : List Record} {i r} : (r, i) ∈ l.zipIdx ↔ l[i]? = some r := by
  rw [List.mem_zipIdx_iff_getElem?]

/-- R16, R144: which fields are written when one table takes the place of another. -/
theorem State.mem_fieldRequests {s : State} {old new : List Record} {w : OwnWrite} (hlen : old.length = new.length) : w ∈ s.fieldRequests old new ↔
    ∃ (i : Nat) (q r : Record), old[i]? = some q ∧ new[i]? = some r ∧ q.shown ≠ r.shown ∧
      r.shown = some w.value ∧ s.lastCaused r.fixed.addr ≠ r.shown ∧ w.addr = r.fixed.addr ∧ w.origin = .field i := by
  unfold State.fieldRequests
  rw [List.mem_filterMap]
  constructor
  · rintro ⟨⟨r, i⟩, hm, h⟩
    rw [mem_zipIdx_iff] at hm
    dsimp only at h
    split at h
    · rename_i hn
      have hi : i < old.length := by rw [hlen]; exact (List.getElem?_eq_some_iff.1 hm).1
      unfold State.needsWrite at hn
      rw [List.getElem?_eq_getElem hi] at hn
      simp only [Option.bind_some, Bool.and_eq_true, decide_eq_true_eq] at hn
      unfold ownWriteOf at h
      cases hs : r.shown with
      | none => rw [hs] at h; cases h
      | some v => rw [hs] at h; cases h; exact ⟨i, _, r, List.getElem?_eq_getElem hi, hm, hn.1, hs, hn.2, rfl, rfl⟩
    · cases h
  · rintro ⟨i, q, r, h1, h2, h3, h4, h5, h6, h7⟩
    refine ⟨(r, i), mem_zipIdx_iff.2 h2, ?_⟩
    dsimp only
    rw [if_pos]
    · unfold ownWriteOf; rw [h4]; cases w; simp_all
    · unfold State.needsWrite; rw [h1]; simp only [Option.bind_some, Bool.and_eq_true, decide_eq_true_eq]; exact ⟨h3, h5⟩

/-- All that taking a new FSU state hands to other blocks: own writes of changed fields and the new reference. -/
theorem State.fsuCommit_spec (s : State) (f : Fsu) (hlen : s.fsu.table.length = f.table.length) : ∃ own, FieldsHanded s s.fsu.table f.table own ∧
    s.fsuCommit f = { s with fsu := f, inFlight := s.inFlight ++ own ++ (if f.pr = s.fsu.pr then [] else [.newPr f.reference]) } ∧ own = (if permittedFirst f.table (s.fieldRequests s.fsu.table f.table) = [] then [] else [.ownWrites .fsu (permittedFirst f.table (s.fieldRequests s.fsu.table f.table))]) := by
  refine ⟨_, ⟨permittedFirst f.table (s.fieldRequests s.fsu.table f.table), rfl, fun w => ?_⟩, ?_, rfl⟩
  · rw [mem_permittedFirst, State.mem_fieldRequests hlen]
  · unfold State.fsuCommit State.request State.send; dsimp only
    by_cases h1 : permittedFirst f.table (State.fieldRequests s s.fsu.table f.table) = [] <;> by_cases h2 : f.pr = s.fsu.pr <;> simp [h1, h2]

/-- The same where the permitted reference has not changed. -/
theorem State.fsuCommit_same_reference (s : State) (f : Fsu) (hlen : s.fsu.table.length = f.table.length) (hpr : f.pr = s.fsu.pr) : ∃ own, FieldsHanded s s.fsu.table f.table own ∧
    s.fsuCommit f = { s with fsu := f, inFlight := s.inFlight ++ own } := by
  obtain ⟨own, h1, h2, -⟩ := State.fsuCommit_spec s f hlen
  refine ⟨own, h1, ?_⟩
  rw [h2, if_pos hpr]; simp

/-- R60: the comparison of a displayed speed with the tolerance, in tenths. -/
theorem withinTolerance_iff (tol v : Nat) (x : Word) : withinTolerance tol v x = true ↔ 10 * x.toNat ≤ v + tol ∧ v ≤ 10 * x.toNat + tol := by
  unfold withinTolerance absDiff; simp; split <;> omega

end Sys2Proof.Machine
end

