-- ==== Sys2Proof/Laws/Sends.lean ====
section
/-! SUPPORT. What one operation of a block comes to as a whole: the state it leaves and the hand-overs it makes. -/

namespace Sys2Proof.Machine

/-! ## The track code unit -/

theorem CodeState.isLost_eq (st : CodeState) : st.isLost = decide (st = .holding ∨ st = .lost) := by
  cases st <;> rfl

theorem delivers_iff (again : Bool) (t u : Tcu) : delivers again t u = true ↔
    again = true ∨ t.displayed.map Aspect.number ≠ u.displayed.map Aspect.number := by
  unfold delivers numberOf
  rw [Bool.or_eq_true, decide_eq_true_iff]

/-- The items of an operation of the TCU (R90, R155). -/
theorem tcuItems_eq (vmax : Nat) (t u : Tcu) (again : Bool) : tcuItems vmax t u again =
    (if t.lastSampled ≠ u.lastSampled ∨ t.confirmed ≠ u.confirmed ∨
        t.received.map Aspect.number ≠ u.received.map Aspect.number
      then [.codes u.lastSampled u.confirmed (u.received.map Aspect.number)] else [])
      ++ (if t.state ≠ u.state then [.codeState u.state] else [])
      ++ (if t.uncoded ≠ u.uncoded then [.territory u.uncoded] else [])
      ++ (if again = true ∨ t.displayed.map Aspect.number ≠ u.displayed.map Aspect.number
          then [.displayed (u.displayed.map fun a => { a with ceiling := min a.ceiling vmax })] else []) := by
  have h1 : (t.lastSampled ≠ u.lastSampled ∨ t.confirmed ≠ u.confirmed ∨
      t.received.map Aspect.number ≠ u.received.map Aspect.number) ↔
      ¬(t.lastSampled = u.lastSampled ∧ t.confirmed = u.confirmed ∧ numberOf t.received = numberOf u.received) := by
    unfold numberOf
    tauto
  unfold tcuItems
  simp only [delivers_iff, h1, ne_eq, ite_not]
  rfl

/-- One operation of the TCU: its new state, and what changed, or is delivered anew, handed on (R90, R91). -/
theorem State.tcuCommit_eq (s : State) (u : Tcu) (rs : List FluRequest) (again : Bool) :
    s.tcuCommit u rs again = { s with
      tcu := u, inFlight := s.inFlight ++ tcuSends s.csu.shadow.imgVmax s.tcu u rs again } := by
  have h : (s.tcuCommit u rs again).inFlight = s.inFlight ++ tcuSends s.csu.shadow.imgVmax s.tcu u rs again := by
    unfold State.tcuCommit tcuSends
    dsimp only
    rw [State.sendReport_inFlight, ← tcuItems_eq]
    simp only [delivers_iff]
    by_cases hm : again = true ∨ s.tcu.displayed.map Aspect.number ≠ u.displayed.map Aspect.number
    · simp only [if_pos hm]
      cases hd : u.displayed <;>
        simp [State.sendFlu, State.send, tcuInputs, CodeState.isLost_eq, deliveries, ceilingOf, ite_not]
    · simp only [if_neg hm]
      simp [State.sendFlu, State.send, tcuInputs, CodeState.isLost_eq, ite_not]
  apply State.eq_of_parts <;> simp [h]

theorem Tcu.displayRule (t : Tcu) : DisplayRule t.recompute := by
  have hw : t.recompute.writtenAspect = t.writtenAspect := rfl
  have hd : t.recompute.displayed = deriveDisplayed t.uncoded t.received t.writtenAspect (lossAspect t.aspects) := rfl
  constructor
  · intro hu h
    rw [hd, show t.uncoded = false from hu, ← hw, h]
    show codedDisplay none t.received = t.received
    cases t.received <;> rfl
  · intro w r hu h hr hlt
    rw [hd, show t.uncoded = false from hu, ← hw, h, show t.received = some r from hr]
    simp [deriveDisplayed, codedDisplay, hlt]
  · intro w r hu h hr hle
    rw [hd, show t.uncoded = false from hu, ← hw, h, show t.received = some r from hr]
    simp [deriveDisplayed, codedDisplay, Nat.not_lt.2 hle]
  · intro hu h
    rw [hd, show t.uncoded = true from hu, ← hw, h]
    rfl
  · intro w hu h
    rw [hd, show t.uncoded = true from hu, ← hw, h]
    rfl

/-- A received aspect taken, and the displayed aspect recomputed where it changed (R80). -/
theorem Tcu.receivesAspect (old u : Tcu) (a : Option Aspect) (h : old.received = u.received) :
    ReceivesAspect u (Tcu.recomputeFrom old (u.receive a)) a := by
  unfold Tcu.receive Tcu.recomputeFrom
  constructor <;> intro hn
  · rw [if_pos hn, if_pos h]
  · have : old.received ≠ a := by intro e; exact hn (by rw [← e, h])
    rw [if_neg hn, if_neg this]
    exact ⟨rfl, Tcu.displayRule _⟩

/-! ## The fault list unit -/

/-- The effect of a request: the list it leaves, and what R110 hands on. -/
theorem State.applyFlu_eq (s : State) (e : FluEffect) :
    s.applyFlu e = { s with
      flu := e.flu
      inFlight := s.inFlight
        ++ State.listSends { s with flu := e.flu } (decide (e.flu.list ≠ s.flu.list)) e.events e.chime } := by
  have h : (s.applyFlu e).inFlight = s.inFlight
      ++ State.listSends { s with flu := e.flu } (decide (e.flu.list ≠ s.flu.list)) e.events e.chime := by
    have hl : ∀ u : State, u.listHandovers = (if u.csu.op = .running ∨ u.csu.op = .standby then
          [.listFsu (u.flu.list.take (u.fsu.table.countP fun r => r.fixed.kind == .faultSlot))] else [])
        ++ [.listAnu (summaryOf u.flu.list), .listRpu u.flu.list] := by
      intro u
      unfold State.listHandovers
      cases u.csu.op <;> rfl
    have hs : ∀ l : List Entry, summaryOf l =
        { anyAUnacked := l.any fun e => decide (e.state = .activeUnacked ∨ e.state = .clearedUnacked) &&
            decide (e.severity = .a)
          anyUnacked := l.any fun e => decide (e.state = .activeUnacked ∨ e.state = .clearedUnacked)
          entries := l.length
          unacked := l.countP fun e => decide (e.state = .activeUnacked ∨ e.state = .clearedUnacked) } := by
      intro l
      have hu : Entry.unacked = fun e => decide (e.state = .activeUnacked ∨ e.state = .clearedUnacked) := by
        funext e
        unfold Entry.unacked
        cases e.state <;> rfl
      unfold summaryOf
      rw [hu]
      rfl
    unfold State.applyFlu State.listSends
    dsimp only
    rw [← hs, hl]
    by_cases h1 : e.flu.list = s.flu.list <;> by_cases h2 : e.events = [] <;> by_cases h3 : e.chime = true <;>
      by_cases h4 : s.csu.op = .running <;> simp [h1, h2, h3, h4, State.sendEvents, State.send]
  apply State.eq_of_parts <;> simp [h]

/-- What a list change hands on depends on the list, the field table and the operating state alone. -/
theorem State.listSends_congr {s t : State} (hf : t.flu.list = s.flu.list) (hc : t.csu.op = s.csu.op)
    (ht : t.fsu.table = s.fsu.table) (changed : Bool) (es : List Event) (chime : Bool) :
    t.listSends changed es chime = s.listSends changed es chime := by
  unfold State.listSends
  rw [hf, hc, ht]

/-! ## The annunciation unit -/

theorem LampValues.get_set (v : LampValues) (f g : LampFn) (b : Bool) :
    (v.set f b).get g = if g = f then b else v.get g := by
  cases f <;> cases g <;> rfl

theorem Anu.reevaluated_get (a : Anu) (fs : List LampFn) (f : LampFn) :
    (a.reevaluated fs).get f = if f ∈ fs then a.fnValue f else a.fns.get f := by
  induction fs with
  | nil => rfl
  | cons g gs ih =>
    unfold Anu.reevaluated
    rw [LampValues.get_set, ih]
    by_cases h : f = g <;> simp [h]

/-- The value of a function depends on its inputs, not on the values, nor on the sound. -/
theorem Anu.fnValue_congr {a b : Anu} (h : b = { a with
    fns := b.fns, sounding := b.sounding, buz := b.buz, cadence := b.cadence }) (f : LampFn) :
    b.fnValue f = a.fnValue f := by
  rw [h]
  cases f <;> rfl

/-- A re-evaluation, with what it hands (R119). -/
theorem State.reevaluate_eq (s : State) (fs : List LampFn) :
    s.reevaluate fs = { s with
      anu := { s.anu with fns := if s.csu.op.hasTable then s.anu.reevaluated fs else s.anu.fns }
      inFlight := s.inFlight ++ if s.csu.op.hasTable then s.anu.changes fs else [] } := by
  unfold State.reevaluate
  split
  · rfl
  · simp

/-- The sound follows the demands, and nothing else of the part changes (R120, R121). -/
theorem State.followDemands_eq (s : State) : s.followDemands = { s with
    anu := { s.anu with sounding := s.followDemands.anu.sounding, buz := s.followDemands.anu.buz
                        cadence := s.followDemands.anu.cadence } } := by
  unfold State.followDemands
  (repeat' split) <;> rfl

theorem Anu.demanded_congr {a b : Anu} (h1 : b.stage = a.stage) (h2 : b.summary = a.summary)
    (h3 : b.pendingAck = a.pendingAck) : b.demanded = a.demanded := by
  unfold Anu.demanded
  rw [h1, h2, h3]

theorem toneOf_eq {p : Pattern} (h : p ≠ .none) (now : Nat) :
    (toneOf p).map (now + ·) =
      if p = .continuous then none else some (now + if p = .intermittent then 500 else 300) := by
  cases p <;> simp_all [toneOf, Config.intermittentHalf, Config.chimeTone]

/-- The pattern demanded is the highest in the order of R120. -/
theorem Anu.demanded_some {a : Anu} {p : Pattern} : a.demanded = some p ↔ a.mustSound p := by
  unfold Anu.demanded Anu.mustSound
  by_cases h1 : a.stage = .alarm
  · rw [if_pos h1]
    cases p <;> simp [Anu.demands, h1]
  · rw [if_neg h1]
    by_cases h2 : a.stage = .warning ∨ a.summary.anyAUnacked = true
    · rw [if_pos h2]
      cases p <;> simp [Anu.demands, h1, h2]
    · rw [if_neg h2]
      cases h3 : a.pendingAck <;> cases p <;> simp [Anu.demands, h1, h2, h3]

/-- No pattern is demanded (R120). -/
theorem Anu.demanded_none {a : Anu} : a.demanded = none ↔ ∀ p, ¬ a.demands p := by
  constructor
  · intro h p hp
    unfold Anu.demanded at h
    by_cases h1 : a.stage = .alarm
    · rw [if_pos h1] at h
      cases h
    · rw [if_neg h1] at h
      by_cases h2 : a.stage = .warning ∨ a.summary.anyAUnacked = true
      · rw [if_pos h2] at h
        cases h
      · rw [if_neg h2] at h
        cases h3 : a.pendingAck <;> rw [h3] at h <;> cases p <;> simp_all [Anu.demands]
  · intro h
    cases hd : a.demanded with
    | none => rfl
    | some p => exact absurd (Anu.demanded_some.1 hd).1 (h p)

/-- The value of a function is 1 exactly under its condition (R13, R117). -/
theorem Anu.fnValue_iff (a : Anu) (f : LampFn) : a.fnValue f = true ↔ a.lights f := by
  cases f <;> unfold Anu.fnValue Anu.lights
  case overspeed => cases a.stage <;> simp
  case staleAny => simp [Nat.pos_iff_ne_zero]
  all_goals first
    | exact Iff.rfl
    | (simp; done)
    | (cases a.copy <;> simp [or_assoc])

/-- Following the demands, with the sound as before it (R120, R121). -/
theorem State.followDemands_follows (s : State) (before : Anu) (h : s.anu.soundsAs before) :
    BuzzerFollows s.csu.op s.now before s.followDemands.anu := by
  have hd : s.followDemands.anu.demanded = s.anu.demanded := by
    rw [State.followDemands_eq]
    rfl
  obtain ⟨h1, h2, h3⟩ := h
  constructor
  · intro hop
    unfold State.followDemands
    rw [if_neg hop]
    exact ⟨h1, h2, h3⟩
  · intro hop p hp hb
    rw [← Anu.demanded_some, hd] at hp
    unfold State.followDemands
    rw [if_pos hop, hp]
    dsimp only
    rw [if_pos (h1.trans hb)]
    exact ⟨h1, h2, h3⟩
  · intro hop p hp hb
    rw [← Anu.demanded_some, hd] at hp
    unfold State.followDemands
    rw [if_pos hop, hp]
    dsimp only
    rw [if_neg (fun h => hb (h1.symm.trans h))]
    refine ⟨rfl, rfl, toneOf_eq ?_ _⟩
    rintro rfl
    unfold Anu.demanded at hp
    (repeat' split at hp) <;> cases hp
  · intro hop hp
    rw [← Anu.demanded_none, hd] at hp
    unfold State.followDemands
    rw [if_pos hop, hp]
    dsimp only
    rw [h1]
    split
    · exact ⟨h1, h2, h3⟩
    · exact ⟨rfl, rfl, rfl⟩

/-- The functions of one event, re-evaluated on the inputs of `a` and handed (R119). -/
theorem Anu.functionsHanded {op : OpState} {before a b : Anu} {fs : List LampFn} (hf : a.fns = before.fns)
    (hb : b = { a with fns := b.fns, sounding := b.sounding, buz := b.buz, cadence := b.cadence })
    (hv : b.fns = if op.hasTable then a.reevaluated fs else a.fns) :
    FunctionsHanded op before b fs (if op.hasTable then a.changes fs else []) := by
  have hval := Anu.fnValue_congr hb
  have hget : ∀ f, b.fns.get f = if op.hasTable = true ∧ f ∈ fs then b.fnValue f else before.fns.get f := by
    intro f
    rw [hv, hval, ← hf]
    cases hop : op.hasTable
    · simp
    · simp only [if_true, true_and]
      exact Anu.reevaluated_get a fs f
  refine ⟨fun hop f hmem => ?_, fun f hn => ?_, ?_⟩
  · rw [hget, if_pos ⟨hop, hmem⟩]
    exact b.fnValue_iff f
  · rw [hget, if_neg]
    rintro ⟨h1, h2⟩
    rcases hn with hn | hn
    · rw [h1] at hn
      cases hn
    · exact hn h2
  · split
    · rename_i hop
      unfold Anu.changes
      rw [hf]
      have he : ∀ f ∈ fs, a.fnValue f = b.fns.get f := by
        intro f hmem
        rw [hget, if_pos ⟨hop, hmem⟩, hval]
      rw [List.filter_congr (fun f hmem => by rw [he f hmem])]
      exact List.map_congr_left fun f hmem => by rw [he f (List.mem_of_mem_filter hmem)]
    · rename_i hop
      symm
      rw [List.map_eq_nil_iff, List.filter_eq_nil_iff]
      intro f _
      rw [hget, if_neg (fun h => hop h.1)]
      simp

/-- An input taken: `a` re-evaluated, the buzzer following, and `more` sent (R117, R119, R120). -/
theorem State.inputTaken {s u : State} {a : Anu} (fs : List LampFn) (more : List Msg)
    (hu : u = { s with now := u.now, inFlight := u.inFlight, anu := a }) (hf : a.fns = s.anu.fns)
    (hs : a.soundsAs s.anu) :
    InputTaken s (((u.reevaluate fs).followDemands).send more) a u.inFlight fs more := by
  have hop : u.csu.op = s.csu.op := by rw [hu]
  have ha : u.anu = a := by rw [hu]
  have he : (((u.reevaluate fs).followDemands).send more).anu = { a with
      fns := if s.csu.op.hasTable then a.reevaluated fs else a.fns
      sounding := (u.reevaluate fs).followDemands.anu.sounding, buz := (u.reevaluate fs).followDemands.anu.buz
      cadence := (u.reevaluate fs).followDemands.anu.cadence } := by
    show (u.reevaluate fs).followDemands.anu = _
    rw [State.followDemands_anu, State.reevaluate_anu, ha, hop]
  refine ⟨?_, ?_, ⟨_, Anu.functionsHanded hf ?_ ?_, ?_⟩, ?_⟩
  · rw [he]
  · show BuzzerFollows _ (((u.reevaluate fs).followDemands).send more).now _ (u.reevaluate fs).followDemands.anu
    have hn : (((u.reevaluate fs).followDemands).send more).now = (u.reevaluate fs).now := by simp
    have hop' : s.csu.op = (u.reevaluate fs).csu.op := by simp [hop]
    rw [hn, hop']
    refine State.followDemands_follows _ _ ?_
    rw [State.reevaluate_anu, ha]
    exact hs
  · rw [he]
  · rw [he]
  · show (u.reevaluate fs).followDemands.inFlight ++ more = _
    rw [State.followDemands_eq, State.reevaluate_eq, ha, hop]
  · apply State.eq_of_parts <;> simp
    all_goals (rw [hu])

end Sys2Proof.Machine
end

