-- ==== Sys2Proof/Laws/Words.lean ====
section
/-! SUPPORT. What the words of the report block and the mirror read as, in the places 13.6 and 13.7 give their fields. -/

namespace Sys2Proof.Machine

theorem place_toNat {v w lo : Nat} (h : w + lo ≤ 16) : (place v w lo).toNat = v % 2 ^ w * 2 ^ lo := by
  unfold place
  rw [BitVec.toNat_ofNat]
  refine Nat.mod_eq_of_lt ?_
  calc v % 2 ^ w * 2 ^ lo < 2 ^ w * 2 ^ lo :=
        Nat.mul_lt_mul_of_pos_right (Nat.mod_lt _ (Nat.two_pow_pos w)) (Nat.two_pow_pos lo)
    _ = 2 ^ (w + lo) := (Nat.pow_add 2 w lo).symm
    _ ≤ 2 ^ 16 := Nat.pow_le_pow_right (by decide) h

/-- A field laid above those already there adds its value in its place. -/
theorem or_place {x : Word} {n v w lo : Nat} (hx : x.toNat = n) (hlo : n < 2 ^ lo) (h : w + lo ≤ 16) :
    (x ||| place v w lo).toNat = n + v % 2 ^ w * 2 ^ lo := by
  rw [BitVec.toNat_or, place_toNat h, hx, Nat.or_comm, Nat.mul_comm, ← Nat.two_pow_add_eq_or_of_lt hlo]
  omega

theorem or_flag {x : Word} {n lo : Nat} {b : Bool} (hx : x.toNat = n) (hlo : n < 2 ^ lo) (h : lo < 16) :
    (x ||| flagBit b lo).toNat = n + b.toNat * 2 ^ lo := by
  unfold flagBit
  rw [or_place hx hlo (by omega)]
  cases b <;> rfl

theorem flag_toNat {b : Bool} {lo : Nat} (h : lo < 16) : (flagBit b lo).toNat = b.toNat * 2 ^ lo := by
  unfold flagBit
  rw [place_toNat (by omega)]
  cases b <;> rfl

theorem OpState.code_lt (o : OpState) : o.code < 8 := by cases o <;> decide
theorem CodeState.code_lt (o : CodeState) : o.code < 4 := by cases o <;> decide
theorem Stage.code_lt (o : Stage) : o.code < 4 := by cases o <;> decide
theorem Direction.code_lt (o : Direction) : o.code < 4 := by cases o <;> decide
theorem Verdict.code_lt (o : Verdict) : o.code < 8 := by cases o <;> decide
theorem Cause.code_lt (o : Cause) : o.code < 4 := by cases o <;> decide
theorem Severity.code_lt (o : Severity) : o.code < 4 := by cases o <;> decide
theorem EntryState.code_lt (o : EntryState) : o.code < 4 := by cases o <;> decide

/-- The slot word of an entry (R116). -/
theorem Entry.slotWord_toNat (e : Entry) :
    e.slotWord.toNat = e.text.toNat + 1024 * e.severity.code + 4096 * e.state.code := by
  have h1 := e.text.isLt
  have h2 := e.severity.code_lt
  have h3 := e.state.code_lt
  unfold Entry.slotWord
  rw [or_place (or_place (place_toNat (by decide)) (by omega) (by decide)) (by omega) (by decide)]
  omega

/-- The first mirror word of an entry (R157). -/
theorem Entry.mirrorWord_toNat (e : Entry) : e.mirrorWord.toNat = e.code.toNat + 4096 * e.unit.toNat := by
  have h1 := e.code.isLt
  have h2 := e.unit.isLt
  unfold Entry.mirrorWord
  rw [or_place (place_toNat (by decide)) (by omega) (by decide)]
  omega

theorem Rpu.stateWord_toNat (r : Rpu) : r.stateWord.toNat = r.op.code + 8 * r.standbyReq.toNat
    + 16 * r.codeState.code + 64 * r.stage.code + 256 * r.uncoded.toNat + 512 * r.lampTest.toNat
    + 1024 * r.restriction.toNat := by
  have h1 := r.op.code_lt
  have h2 := r.codeState.code_lt
  have h3 := r.stage.code_lt
  have h4 := Bool.toNat_lt r.standbyReq
  have h5 := Bool.toNat_lt r.uncoded
  have h6 := Bool.toNat_lt r.lampTest
  unfold Rpu.stateWord
  rw [or_flag (or_flag (or_flag (or_place (or_place (or_flag (place_toNat (by decide)) (by omega) (by decide))
    (by omega) (by decide)) (by omega) (by decide)) (by omega) (by decide)) (by omega) (by decide)) (by omega)
    (by decide)]
  omega

theorem AsuReport.channelWord_toNat (a : AsuReport) : a.channelWord.toNat = a.failed1.toNat + 2 * a.failed2.toNat
    + 4 * a.dir1.code + 16 * a.dir2.code + 64 * a.direction.code + 256 * a.persistent.toNat + 512 * a.dirDis.toNat := by
  have h1 := a.dir1.code_lt
  have h2 := a.dir2.code_lt
  have h3 := a.direction.code_lt
  have h4 := Bool.toNat_lt a.failed1
  have h5 := Bool.toNat_lt a.failed2
  have h6 := Bool.toNat_lt a.persistent
  unfold AsuReport.channelWord
  rw [or_flag (or_flag (or_place (or_place (or_place (or_flag (flag_toNat (by decide)) (by omega) (by decide))
    (by omega) (by decide)) (by omega) (by decide)) (by omega) (by decide)) (by omega) (by decide)) (by omega)
    (by decide)]
  omega

theorem Rpu.codeWord_toNat (r : Rpu) {n : Nat} (hn : n < 8) (h : r.receivedNo = none ∨ r.receivedNo = some n) :
    r.codeWord.toNat = r.lastSampled.toNat
      + (match r.confirmed with
         | some c => 16 * c.toNat
         | none => 256)
      + (if r.receivedNo = none then 4096 else 512 * n) := by
  have h1 := r.lastSampled.isLt
  unfold Rpu.codeWord
  cases hc : r.confirmed with
  | none =>
    rcases h with h | h <;> rw [h] <;> dsimp only
    · rw [or_flag (or_flag (place_toNat (by decide)) (by omega) (by decide)) (by simp; omega) (by decide)]
      simp
      omega
    · rw [or_place (or_flag (place_toNat (by decide)) (by omega) (by decide)) (by simp; omega) (by decide)]
      simp
      omega
  | some c =>
    have h2 := c.isLt
    rcases h with h | h <;> rw [h] <;> dsimp only
    · rw [or_flag (or_place (place_toNat (by decide)) (by omega) (by decide)) (by omega) (by decide)]
      simp
      omega
    · rw [or_place (or_place (place_toNat (by decide)) (by omega) (by decide)) (by omega) (by decide)]
      simp
      omega

/-- Every report and mirror word is laid out as 13.6 and 13.7 give it. -/
theorem Rpu.reportLayout (r : Rpu) : ReportLayout r := by
  constructor
  · exact r.stateWord_toNat
  · refine ⟨fun h => ?_, fun v hv h => ?_⟩
    · show (match r.asu.selected with
        | some v => place v 16 0
        | none => 0xFFFF) = _
      rw [h]
    · show (match r.asu.selected with
        | some v => place v 16 0
        | none => 0xFFFF).toNat = _
      rw [h]
      dsimp only
      rw [place_toNat (by decide)]
      omega
  · refine ⟨fun h => ?_, fun h => ?_⟩
    · show (place r.asu.v1 16 0).toNat = _
      rw [place_toNat (by decide)]
      omega
    · show (place r.asu.v2 16 0).toNat = _
      rw [place_toNat (by decide)]
      omega
  · exact r.asu.channelWord_toNat
  · exact fun n hn h => r.codeWord_toNat hn h
  · refine ⟨fun h => ?_, fun a h h1 h2 h3 => ?_⟩
    · show r.displayedWord = _
      unfold Rpu.displayedWord
      rw [h]
    · show r.displayedWord.toNat = _
      unfold Rpu.displayedWord
      rw [h]
      dsimp only
      rw [or_place (or_place (place_toNat (by decide)) (by omega) (by decide)) (by omega) (by decide)]
      omega
  · exact ⟨rfl, rfl⟩
  · intro h
    have hc : r.list.countP Entry.unacked ≤ r.list.length := List.countP_le_length
    show (countsWord r.list).toNat = _
    unfold countsWord
    rw [or_place (place_toNat (by decide)) (by omega) (by decide)]
    omega
  · intro j hj k hk
    interval_cases j
    · show (r.bitmap.setWidth 16).getLsbD k = _
      simp [hk]
    · show ((r.bitmap >>> 16).setWidth 16).getLsbD k = _
      simp [hk]
    · show ((r.bitmap >>> 32).setWidth 16).getLsbD k = _
      simp [hk]
  · show (flagBit r.uncoded 0).toNat = _
    rw [flag_toNat (by decide)]
    omega
  · have h1 := r.verdict.code_lt
    have h2 := r.failOff.isLt
    show r.loadWord.toNat = _
    unfold Rpu.loadWord
    rw [or_place (or_place (place_toNat (by decide)) (by omega) (by decide)) (by omega) (by decide)]
    omega
  · have h1 := r.cause.code_lt
    show (place r.cause.code 2 0).toNat = _
    rw [place_toNat (by decide)]
    omega
  · intro p hp
    have e1 : r.content (64 + 2 * p) = mirrorContent r.list (2 * p) := by
      interval_cases p <;> rfl
    have e2 : r.content (65 + 2 * p) = mirrorContent r.list (2 * p + 1) := by
      interval_cases p <;> rfl
    have d1 : 2 * p / 2 = p := by omega
    have d2 : (2 * p + 1) / 2 = p := by omega
    have m1 : 2 * p % 2 = 0 := by omega
    have m2 : ¬ (2 * p + 1) % 2 = 0 := by omega
    refine ⟨fun h => ?_, fun e h => ?_⟩
    · rw [e1, e2]
      unfold mirrorContent
      rw [d1, d2, h]
      exact ⟨rfl, rfl⟩
    · rw [e1, e2]
      unfold mirrorContent
      rw [d1, d2, h]
      dsimp only
      rw [if_pos m1, if_neg m2]
      exact ⟨e.mirrorWord_toNat, e.slotWord_toNat⟩

end Sys2Proof.Machine
end

