-- ==== Sys2Proof/Laws/Entries.lean ====
section
/-! SUPPORT. What each entry to an operating state, and the return from STANDBY, leaves and sends (chapter 12). -/

namespace Sys2Proof.Machine

/-- Where every record shows a word, the requests of a forced repaint are one for each record, in order (R6, R10). -/
theorem forcedRequests_eq (table : List Record) (h : ∀ r ∈ table, r.shown ≠ none) :
    forcedRequests table = table.mapIdx fun i r => { addr := r.fixed.addr, value := r.shown.getD 0, origin := .field i } := by
  unfold forcedRequests
  rw [List.mapIdx_eq_zipIdx_map, ← List.filterMap_eq_map]
  refine List.filterMap_congr fun x hx => ?_
  obtain ⟨r, i⟩ := x
  have hr : r ∈ table := (List.mem_zipIdx hx).2.2 ▸ List.getElem_mem _
  unfold ownWriteOf
  cases hs : r.shown with
  | none => exact absurd hs (h r hr)
  | some v => simp [hs]

/-- A forced repaint requests exactly the words that the records show (R6, R10). -/
theorem mem_forcedRequests {table : List Record} {w : OwnWrite} : w ∈ forcedRequests table ↔ ∃ (i : Nat)
    (r : Record), table[i]? = some r ∧ r.shown = some w.value ∧
      w.addr = r.fixed.addr ∧ w.origin = .field i := by
  unfold forcedRequests
  rw [List.mem_filterMap]
  constructor
  · rintro ⟨⟨r, i⟩, hm, h⟩
    rw [List.mem_zipIdx_iff_getElem?] at hm
    unfold ownWriteOf at h
    cases hs : r.shown with
    | none => rw [hs] at h; cases h
    | some v => rw [hs] at h; cases h; exact ⟨i, r, hm, hs, rfl, rfl⟩
  · rintro ⟨i, r, h1, h2, h3, h4⟩
    refine ⟨(r, i), List.mem_zipIdx_iff_getElem?.2 h1, ?_⟩
    unfold ownWriteOf; rw [h2]
    cases w; simp only at h3 h4; subst h3 h4; rfl
/-- What a STANDBY entry makes of the ANU, with what it sends (R96, R118, R119, R123, R125, R130). -/
structure StandbyTail (v t : State) (tail : List Msg) : Prop where
  anu : t.anu = { v.anu with
    pendingAck := false, ackTimer := t.anu.ackTimer, phase := true, flash := none, fns := t.anu.fns
    sounding := .none, cadence := none, buz := false, lockout := none, testActive := false, test := none }
  ack : v.anu.pendingAck = true → t.anu.ackTimer = none
  functions : ∀ f, t.anu.fns.get f =
    if f = .overspeed ∨ f = .restrictAck then t.anu.fnValue f else v.anu.fns.get f
  clearSent : (Msg.fault .anu (.clear (catalogue 0x011 .a 967)) ∈ tail ↔ v.anu.pendingAck = true)
  flagSent : (Msg.report .anu [.restriction false] ∈ tail ↔ v.anu.pendingAck = true)
  testSent : (Msg.report .anu [.lampTest false] ∈ tail ↔ v.anu.testActive = true)
  values : (∀ f x, Msg.lampFunction f x ∈ tail → x = t.anu.fns.get f)
  handed : ∀ f, t.anu.fns.get f ≠ v.anu.fns.get f → Msg.lampFunction f (t.anu.fns.get f) ∈ tail
  rest : t = { v with inFlight := v.inFlight ++ tail, anu := t.anu }

/-- The buzzer follows the demands in RUNNING only (R120). -/
theorem State.followDemands_idle {s : State} (h : s.csu.op ≠ .running) : s.followDemands = s := by
  unfold State.followDemands; rw [if_neg h]

/-- The functions handed are those whose value the inputs change (R119). -/
theorem Anu.mem_changes {a : Anu} {fs} {m} : m ∈ a.changes fs ↔ ∃ f ∈ fs, a.fns.get f ≠ a.fnValue f ∧
    m = .lampFunction f (a.fnValue f) := by
  unfold Anu.changes
  rw [List.mem_map]
  constructor
  · rintro ⟨f, hf, rfl⟩
    rw [List.mem_filter] at hf
    exact ⟨f, hf.1, by simpa using hf.2, rfl⟩
  · rintro ⟨f, h1, h2, rfl⟩
    exact ⟨f, List.mem_filter.2 ⟨h1, by simpa using h2⟩, rfl⟩

/-- The ANU at a STANDBY entry, before the functions follow (R118, R123, R125, R130). -/
def State.anuQuiet (u : State) : Anu :=
    { u.anu.silenced with phase := true, flash := none, lockout := none, testActive := false, test := none }

/-- A state with its ANU quiet, the two flashing functions re-evaluated and an ended lamp test reported. -/
def State.standbyLast (u : State) (b : Bool) : State :=
    { u with anu := { State.anuQuiet u with fns := (State.anuQuiet u).reevaluated [.overspeed, .restrictAck] }, inFlight := u.inFlight ++ ((State.anuQuiet u).changes [.overspeed, .restrictAck] ++ if b then [.report .anu [.lampTest false]] else []) }

/-- The last part of a STANDBY entry of the ANU. -/
theorem State.standbyLast_eq (u : State) (b : Bool) (hop : u.csu.op = .standby) : 
   (if b then (({ u with anu := State.anuQuiet u } : State).reevaluate [.overspeed,
       .restrictAck]).sendReport .anu [.lampTest false] else (({ u with anu := State.anuQuiet u } : State).reevaluate [.overspeed, .restrictAck])) = State.standbyLast u b := by
  rw [State.reevaluate_eq]
  have : u.csu.op.hasTable = true := by rw [hop]; rfl
  cases b <;> simp [this, State.sendReport, State.send, State.standbyLast]

/-- A STANDBY entry of the ANU (R96, R118, R123, R125, R130). -/
theorem State.anuStandby_tail (v : State) (hop : v.csu.op = .standby) : ∃ tail, StandbyTail v v.anuStandby tail := by
  have ht : v.csu.op.hasTable = true := by rw [hop]; rfl
  have hr : v.csu.op ≠ .running := by rw [hop]; simp
  cases hp : v.anu.pendingAck
  · have he : v.anuStandby = State.standbyLast v v.anu.testActive := by
      have h1 : v.endRestriction = v := by unfold State.endRestriction; rw [hp]; rfl
      have := State.standbyLast_eq v v.anu.testActive hop
      unfold State.anuStandby; rw [h1]; exact this
    rw [he]; unfold State.standbyLast
    refine ⟨((State.anuQuiet v).changes [.overspeed,
        .restrictAck] ++ if v.anu.testActive then [.report .anu [.lampTest false]] else []), (by simp only [State.anuQuiet, Anu.silenced, hp]), (fun h => by rw [hp] at h; cases h), ?_, ?_, ?_, ?_, ?_, ?_, rfl⟩
    · intro f
      dsimp only
      rw [Anu.reevaluated_get]
      simp only [List.mem_cons, List.not_mem_nil, or_false]
      split
      · cases f <;> rfl
      · rfl
    · simp [Anu.mem_changes, hp]
    · simp [Anu.mem_changes, hp]
    · simp [Anu.mem_changes]
    · intro f x hm
      dsimp only at hm ⊢
      rw [Anu.reevaluated_get]
      rw [List.mem_append, Anu.mem_changes] at hm
      rcases hm with ⟨g, h1, h2, h3⟩ | hm
      · cases h3; rw [if_pos h1]
      · exfalso; split at hm <;> simp at hm
    · intro f hf
      dsimp only at hf ⊢
      rw [List.mem_append, Anu.mem_changes]; left
      rw [Anu.reevaluated_get] at hf ⊢
      split at hf
      · rename_i h1; rw [if_pos h1]; exact ⟨f, h1, Ne.symm hf, rfl⟩
      · exact absurd rfl hf
  · let a1 : Anu := { v.anu with pendingAck := false, ackTimer := none }
    let u : State := { v with anu := { a1 with fns := a1.reevaluated [.restrictAck] }, inFlight := v.inFlight ++ (a1.changes [.restrictAck] ++ [.fault .anu (.clear (catalogue 0x011 .a 967)), .report .anu [.restriction false]]) }
    have h1 : v.endRestriction = u := by
      unfold State.endRestriction; rw [hp]; simp only [if_true]
      rw [State.followDemands_idle (by simpa using hr), State.reevaluate_eq]
      simp only [ht, if_true]
      simp [State.sendFlu, State.sendReport, State.send, u, a1]; rfl
    have he : v.anuStandby = State.standbyLast u v.anu.testActive := by
      have := State.standbyLast_eq u v.anu.testActive hop
      unfold State.anuStandby; rw [h1]; exact this
    rw [he]; unfold State.standbyLast
    have hra : a1.fnValue .restrictAck = false := rfl
    refine ⟨(a1.changes [.restrictAck] ++ [.fault .anu (.clear (catalogue 0x011 .a 967)),
        .report .anu [.restriction false]]) ++ ((State.anuQuiet u).changes [.overspeed, .restrictAck] ++ if v.anu.testActive then [.report .anu [.lampTest false]] else []), rfl, fun _ => rfl, ?_, ?_, ?_, ?_, ?_, ?_, ?_⟩
    rotate_right
    · dsimp only; simp only [u, List.append_assoc]
    · intro f
      dsimp only
      rw [Anu.reevaluated_get]
      simp only [List.mem_cons, List.not_mem_nil, or_false]
      split
      · cases f <;> rfl
      · rename_i hn
        show (a1.reevaluated [.restrictAck]).get f = _
        rw [Anu.reevaluated_get]; rw [if_neg]
        simp; intro hh; exact hn (Or.inr hh)
    · simp [hp]
    · simp [hp]
    · simp [Anu.mem_changes]
    · intro f x hm
      dsimp only at hm ⊢
      rw [Anu.reevaluated_get]
      rw [List.mem_append, List.mem_append, List.mem_append, Anu.mem_changes, Anu.mem_changes] at hm
      rcases hm with (⟨g, h1, h2, h3⟩ | hm) | ⟨g, h1, h2, h3⟩ | hm
      · cases h3; simp only [List.mem_cons, List.not_mem_nil, or_false] at h1; subst h1; rfl
      · simp at hm
      · cases h3; rw [if_pos h1]
      · exfalso; split at hm <;> simp at hm
    · intro f hf
      dsimp only at hf ⊢
      rw [Anu.reevaluated_get] at hf ⊢
      split at hf
      · rename_i h1; rw [if_pos h1]
        simp only [List.mem_cons, List.not_mem_nil, or_false] at h1
        rcases h1 with rfl | rfl
        · rw [List.mem_append, List.mem_append, List.mem_append, Anu.mem_changes, Anu.mem_changes]
          right; left
          refine ⟨_, by simp, ?_, rfl⟩
          exact Ne.symm hf
        · rw [List.mem_append, List.mem_append, List.mem_append, Anu.mem_changes, Anu.mem_changes]
          left; left
          exact ⟨.restrictAck, by simp, fun hh => hf hh.symm, rfl⟩
      · rename_i h1
        exfalso; apply hf
        show (a1.reevaluated [.restrictAck]).get f = _
        rw [Anu.reevaluated_get, if_neg]
        simp only [List.mem_cons, List.not_mem_nil, or_false] at h1 ⊢
        exact fun hh => h1 (Or.inr hh)

/-- A STANDBY entry (R177). -/
theorem standby_entered (s : State) : StandbyEntered s s.enterStandby := by
  let table := s.fsu.table.map fun r => { r with shown := some r.fixed.blankWord, age := none }
  let v : State := { s with csu := { s.csu with op := .standby }, mwq := { s.mwq with drainGiven := false }, fsu := { s.fsu with table := table, lampTest := false }, inFlight := (s.inFlight.filter fun m => !m.endsAtStandby) ++ [.events .csu [.sc], .report .csu [.opState .running true]] ++ (if table = [] then [] else [.ownWrites .fsu (table.mapIdx fun i r => { addr := r.fixed.addr, value := r.shown.getD 0, origin := .field i })]) }
  have hf := forcedRequests_eq table (by intro r hr; obtain ⟨q, -, rfl⟩ := List.mem_map.1 hr; simp)
  have he : s.enterStandby = v.anuStandby := by
    unfold State.enterStandby
    refine congrArg State.anuStandby ?_
    show State.request (({ s with csu := { s.csu with op := .standby }, mwq := { s.mwq with drainGiven := false }, fsu := { s.fsu with table := table, lampTest := false }, inFlight := (s.inFlight.filter fun m => !m.endsAtStandby) ++ [.events .csu [.sc]] ++ [.report .csu [.opState .running true]] } : State)) .fsu (forcedRequests table) = v
    rw [hf]
    have hemp : (table.mapIdx fun i r => ({ addr := r.fixed.addr, value := r.shown.getD 0, origin := .field i } : OwnWrite)) = [] ↔ table = [] := by simp
    unfold State.request
    by_cases hh : table = []
    · rw [if_pos (hemp.2 hh)]; simp [v, hh, State.sendEvents, State.sendReport, State.send]
    · rw [if_neg (fun h => hh (hemp.1 h))]; simp [v, hh, State.sendEvents, State.sendReport, State.send]
  obtain ⟨tail, hT⟩ := State.anuStandby_tail v rfl
  rw [he]
  have hr := hT.rest
  have hfil : ∀ f : Msg → Bool, (∀ m, f m = !m.endsAtStandby) →
      s.inFlight.filter f = s.inFlight.filter fun m => !m.endsAtStandby := fun f h => List.filter_congr fun m _ => h m
  refine ⟨?_, ?_, ?_, hT.anu, hT.ack, fun f => ?_, ⟨tail, ?_, hT.clearSent, hT.flagSent, hT.testSent, hT.values,
      hT.handed⟩, ?_, ?_⟩
  · rw [hr]
  · rw [hr]; rfl
  · rw [hr]
  · have h := hT.functions f
    split
    · rename_i hc
      rw [h, if_pos hc]
      exact Anu.fnValue_iff _ _
    · rename_i hc
      rw [h, if_neg hc]
  · rw [hfil _ (by
      intro m
      cases m <;> try rfl
      rename_i b r
      cases r <;> rfl), hr]
  · rw [hr]
  · rw [hr]

/-- What a record shows at a return from STANDBY (R10). -/
theorem State.freshShown_eq (s : State) (i r) : s.freshShown s.fsu s.fsu.table i r = returnShown s i r := by
  unfold State.freshShown returnShown
  cases hk : r.fixed.kind <;> dsimp only
  · unfold actualFollows
    cases hs : s.fsu.speedCopy.selected with
    | none => cases r.state <;> cases r.written <;> simp
    | some v =>
      have hp : ∀ w : Word, actualPasses r.fixed.tolerance v w = true ↔ (w.toNat ≤ 400 ∧
          10 * w.toNat ≤ v + r.fixed.tolerance ∧ v ≤ 10 * w.toNat + r.fixed.tolerance) := by
        intro w; unfold actualPasses withinTolerance absDiff Config.maxShownSpeed; rw [Bool.and_eq_true,
            decide_eq_true_eq, decide_eq_true_eq]; refine and_congr Iff.rfl ?_; split <;> omega
      cases r.state <;> cases hw : r.written <;> simp [wordOf, hp] <;> (try cases s.fsu.speedCopy.d <;> rfl)
  · cases s.tcu.displayed <;> rfl

/-- A record after a recheck at a return from STANDBY (R8, R10). -/
theorem Record.refreshed_eq (r : Record) (v : Option Word) :
    r.refreshed v = { r with shown := v, state := if (r.state = .live ∨ r.state = .corrected) ∧ v ≠ none ∧
        (r.fixed.kind = .actual ∨ r.fixed.kind = .permitted ∨ r.fixed.kind = .target ∨ r.fixed.kind = .aspect)
      then (if r.written = v then .live else .corrected) else r.state } := by
  cases v with
  | none => simp [Record.refreshed]
  | some x =>
    unfold Record.refreshed recheckState; dsimp only
    cases r.fixed.kind <;> cases r.state <;> simp [Kind.rechecked]

/-- A return from STANDBY (R178). -/
theorem standby_left (s : State) : StandbyLeft s s.returnToRunning := by
  let table := s.fsu.table.mapIdx fun i r => { (r.refreshed (s.freshShown s.fsu s.fsu.table i r)) with age := s.fullPeriod r }
  let a : Anu := { s.anu with phase := true, flash := some (s.now + 500) }
  let v : State := { s with csu := { s.csu with op := .running }, fsu := { s.fsu with table := table }, anu := a, inFlight := s.inFlight ++ [.events .csu [.sc]] ++ [.report .csu [.opState .running false]] ++ (if forcedRequests table = [] then [] else [.ownWrites .fsu (forcedRequests table)]) }
  have he : s.returnToRunning = (v.reevaluate [.overspeed, .restrictAck]).followDemands := by
    unfold State.returnToRunning State.anuReturn
    refine congrArg (fun x : State => (x.reevaluate [.overspeed, .restrictAck]).followDemands) ?_
    have hf : ∀ u : State, u.fsu = s.fsu → u.now = s.now → u.tcu = s.tcu → u.flu = s.flu →
        u.fsuReturn = ({ u with fsu := { s.fsu with table := table } } : State).request .fsu (forcedRequests table) :=
            by
      intro u h1 h2 h3 h4
      have : (u.fsu.table.mapIdx fun i r => { (r.refreshed (u.freshShown u.fsu u.fsu.table i r)) with age := u.fullPeriod r }) = table := by
        rw [h1]; unfold State.freshShown State.fullPeriod State.startTimer; rw [h2, h3, h4]; rfl
      unfold State.fsuReturn; dsimp only; rw [this, h1]
    dsimp only
    rw [hf _ (by simp) (by simp) (by simp) (by simp)]
    unfold State.request
    split
    · rename_i hh; simp [v, a, hh, State.sendEvents, State.sendReport, State.send, State.startTimer, Config.flashHalf]
    · rename_i hh; simp [v, a, hh, State.sendEvents, State.sendReport, State.send, State.startTimer, Config.flashHalf]
  have hit := State.inputTaken (s := { s with csu := { s.csu with op := .running }, fsu := { s.fsu with table := table } }) (u := v) (a := a) [.overspeed, .restrictAck] [] rfl rfl ⟨rfl, rfl, rfl⟩
  have hsn : ∀ x : State, x.send [] = x := fun x => by unfold State.send; rw [List.append_nil]
  rw [hsn, ← he] at hit
  obtain ⟨h1, h2, ⟨fns, h3, h4⟩, h5⟩ := hit
  have hnow : s.returnToRunning.now = s.now := by simp
  have hfs : s.returnToRunning.fsu = { s.fsu with table := table } := by rw [h5]
  have htab : s.returnToRunning.fsu.table = table := by rw [hfs]
  rw [hnow] at h2 h5
  refine ⟨?_, ?_, ?_, fun i r hr => ?_, ?_, h2, ⟨forcedRequests table, fns, h3, ?_, fun w => ?_⟩, ?_⟩
  · rw [h5]
  · rw [h5]
  · rw [htab]; simp [table]
  · rw [htab]
    show (s.fsu.table.mapIdx _)[i]? = _
    rw [List.getElem?_mapIdx, hr]
    simp only [Option.map_some]
    rw [Record.refreshed_eq, State.freshShown_eq s]
    rfl
  · rw [h1]
  · rw [h4]; simp [v]
  · rw [htab]; exact mem_forcedRequests
  · rw [h5]

/-- 1F0Eh as 13.7 lays it out. -/
theorem Rpu.loadWord_toNat (r : Rpu) :
    r.loadWord.toNat = r.verdict.code + 8 * (r.failures % 4) + 256 * r.failOff.toNat := by
  unfold Rpu.loadWord place
  have h1 : r.verdict.code < 8 := by cases r.verdict <;> decide
  have h2 := r.failOff.isLt
  generalize r.verdict.code = v at *; generalize hoff : r.failOff.toNat = off at *
  have h3 : r.failures % 4 < 4 := Nat.mod_lt _ (by decide)
  rw [show (2:Nat)^2 = 4 from rfl]
  generalize r.failures % 4 = f at *
  simp only [BitVec.toNat_or, BitVec.toNat_ofNat]
  rw [Nat.mod_eq_of_lt (by omega : v < 2^3), Nat.mod_eq_of_lt (by omega : off < 2^8),
      Nat.mod_eq_of_lt (by omega : v * 2^0 < 2^16), Nat.mod_eq_of_lt (by omega : f * 2^3 < 2^16), Nat.mod_eq_of_lt (by omega : off * 2^8 < 2^16)]
  have : v * 2^0 ||| f * 2^3 = v + 8 * f := by
    rw [Nat.or_comm, Nat.mul_comm f, ← Nat.two_pow_add_eq_or_of_lt (by omega)]; omega
  rw [this, Nat.or_comm, Nat.mul_comm off, ← Nat.two_pow_add_eq_or_of_lt (by omega)]; omega

/-- An entry to FALLBACK (R153, R162, R179). -/
theorem fallback_entered (s u : State) (hu : u.asu = s.asu) (h2 : u.tcu = s.tcu) (h3 : u.fsu = s.fsu)
    (h4 : u.now = s.now) (h5 : u.pending = s.pending) (h6 : u.rpu = s.rpu) (h7 : u.flu = s.flu) (h8 : u.anu = s.anu)
        (h9 : u.reads = s.reads) (h10 : u.answer = s.answer)
            (hc : u.csu = { s.csu with verdict := u.csu.verdict, failures := u.csu.failures, failOff := u.csu.failOff, shadow := u.csu.shadow }) :
   FallbackEntered s u.enterFallback u.csu.verdict u.csu.failures u.csu.failOff := by
  refine ⟨?_, ?_, rfl, ⟨_, _, ?_, ?_, rfl⟩, ?_, rfl, rfl, ?_, ?_, hu, h2, h3, h4, h5, h9, h10⟩
  · show { u.csu with op := .fallback, fbk := true, load := none } = _
    rw [hc]; rfl
  · have hE : u.enterFallback.rpu = Rpu.setEvents { s.rpu with
        op := .fallback, standbyReq := false, bitmap := 0, verdict := u.csu.verdict, failures := u.csu.failures
        failOff := u.csu.failOff } [.sc] := by
      rw [← h6]
      rfl
    rw [hE]
    rfl
  · refine (Rpu.stateWord_toNat _).trans ?_
    rw [← h6]; rfl
  · exact Rpu.loadWord_toNat _
  · intro e he
    have he' : e = { addr := 0x1F00, value := u.enterFallback.rpu.content 0, origin := .report 0 } ∨
        e = { addr := 0x1F0E, value := u.enterFallback.rpu.content 14, origin := .report 14 } := by
      have h : e ∈ [({ addr := 0x1F00, value := u.enterFallback.rpu.content 0, origin := .report 0 } : OwnWrite),
        { addr := 0x1F0E, value := u.enterFallback.rpu.content 14, origin := .report 14 }] := he
      simpa using h
    rcases he' with rfl | rfl
    · show knownAt (setKnown (setKnown u.mwq.known _ _) _ _) _ = _
      rw [knownAt_setKnown_ne _ _ (show (0x1F00 : Addr).toNat ≠ (reportAddr 14).toNat by decide)]
      exact knownAt_setKnown_self ..
    · exact knownAt_setKnown_self ..
  · show { u.flu with partialMsg := .none } = _; rw [h7]
  · show u.anu.silenced = _; rw [h8]; rfl

/-- The ASU at a RUNNING entry (R57). -/
theorem State.asuEntry_values (s : State) :
    s.asuEntry.asu = { Asu.reset with limits := s.asu.limits, window := some (s.now + s.csu.shadow.imgW) } := by
  unfold State.asuEntry; simp; rfl

/-- The TCU at a RUNNING entry (R78–R81, R86, R89). -/
theorem State.tcuEntry_values (s : State) :
    s.tcuEntry.tcu = { Tcu.reset with aspects := s.tcu.aspects, lastSampled := s.tcu.lastSampled, received := lossAspect s.tcu.aspects, displayed := lossAspect s.tcu.aspects, loss := some (s.now + s.csu.shadow.imgTloss) } := by
  unfold State.tcuEntry; simp; rfl

/-- What a new record shows (R6, R15). -/
theorem State.newRecord_shown (v : State) (f : Fsu) (T : List Record) (i : Nat) (loss) (hd : v.tcu.displayed = loss)
    (hf : f.speed = some { selected := some 0, d := some 0 }) (hlt : f.lampTest = false) :
    v.freshShown f T i (v.newRecord i) = entryShown f.fns loss v.flu.list (slotRank T i)
        (v.csu.shadow.fieldStatic i) := by
  unfold State.freshShown entryShown State.newRecord
  dsimp only
  have hs : f.speedCopy = { selected := some 0, d := some 0 } := by unfold Fsu.speedCopy; rw [hf]; rfl
  cases hk : (v.csu.shadow.fieldStatic i).kind <;> simp [hs, actualFollows, permittedShown, targetShown,
      watchedShown, lampsShown, lampsBase, hlt, hd, hk, wordOf, numberOf]
  cases loss <;> rfl

/-- The ANU at a RUNNING entry, before the buzzer follows (R132). -/
def State.entryAnu (s : State) (slots : Nat) : Anu :=
  let a := s.anu
  let fresh := { Anu.reset false false with
    copy := some s.asu.completionCopy, rank := s.tcu.displayed.map Aspect.rank
    flash := s.startTimer Config.flashHalf, summary := a.summary, slots := slots, ackb := a.ackb, ltstb := a.ltstb }
  { fresh with fns := fresh.reevaluated lampFunctions }

/-- The buzzer follows the state, the time and the ANU alone. -/
theorem State.followDemands_congr {s t : State} (h1 : t.csu.op = s.csu.op) (h2 : t.now = s.now)
    (h3 : t.anu = s.anu) : t.followDemands.anu = s.followDemands.anu := by
  unfold State.followDemands State.startPattern
  by_cases h : s.csu.op = .running
  · have h' : t.csu.op = .running := h1.trans h
    rw [if_pos h, if_pos h', h3, h2]
    cases s.anu.demanded with
    | some p => dsimp only; by_cases h2 : s.anu.sounding = p <;> simp [h2, h3]
    | none => dsimp only; by_cases h2 : s.anu.sounding = .chime ∨ s.anu.sounding = .none <;> simp [h2, h3]
  · have h' : ¬ t.csu.op = .running := by rw [h1]; exact h
    rw [if_neg h, if_neg h', h3]

/-- A hand-over leaves the buzzer as it is. -/
theorem State.followDemands_send (s : State) (m) : (s.send m).followDemands.anu = s.followDemands.anu :=
    State.followDemands_congr rfl rfl rfl

/-- The buzzer at a RUNNING entry (R120, R123, R132). -/
theorem State.followDemands_entry (s : State) (hop : s.csu.op = .running) (h1 : s.anu.stage = .normal)
    (h2 : s.anu.pendingAck = false)
    (h3 : s.anu.sounding = .none) (h4 : s.anu.buz = false) (h5 : s.anu.cadence = none) :
    s.followDemands.anu.sounding = (if s.followDemands.anu.summary.anyAUnacked then .intermittent else .none) ∧
      s.followDemands.anu.buz = s.followDemands.anu.summary.anyAUnacked ∧
      s.followDemands.anu.cadence = if s.followDemands.anu.summary.anyAUnacked then some (s.now + 500) else none := by
  have hd : s.anu.demanded = if s.anu.summary.anyAUnacked then some .intermittent else none := by
    unfold Anu.demanded
    simp [h1, h2]
  unfold State.followDemands
  rw [if_pos hop, hd]
  cases hb : s.anu.summary.anyAUnacked <;>
    simp [h3, h4, h5, hb, State.startPattern, toneOf, Config.intermittentHalf]

/-- The ANU at a RUNNING entry (R132). -/
theorem State.anuEntry_eq (s : State) (n) :
    (s.anuEntry n).anu = ({ s with anu := State.entryAnu s n } : State).followDemands.anu := by
  unfold State.anuEntry; dsimp only
  rw [State.sendFlu_anu, State.followDemands_send]; rfl
/-- What the ASU's entry sends (R57). -/
theorem State.asuEntry_inFlight (s : State) : s.asuEntry.inFlight = s.inFlight ++
    [.speed { selected := some 0, d := some 0 },
      .completion { selected := some 0, direction := .none, failed1 := false, failed2 := false, persistent := false
                    dirDis := false },
      .report .asu [.published { selected := some 0, supplier := some .one, d := some 0, v1 := 0, v2 := 0
                                 failed1 := false, failed2 := false, dir1 := .none, dir2 := .none, direction := .none
                                 persistent := false, dirDis := false }],
      .fault .asu (.clear (catalogue 0x001 .b 961)), .fault .asu (.clear (catalogue 0x002 .b 962)),
      .fault .asu (.clear (catalogue 0x003 .b 963)), .fault .asu (.clear (catalogue 0x004 .b 964)),
      .fault .asu (.clear (catalogue 0x005 .a 965))] := by
  unfold State.asuEntry State.handPublished
  simp only [State.sendFlu_inFlight, State.send_inFlight, List.append_assoc]
  rfl

/-- What the TCU's entry sends (R90). -/
theorem State.tcuEntry_inFlight (s : State) : s.tcuEntry.inFlight = s.inFlight ++
    ((match lossAspect s.tcu.aspects with
      | some a => [.delivery a.number (min a.ceiling s.csu.shadow.imgVmax), .rank a.rank]
      | none => []) ++
    [.report .tcu [.codes s.tcu.lastSampled none ((lossAspect s.tcu.aspects).map Aspect.number),
        .codeState .acquiring,
      .territory false, .displayed ((lossAspect s.tcu.aspects).map fun a =>
        { a with ceiling := min a.ceiling s.csu.shadow.imgVmax })]]) := by
  unfold State.tcuEntry
  simp only [State.sendReport_inFlight, State.send_inFlight, List.append_assoc, if_neg (List.cons_ne_nil _ _)]
  cases lossAspect s.tcu.aspects <;> rfl

/-- No record of the entry's table is STALE. -/
theorem staleBits_eq_zero {l : List Record} (h : ∀ r ∈ l, r.state ≠ .stale) : staleBits l = 0 := by
  induction l with
  | nil => rfl
  | cons r rs ih =>
    unfold staleBits
    rw [ih (fun q hq => h q (List.mem_cons_of_mem _ hq))]
    simp [h r List.mem_cons_self]

/-- What the FSU's entry sends (R6, R65, R137, R142). -/
theorem State.fsuEntry_inFlight (s : State) : s.fsuEntry.inFlight = s.inFlight ++
    ((if forcedRequests s.fsuEntry.fsu.table = [] then [] else [.ownWrites .fsu (forcedRequests s.fsuEntry.fsu.table)]) ++
    [.newPr s.fsuEntry.fsu.reference, .report .fsu [.staleSet 0],
        .fault .fsu (.clear (catalogue 0x020 .a 968))]) := by
  have hz : staleBitmap s.fsuEntry.fsu.table = 0 := by
    unfold staleBitmap
    rw [staleBits_eq_zero]
    · rfl
    · intro r hr
      rw [State.fsuEntry_fsu] at hr
      obtain ⟨i, hi, rfl⟩ := List.mem_mapIdx.1 hr
      obtain ⟨j, hj⟩ := State.mem_blankFsu (List.getElem_mem hi)
      dsimp only
      rw [hj]
      unfold State.newRecord
      dsimp only
      split <;> simp
  have hp : s.fsuEntry.fsu.reference = s.entryCeiling := by
    rw [State.fsuEntry_fsu]
    rfl
  rw [hp, ← hz, State.fsuEntry_fsu]
  unfold State.fsuEntry
  simp only [State.sendFlu_inFlight, State.sendReport_inFlight, State.send_inFlight, State.request_inFlight,
    List.append_assoc, if_neg (List.cons_ne_nil _ _)]
  rfl

/-- The twelve functions of an entry have the values their inputs give (R119). -/
theorem State.anuEntry_get (s : State) (n : Nat) (f : LampFn) :
    (s.anuEntry n).anu.fns.get f = (State.entryAnu s n).fnValue f := by
  have h : (s.anuEntry n).anu.fns = (State.entryAnu s n).fns := by
    rw [State.anuEntry_eq, State.followDemands_anu]
  rw [h]
  show (Anu.reevaluated _ lampFunctions).get f = _
  rw [Anu.reevaluated_get, if_pos (by cases f <;> simp [lampFunctions])]
  cases f <;> rfl

/-- What the ANU's entry sends (R96, R119). -/
theorem State.anuEntry_inFlight (s : State) (n : Nat) : (s.anuEntry n).inFlight = s.inFlight ++
    (lampFunctions.map (fun f => .lampFunction f ((s.anuEntry n).anu.fns.get f)) ++
    [.fault .anu (.clear (catalogue 0x011 .a 967))]) := by
  simp only [State.anuEntry_get]
  unfold State.anuEntry
  simp only [State.sendFlu_inFlight, State.followDemands_inFlight, State.send_inFlight, List.append_assoc]
  rfl

/-- The requests of every shown value come by increasing index (R6, R145). -/
theorem forcedRequests_order (table : List Record) :
    (forcedRequests table).Pairwise fun v w => v.origin.before w.origin = true := by
  unfold forcedRequests
  refine List.Pairwise.filterMap (R := fun x y : Record × Nat => x.2 < y.2) _ ?_ ?_
  · rintro ⟨r, i⟩ ⟨q, j⟩ hij v hv w hw
    unfold ownWriteOf at hv hw
    obtain ⟨a, -, rfl⟩ := Option.map_eq_some_iff.1 hv
    obtain ⟨b, -, rfl⟩ := Option.map_eq_some_iff.1 hw
    exact decide_eq_true hij
  · rw [List.pairwise_iff_getElem]
    intro i j hi hj hij
    simpa using hij

/-- Records that are the same in their fixed part have the same number of slots. -/
theorem slotCount_congr {A B : List Record} (h : A.map (·.fixed) = B.map (·.fixed)) : slotCount A = slotCount B := by
  have hc : ∀ L : List Record, slotCount L = (L.map (·.fixed)).countP (fun f => f.kind == .faultSlot) := by
    intro L
    unfold slotCount
    rw [List.countP_map]
    rfl
  rw [hc, hc, h]

/-- The number of records of the entry's table (R6). -/
theorem State.fsuEntry_size (s : State) : s.fsuEntry.fsu.table.length = s.csu.shadow.imgN := by
  rw [State.fsuEntry_fsu]
  simp [State.blankFsu]

/-- Every record of the entry's table (R6). -/
theorem State.fsuEntry_record (s : State) (hs : s.asu.speedCopy = { selected := some 0, d := some 0 }) {i : Nat}
    (hi : i < s.csu.shadow.imgN) : ∃ r, s.fsuEntry.fsu.table[i]? = some r ∧ r.fixed = s.csu.shadow.fieldStatic i ∧
      r.state = (if r.fixed.kind = .faultSlot then .live else .unset) ∧ r.written = none ∧ r.count = 0 ∧
      r.age = (if 0 < r.fixed.period then some (s.now + r.fixed.period) else none) ∧
      r.shown = entryShown s.fsu.fns s.tcu.displayed s.flu.list (slotRank s.fsuEntry.fsu.table i) r.fixed := by
  have hfs : s.fsuEntry.fsu.table = s.blankFsu.table.mapIdx fun i r =>
      { r with shown := s.freshShown s.blankFsu s.blankFsu.table i r } := by
    rw [State.fsuEntry_fsu]
  have hg : s.blankFsu.table[i]? = some (s.newRecord i) := by
    unfold State.blankFsu
    simp [hi]
  have hrank : slotRank s.fsuEntry.fsu.table i = slotRank s.blankFsu.table i := by
    unfold slotRank
    apply slotCount_congr
    rw [List.map_take, List.map_take, hfs]
    congr 1
    apply List.ext_getElem
    · simp
    · intro i h1 h2
      simp
  have hb : s.blankFsu.speed = some { selected := some 0, d := some 0 } := by
    unfold State.blankFsu
    rw [hs]
  refine ⟨{ s.newRecord i with shown := s.freshShown s.blankFsu s.blankFsu.table i (s.newRecord i) }, ?_, rfl, rfl,
      rfl,
    rfl, rfl, ?_⟩
  · rw [hfs, List.getElem?_mapIdx, hg]
    rfl
  · rw [hrank]
    exact State.newRecord_shown s s.blankFsu s.blankFsu.table i _ rfl hb rfl

/-- The ANU at a RUNNING entry (R132). -/
theorem State.anuEntry_anu (s : State) (n : Nat) : (s.anuEntry n).anu = { (s.anuEntry n).anu with
    stage := .normal, reference := none, pendingAck := false, ackTimer := none, phase := true
    copy := some s.asu.completionCopy, rank := s.tcu.displayed.map Aspect.rank, flash := some (s.now + 500)
    staleCount := 0, summary := s.anu.summary, slots := n, codeLost := false, uncoded := false, ackb := s.anu.ackb
    ltstb := s.anu.ltstb, lockout := none, testActive := false, test := none } := by
  rw [State.anuEntry_eq, State.followDemands_anu]
  rfl

/-- The lamp functions of a RUNNING entry (R119). -/
theorem State.anuEntry_functions (s : State) (n : Nat) : FunctionLaw .running (s.anuEntry n).anu := by
  intro _ f
  have h : (s.anuEntry n).anu.fnValue f = (State.entryAnu s n).fnValue f := by
    rw [State.anuEntry_eq, State.followDemands_anu]
    cases f <;> rfl
  rw [State.anuEntry_get, ← h, Anu.fnValue_iff]

/-- The buzzer of a RUNNING entry (R123). -/
theorem State.anuEntry_buzzer (s : State) (n : Nat) (hop : s.csu.op = .running) :
    (s.anuEntry n).anu.sounding = (if (s.anuEntry n).anu.summary.anyAUnacked then .intermittent else .none) ∧
      (s.anuEntry n).anu.buz = (s.anuEntry n).anu.summary.anyAUnacked ∧
      (s.anuEntry n).anu.cadence = if (s.anuEntry n).anu.summary.anyAUnacked then some (s.now + 500) else none := by
  rw [State.anuEntry_eq]
  exact State.followDemands_entry { s with anu := State.entryAnu s n } hop rfl rfl rfl rfl rfl

/-- The state at a RUNNING entry before the FSU's part of it. -/
def State.beforeFsu (s : State) : State :=
  ((({ s with csu := { s.csu with op := .running } } : State).sendReport .csu [.opState .running false]).sendEvents .csu
    [.sc]).asuEntry.tcuEntry

theorem State.beforeFsu_asu (s : State) : s.beforeFsu.asu =
    { Asu.reset with limits := s.asu.limits, window := some (s.now + s.csu.shadow.imgW) } := by
  unfold State.beforeFsu
  rw [State.tcuEntry_asu, State.asuEntry_values]
  simp

theorem State.beforeFsu_tcu (s : State) : s.beforeFsu.tcu = { Tcu.reset with
    aspects := s.tcu.aspects, lastSampled := s.tcu.lastSampled, received := lossAspect s.tcu.aspects
    displayed := lossAspect s.tcu.aspects, loss := some (s.now + s.csu.shadow.imgTloss) } := by
  unfold State.beforeFsu
  rw [State.tcuEntry_values]
  simp

theorem State.beforeFsu_inFlight (s : State) (ha : s.tcu.aspects = s.csu.shadow.aspectTable) :
    s.beforeFsu.inFlight = s.inFlight ++ entrySends s.csu.shadow s.tcu.lastSampled := by
  unfold State.beforeFsu entrySends
  rw [State.tcuEntry_inFlight, State.asuEntry_inFlight]
  simp only [State.asuEntry_tcu, State.asuEntry_csu, State.sendEvents_tcu, State.sendReport_tcu, State.sendEvents_csu,
    State.sendReport_csu, State.sendEvents_inFlight, State.sendReport_inFlight, ha, List.append_assoc]
  rfl

/-- The parts that a RUNNING entry has left alone, or set, before the FSU's. -/
theorem State.beforeFsu_rest (s : State) : s.beforeFsu.csu = { s.csu with op := .running } ∧ s.beforeFsu.now = s.now ∧
    s.beforeFsu.fsu = s.fsu ∧ s.beforeFsu.flu = s.flu ∧ s.beforeFsu.anu = s.anu ∧ s.beforeFsu.pending = s.pending ∧
    s.beforeFsu.reads = s.reads ∧ s.beforeFsu.answer = s.answer := by
  unfold State.beforeFsu
  simp

/-- A RUNNING entry (R175), the image in the shadow having been taken. -/
theorem running_entered (v : State) (hl : v.asu.limits = some (limitsOf v.csu.shadow))
    (ha : v.tcu.aspects = v.csu.shadow.aspectTable) :
    RunningEntered v.csu.shadow v v.enterRunningOnly v.inFlight := by
  have he : v.enterRunningOnly = v.beforeFsu.fsuEntry.anuEntry (slotCount v.beforeFsu.fsuEntry.fsu.table) := rfl
  have hi := v.beforeFsu_inFlight ha
  have hasu := v.beforeFsu_asu
  have htcu := v.beforeFsu_tcu
  obtain ⟨hcsu, hnow, hfsu, hflu, hanu, hpen, hrea, hans⟩ := v.beforeFsu_rest
  rw [hl] at hasu
  rw [ha] at htcu
  have hsp : v.beforeFsu.asu.speedCopy = { selected := some 0, d := some 0 } := by
    rw [hasu]
    rfl
  have hcc : v.beforeFsu.fsuEntry.asu.completionCopy =
      { selected := some 0, direction := .none, failed1 := false, failed2 := false, persistent := false
        dirDis := false } := by
    rw [State.fsuEntry_asu, hasu]
    rfl
  rw [he]
  generalize v.beforeFsu = x at *
  generalize hz : slotCount x.fsuEntry.fsu.table = n
  have hf1 : (x.fsuEntry.anuEntry n).fsu = x.fsuEntry.fsu := State.anuEntry_fsu _ _
  refine ⟨?_, ?_, ?_, ?_, ?_, ?_, ?_, ?_, ?_, ?_⟩
  · rw [State.anuEntry_asu, State.fsuEntry_asu, hasu]
  · rw [State.anuEntry_tcu, State.fsuEntry_tcu, htcu]
  · rw [hf1, State.fsuEntry_size, hcsu]
  · intro i hi
    have h := x.fsuEntry_record hsp (i := i) (by rw [hcsu]; exact hi)
    rw [hcsu, hnow, hfsu, htcu, hflu] at h
    rw [hf1]
    exact h
  · rw [hf1, State.fsuEntry_fsu]
    refine ⟨?_, rfl, rfl, rfl, fun a hla => ?_⟩
    · show some x.asu.speedCopy = _
      rw [hsp]
    · show some x.entryCeiling = _
      unfold State.entryCeiling
      rw [htcu, hcsu]
      simp [hla, ceilingOf]
  · have h := x.fsuEntry.anuEntry_anu n
    rw [hcc, State.fsuEntry_tcu, htcu, State.fsuEntry_now, hnow] at h
    rw [hf1, show x.fsuEntry.fsu.table.countP (fun r => r.fixed.kind == .faultSlot) = n from hz]
    rw [h]
  · exact x.fsuEntry.anuEntry_functions n
  · have h := x.fsuEntry.anuEntry_buzzer n (by rw [State.fsuEntry_csu, hcsu])
    rw [State.fsuEntry_now, hnow] at h
    exact h
  · refine ⟨forcedRequests x.fsuEntry.fsu.table, fun w => ?_, forcedRequests_order _, ?_⟩
    · rw [hf1]
      exact mem_forcedRequests
    · rw [State.anuEntry_inFlight, State.fsuEntry_inFlight, hi, hf1]
      simp only [List.append_assoc]
      rfl
  · rw [State.anuEntry_flu, State.anuEntry_now, State.anuEntry_pending, State.anuEntry_reads, State.anuEntry_answer,
      State.fsuEntry_flu, State.fsuEntry_now, State.fsuEntry_pending, State.fsuEntry_reads, State.fsuEntry_answer]
    exact ⟨hflu, hnow, hpen, hrea, hans⟩

end Sys2Proof.Machine
end

