-- ==== Sys2Proof/Laws/Events.lean ====
section
/-! SUPPORT. The event bits and the interrupt level (chapter 10). -/

namespace Sys2Proof.Machine

/-- One bit placed in a word. -/
theorem place_one_bit (k : Nat) (hk : k < 16) (j : Nat) : (place 1 1 k).getLsbD j = decide (j = k) := by
  unfold place
  by_cases hj : j < 16
  · interval_cases k <;> interval_cases j <;> rfl
  · rw [BitVec.getLsbD_of_ge _ _ (by omega)]; symm; simp; omega

/-- Every event has one of the twelve event bits. -/
theorem Event.bit_lt (e : Event) : e.bit < 12 := by cases e <;> decide

/-- A bit of the mask of some events is set when one of them has that bit. -/
theorem eventMask_bit (es : List Event) (k : Nat) : (eventMask es).getLsbD k = true ↔ ∃ e ∈ es, e.bit = k := by
  induction es with
  | nil => simp [eventMask]
  | cons e es ih =>
    unfold eventMask
    rw [BitVec.getLsbD_or, Bool.or_eq_true, ih, place_one_bit _ (by have := Event.bit_lt e; omega)]
    simp [eq_comm]

/-- Setting events changes nothing when every one of them is set already. -/
theorem or_eventMask_eq (x : Word) (es) : x ||| eventMask es = x ↔ ∀ e ∈ es, x.getLsbD e.bit = true := by
  constructor
  · intro h e he
    rw [← h, BitVec.getLsbD_or, (eventMask_bit es e.bit).2 ⟨e, he, rfl⟩]; simp
  · intro h
    apply BitVec.eq_of_getLsbD_eq
    intro i hi
    rw [BitVec.getLsbD_or]
    by_cases hm : (eventMask es).getLsbD i = true
    · obtain ⟨e, he, rfl⟩ := (eventMask_bit es i).1 hm
      rw [h e he]; rfl
    · simp at hm; rw [hm]; simp

/-- The interrupt is given when some event is set and enabled. -/
theorem intrLevel_iff (e en : Word) : intrLevel e en = true ↔ ∃ k < 12, e.getLsbD k = true ∧ en.getLsbD k = true := by
  unfold intrLevel eventPositions
  rw [bne_iff_ne, ne_eq, BitVec.eq_of_getLsbD_eq_iff]
  push Not
  constructor
  · rintro ⟨i, hi, h⟩
    simp only [BitVec.getLsbD_and] at h
    by_cases h12 : i < 12
    · refine ⟨i, h12, ?_⟩
      revert h; cases e.getLsbD i <;> cases en.getLsbD i <;> simp
    · exfalso; apply h
      have : (0x0FFF : Word).getLsbD i = false := by interval_cases i <;> rfl
      rw [this]; simp
  · rintro ⟨k, hk, h1, h2⟩
    refine ⟨k, by omega, ?_⟩
    simp only [BitVec.getLsbD_and, h1, h2]
    interval_cases k <;> decide

end Sys2Proof.Machine
end

