-- ==== Sys2Proof/Laws/FaultList.lean ====
section
/-! SUPPORT. What the operations of the fault list keep: display order, identities, the base and the counter
(R101–R103). -/

namespace Sys2Proof.Machine

/-! ## Display order as one number -/

/-- The three keys of display order as one number, the distance below the acknowledgement below the severity. -/
def Entry.rank (base : Option (BitVec 16)) (e : Entry) : Nat :=
  e.severity.code * 131072 + (if e.unacked then 0 else 65536) + arrivalDistance base e.arrival

theorem arrivalDistance_lt (base : Option (BitVec 16)) (n : BitVec 16) : arrivalDistance base n < 65536 :=
  (n - base.getD 0).isLt

theorem Entry.standsBefore_iff (base : Option (BitVec 16)) (e f : Entry) :
    e.standsBefore base f = true ↔ e.rank base < f.rank base := by
  have he := arrivalDistance_lt base e.arrival
  have hf := arrivalDistance_lt base f.arrival
  unfold Entry.standsBefore Entry.rank
  split
  · simp only [decide_eq_true_eq]
    cases e.unacked <;> cases f.unacked <;> simp only [Bool.false_eq_true, if_true, if_false] <;> omega
  · split
    · rename_i h1 h2
      cases hu : e.unacked <;> cases hv : f.unacked <;> simp only [hu, hv] at h2 ⊢ <;> simp at h2 ⊢ <;> omega
    · rename_i h1 h2
      simp only [ne_eq, not_not] at h1 h2
      rw [h1, h2, decide_eq_true_eq]
      omega

/-- Two entries with different distances stand one before the other. -/
theorem Entry.rank_ne {base : Option (BitVec 16)} {e f : Entry}
    (h : arrivalDistance base e.arrival ≠ arrivalDistance base f.arrival) : e.rank base ≠ f.rank base := by
  have he := arrivalDistance_lt base e.arrival
  have hf := arrivalDistance_lt base f.arrival
  unfold Entry.rank
  cases e.unacked <;> cases f.unacked <;> simp only [Bool.false_eq_true, if_true, if_false] <;> omega

/-- Distances from one base tell arrival numbers apart. -/
theorem arrivalDistance_ne {base : Option (BitVec 16)} {m n : BitVec 16} (h : m ≠ n) :
    arrivalDistance base m ≠ arrivalDistance base n := by
  unfold arrivalDistance
  generalize base.getD 0 = b
  bv_omega

/-! ## Putting an entry in its place -/

theorem insertEntry_perm (base : Option (BitVec 16)) (e : Entry) (l : List Entry) :
    (insertEntry base e l).Perm (e :: l) := by
  induction l with
  | nil => exact .refl _
  | cons f fs ih =>
    unfold insertEntry
    split
    · exact .refl _
    · exact (ih.cons f).trans (.swap e f fs)

theorem insertEntry_length (base : Option (BitVec 16)) (e : Entry) (l : List Entry) :
    (insertEntry base e l).length = l.length + 1 := (insertEntry_perm base e l).length_eq

theorem mem_insertEntry {base : Option (BitVec 16)} {e x : Entry} {l : List Entry} :
    x ∈ insertEntry base e l ↔ x = e ∨ x ∈ l := by
  rw [(insertEntry_perm base e l).mem_iff, List.mem_cons]

/-- An entry put into a list in display order leaves it in display order. -/
theorem insertEntry_order {base : Option (BitVec 16)} {e : Entry} {l : List Entry}
    (h : l.Pairwise fun x y => x.standsBefore base y = true)
    (ha : ∀ x ∈ l, e.arrival ≠ x.arrival) :
    (insertEntry base e l).Pairwise fun x y => x.standsBefore base y = true := by
  induction l with
  | nil => exact List.pairwise_singleton _ _
  | cons f fs ih =>
    obtain ⟨h1, h2⟩ := List.pairwise_cons.mp h
    unfold insertEntry
    split
    · rename_i hb
      refine List.pairwise_cons.mpr ⟨fun x hx => ?_, h⟩
      rcases List.mem_cons.mp hx with rfl | hx
      · exact hb
      · have := h1 x hx
        rw [Entry.standsBefore_iff] at this hb ⊢
        exact hb.trans this
    · rename_i hb
      refine List.pairwise_cons.mpr ⟨fun x hx => ?_, ih h2 fun x hx => ha x (List.mem_cons_of_mem _ hx)⟩
      rcases mem_insertEntry.mp hx with rfl | hx
      · have hne := Entry.rank_ne (arrivalDistance_ne (base := base) (ha f List.mem_cons_self))
        rw [Entry.standsBefore_iff] at hb ⊢
        omega
      · exact h1 x hx

/-! ## Dropping an entry -/

theorem dropEntry_sublist (u : BitVec 4) (c : BitVec 12) (l : List Entry) : (dropEntry u c l).Sublist l := by
  induction l with
  | nil => exact .slnil
  | cons f fs ih =>
    unfold dropEntry
    split
    · exact List.sublist_cons_self f fs
    · exact ih.cons_cons f

theorem Entry.is_iff {e : Entry} {u : BitVec 4} {c : BitVec 12} : e.is u c = true ↔ e.unit = u ∧ e.code = c := by
  simp [Entry.is]

theorem findEntry_some {u : BitVec 4} {c : BitVec 12} {l : List Entry} {e : Entry} (h : findEntry u c l = some e) :
    e ∈ l ∧ e.unit = u ∧ e.code = c :=
  ⟨List.mem_of_find?_eq_some h, Entry.is_iff.mp (List.find?_some (p := fun x : Entry => x.is u c) h)⟩

theorem findEntry_none {u : BitVec 4} {c : BitVec 12} {l : List Entry} (h : findEntry u c l = none) :
    ∀ e ∈ l, ¬(e.unit = u ∧ e.code = c) := fun e he hu => by
  have := List.find?_eq_none.mp h e he
  exact this (Entry.is_iff.mpr hu)

/-- In a list of distinct identities the dropped identity is gone. -/
theorem not_mem_dropEntry {u : BitVec 4} {c : BitVec 12} {l : List Entry}
    (h : l.Pairwise fun e g => ¬(e.unit = g.unit ∧ e.code = g.code)) :
    ∀ e ∈ dropEntry u c l, ¬(e.unit = u ∧ e.code = c) := by
  induction l with
  | nil => nofun
  | cons f fs ih =>
    obtain ⟨h1, h2⟩ := List.pairwise_cons.mp h
    intro e he hu
    unfold dropEntry at he
    split at he
    · rename_i hf
      rw [Entry.is_iff] at hf
      exact h1 e he ⟨hf.1.trans hu.1.symm, hf.2.trans hu.2.symm⟩
    · rename_i hf
      rcases List.mem_cons.mp he with rfl | he
      · exact hf (Entry.is_iff.mpr hu)
      · exact ih h2 e he hu

theorem dropEntry_length {u : BitVec 4} {c : BitVec 12} {l : List Entry} {e : Entry} (he : e ∈ l) (hu : e.unit = u)
    (hc : e.code = c) : (dropEntry u c l).length + 1 = l.length := by
  induction l with
  | nil => nomatch he
  | cons f fs ih =>
    unfold dropEntry
    split
    · rfl
    · rename_i hf
      rcases List.mem_cons.mp he with rfl | he
      · exact absurd (Entry.is_iff.mpr ⟨hu, hc⟩) hf
      · rw [List.length_cons, ih he, List.length_cons]

/-- In a list related pairwise, two different members are related one way or the other. -/
theorem pairwise_or {α : Type} {R : α → α → Prop} {l : List α} (h : l.Pairwise R) {e f : α} (he : e ∈ l) (hf : f ∈ l)
    (hne : e ≠ f) : R e f ∨ R f e := by
  induction l with
  | nil => nomatch he
  | cons g gs ih =>
    obtain ⟨h1, h2⟩ := List.pairwise_cons.mp h
    rcases List.mem_cons.mp he with rfl | he' <;> rcases List.mem_cons.mp hf with rfl | hf'
    · exact absurd rfl hne
    · exact .inl (h1 f hf')
    · exact .inr (h1 e he')
    · exact ih h2 he' hf'

/-- In a list of distinct identities two entries of one identity are one. -/
theorem eq_of_identity {l : List Entry} (h : l.Pairwise fun e g => ¬(e.unit = g.unit ∧ e.code = g.code)) {e f : Entry}
    (he : e ∈ l) (hf : f ∈ l) (hu : e.unit = f.unit) (hc : e.code = f.code) : e = f := by
  by_contra hne
  rcases pairwise_or h he hf hne with h1 | h1
  · exact h1 ⟨hu, hc⟩
  · exact h1 ⟨hu.symm, hc.symm⟩

/-- In a list of distinct arrival numbers two entries of one number are one. -/
theorem eq_of_arrival {l : List Entry} (h : l.Pairwise fun e g => e.arrival ≠ g.arrival) {e f : Entry} (he : e ∈ l)
    (hf : f ∈ l) (ha : e.arrival = f.arrival) : e = f := by
  by_contra hne
  rcases pairwise_or h he hf hne with h1 | h1
  · exact h1 ha
  · exact h1 ha.symm

/-- An entry of another identity stays. -/
theorem mem_dropEntry_of_ne {u : BitVec 4} {c : BitVec 12} {l : List Entry} {e : Entry} (he : e ∈ l)
    (hu : ¬(e.unit = u ∧ e.code = c)) : e ∈ dropEntry u c l := by
  induction l with
  | nil => nomatch he
  | cons f fs ih =>
    unfold dropEntry
    rcases List.mem_cons.mp he with rfl | he'
    · rw [if_neg fun hi => hu (Entry.is_iff.mp hi)]
      exact List.mem_cons_self
    · split
      · exact he'
      · exact List.mem_cons_of_mem _ (ih he')

/-! ## The base -/

theorem earliest_none {base : Option (BitVec 16)} {l : List Entry} : earliest base l = none ↔ l = [] := by
  cases l with
  | nil => simp [earliest]
  | cons e es =>
    refine ⟨fun h => ?_, nofun⟩
    unfold earliest at h
    split at h
    · nomatch h
    · split at h <;> nomatch h

theorem earliest_some {base : Option (BitVec 16)} {l : List Entry} {n : BitVec 16} (h : earliest base l = some n) :
    (∃ e ∈ l, e.arrival = n) ∧ ∀ e ∈ l, arrivalDistance base n ≤ arrivalDistance base e.arrival := by
  induction l generalizing n with
  | nil => nomatch h
  | cons e es ih =>
    unfold earliest at h
    split at h
    · rename_i hn
      cases h
      rw [earliest_none] at hn
      subst hn
      exact ⟨⟨e, List.mem_cons_self, rfl⟩, by simp⟩
    · rename_i m hm
      obtain ⟨⟨f, hf, rfl⟩, hle⟩ := ih hm
      split at h
      · rename_i hlt
        cases h
        refine ⟨⟨e, List.mem_cons_self, rfl⟩, fun x hx => ?_⟩
        rcases List.mem_cons.mp hx with rfl | hx
        · exact le_refl _
        · exact hlt.le.trans (hle x hx)
      · rename_i hlt
        cases h
        refine ⟨⟨f, List.mem_cons_of_mem _ hf, rfl⟩, fun x hx => ?_⟩
        rcases List.mem_cons.mp hx with rfl | hx
        · omega
        · exact hle x hx

/-- Distances from a later base are the old ones less the base's own. -/
theorem arrivalDistance_rebase {b n m : BitVec 16} (h : arrivalDistance (some b) n ≤ arrivalDistance (some b) m) :
    arrivalDistance (some n) m = arrivalDistance (some b) m - arrivalDistance (some b) n := by
  simp only [arrivalDistance, Option.getD_some] at h ⊢
  bv_omega

/-- Display order depends on the base only through the comparison of distances. -/
theorem Entry.standsBefore_congr {b c : Option (BitVec 16)} {e f e' f' : Entry} (he : e'.severity = e.severity)
    (hf : f'.severity = f.severity) (hu : e'.unacked = e.unacked) (hv : f'.unacked = f.unacked)
    (h : arrivalDistance b e.arrival < arrivalDistance b f.arrival →
      arrivalDistance c e'.arrival < arrivalDistance c f'.arrival)
    (hb : e.standsBefore b f = true) : e'.standsBefore c f' = true := by
  unfold Entry.standsBefore at hb ⊢
  rw [he, hf, hu, hv]
  split <;> rename_i h1
  · rw [if_pos h1] at hb; exact hb
  · rw [if_neg h1] at hb
    split <;> rename_i h2
    · rw [if_pos h2] at hb; exact hb
    · rw [if_neg h2, decide_eq_true_eq] at hb
      exact decide_eq_true (h hb)

/-! ## The operations -/

/-- Any sublist keeps the law, with the base moved to its earliest entry (R102, R107, R108, R114). -/
theorem FaultListLaw.sublist {f : Flu} (h : FaultListLaw f) {l : List Entry} (hl : l.Sublist f.list)
    (p : PartialMsg) :
    FaultListLaw { f with partialMsg := p, list := l, base := earliest f.base l } := by
  refine ⟨hl.length_le.trans h.depth, h.identity.sublist hl, ?_, h.arrivals.sublist hl, ?_, ?_⟩
  all_goals dsimp only
  · cases hb : f.base with
    | none =>
      have := h.base
      rw [hb] at this
      have hnil : l = [] := List.sublist_nil.mp (this ▸ hl)
      subst hnil
      exact List.Pairwise.nil
    | some b =>
      cases hn : earliest (some b) l with
      | none => rw [earliest_none.mp hn]; exact List.Pairwise.nil
      | some n =>
        have hmin := (earliest_some hn).2
        refine (h.order.sublist hl).imp_of_mem fun {e g} he hg hb' => ?_
        rw [hb] at hb'
        refine Entry.standsBefore_congr rfl rfl rfl rfl (fun hlt => ?_) hb'
        rw [arrivalDistance_rebase (hmin e he), arrivalDistance_rebase (hmin g hg)]
        have := hmin e he
        omega
  · split
    · rename_i hn; exact earliest_none.mp hn
    · rename_i n hn; exact (earliest_some hn).1
  · intro n hn e he
    cases hb : f.base with
    | none =>
      have := h.base
      rw [hb] at this
      have hnil : l = [] := List.sublist_nil.mp (this ▸ hl)
      subst hnil
      nomatch he
    | some b =>
      rw [hb] at hn
      obtain ⟨⟨g, hg, rfl⟩, hmin⟩ := earliest_some hn
      have h1 := h.counter b hb e (hl.subset he)
      have h2 := h.counter b hb g (hl.subset hg)
      have h3 := hmin e he
      simp only [arrivalDistance, Option.getD_some] at h3
      generalize e.arrival = x at *
      generalize g.arrival = y at *
      generalize f.counter = k at *
      bv_omega

theorem FaultListLaw.remove {f : Flu} (h : FaultListLaw f) (u : BitVec 4) (c : BitVec 12) :
    FaultListLaw (f.remove u c) := h.sublist (dropEntry_sublist u c f.list) f.partialMsg

/-- What a warm reset keeps (R114). -/
theorem FaultListLaw.warm {f : Flu} (h : FaultListLaw f) : FaultListLaw f.warm :=
  h.sublist List.filter_sublist .none

/-- The partial message is no part of the law. -/
theorem FaultListLaw.withPartial {f : Flu} (h : FaultListLaw f) (p : PartialMsg) :
    FaultListLaw { f with partialMsg := p } := ⟨h.depth, h.identity, h.order, h.arrivals, h.base, h.counter⟩

/-- A re-sort of an entry that keeps its identity and its arrival number (R103). -/
theorem FaultListLaw.resort {f : Flu} (h : FaultListLaw f) {old e : Entry} (hold : old ∈ f.list)
    (hu : e.unit = old.unit) (hc : e.code = old.code) (ha : e.arrival = old.arrival) :
    FaultListLaw { f with list := resort f.base e f.list } := by
  have hsub := dropEntry_sublist e.unit e.code f.list
  have hgone := not_mem_dropEntry (u := e.unit) (c := e.code) h.identity
  have hperm := insertEntry_perm f.base e (dropEntry e.unit e.code f.list)
  have hnum : ∀ x ∈ dropEntry e.unit e.code f.list, e.arrival ≠ x.arrival := fun x hx heq =>
    hgone x hx (eq_of_arrival h.arrivals (hsub.subset hx) hold (heq.symm.trans ha) ▸ ⟨hu.symm, hc.symm⟩)
  refine ⟨?_, ?_, insertEntry_order (h.order.sublist hsub) hnum, ?_, ?_, ?_⟩
  · show (insertEntry _ _ _).length ≤ 32
    rw [insertEntry_length, dropEntry_length hold hu.symm hc.symm]
    exact h.depth
  · refine (hperm.pairwise_iff fun {x y} hxy hyx => hxy ⟨hyx.1.symm, hyx.2.symm⟩).mpr ?_
    exact List.pairwise_cons.mpr ⟨fun x hx hi => hgone x hx ⟨hi.1.symm, hi.2.symm⟩, h.identity.sublist hsub⟩
  · refine (hperm.pairwise_iff fun {x y} hxy => Ne.symm hxy).mpr ?_
    exact List.pairwise_cons.mpr ⟨hnum, h.arrivals.sublist hsub⟩
  · have hb := h.base
    show match f.base with
      | none => insertEntry f.base e _ = []
      | some b => ∃ x ∈ insertEntry f.base e _, x.arrival = b
    cases hbase : f.base with
    | none => rw [hbase] at hb; rw [hb] at hold; nomatch hold
    | some b =>
      rw [hbase] at hb
      obtain ⟨x, hx, hxa⟩ := hb
      by_cases hxi : x.unit = e.unit ∧ x.code = e.code
      · have : x = old := eq_of_identity h.identity hx hold (hxi.1.trans hu) (hxi.2.trans hc)
        exact ⟨e, mem_insertEntry.mpr (.inl rfl), by rw [ha, ← this, hxa]⟩
      · exact ⟨x, mem_insertEntry.mpr (.inr (mem_dropEntry_of_ne hx hxi)), hxa⟩
  · intro b hbase x hx
    rcases mem_insertEntry.mp hx with rfl | hx
    · rw [ha]; exact h.counter b hbase old hold
    · exact h.counter b hbase x (hsub.subset hx)

/-- A change of entries that keeps identity, severity, acknowledgement and arrival number of each (R107). -/
theorem FaultListLaw.map {f : Flu} (h : FaultListLaw f) {g : Entry → Entry}
    (hg : ∀ x ∈ f.list, (g x).unit = x.unit ∧ (g x).code = x.code ∧ (g x).severity = x.severity ∧
      (g x).unacked = x.unacked ∧ (g x).arrival = x.arrival) :
    FaultListLaw { f with list := f.list.map g } := by
  refine ⟨by simpa using h.depth, ?_, ?_, ?_, ?_, ?_⟩
  · refine List.pairwise_map.mpr (h.identity.imp_of_mem fun {x y} hx hy hxy => ?_)
    rw [(hg x hx).1, (hg y hy).1, (hg x hx).2.1, (hg y hy).2.1]
    exact hxy
  · refine List.pairwise_map.mpr (h.order.imp_of_mem fun {x y} hx hy hxy => ?_)
    refine Entry.standsBefore_congr (hg x hx).2.2.1 (hg y hy).2.2.1 (hg x hx).2.2.2.1 (hg y hy).2.2.2.1
      (fun hlt => ?_) hxy
    rw [(hg x hx).2.2.2.2, (hg y hy).2.2.2.2]
    exact hlt
  · refine List.pairwise_map.mpr (h.arrivals.imp_of_mem fun {x y} hx hy hxy => ?_)
    rw [(hg x hx).2.2.2.2, (hg y hy).2.2.2.2]
    exact hxy
  · have hb := h.base
    show match f.base with
      | none => f.list.map g = []
      | some b => ∃ x ∈ f.list.map g, x.arrival = b
    cases hbase : f.base with
    | none => rw [hbase] at hb; rw [hb]; rfl
    | some b =>
      rw [hbase] at hb
      obtain ⟨x, hx, hxa⟩ := hb
      exact ⟨g x, List.mem_map_of_mem hx, (hg x hx).2.2.2.2.trans hxa⟩
  · intro b hbase x hx
    obtain ⟨y, hy, rfl⟩ := List.mem_map.mp hx
    rw [(hg y hy).2.2.2.2]
    exact h.counter b hbase y hy

/-- CLEAR (R107). -/
theorem FaultListLaw.clear {f : Flu} (h : FaultListLaw f) (m : FaultMsg) : FaultListLaw (f.clear m) := by
  unfold Flu.clear
  split
  · exact h
  · rename_i e he
    obtain ⟨hmem, -, -⟩ := findEntry_some he
    split
    · exact h
    · exact h.remove _ _
    · rename_i hst
      split
      · exact h.remove _ _
      · refine h.map fun x hx => ?_
        split
        · rename_i hi
          have : x = e := eq_of_identity h.identity hx hmem (Entry.is_iff.mp hi).1 (Entry.is_iff.mp hi).2
          subst this
          refine ⟨rfl, rfl, rfl, ?_, rfl⟩
          simp only [Entry.unacked, hst]
          rfl
        · exact ⟨rfl, rfl, rfl, rfl, rfl⟩

/-- Acknowledge (R108). -/
theorem FaultListLaw.acknowledge {f : Flu} (h : FaultListLaw f) : FaultListLaw f.acknowledge := by
  unfold Flu.acknowledge
  split
  · exact h
  · rename_i e he
    split
    · exact h.remove _ _
    · exact h.resort (List.mem_of_find?_eq_some he) rfl rfl rfl

/-! ## New entries (R102, R105) -/

/-- An entry with fewer live entries before it has a smaller new number. -/
theorem insertedBefore_lt {base : Option (BitVec 16)} {l : List Entry} {e g : Entry} (he : e ∈ l)
    (hlt : arrivalDistance base e.arrival < arrivalDistance base g.arrival) :
    insertedBefore base l e < insertedBefore base l g := by
  unfold insertedBefore
  have hle : ∀ l : List Entry, l.countP (fun f => decide (arrivalDistance base f.arrival < arrivalDistance base e.arrival)) ≤
      l.countP fun f => decide (arrivalDistance base f.arrival < arrivalDistance base g.arrival) := fun l =>
    List.countP_mono_left fun x _ hx => by simp only [decide_eq_true_eq] at hx ⊢; omega
  induction l with
  | nil => nomatch he
  | cons x xs ih =>
    simp only [List.countP_cons, decide_eq_true_eq]
    rcases List.mem_cons.mp he with rfl | he'
    · rw [if_neg (lt_irrefl _), if_pos hlt]
      have := hle xs
      omega
    · have := ih he'
      split <;> split <;> omega

theorem insertedBefore_lt_length {base : Option (BitVec 16)} {l : List Entry} {e : Entry} (he : e ∈ l) :
    insertedBefore base l e < l.length := by
  refine List.countP_lt_length_iff.mpr ⟨e, he, ?_⟩
  simp

/-- The rebase check keeps the law, and leaves the counter off the base (R102). -/
theorem FaultListLaw.rebase {f : Flu} (h : FaultListLaw f) :
    FaultListLaw f.rebase ∧ (f.rebase.list ≠ [] → f.rebase.base ≠ some f.rebase.counter) ∧
      f.rebase.list.length = f.list.length ∧
      ∀ u c, (∀ e ∈ f.list, ¬(e.unit = u ∧ e.code = c)) → ∀ e ∈ f.rebase.list, ¬(e.unit = u ∧ e.code = c) := by
  unfold Flu.rebase
  split
  case isFalse hn =>
    exact ⟨h, fun hl hb => hn ⟨hl, hb⟩, rfl, fun _ _ hu => hu⟩
  case isTrue hc =>
    obtain ⟨hl, -⟩ := hc
    have hd := h.depth
    have hnum : ∀ e ∈ f.list, (BitVec.ofNat 16 (insertedBefore f.base f.list e)).toNat =
        insertedBefore f.base f.list e := fun e he => by
      have := insertedBefore_lt_length (base := f.base) he
      rw [BitVec.toNat_ofNat, Nat.mod_eq_of_lt (by omega)]
    have hzero : ∀ x : BitVec 16, arrivalDistance (some 0) x = x.toNat := fun x => by simp [arrivalDistance]
    have hdist : ∀ e ∈ f.list, arrivalDistance (some 0) (BitVec.ofNat 16 (insertedBefore f.base f.list e)) =
        insertedBefore f.base f.list e := fun e he => by
      rw [hzero, hnum e he]
    have hinj : ∀ {e g : Entry}, e ∈ f.list → g ∈ f.list → e.arrival ≠ g.arrival →
        insertedBefore f.base f.list e ≠ insertedBefore f.base f.list g := fun {e g} he hg hne => by
      rcases lt_or_gt_of_ne (arrivalDistance_ne (base := f.base) hne) with hlt | hlt
      · exact (insertedBefore_lt he hlt).ne
      · exact (insertedBefore_lt hg hlt).ne'
    have hlen : (rebaseEntries f.base f.list).length = f.list.length := List.length_map _
    refine ⟨⟨?_, ?_, ?_, ?_, ?_, ?_⟩, ?_, hlen, ?_⟩
    all_goals dsimp only
    · rw [hlen]; exact hd
    · exact List.pairwise_map.mpr h.identity
    · refine List.pairwise_map.mpr (h.order.imp_of_mem fun {x y} hx hy hxy => ?_)
      refine Entry.standsBefore_congr (b := f.base) (e := x) (f := y) rfl rfl rfl rfl (fun hlt => ?_) hxy
      rw [hdist x hx, hdist y hy]
      exact insertedBefore_lt hx hlt
    · refine List.pairwise_map.mpr (h.arrivals.imp_of_mem fun {x y} hx hy hxy heq => ?_)
      refine hinj hx hy hxy ?_
      rw [← hnum x hx, ← hnum y hy]
      exact congrArg BitVec.toNat heq
    · cases hb : f.base with
      | none => have := h.base; rw [hb] at this; exact absurd this hl
      | some b =>
        have := h.base
        rw [hb] at this
        obtain ⟨x, hx, rfl⟩ := this
        refine ⟨_, List.mem_map_of_mem hx, ?_⟩
        have : insertedBefore (some x.arrival) f.list x = 0 := by
          refine List.countP_eq_zero.mpr fun y _ => ?_
          simp [arrivalDistance]
        show BitVec.ofNat 16 (insertedBefore (some x.arrival) f.list x) = 0
        rw [this]; rfl
    · intro b hb e he
      cases hb
      obtain ⟨x, hx, rfl⟩ := List.mem_map.mp he
      have h1 := insertedBefore_lt_length (base := f.base) hx
      have h2 := hnum x hx
      show (BitVec.ofNat 16 (insertedBefore f.base f.list x) - 0).toNat ≤ (BitVec.ofNat 16 f.list.length - 0 - 1).toNat
      generalize insertedBefore f.base f.list x = k at *
      generalize f.list.length = n at *
      bv_omega
    · intro _ hb
      have hpos : 0 < f.list.length := List.length_pos_iff.mpr hl
      have : (0 : BitVec 16) = BitVec.ofNat 16 f.list.length := Option.some.inj hb
      generalize f.list.length = n at *
      bv_omega
    · intro u c hu e he
      obtain ⟨x, hx, rfl⟩ := List.mem_map.mp he
      exact hu x hx

/-- A new entry in a list with room for it (R105). -/
theorem FaultListLaw.insertNew {f : Flu} (h : FaultListLaw f) {m : FaultMsg} (hroom : f.list.length < 32)
    (hnew : ∀ e ∈ f.list, ¬(e.unit = m.unit ∧ e.code = m.code)) : FaultListLaw (f.insertNew m) := by
  obtain ⟨hg, hoff, hlen, hkeep⟩ := h.rebase
  have hnew' := hkeep m.unit m.code hnew
  unfold Flu.insertNew
  generalize f.rebase = g at *
  dsimp only
  by_cases hl : g.list = []
  · rw [if_pos hl, hl]
    refine ⟨by simp [insertEntry], List.pairwise_singleton _ _, List.pairwise_singleton _ _,
      List.pairwise_singleton _ _, ⟨_, List.mem_singleton.mpr rfl, rfl⟩, fun b hb e he => ?_⟩
    cases hb
    rw [List.mem_singleton.mp he]
    simp
  · rw [if_neg hl]
    have hbase := hg.base
    cases hb : g.base with
    | none => rw [hb] at hbase; exact absurd hbase hl
    | some b =>
      rw [hb] at hbase
      have hne : b ≠ g.counter := fun hbc => hoff hl (hbc ▸ hb)
      have hold := hg.counter b hb
      have hfresh : ∀ x ∈ g.list, g.counter ≠ x.arrival := fun x hx heq => by
        have := hold x hx
        rw [← heq] at this
        generalize g.counter = k at *
        bv_omega
      have hord := hg.order
      rw [hb] at hord
      refine ⟨?_, ?_, insertEntry_order hord hfresh, ?_, ?_, ?_⟩
      · show (insertEntry _ _ _).length ≤ 32
        rw [insertEntry_length]
        omega
      · refine ((insertEntry_perm _ _ _).pairwise_iff fun {x y} hxy hyx => hxy ⟨hyx.1.symm, hyx.2.symm⟩).mpr ?_
        exact List.pairwise_cons.mpr ⟨fun x hx hi => hnew' x hx ⟨hi.1.symm, hi.2.symm⟩, hg.identity⟩
      · refine ((insertEntry_perm _ _ _).pairwise_iff fun {x y} hxy => Ne.symm hxy).mpr ?_
        exact List.pairwise_cons.mpr ⟨hfresh, hg.arrivals⟩
      · obtain ⟨x, hx, hxa⟩ := hbase
        exact ⟨x, mem_insertEntry.mpr (.inr hx), hxa⟩
      · intro b' hb' x hx
        cases hb'
        rcases mem_insertEntry.mp hx with rfl | hx
        · show (g.counter - b).toNat ≤ (g.counter + 1 - b - 1).toNat
          generalize g.counter = k
          bv_omega
        · have := hold x hx
          show (x.arrival - b).toNat ≤ (g.counter + 1 - b - 1).toNat
          generalize g.counter = k at *
          generalize x.arrival = y at *
          bv_omega

/-- RAISE (R104–R106). -/
theorem FaultListLaw.raise {f : Flu} (h : FaultListLaw f) (m : FaultMsg) : FaultListLaw (f.raise m).flu := by
  unfold Flu.raise
  split
  · rename_i old hold
    unfold Flu.raiseExisting
    dsimp only
    split
    · exact h
    · exact h.resort (findEntry_some hold).1 rfl rfl rfl
  · rename_i hnone
    have hnew := findEntry_none hnone
    split
    · exact h.insertNew ‹_› hnew
    · split
      · rename_i v hv
        have hvmem : v ∈ f.list := (List.mem_filter.mp (List.mem_of_getLast? hv)).1
        split
        · refine (h.remove v.unit v.code).insertNew ?_ fun e he =>
            hnew e ((dropEntry_sublist v.unit v.code f.list).subset he)
          have h1 : (dropEntry v.unit v.code f.list).length + 1 = f.list.length := dropEntry_length hvmem rfl rfl
          have h2 := h.depth
          show (dropEntry v.unit v.code f.list).length < 32
          omega
        · exact h
      · exact h

/-- The empty list after a power reset (R113). -/
theorem FaultListLaw.reset : FaultListLaw Flu.reset :=
  ⟨by decide, List.Pairwise.nil, List.Pairwise.nil, List.Pairwise.nil, rfl, nofun⟩

/-- Every request keeps the law (R109). -/
theorem FaultListLaw.takeRequest {s : State} (h : FaultListLaw s.flu) (r : FluRequest) :
    FaultListLaw (s.takeRequest r).flu := by
  have happly : ∀ e : FluEffect, (s.applyFlu e).flu = e.flu := fun e => by
    unfold State.applyFlu
    dsimp only
    (repeat' split) <;> first | rfl | simp
  cases r with
  | raise m => exact (happly _).symm ▸ h.raise m
  | clear m => exact (happly _).symm ▸ h.clear m
  | acknowledge => exact (happly _).symm ▸ h.acknowledge

end Sys2Proof.Machine
end

