-- ==== Sys2Proof/Laws/Image.lean ====
section
/-! SUPPORT. What a passed check says of an image (R166, R167): the field table it describes fits chapter 1. -/

namespace Sys2Proof.Machine

/-- The CRC by checkpoints (R166): each is the register after eight more words of the shadow, and the CRC is the last. -/
theorem imageCrc_of_checkpoints {sh : Memory} {cps : List Word} (h0 : cps[0]? = some 0xFFFF)
    (h : ∀ k < 28, cps[k + 1]? = (cps[k]?).map fun r =>
      (List.range' (8 * k) 8).foldl (fun r o => crcWord r (sh.read o)) r) {v : Word} (hv : cps[28]? = some v) :
    imageCrc sh = v := by
  have key : ∀ n ≤ 28, cps[n]? = some ((List.range (8 * n)).foldl (fun r o => crcWord r (sh.read o)) 0xFFFF) := by
    intro n
    induction n with
    | zero => exact fun _ => h0
    | succ n ih =>
      intro hn
      have hr : List.range (8 * (n + 1)) = List.range (8 * n) ++ List.range' (8 * n) 8 := by
        rw [Nat.mul_succ, List.range_eq_range', List.range_eq_range', ← List.range'_append_1, Nat.zero_add]
      rw [h n (by omega), ih (by omega), Option.map_some, hr, List.foldl_append]
  have := key 28 (Nat.le_refl _)
  rw [hv] at this
  exact (Option.some.inj this).symm

/-- A passed check finds no word at fault (R166). -/
theorem wordFault_of_pass {sh : Memory} (h : checkImage sh = .pass) :
    ∀ o < 32 + 4 * min sh.imgN Config.maxRecords, wordFault sh o = false := by
  have hc : contentFault sh = none := by
    unfold checkImage at h
    split at h
    · cases h
    · split at h
      · assumption
      · cases h
  intro o ho
  simpa using List.find?_eq_none.mp hc o (List.mem_range.mpr ho)

/-- N lies in 1 to 48. -/
theorem imgN_of_pass {sh : Memory} (h : checkImage sh = .pass) : 1 ≤ sh.imgN ∧ sh.imgN ≤ 48 := by
  have := wordFault_of_pass h 0 (by omega)
  simp only [wordFault, generalFault, inRange, if_pos (show 0 < 16 by omega)] at this
  simpa [Memory.imgN] using this

/-- The words of a descriptor that the check has seen. -/
theorem descriptor_of_pass {sh : Memory} (h : checkImage sh = .pass) {i : Nat} (hi : i < sh.imgN) :
    addressFault sh i = false ∧ periodFault sh i = false ∧ blankFault sh i = false ∧ lastWordFault sh i = false := by
  have hN := (imgN_of_pass h).2
  have hm : min sh.imgN Config.maxRecords = sh.imgN := Nat.min_eq_left hN
  have hw := wordFault_of_pass h
  rw [hm] at hw
  have h0 := hw (32 + 4 * i) (by omega)
  have h1 := hw (33 + 4 * i) (by omega)
  have h2 := hw (34 + 4 * i) (by omega)
  have h3 := hw (35 + 4 * i) (by omega)
  unfold wordFault at h0 h1 h2 h3
  rw [if_neg (by omega), if_neg (by omega)] at h0 h1 h2 h3
  have e1 : (32 + 4 * i - 32) / 4 = i := by omega
  have e2 : (32 + 4 * i - 32) % 4 = 0 := by omega
  have e3 : (33 + 4 * i - 32) / 4 = i := by omega
  have e4 : (33 + 4 * i - 32) % 4 = 1 := by omega
  have e5 : (34 + 4 * i - 32) / 4 = i := by omega
  have e6 : (34 + 4 * i - 32) % 4 = 2 := by omega
  have e7 : (35 + 4 * i - 32) / 4 = i := by omega
  have e8 : (35 + 4 * i - 32) % 4 = 3 := by omega
  simp only [e1, e2] at h0
  simp only [e3, e4] at h1
  simp only [e5, e6] at h2
  simp only [e7, e8] at h3
  exact ⟨h0, h1, h2, h3⟩

/-- What word 0 of a seen descriptor says: its kind, its address, and how many of its kind stand so far. -/
theorem address_of_pass {sh : Memory} (h : checkImage sh = .pass) {i : Nat} (hi : i < sh.imgN) :
    ∃ k, descKind sh i = some k ∧ bits (sh.descriptor i 0) 12 0 ≤ 0x1DFF ∧
      (∀ j < i, bits (sh.descriptor j 0) 12 0 ≠ bits (sh.descriptor i 0) 12 0) ∧
      ∀ n, kindLimit k = some n → (List.range (i + 1)).countP (fun j => descKind sh j == some k) ≤ n := by
  have := (descriptor_of_pass h hi).1
  unfold addressFault at this
  simp only [Bool.or_eq_false_iff] at this
  obtain ⟨⟨h1, h2⟩, h3⟩ := this
  cases hk : descKind sh i with
  | none => rw [hk] at h3; nomatch h3
  | some k =>
    rw [hk] at h3
    refine ⟨k, rfl, by simpa using h1, fun j hj => ?_, fun n hn => ?_⟩
    · have := List.any_eq_false.mp h2 j (List.mem_range.mpr hj)
      simpa using this
    · dsimp only at h3
      rw [hn] at h3
      simpa using h3

/-- The records of a kind do not exceed its limit (R2). -/
theorem kindCount_of_pass {sh : Memory} (h : checkImage sh = .pass) {k : Kind} {n : Nat} (hn : kindLimit k = some n) :
    (List.range sh.imgN).countP (fun j => descKind sh j == some k) ≤ n := by
  have key : ∀ m ≤ sh.imgN, (List.range m).countP (fun j => descKind sh j == some k) ≤ n := by
    intro m hm
    induction m with
    | zero => simp
    | succ m ih =>
      have hlt : m < sh.imgN := by omega
      obtain ⟨k', hk', -, -, hlim⟩ := address_of_pass h hlt
      by_cases hkk : k' = k
      · subst hkk
        exact hlim n hn
      · rw [List.range_succ, List.countP_append]
        have : [m].countP (fun j => descKind sh j == some k) = 0 := by
          simp [hk', hkk]
        rw [this]
        exact ih (by omega)
  exact key _ le_rfl

/-- The static part that a seen descriptor describes has the descriptor's kind and address. -/
theorem fieldStatic_of_kind {sh : Memory} {i : Nat} {k : Kind} (h : descKind sh i = some k) :
    (sh.fieldStatic i).kind = k ∧ (sh.fieldStatic i).addr = BitVec.ofNat 13 (bits (sh.descriptor i 0) 12 0) := by
  unfold descKind at h
  simp only [Memory.fieldStatic, h, Option.getD_some, and_self]

/-- The assignment list of bytes no two of which name one bit (R4, R182). -/
theorem lampPairs_of_bytes {bs : List Nat} (h : bs.Pairwise fun x y => x / 16 ≠ 0 → y / 16 ≠ 0 → x % 16 ≠ y % 16) :
    (bs.filterMap lampPairOf).length ≤ bs.length ∧ (∀ p ∈ bs.filterMap lampPairOf, p.bit < 16) ∧
      (bs.filterMap lampPairOf).Pairwise fun p q => p.bit ≠ q.bit := by
  have key : ∀ b p, lampPairOf b = some p → p.bit = b % 16 ∧ b / 16 ≠ 0 := by
    intro b p hp
    unfold lampPairOf at hp
    obtain ⟨f, hf, rfl⟩ := Option.map_eq_some_iff.mp hp
    refine ⟨rfl, fun h0 => ?_⟩
    rw [h0] at hf
    cases hf
  refine ⟨List.length_filterMap_le .., fun p hp => ?_, List.pairwise_filterMap.mpr ?_⟩
  · obtain ⟨b, -, hb⟩ := List.mem_filterMap.mp hp
    rw [(key b p hb).1]
    exact Nat.mod_lt _ (by omega)
  · refine h.imp fun {x y} hxy p hp q hq => ?_
    rw [(key x p hp).1, (key y q hq).1]
    exact hxy (key x p hp).2 (key y q hq).2

/-- A byte that passes after earlier ones names no bit that they name (R4). -/
theorem pairFault_false {earlier : List Nat} {b : Nat} (h : pairFault earlier b = false) :
    ∀ e ∈ earlier, e / 16 ≠ 0 → b / 16 ≠ 0 → e % 16 ≠ b % 16 := by
  intro e he h1 h2 h3
  unfold pairFault at h
  rw [if_neg h2, Bool.or_eq_false_iff] at h
  have := List.any_eq_false.mp h.2 e he
  simp [h1, h3] at this

/-- The assignment list of a seen descriptor (R4). -/
theorem lamps_of_pass {sh : Memory} (h : checkImage sh = .pass) {i : Nat} (hi : i < sh.imgN) :
    (sh.fieldStatic i).lamps.length ≤ 4 ∧ (∀ p ∈ (sh.fieldStatic i).lamps, p.bit < 16) ∧
      (sh.fieldStatic i).lamps.Pairwise fun p q => p.bit ≠ q.bit := by
  obtain ⟨-, -, h2, h3⟩ := descriptor_of_pass h hi
  obtain ⟨k, hk, -⟩ := address_of_pass h hi
  have hkind := (fieldStatic_of_kind hk).1
  have hl : (sh.fieldStatic i).lamps = if k = .lamps then (sh.lampBytes i).filterMap lampPairOf else [] := by
    rw [← hkind]
    rfl
  rw [hl]
  split
  · rename_i hlamps
    subst hlamps
    unfold blankFault at h2
    unfold lastWordFault at h3
    rw [hk] at h2 h3
    simp only [Memory.lampBytes, Bool.or_eq_false_iff] at h2 h3
    obtain ⟨-, h2⟩ := h2
    obtain ⟨h3, h4⟩ := h3
    refine lampPairs_of_bytes (bs := sh.lampBytes i) ?_
    simp only [Memory.lampBytes, List.pairwise_cons, List.mem_cons, List.not_mem_nil, or_false, List.Pairwise.nil,
      and_true, forall_eq_or_imp, forall_eq, false_implies, implies_true]
    have p2 := pairFault_false h2
    have p3 := pairFault_false h3
    have p4 := pairFault_false h4
    simp only [List.mem_cons, List.not_mem_nil, or_false, forall_eq_or_imp, forall_eq] at p2 p3 p4
    exact ⟨⟨p2, p3.1, p4.1⟩, ⟨p3.2, p4.2.1⟩, p4.2.2⟩
  · exact ⟨by simp, by simp, List.Pairwise.nil⟩

theorem bits_lt (w : Word) (hi lo : Nat) : bits w hi lo < 2 ^ (hi + 1 - lo) := Nat.mod_lt _ (Nat.two_pow_pos _)

/-- The table of a RUNNING entry from an image that passes the check (R1, R2, R3). -/
theorem tableLaw_of_pass {s : State} (h : checkImage s.csu.shadow = .pass) : TableLaw s.blankFsu.table := by
  have hfix : ∀ i, (s.newRecord i).fixed = s.csu.shadow.fieldStatic i := fun _ => rfl
  have haddr : ∀ i < s.csu.shadow.imgN,
      (s.newRecord i).fixed.addr.toNat = bits (s.csu.shadow.descriptor i 0) 12 0 := fun i hi => by
    obtain ⟨k, hk, -⟩ := address_of_pass h hi
    rw [hfix, (fieldStatic_of_kind hk).2, BitVec.toNat_ofNat, Nat.mod_eq_of_lt (bits_lt _ _ _)]
  have hcount : ∀ k n, kindLimit k = some n →
      (s.blankFsu.table).countP (fun r => r.fixed.kind == k) ≤ n := fun k n hn => by
    show ((List.range s.csu.shadow.imgN).map s.newRecord).countP _ ≤ n
    rw [List.countP_map]
    refine le_trans (le_of_eq (List.countP_congr fun j hj => ?_)) (kindCount_of_pass h hn)
    obtain ⟨k', hk', -⟩ := address_of_pass h (List.mem_range.mp hj)
    simp only [Function.comp, hfix, (fieldStatic_of_kind hk').1, hk', beq_iff_eq, Option.some.injEq]
  refine ⟨?_, ?_, ?_, ?_, hcount _ _ rfl, hcount _ _ rfl, ?_, ?_, ?_, ?_, ?_⟩
  · show ((List.range s.csu.shadow.imgN).map s.newRecord).length ≤ 48
    rw [List.length_map, List.length_range]
    exact (imgN_of_pass h).2
  · intro r hr
    obtain ⟨i, hi, rfl⟩ := List.mem_map.mp hr
    have hi := List.mem_range.mp hi
    obtain ⟨k, -, ha, -⟩ := address_of_pass h hi
    rw [haddr i hi]
    omega
  · refine List.pairwise_map.mpr ?_
    refine (List.pairwise_lt_range (n := s.csu.shadow.imgN)).imp_of_mem fun {i j} hi hj hij heq => ?_
    have hi := List.mem_range.mp hi
    have hj := List.mem_range.mp hj
    obtain ⟨k, -, -, hne, -⟩ := address_of_pass h hj
    refine hne i hij ?_
    rw [← haddr i hi, ← haddr j hj, heq]
  · intro k hk
    simp only [List.mem_cons, List.not_mem_nil, or_false] at hk
    rcases hk with rfl | rfl | rfl | rfl <;> exact hcount _ _ rfl
  · intro r hr hk
    obtain ⟨i, hi, rfl⟩ := List.mem_map.mp hr
    have hi := List.mem_range.mp hi
    have hp := (descriptor_of_pass h hi).2.1
    obtain ⟨k, hk', -⟩ := address_of_pass h hi
    rw [hfix, (fieldStatic_of_kind hk').1] at hk
    subst hk
    unfold periodFault at hp
    rw [hk'] at hp
    simp only [Bool.or_eq_false_iff] at hp
    have h0 : bits (s.csu.shadow.descriptor i 1) 7 0 = 0 := by simpa using hp.2
    show 100 * bits (s.csu.shadow.descriptor i 1) 7 0 = 0
    rw [h0]
  · intro r hr
    obtain ⟨i, hi, rfl⟩ := List.mem_map.mp hr
    show 100 * bits (s.csu.shadow.descriptor i 1) 7 0 ≤ 25500 ∧ 100 * bits (s.csu.shadow.descriptor i 1) 7 0 % 100 = 0
    have := bits_lt (s.csu.shadow.descriptor i 1) 7 0
    omega
  · intro r hr hk
    obtain ⟨i, hi, rfl⟩ := List.mem_map.mp hr
    have hi := List.mem_range.mp hi
    have hp := (descriptor_of_pass h hi).2.1
    obtain ⟨k, hk', -⟩ := address_of_pass h hi
    have hkind := (fieldStatic_of_kind hk').1
    rw [hfix, hkind] at hk
    subst hk
    unfold periodFault at hp
    rw [hk'] at hp
    have ht : (s.newRecord i).fixed.tolerance = bits (s.csu.shadow.descriptor i 1) 15 9 := by
      show (if (s.csu.shadow.fieldStatic i).kind = .actual then _ else 0) = _
      rw [if_pos hkind]
    rw [ht]
    simpa [inRange] using hp
  · intro r hr hk
    obtain ⟨i, hi, rfl⟩ := List.mem_map.mp hr
    show (if (s.csu.shadow.fieldStatic i).kind = .lamps then (0 : Word) else _) = 0
    exact if_pos hk
  · intro r hr
    obtain ⟨i, hi, rfl⟩ := List.mem_map.mp hr
    exact lamps_of_pass h (List.mem_range.mp hi)

end Sys2Proof.Machine
end

