-- ==== Sys2Proof/Laws/ListChanges.lean ====
section
/-! SUPPORT. What inserting, removing and re-sorting an entry do to the fault list (chapter 7). -/

namespace Sys2Proof.Machine

/-- An entry of the list is the one found for its unit and code. -/
theorem findEntry_of_mem {f : Flu} (h : FaultListLaw f) {e : Entry} (he : e ∈ f.list) {u c} (hu : e.unit = u) (hc : e.code = c) : findEntry u c f.list = some e := by
  cases hf : findEntry u c f.list with
  | none => exact absurd ⟨hu, hc⟩ (findEntry_none hf e he)
  | some x =>
    obtain ⟨h1, h2, h3⟩ := findEntry_some hf
    rw [eq_of_identity h.identity h1 he (h2.trans hu.symm) (h3.trans hc.symm)]

/-- Nothing is found for a unit and code that no entry has. -/
theorem findEntry_eq_none {l : List Entry} {u c} (h : ∀ e ∈ l, ¬(e.unit = u ∧ e.code = c)) : findEntry u c l = none := by
  unfold findEntry; rw [List.find?_eq_none]; intro x hx hh; exact h x hx (Entry.is_iff.1 hh)

/-- Dropping a unit and code erases the one entry that has them. -/
theorem dropEntry_eq_erase {f : Flu} (h : FaultListLaw f) {e : Entry} (he : e ∈ f.list) : dropEntry e.unit e.code f.list = f.list.erase e := by
  have hid := h.identity
  clear h
  generalize f.list = l at *
  induction l with
  | nil => rfl
  | cons x xs ih =>
    unfold dropEntry
    rw [List.erase_cons]
    rw [List.pairwise_cons] at hid
    by_cases hx : x = e
    · subst hx; rw [if_pos (Entry.is_iff.2 ⟨rfl, rfl⟩)]; simp
    · have hxs : e ∈ xs := by cases he with
        | head => exact absurd rfl hx
        | tail _ h => exact h
      rw [if_neg (fun h => hid.1 e hxs (Entry.is_iff.1 h))]
      simp [hx, ih hxs hid.2]

/-- What changing an entry in place and moving it does. -/
theorem list_resorted {f : Flu} (h : FaultListLaw f) {old e : Entry} (hold : old ∈ f.list) (hu : e.unit = old.unit) (hc : e.code = old.code) (ha : e.arrival = old.arrival) :
    Resorted f { f with list := resort f.base e f.list } old e := by
  refine ⟨h.resort hold hu hc ha, rfl, ?_⟩
  show (resort f.base e f.list).Perm _
  unfold resort; rw [hu, hc, dropEntry_eq_erase h hold]
  exact insertEntry_perm _ _ _

/-- A changed entry makes a changed list. -/
theorem resort_list_ne {f : Flu} (h : FaultListLaw f) {old e : Entry} (hold : old ∈ f.list) (hu : e.unit = old.unit) (hc : e.code = old.code) (hne : e ≠ old) : resort f.base e f.list ≠ f.list := by
  intro he
  have : e ∈ f.list := by rw [← he]; exact mem_insertEntry.2 (.inl rfl)
  exact hne (eq_of_identity h.identity this hold hu hc)

/-- What removing an entry does. -/
theorem list_removed {f : Flu} (h : FaultListLaw f) {e : Entry} (he : e ∈ f.list) : Removed f (f.remove e.unit e.code) e := by
  refine ⟨h.remove _ _, ?_⟩
  unfold Flu.remove; dsimp only; rw [dropEntry_eq_erase h he]

/-- Removing an entry changes the list. -/
theorem remove_list_ne {f : Flu} {e : Entry} (he : e ∈ f.list) : (f.remove e.unit e.code).list ≠ f.list := by
  intro h
  have := dropEntry_length he rfl rfl
  have h2 : dropEntry e.unit e.code f.list = f.list := h
  rw [h2] at this; omega

/-- What inserting a new entry does, with and without the arrival numbers being counted anew. -/
theorem list_inserted {f : Flu} (h : FaultListLaw f) {m : FaultMsg} (hroom : f.list.length < 32)
    (hnew : ∀ e ∈ f.list, ¬(e.unit = m.unit ∧ e.code = m.code)) : Inserted f (f.insertNew m) m := by
  refine ⟨h.insertNew hroom hnew, ?_, fun hp => ?_, fun h1 h2 => ?_⟩
  · unfold Flu.insertNew Flu.rebase; dsimp only; split <;> rfl
  · have : f.rebase = f := by
      unfold Flu.rebase; rw [if_neg]; rintro ⟨a, b⟩; rcases hp with hp | hp
      · exact a hp
      · exact hp b
    unfold Flu.insertNew; dsimp only; rw [this]
    exact ⟨insertEntry_perm _ _ _, rfl, rfl⟩
  · have : f.rebase = { f with list := rebaseEntries f.base f.list, counter := BitVec.ofNat 16 f.list.length, base := some 0 } := by
      unfold Flu.rebase; rw [if_pos ⟨h1, h2⟩]
    have hl : (rebaseEntries f.base f.list) ≠ [] := by unfold rebaseEntries; simpa using h1
    unfold Flu.insertNew; dsimp only; rw [this]; dsimp only
    rw [if_neg hl]
    refine ⟨(insertEntry_perm _ _ _).trans ?_, rfl, rfl⟩
    refine List.Perm.cons _ ?_
    unfold rebaseEntries insertedBefore arrivalDistance
    rw [h2]
    exact List.Perm.refl _

/-- A new entry makes the list one longer. -/
theorem insertNew_length {f : Flu} {m : FaultMsg} : (f.insertNew m).list.length = f.list.length + 1 := by
  unfold Flu.insertNew Flu.rebase; dsimp only
  split <;> simp [insertEntry_length, rebaseEntries]

end Sys2Proof.Machine
end

