-- ==== Sys2Proof/Laws/Reports.lean ====
section
/-! SUPPORT. What the RPU requests when a report item or the list changes (chapter 10). -/

namespace Sys2Proof.Machine

/-- The mirror words depend on the list alone. -/
theorem Rpu.content_of_list (r q : Rpu) (k : Nat) (hk : 16 ≤ k) (h : q.list = r.list) : q.content k = r.content k := by
  obtain ⟨m, rfl⟩ := Nat.exists_eq_add_of_le' hk
  show (if 64 ≤ m + 16 ∧ m + 16 < 128 then mirrorContent q.list (m + 16 - 64) else 0) = (if 64 ≤ m + 16 ∧ m + 16 < 128 then mirrorContent r.list (m + 16 - 64) else 0)
  rw [h]

/-- A report item leaves every report word alone that it does not reach. -/
theorem Rpu.content_applyItem (r : Rpu) (i : ReportItem) (k) (h : k ∉ i.offsets) : (r.applyItem i).content k = r.content k := by
  by_cases hk : 16 ≤ k
  · cases i <;> exact Rpu.content_of_list _ _ _ hk rfl
  · push Not at hk
    cases i <;> simp only [ReportItem.offsets, List.mem_cons, List.not_mem_nil, or_false] at h <;> interval_cases k <;> first | (exfalso; omega) | rfl

/-- Some report items leave every report word alone that none of them reaches. -/
theorem Rpu.content_applyItems (items : List ReportItem) : ∀ (r : Rpu) (k), (∀ i ∈ items, k ∉ i.offsets) → (items.foldl Rpu.applyItem r).content k = r.content k := by
  induction items with
  | nil => intros; rfl
  | cons i is ih =>
    intro r k h
    rw [List.foldl_cons, ih _ _ (fun j hj => h j (List.mem_cons_of_mem _ hj)), Rpu.content_applyItem _ _ _ (h i List.mem_cons_self)]

/-- A report item reaches only the first sixteen report words. -/
theorem ReportItem.offsets_lt (i : ReportItem) (k) (h : k ∈ i.offsets) : k < 16 := by
  cases i <;> simp [ReportItem.offsets] at h <;> omega

/-- The words an item reaches, by offset (R155). -/
theorem ReportItem.mem_offsets (i : ReportItem) (k : Nat) : k ∈ i.offsets ↔ i.reaches k := by
  cases i <;> simp [ReportItem.offsets, ReportItem.reaches] <;> omega

/-- Each item of a hand-over is set, in their order (R155). -/
theorem Rpu.itemsSet (items : List ReportItem) : ∀ r : Rpu, ItemsSet items r (items.foldl Rpu.applyItem r) := by
  induction items with
  | nil => exact fun _ => rfl
  | cons i is ih => exact fun r => ⟨r.applyItem i, by cases i <;> rfl, ih _⟩

/-- All that taking a new RPU state hands to the MWQ: where a content changed, the words reached whose content is not what
was last caused. -/
theorem State.rpuCommit_handed (s : State) (rest) (r : Rpu) (offsets : List Nat) (reached : Nat → Prop)
    (hs : offsets.Pairwise (· < ·)) (ho : ∀ k, k ∈ offsets ↔ k < 128 ∧ reached k)
    (hu : ∀ k, ¬ reached k → r.content k = s.rpu.content k) :
    ReportsHanded s (({ s with inFlight := rest } : State).rpuCommit r offsets) rest reached := by
  have hsame : s.rpu.sameContents r offsets = true ↔ ∀ k < 128, r.content k = s.rpu.content k := by
    unfold Rpu.sameContents
    rw [List.all_eq_true]
    constructor
    · intro h k hk
      by_cases hr : reached k
      · exact beq_iff_eq.1 (h k ((ho k).2 ⟨hk, hr⟩))
      · exact hu k hr
    · exact fun h k hk => beq_iff_eq.2 (h k ((ho k).1 hk).1)
  generalize hws : (if s.rpu.sameContents r offsets then []
    else ({ s with inFlight := rest, rpu := r } : State).reportRequests offsets) = ws
  have he : ({ s with inFlight := rest } : State).rpuCommit r offsets = { s with
      rpu := r, inFlight := rest ++ (if ws = [] then [] else [.ownWrites .rpu ws]) } := by
    rw [← hws]
    unfold State.rpuCommit State.request
    dsimp only
    split
    · simp
    · split <;> simp [State.send]
  rw [he]
  refine ⟨r.reportLayout, hu, ⟨ws, rfl, ?_, fun h => ?_, fun h w => ?_⟩, rfl⟩
  · rw [← hws]
    split
    · exact List.Pairwise.nil
    · unfold State.reportRequests
      refine List.Pairwise.filterMap _ ?_ hs
      intro k l hkl v hv w hw
      dsimp only at hv hw
      split at hv
      · cases hv
      · split at hw
        · cases hw
        · cases hv; cases hw
          show decide (k < l) = true
          exact decide_eq_true hkl
  · rw [← hws, if_pos (hsame.2 h)]
  · obtain ⟨j, hj, hne⟩ := h
    rw [← hws, if_neg (fun hb => hne (hsame.1 hb j hj))]
    unfold State.reportRequests
    rw [List.mem_filterMap]
    dsimp only
    constructor
    · rintro ⟨k, hk, h⟩
      obtain ⟨h1, h2⟩ := (ho k).1 hk
      split at h
      · cases h
      · rename_i hn
        cases h
        exact ⟨k, h1, h2, rfl, rfl, rfl, hn⟩
    · rintro ⟨k, h1, h2, h3, h4, h5, h6⟩
      refine ⟨k, (ho k).2 ⟨h1, h2⟩, ?_⟩
      have hl : ({ s with inFlight := rest, rpu := r } : State).lastCaused (reportAddr k) ≠ some (r.content k) := by
        rw [h4, h5] at h6; exact h6
      rw [if_neg hl]
      cases w; simp only at h3 h4 h5; subst h3 h4 h5; rfl

end Sys2Proof.Machine
end

