-- ==== Sys2Proof/Laws/Steering.lean ====
section
/-! SUPPORT. The hand-overs by which the ASU and the TCU steer the fields, and the FSU the TCU: which operations send one,
and that every other operation leaves those in flight as they are. -/

namespace Sys2Proof.Machine

/-- A hand-over of the measured speed or of the displayed aspect to the FSU, or of the ASPECT record to the TCU. -/
def Msg.steers : Msg → Bool
  | .speed _ | .delivery _ _ | .writtenAspect _ _ | .aspectStale _ _ => true
  | _ => false

/-- The steering hand-overs in flight, the oldest first. -/
def State.steering (s : State) : List Msg := s.inFlight.filter Msg.steers

theorem State.steering_of {s t : State} (h : t.inFlight = s.inFlight) : t.steering = s.steering := by
  unfold State.steering
  rw [h]

/-- A path that carries no steering hand-over is taken without touching one. -/
theorem steers_takeFirst {α : Type} {p : Msg → Option α} (hp : ∀ m, Msg.steers m = true → p m = none) {ms rest : List Msg}
    {x : α} (h : takeFirst p ms = some (x, rest)) : rest.filter Msg.steers = ms.filter Msg.steers := by
  induction ms generalizing x rest with
  | nil => cases h
  | cons m ms ih =>
    unfold takeFirst at h
    cases hm : p m with
    | some y =>
      rw [hm] at h
      cases h
      rw [List.filter_cons_of_neg]
      intro hs
      rw [hp m hs] at hm
      cases hm
    | none =>
      rw [hm] at h
      obtain ⟨⟨y, r⟩, hr, he⟩ := Option.map_eq_some_iff.1 h
      cases he
      rw [List.filter_cons, List.filter_cons, ih hr]

/-! ## The shared operations -/

@[simp] theorem State.send_steering (s : State) (ms : List Msg) :
    (s.send ms).steering = s.steering ++ ms.filter Msg.steers := by
  simp [State.steering, State.send]

@[simp] theorem State.reach_steering (s : State) (n : Nat) : (s.reach n).steering = s.steering := rfl

@[simp] theorem State.sendFlu_steering (s : State) (b : Block) (rs : List FluRequest) :
    (s.sendFlu b rs).steering = s.steering := by
  unfold State.sendFlu
  rw [State.send_steering, List.filter_map, List.filter_eq_nil_iff.2, List.map_nil, List.append_nil]
  exact fun _ _ h => by cases h

@[simp] theorem State.sendEvents_steering (s : State) (b : Block) (es : List Event) :
    (s.sendEvents b es).steering = s.steering := by
  unfold State.sendEvents
  split
  · rfl
  · simp [Msg.steers]

@[simp] theorem State.sendReport_steering (s : State) (b : Block) (is : List ReportItem) :
    (s.sendReport b is).steering = s.steering := by
  unfold State.sendReport
  split
  · rfl
  · simp [Msg.steers]

@[simp] theorem State.request_steering (s : State) (b : Block) (ws : List OwnWrite) :
    (s.request b ws).steering = s.steering := by
  unfold State.request
  split
  · rfl
  · simp [Msg.steers]

@[simp] theorem State.noticeDrain_steering (s : State) : s.noticeDrain.steering = s.steering := by
  unfold State.noticeDrain
  split
  · rw [State.send_steering]
    exact List.append_nil _
  · rfl

@[simp] theorem State.grantHead_steering (s : State) : s.grantHead.steering = s.steering := by
  unfold State.grantHead
  split
  · rfl
  · dsimp only
    rw [State.noticeDrain_steering, State.steering_of (State.rederive_inFlight _)]
    rfl

theorem dropRequests_steers (a : Addr) (ms : List Msg) : (dropRequests a ms).filter Msg.steers = ms.filter Msg.steers := by
  induction ms with
  | nil => rfl
  | cons m ms ih =>
    cases m <;> simp [dropRequests, List.filter_cons, ih, Msg.steers]

@[simp] theorem State.supersede_steering (s : State) (a : Addr) : (s.supersede a).steering = s.steering := by
  unfold State.supersede
  dsimp only
  split
  · rw [State.noticeDrain_steering, State.steering_of (State.rederive_inFlight _)]
    exact dropRequests_steers a s.inFlight
  · exact dropRequests_steers a s.inFlight

@[simp] theorem State.receive_steering (s : State) (a : Addr) (w : Word) : (s.receive a w).steering = s.steering := by
  unfold State.receive
  rw [State.supersede_steering, State.steering_of (State.noteMemory_inFlight ..)]
  rfl

@[simp] theorem State.serveQueueTurn_steering (s : State) : s.serveQueueTurn.steering = s.steering := by
  unfold State.serveQueueTurn
  split <;> simp

@[simp] theorem State.grantComputer_steering (s : State) : s.grantComputer.steering = s.steering := rfl

@[simp] theorem State.takeRead_steering (s : State) (a : Addr) : (s.takeRead a).steering = s.steering :=
  s.serveQueueTurn_steering

/-! ## The blocks -/

@[simp] theorem State.handPublished_steering (s : State) :
    s.handPublished.steering = s.steering ++ [.speed s.asu.speedCopy] := by
  unfold State.handPublished
  rw [State.send_steering]
  rfl

@[simp] theorem State.completeWindow_steering (s : State) (brk : Bool) : (s.completeWindow brk).steering =
    s.steering ++ [.speed (s.asu.complete s.csu.shadow s.csu.solo brk).speedCopy] := by
  unfold State.completeWindow
  dsimp only
  rw [State.handPublished_steering, State.sendEvents_steering, State.sendFlu_steering, State.sendEvents_asu,
    State.sendFlu_asu]
  rfl

@[simp] theorem State.asuEntry_steering (s : State) :
    s.asuEntry.steering = s.steering ++ [.speed { selected := some 0, d := some 0 }] := by
  unfold State.asuEntry
  dsimp only
  rw [State.sendFlu_steering, State.handPublished_steering]
  rfl

theorem deliveries_steers (vmax : Nat) (a : Option Aspect) : (deliveries vmax a).filter Msg.steers =
    match a with
    | some x => [.delivery x.number (ceilingOf x vmax)]
    | none => [] := by
  cases a <;> rfl

theorem tcuInputs_steers (t u : Tcu) : (tcuInputs t u).filter Msg.steers = [] := by
  unfold tcuInputs
  split <;> split <;> rfl

/-- One operation of the TCU sends one steering hand-over at most: the delivery of its displayed aspect (R90). -/
theorem State.tcuCommit_steering (s : State) (u : Tcu) (flu : List FluRequest) (again : Bool) :
    (s.tcuCommit u flu again).steering = s.steering ++
      if delivers again s.tcu u then (deliveries s.csu.shadow.imgVmax u.displayed).filter Msg.steers else [] := by
  unfold State.tcuCommit
  dsimp only
  rw [State.sendReport_steering]
  have h : ((({ s with tcu := u } : State).sendFlu .tcu flu).send (tcuInputs s.tcu u)).steering = s.steering := by
    rw [State.send_steering, State.sendFlu_steering, tcuInputs_steers, List.append_nil]
    rfl
  split
  · rw [State.send_steering, h]
  · rw [h, List.append_nil]

theorem State.tcuEntry_steering (s : State) : s.tcuEntry.steering = s.steering ++
    (deliveries s.csu.shadow.imgVmax (lossAspect s.tcu.aspects)).filter Msg.steers := by
  unfold State.tcuEntry
  dsimp only
  rw [State.sendReport_steering, State.send_steering]
  rfl

@[simp] theorem State.fsuCommit_steering (s : State) (f : Fsu) : (s.fsuCommit f).steering = s.steering := by
  unfold State.fsuCommit
  dsimp only
  split
  · rw [State.request_steering]
    rfl
  · rw [State.send_steering, State.request_steering]
    exact List.append_nil _

@[simp] theorem State.evaluateSilent_steering (s : State) : s.evaluateSilent.steering = s.steering := by
  unfold State.evaluateSilent
  dsimp only
  rw [State.sendFlu_steering]
  rfl

@[simp] theorem State.staleChanged_steering (s : State) (i : Nat) (k : Kind) (b : Bool) :
    (s.staleChanged i k b).steering = s.steering := by
  unfold State.staleChanged
  dsimp only
  rw [State.evaluateSilent_steering, State.send_steering, State.sendFlu_steering, State.sendReport_steering]
  exact List.append_nil _

@[simp] theorem State.receiveField_steering (s : State) (a : Addr) (j : Judgement) :
    (s.receiveField a j).steering = s.steering := by
  unfold State.receiveField
  split
  · split <;> simp
  · rfl

/-- A field write sends one steering hand-over at most: the written aspect, with the number it was judged by (R91). -/
theorem State.fieldWrite_steering {s : State} {i : Nat} {r : Record} (w : Word) (hr : s.fsu.table[i]? = some r)
    (hk : r.fixed.kind ≠ .faultSlot) : (s.fieldWrite i w).steering = s.steering ++
      if r.fixed.kind = .aspect then [.writtenAspect w (numberOf (wouldDisplay s.tcu w))] else [] := by
  unfold State.fieldWrite
  rw [hr]
  dsimp only
  rw [if_neg hk]
  by_cases ha : r.fixed.kind = .aspect <;> by_cases hs : r.state = .stale <;> simp [ha, hs, Msg.steers]

/-- A record that goes STALE sends one steering hand-over at most: the notice to the TCU, with the number shown (R89). -/
theorem State.goStale_steering (s : State) (i : Nat) (r : Record) : (s.goStale i r).steering = s.steering ++
    if r.fixed.kind = .aspect then [.aspectStale true s.staleDisplay] else [] := by
  unfold State.goStale
  dsimp only
  by_cases ha : r.fixed.kind = .aspect <;> simp [ha, Msg.steers]

@[simp] theorem State.applyFlu_steering (s : State) (e : FluEffect) : (s.applyFlu e).steering = s.steering := by
  unfold State.applyFlu
  dsimp only
  have h : ∀ u : State, u.listHandovers.filter Msg.steers = [] := by
    intro u
    unfold State.listHandovers
    split <;> rfl
  split <;> split <;> simp [h, Msg.steers] <;> rfl

@[simp] theorem State.takeRequest_steering (s : State) (r : FluRequest) : (s.takeRequest r).steering = s.steering := by
  cases r <;> exact State.applyFlu_steering ..

@[simp] theorem State.takeWindow_steering (s : State) (x : WindowStep) : (s.takeWindow x).steering = s.steering := by
  unfold State.takeWindow
  dsimp only
  split
  · rw [State.takeRequest_steering]
    rfl
  · split
    · rw [State.sendEvents_steering]
      rfl
    · rfl

/-! ## The annunciation unit -/

theorem Anu.changes_steers (a : Anu) (fs : List LampFn) : (a.changes fs).filter Msg.steers = [] := by
  unfold Anu.changes
  rw [List.filter_map, List.filter_eq_nil_iff.2, List.map_nil]
  exact fun _ _ h => by cases h

@[simp] theorem State.reevaluate_steering (s : State) (fs : List LampFn) : (s.reevaluate fs).steering = s.steering := by
  unfold State.reevaluate
  split
  · rw [State.send_steering, Anu.changes_steers, List.append_nil]
    rfl
  · rfl

@[simp] theorem State.followDemands_steering (s : State) : s.followDemands.steering = s.steering :=
  State.steering_of s.followDemands_inFlight

@[simp] theorem State.chime_steering (s : State) : s.chime.steering = s.steering := State.steering_of s.chime_inFlight

@[simp] theorem State.stepCadence_steering (s : State) : s.stepCadence.steering = s.steering :=
  State.steering_of s.stepCadence_inFlight

@[simp] theorem State.evaluate_steering (s : State) (fs : List LampFn) : (s.evaluate fs).steering = s.steering := by
  unfold State.evaluate
  dsimp only
  split <;> simp <;> rfl

@[simp] theorem State.endRestriction_steering (s : State) : s.endRestriction.steering = s.steering := by
  unfold State.endRestriction
  dsimp only
  split
  · simp
    rfl
  · rfl

@[simp] theorem State.startLampTest_steering (s : State) : s.startLampTest.steering = s.steering := by
  unfold State.startLampTest
  simp [Msg.steers]
  rfl

@[simp] theorem State.endLampTest_steering (s : State) : s.endLampTest.steering = s.steering := by
  unfold State.endLampTest
  simp [Msg.steers]
  rfl

@[simp] theorem State.arbitrate_steering (s : State) : s.arbitrate.steering = s.steering := by
  unfold State.arbitrate
  split
  · simp
  · split <;> simp

@[simp] theorem State.buttonChanged_steering (s : State) (b : Button) (p : Bool) :
    (s.buttonChanged b p).steering = s.steering := by
  unfold State.buttonChanged State.pressAck
  repeat' split
  all_goals simp
  all_goals rfl

@[simp] theorem State.anuStandby_steering (s : State) : s.anuStandby.steering = s.steering := by
  unfold State.anuStandby
  dsimp only
  split <;> simp [State.steering_of (s := s.endRestriction)]

@[simp] theorem State.anuReturn_steering (s : State) : s.anuReturn.steering = s.steering := by
  unfold State.anuReturn
  rw [State.followDemands_steering, State.reevaluate_steering]
  rfl

@[simp] theorem State.anuEntry_steering (s : State) (n : Nat) : (s.anuEntry n).steering = s.steering := by
  unfold State.steering
  rw [State.anuEntry_inFlight]
  simp [List.filter_append, lampFunctions, Msg.steers]

/-! ## The report unit -/

@[simp] theorem State.rpuCommit_steering (s : State) (r : Rpu) (os : List Nat) : (s.rpuCommit r os).steering = s.steering := by
  unfold State.rpuCommit
  dsimp only
  split
  · rfl
  · rw [State.request_steering]
    rfl

@[simp] theorem State.setEvents_steering (s : State) (es : List Event) : (s.setEvents es).steering = s.steering := by
  unfold State.setEvents
  split
  · rfl
  · split
    · rfl
    · rw [State.rpuCommit_steering]

@[simp] theorem State.writeEvents_steering (s : State) (m : Word) : (s.writeEvents m).steering = s.steering := by
  unfold State.writeEvents
  rw [State.receive_steering]
  rfl

@[simp] theorem State.writeEnable_steering (s : State) (m : Word) : (s.writeEnable m).steering = s.steering := by
  unfold State.writeEnable
  rw [State.receive_steering]
  rfl

/-! ## Entries -/

@[simp] theorem State.enterLoading_steering (s : State) (v : Verdict) (o : BitVec 8) :
    (s.enterLoading v o).steering = s.steering := by
  unfold State.enterLoading
  dsimp only
  rw [State.sendEvents_steering, State.sendReport_steering]
  rfl

@[simp] theorem State.fsuStandby_steering (s : State) : s.fsuStandby.steering = s.steering := by
  unfold State.fsuStandby
  rw [State.request_steering]
  rfl

@[simp] theorem State.fsuReturn_steering (s : State) : s.fsuReturn.steering = s.steering := by
  unfold State.fsuReturn
  rw [State.request_steering]
  rfl

@[simp] theorem State.enterStandby_steering (s : State) : s.enterStandby.steering = s.steering := by
  unfold State.enterStandby
  dsimp only
  rw [State.anuStandby_steering, State.fsuStandby_steering, State.sendReport_steering, State.sendEvents_steering]
  unfold State.steering
  rw [List.filter_filter]
  refine List.filter_congr fun m _ => ?_
  cases m <;> rfl

@[simp] theorem State.returnToRunning_steering (s : State) : s.returnToRunning.steering = s.steering := by
  unfold State.returnToRunning
  dsimp only
  rw [State.anuReturn_steering, State.fsuReturn_steering, State.sendReport_steering, State.sendEvents_steering]
  rfl

@[simp] theorem State.fsuEntry_steering (s : State) : s.fsuEntry.steering = s.steering := by
  unfold State.steering
  rw [State.fsuEntry_inFlight]
  simp only [List.filter_append]
  split <;> simp [Msg.steers]

/-- The RUNNING entry sends the reset speed and, where there is one, the loss aspect (R57, R90, R175). -/
theorem State.enterRunningOnly_steering (s : State) : s.enterRunningOnly.steering = s.steering
    ++ [.speed { selected := some 0, d := some 0 }]
    ++ (deliveries s.csu.shadow.imgVmax (lossAspect s.tcu.aspects)).filter Msg.steers := by
  unfold State.enterRunningOnly
  dsimp only
  rw [State.anuEntry_steering, State.fsuEntry_steering, State.tcuEntry_steering, State.asuEntry_steering,
    State.sendEvents_steering, State.sendReport_steering]
  simp
  rfl

end Sys2Proof.Machine
end

