-- ==== Sys2Proof/WellFormed.lean ====
section
/-! DEFINITION. Which commands are well formed: the operand lies where the row's own rule has it.
`exec` does not test this: a computer write is decoded by its address at the take (R20) whatever row names it. -/

namespace Sys2Proof

/-- The address lies in the display area 0000h–1DFFh, where every supervised field lies. -/
def Addr.isDisplay (a : Addr) : Bool := decide (a.toNat < 0x1E00)

/-- The address lies in the configuration region 1E00h–1EFFh. -/
def Addr.isConfiguration (a : Addr) : Bool := decide (0x1E00 ≤ a.toNat ∧ a.toNat ≤ 0x1EFF)

/-- The blocks that send internal fault messages (R100). -/
def Block.sendsFaults : Block → Bool
  | .asu | .tcu | .anu | .fsu => true
  | .trp | .flu | .mwq | .rpu | .csu => false

/-- The blocks that hand event causes to the RPU (R158). -/
def Block.sendsEvents : Block → Bool
  | .asu | .tcu | .anu | .fsu | .flu | .csu => true
  | .trp | .mwq | .rpu => false

/-- The blocks that hand report content to the RPU (R155), the FLU's list hand-over apart. -/
def Block.sendsReports : Block → Bool
  | .asu | .tcu | .anu | .fsu | .csu => true
  | .trp | .flu | .mwq | .rpu => false

/-- The owners of own writes (R144). -/
def Block.ownsWrites : Block → Bool
  | .fsu | .rpu => true
  | .trp | .asu | .tcu | .flu | .anu | .mwq | .csu => false

/-- The operands of a command lie where its row has them. -/
def Instr.wellFormed : Instr → Bool
  | .actualWrite a _ | .permittedWrite a _ | .targetWrite a _ | .aspectWrite a _
  | .lampsWrite a _ | .watchedWrite a _ | .faultSlotWrite a _ | .standbyFieldWrite a _ => a.isDisplay
  | .configurationCaptureWrite a _ => a.isConfiguration && a.toNat != 0x1EFF
  | .lockedConfigurationWrite a _ => a.isConfiguration
  | .raise b | .clear b => b.sendsFaults
  | .setEvent b => b.sendsEvents
  | .reportHandover b => b.sendsReports
  | .ownWriteRequest b => b.ownsWrites
  | .ageTimerExpiry i => decide (i < Config.maxRecords)
  | .eventWordWrite _ | .interruptEnableWrite _ | .territoryWrite _ | .checkWordWrite _
  | .faultEntryUnitCodeWrite _ | .faultEntrySeverityActionWrite _ | .faultEntryTextIndexWrite _
  | .plainWrite _ _ | .axleEdge _ _ | .windowCompletion _ | .speedHandover | .completionHandoverAnu | .newPr
  | .strobe _ _ | .lossTimerExpiry | .holdTimerExpiry | .writtenAspectTaken | .aspectStaleNotice
  | .aspectDelivery | .rankDelivery | .acknowledgementTimerExpiry | .acknowledge | .listHandoverFsu
  | .listHandoverAnu | .listHandoverRpu | .chimeRequest | .cadenceTimerExpiry | .flashTimerExpiry
  | .lampFunctionChange | .functionInputHandover | .staleNotice | .buttonLineChange _ _
  | .buttonDebounceExpiry _ | .lockoutExpiry | .lampTestTimeout | .lampTestBegun | .lampTestEnded
  | .ownWriteGrant | .fieldDrainNotice | .pwrgFall | .pwrgRise | .settleTimeExpiry _ | .wrstFall
  | .wrstRise _ | .loadTimerExpiry | .cabactLineChange _ | .cabactDebounceExpiry => true

end Sys2Proof
end

