-- ==== Sys2Proof/Tests/Slice0.lean ====
section
/-! SUPPORT. Tests of single commands against the worked sequences and tables of the spec, the refusals of the
well-formedness check, and for each statement with hypotheses a state and operands that meet them. -/

namespace Sys2Proof.Tests

open Sys2Proof.Machine

/-! ## Well-formedness -/

theorem test_field_above_display_is_ill_formed : (Instr.actualWrite 0x1E00 0).wellFormed = false := by decide
theorem test_capture_of_check_word_is_ill_formed : (Instr.configurationCaptureWrite 0x1EFF 0).wellFormed = false := by
  decide
theorem test_locked_outside_region_is_ill_formed : (Instr.lockedConfigurationWrite 0x1F00 0).wellFormed = false := by
  decide
theorem test_queue_raises_no_fault : (Instr.raise .mwq).wellFormed = false := by decide
theorem test_port_clears_no_fault : (Instr.clear .trp).wellFormed = false := by decide
theorem test_queue_sets_no_event : (Instr.setEvent .mwq).wellFormed = false := by decide
theorem test_list_hands_no_report_items : (Instr.reportHandover .flu).wellFormed = false := by decide
theorem test_speed_unit_owns_no_word : (Instr.ownWriteRequest .asu).wellFormed = false := by decide
theorem test_record_48_is_ill_formed : (Instr.ageTimerExpiry 48).wellFormed = false := by decide
theorem test_field_at_display_end_is_well_formed : (Instr.actualWrite 0x1DFF 0).wellFormed = true := by decide

/-! ## Small states -/

/-- The state after a command. -/
def after (c : Instr) (s : State) : State :=
  match exec c s with
  | .next t => t
  | .fault _ | .refused _ => s

/-- A static part with no tolerance and no lamps. -/
def field (addr : Addr) (kind : Kind) : FieldStatic :=
  { addr := addr, kind := kind, action := .blank, period := 0, blank := 0, tolerance := 0, lamps := [] }

/-- A record that has a written and a shown value. -/
def record (fixed : FieldStatic) (state : FieldState) (written : Option Word) (shown : Word) : Record :=
  { fixed := fixed, state := state, written := written, shown := some shown, age := none, count := 0 }

/-- The general parameters and the aspect table of the spec's worked images (3.10, 5.8), with one WATCHED field at 0010h;
the check word at offset 255 is not among them. -/
def image : Memory :=
  [(0, 1), (1, 100), (2, 1000), (3, 980), (4, 200), (5, 160), (6, 30), (7, 60), (8, 1), (9, 3), (10, 600), (11, 2000),
   (12, 5), (13, 20), (14, 50), (17, 0x8000), (18, 0xC908), (19, 0x9210), (21, 0x9B18), (22, 0xA420), (25, 0xAD28),
   (26, 0xAD28), (32, 0xE010), (33, 0x0105), (34, 0x7777)]

/-- The records of the worked sequences: ACTUAL (chapter 4), PERMITTED, TARGET and ASPECT (5.8), LAMPS (2.4), a slot and
a WATCHED field (8.7). -/
def table : List Record :=
  [{ record { field 0x500 .actual with tolerance := 10, period := 2000 } .unset none 56 with age := some 2000 },
   record (field 0x501 .permitted) .live (some 150) 150,
   record (field 0x502 .target) .live (some 130) 130,
   record (field 0x503 .aspect) .live (some 5) 5,
   record { field 0x420 .lamps with lamps := [⟨0, .faultAny⟩, ⟨1, .overspeed⟩, ⟨15, .staleAny⟩] } .unset none 0,
   record (field 0x600 .faultSlot) .live none 0,
   { record { field 0x610 .watched with period := 500, blank := 0x7777 } .live (some 0x1234) 0x1234 with age := some 500 }]

/-- The aspects of 5.8 by number. -/
def aspect1 : Aspect := { number := 1, rank := 1, ceiling := 40 }
def aspect3 : Aspect := { number := 3, rank := 3, ceiling := 120 }
def aspect5 : Aspect := { number := 5, rank := 5, ceiling := 200 }

/-- RUNNING with the image and the records above, code 9 confirmed and aspect 5 displayed, C and PR 160 and 150. -/
def demo : State :=
  { State.reset with
    csu := { Csu.reset with op := .running, pwrg := true, powerReset := false, shadow := image, locked := true
                            verdict := .accepted, cabTimer := some 100 }
    fsu := { Fsu.reset with table := table, speed := some ⟨some 561, some 56⟩, ceiling := some 160, pr := some 150 }
    asu := { Asu.reset with limits := some (limitsOf image), window := some 200, selected := some 561, d := some 56 }
    tcu := { Tcu.reset with aspects := image.aspectTable, candidate := some (9, 3), state := .confirmed
                            confirmed := some 9, received := some aspect5, loss := some 600, written := some 5
                            displayed := some aspect5 }
    anu := { Anu.reset false false with reference := some 1000, rank := some 5, flash := some 500, slots := 1 } }

/-- The demo state in another operating state. -/
def demoIn (op : OpState) : State := { demo with csu := { demo.csu with op := op } }

/-- The demo state with one hand-over in flight. -/
def sent (m : Msg) : State := { demo with inFlight := [m] }

/-- The demo state with a speed copy in the FSU. -/
def moving (v d : Option Nat) : State := { demo with fsu := { demo.fsu with speed := some ⟨v, d⟩ } }

/-- The demo state with the ANU at a stage, for a completion at a speed. -/
def staged (stage : Stage) (v : Nat) : State :=
  { sent (.completion ⟨some v, .forward, false, false, false, false⟩) with
    anu := { demo.anu with stage := stage } }

/-- Record i as it stands. -/
def rec (s : State) (i : Nat) : Option (FieldState × Option Word × Option Word × Nat) :=
  (s.fsu.table[i]?).map fun r => (r.state, r.written, r.shown, r.count)

/-- An entry of the fault list. -/
def entry (unit : BitVec 4) (code : BitVec 12) (severity : Severity) (text : BitVec 10) (arrival : BitVec 16) : Entry :=
  { unit := unit, code := code, severity := severity, text := text, state := .activeUnacked, arrival := arrival }

/-- The demo state with the two entries of 7.7. -/
def listed : State :=
  { demo with flu := { Flu.reset with list := [entry 15 0x005 .a 965 40, entry 3 0x110 .b 7 41], base := some 40
                                      counter := 42 } }

/-! ## Field writes -/

/-- Chapter 4, the ACTUAL field over a run, steps 3 and 7. -/
theorem test_actual_passed : rec (after (.actualWrite 0x500 52) (moving (some 523) (some 52))) 0
    = some (.live, some 52, some 52, 0) := by decide
theorem test_actual_corrected : rec (after (.actualWrite 0x500 70) (moving (some 561) (some 56))) 0
    = some (.corrected, some 70, some 56, 1) := by decide
/-- R65, R67: with C = 160, PERMITTED 120 lowers PR and TARGET with it. -/
theorem test_permitted_moves_target : rec (after (.permittedWrite 0x501 120) demo) 2
    = some (.corrected, some 130, some 120, 0) := by decide
theorem test_permitted_capped : (after (.permittedWrite 0x501 200) demo).mem.read 0x501 = 160 := by decide
/-- R67: TARGET above PR = 150. -/
theorem test_target_capped : (after (.targetWrite 0x502 151) demo).mem.read 0x502 = 150 := by decide
/-- R89, R91: the lower rank of received aspect 5 and written aspect 3 is displayed; with the received aspect 1, aspect 1. -/
theorem test_aspect_lower_written : (after (.aspectWrite 0x503 3) demo).mem.read 0x503 = 3 := by decide
theorem test_aspect_lower_received :
    (after (.aspectWrite 0x503 3) { demo with tcu := { demo.tcu with received := some aspect1 } }).mem.read 0x503 = 1 := by
  decide
/-- 2.4, steps 2 and 6. -/
theorem test_lamps_merged : rec (after (.lampsWrite 0x420 0x0C07) demo) 4 = some (.live, some 0x0C07, some 0x0C04, 0) := by
  decide
theorem test_lamps_in_test : (after (.lampsWrite 0x420 0x0C00) { demo with
    fsu := { demo.fsu with lampTest := true } }).mem.read 0x420 = 0xFFFF := by decide
/-- R30. -/
theorem test_watched_passed : (after (.watchedWrite 0x610 0x0055) demo).mem.read 0x610 = 0x0055 := by decide
/-- R31. -/
theorem test_slot_write_suppressed : (after (.faultSlotWrite 0x600 7) demo).mem = demo.mem := by decide
/-- R25: a write in STANDBY is recorded, and memory keeps its word. -/
theorem test_standby_write_recorded : rec (after (.standbyFieldWrite 0x501 77) (demoIn .standby)) 1
    = some (.live, some 77, some 150, 0) := by decide
theorem test_standby_write_suppressed : (after (.standbyFieldWrite 0x501 77) (demoIn .standby)).mem = [] := by decide

/-! ## Reads -/

/-- The state after a step. -/
def stepped (s : State) : State :=
  match step s with
  | .next t => t
  | .fault _ | .refused _ => s

/-- R19, R149, R151: a read passes back what memory holds, and takes the turn; a queued own write is not yet there. -/
def held0 : State := { demo with mem := [(0x500, 70)], mwq := { Mwq.reset with queue := [⟨0x500, 56, .field 0⟩] } }
theorem test_read_answered : (fun s : State => (s.answer, s.mwq.queueTurn, s.reads))
    (stepped { held0 with reads := [0x500] }) = (some 70, true, []) := by decide
/-- R149: with the turn at QUEUE the own write goes first. -/
theorem test_read_after_grant : (stepped { held0 with
    reads := [0x500], mwq := { held0.mwq with queueTurn := true } }).answer = some 56 := by decide
/-- R18: a read in RESET is held, unanswered. -/
theorem test_read_held : (fun s : State => (s.held, s.answer, s.drdy)) (stepped { State.reset with reads := [5] })
    = (some (.read 5), none, false) := by decide

/-! ## Writes to the upper regions -/

/-- 10.5, steps 3 and 6: SC is bit 11, OA bit 2, ST bit 6, FA bit 3. -/
def events (e : Word) : State := { demo with rpu := { demo.rpu with events := e, enable := 0x080C, intr := true } }
theorem test_event_clear_keeps_oa : (after (.eventWordWrite 0x0800) (events 0x0804)).mem.read 0x1F07 = 0x0004 := by
  decide
theorem test_event_clear_drops_intr : (after (.eventWordWrite 0x0044) (events 0x0044)).rpu.intr = false := by decide
/-- R160, R161. -/
theorem test_enable_raises_intr : (after (.interruptEnableWrite 0xF004)
    { demo with rpu := { demo.rpu with events := 0x0004 } }).rpu.intr = true := by decide
/-- R86: a standing train is at most 4 tenths fast. -/
theorem test_territory_at_4_tenths : (after (.territoryWrite 1)
    { demo with asu := { demo.asu with selected := some 4 } }).tcu.uncoded = true := by decide
theorem test_territory_at_5_tenths : (after (.territoryWrite 1)
    { demo with asu := { demo.asu with selected := some 5 } }).mem.read 0x1F0D = 0 := by decide
/-- 11.6: the revised word is captured; the first check fails at the CRC; a locked word is suppressed with event CI. -/
theorem test_capture : (after (.configurationCaptureWrite 0x1E03 980) (demoIn .loading)).csu.shadow.read 3 = 980 := by
  decide
/-- The checkpoints of the image's CRC, and its CRC 1AEBh, which offset 255 does not hold. -/
theorem crc_image (w : Word) (h : w = 0 ∨ w = 0x1AEB) : imageCrc (image.write 255 w) = 0x1AEB := by
  rcases h with rfl | rfl <;>
    exact imageCrc_of_checkpoints (cps := [65535, 34851, 17217, 10938, 41528, 21355, 13330, 59039, 18364, 57292, 7333,
      19989, 9938, 64487, 33559, 54817, 21504, 12272, 37515, 64352, 44946, 24638, 59532, 15149, 5065, 15589, 8712, 8504,
      6891]) rfl (by decide +kernel) rfl
theorem test_check_fails : (fun c : Csu => (c.verdict, c.failures, c.failOff)) (demoIn .loading).judgeImage.csu
    = (.crcFail, 1, 0xFF) := by
  have h : checkImage (demoIn .loading).csu.shadow = .crcFails := if_pos (by
    rw [show imageCrc (demoIn .loading).csu.shadow = 0x1AEB from crc_image 0 (.inl rfl)]; decide)
  unfold State.judgeImage
  rw [h]
  decide
theorem test_locked_write : (after (.lockedConfigurationWrite 0x1E19 5) demo).inFlight = [.events .csu [.ci]] := by
  decide
/-- 6.10, step 1: unit 4, code 312h, severity B, text 210, counter 700. -/
theorem test_window_one : (after (.faultEntryUnitCodeWrite 0x4312) demo).flu.partialMsg = .one 4 0x312 := by decide
theorem test_window_internal_unit : (after (.faultEntryUnitCodeWrite 0xF001) demo).inFlight = [.events .flu [.fs]] := by
  decide
theorem test_window_two : (after (.faultEntrySeverityActionWrite 2)
    { demo with flu := { Flu.reset with partialMsg := .one 4 0x312 } }).flu.partialMsg = .two 4 0x312 .b false := by decide
theorem test_window_completes : (after (.faultEntryTextIndexWrite 210)
    { demo with flu := { Flu.reset with partialMsg := .two 4 0x312 .b false, counter := 700 } }).flu
    = { partialMsg := .none, list := [entry 4 0x312 .b 210 700], base := some 700, counter := 701 } := by decide
theorem test_window_text_960 : (after (.faultEntryTextIndexWrite 960)
    { demo with flu := { Flu.reset with partialMsg := .two 4 0x312 .b false } }).flu.list = [] := by decide
/-- R23. -/
theorem test_plain : (after (.plainWrite 0x1F10 9) demo).mem.read 0x1F10 = 9 := by decide

/-! ## The axle speed unit -/

theorem test_edge_forward : (after (.axleEdge .one true) demo).asu.ch1.fwd = 1 := by decide
theorem test_edge_reverse_wraps : (after (.axleEdge .two false)
    { demo with asu := { demo.asu with ch2 := { AxleState.reset with rev := 0xFFFF } } }).asu.ch2.rev = 0 := by decide
/-- 3.10, windows k and k+1: pulses n1 and n2 after the speeds before. -/
def window (n1 n2 : BitVec 16) (v1 v2 : Option Nat) : Asu :=
  (after (.windowCompletion false) { demo with asu := { demo.asu with
    ch1 := { AxleState.reset with fwd := n1, vPrev := v1 }, ch2 := { AxleState.reset with fwd := n2, vPrev := v2 } } }).asu
theorem test_window_k : (fun a : Asu => (a.ch1.v, a.ch2.v, a.selected, a.d)) (window 177 180 none none)
    = (1001, 998, some 1001, some 100) := by decide
theorem test_window_k1 : (fun a : Asu => (a.ch1.v, a.ch1.failed, a.selected, a.d)) (window 212 180 (some 1001) (some 998))
    = (1199, true, some 998, some 100) := by decide
/-- Chapter 4, the ACTUAL field over a run, step 4. -/
theorem test_speed_recheck : rec (after .speedHandover { sent (.speed ⟨some 547, some 55⟩) with
    fsu := { demo.fsu with table := [record { field 0x500 .actual with tolerance := 10 } .live (some 52) 52] } }) 0
    = some (.corrected, some 52, some 55, 0) := by decide
/-- Chapter 4, stages, margins and a falling ceiling, steps 4, 6 and 9. -/
theorem test_stage_alarm : (after .completionHandoverAnu (staged .warning 1051)).anu.stage = .alarm := by decide
theorem test_stage_alarm_exit : (after .completionHandoverAnu (staged .alarm 1040)).anu.stage = .warning := by decide
theorem test_stage_new_pr : (after .newPr { sent (.newPr 80) with
    anu := { demo.anu with copy := some ⟨some 1010, .forward, false, false, false, false⟩ } }).anu.stage = .alarm := by
  decide

/-! ## The track code unit -/

/-- 5.8: the third sample of code 5, and a strobe 39 ms after the last taken one (R78). -/
def sampled (n : Nat) : State := { demo with tcu := { demo.tcu with candidate := some (5, n), lastStrobe := some 0 } }
theorem test_strobe_confirms : (after (.strobe 5 100) (sampled 2)).tcu.displayed = some aspect3 := by decide
theorem test_strobe_too_soon : (after (.strobe 5 39) (sampled 2)).tcu = (sampled 2).tcu := by decide
theorem test_loss_holds : (after .lossTimerExpiry demo).tcu.hold = some 2600 := by decide
theorem test_hold_loses : (fun t : Tcu => (t.state, t.received)) (after .holdTimerExpiry
    { demo with tcu := { demo.tcu with state := .holding, hold := some 2600 } }).tcu = (.lost, some aspect1) := by decide
theorem test_written_aspect : (after .writtenAspectTaken
    (sent (.writtenAspect 3 (some 3)))).tcu.displayed = some aspect3 := by decide
/-- R91, R92: aspect 3 is received between a passed write of 4 and its take; the displayed number stays 3, and it is
delivered all the same. -/
theorem test_overtaken_aspect_delivered : pickDelivery <$> (after .writtenAspectTaken
    { sent (.writtenAspect 4 (some 4)) with
      tcu := { demo.tcu with received := some aspect3, displayed := some aspect3 } }).inFlight.head?
    = some (some (3, 120)) := by decide
theorem test_aspect_stale : (after .aspectStaleNotice { sent (.aspectStale true (some 5)) with
    tcu := { demo.tcu with written := some 3, displayed := some aspect3 } }).tcu.displayed = some aspect5 := by decide
/-- R68 with C = 120. -/
theorem test_delivery_cascades : (fun f : Fsu => (f.pr, (f.table.map Record.shown).take 4))
    (after .aspectDelivery (sent (.delivery 3 120))).fsu = (some 120, [some 56, some 120, some 120, some 3]) := by decide
/-- 7.7 at 0: the rank falls 5 to 3; T_ack is 5000 ms. -/
theorem test_rank_falls : (fun a : Anu => (a.pendingAck, a.ackTimer, a.rank)) (after .rankDelivery (sent (.rank 3))).anu
    = (true, some 5000, some 3) := by decide
theorem test_ack_timer : (after .acknowledgementTimerExpiry
    { demo with anu := { demo.anu with pendingAck := true, ackTimer := some 5000 } }).inFlight
    = [.fault .anu (.raise ⟨15, 0x011, .a, 967⟩)] := by decide

/-! ## The fault list unit -/

theorem test_raise : (after (.raise .tcu) (sent (.fault .tcu (.raise ⟨15, 0x010, .b, 966⟩)))).flu.list
    = [entry 15 0x010 .b 966 0] := by decide
/-- 6.4: graver severities first. -/
theorem test_raise_sorts : ((after (.raise .fsu) { listed with
    inFlight := [.fault .fsu (.raise ⟨15, 0x020, .a, 968⟩)] }).flu.list.map Entry.code) = [0x005, 0x020, 0x110] := by
  decide
/-- 8.7: the CLEAR of an unacknowledged severity C entry removes it. -/
theorem test_clear : (after (.clear .fsu) { sent (.fault .fsu (.clear ⟨15, 0x103, .c, 969⟩)) with
    flu := { Flu.reset with list := [entry 15 0x103 .c 969 0], base := some 0, counter := 1 } }).flu.base = none := by
  decide
/-- 7.7 at 1500: 005h becomes ACTIVE_ACKED. -/
theorem test_acknowledge : ((after .acknowledge { listed with
    inFlight := [.fault .anu .acknowledge] }).flu.list.map Entry.state) = [.activeAcked, .activeUnacked] := by decide
/-- R112: outside RUNNING no entry is acknowledged. -/
theorem test_acknowledge_in_standby : (after .acknowledge { listed with
    csu := (demoIn .standby).csu, inFlight := [.fault .anu .acknowledge] }).flu = listed.flu := by decide
/-- 8.7: the slot word of 020h is text 968, severity 1, state 1. -/
theorem test_slot_word : rec (after .listHandoverFsu (sent (.listFsu [entry 15 0x020 .a 968 0]))) 5
    = some (.live, none, some 6088, 0) := by decide
theorem test_summary_sounds : (fun a : Anu => (a.fns.faultA, a.sounding)) (after .listHandoverAnu
    (sent (.listAnu ⟨true, true, 2, 2⟩))).anu = (true, .intermittent) := by decide
/-- 13.6: three entries, two of them unacknowledged. -/
theorem test_counts_word : (after .listHandoverRpu (sent (.listRpu [entry 1 1 .a 1 0, entry 1 2 .b 1 1,
    { entry 1 3 .b 1 2 with state := .activeAcked }]))).rpu.content 9 = 0x0203 := by decide

/-! ## The annunciation unit -/

/-- 7.7 at 2000. -/
theorem test_chime : (fun a : Anu => (a.sounding, a.buz, a.cadence)) (after .chimeRequest { sent .chime with
    now := 2000 }).anu = (.chime, true, some 2300) := by decide
theorem test_cadence_ends_chime : (fun a : Anu => (a.sounding, a.buz)) (after .cadenceTimerExpiry { demo with
    anu := { demo.anu with sounding := .chime, buz := true, cadence := some 300 } }).anu = (.none, false) := by decide
theorem test_flash : (fun a : Anu => (a.phase, a.flash)) (after .flashTimerExpiry demo).anu = (false, some 1000) := by
  decide
/-- 2.4, steps 3, 5 and 7. -/
def lamps (written : Word) (test : Bool) (m : Msg) : State :=
  { sent m with fsu := { demo.fsu with
      table := [record { field 0x420 .lamps with lamps := [⟨0, .faultAny⟩, ⟨1, .overspeed⟩] } .live (some written) 0]
      lampTest := test, fns := { LampValues.zero with faultAny := true } } }
theorem test_lamp_function : rec (after .lampFunctionChange { lamps 0x0C07 false (.lampFunction .faultAny true) with
    fsu := { (lamps 0x0C07 false .drain).fsu with fns := LampValues.zero } }) 0
    = some (.live, some 0x0C07, some 0x0C05, 0) := by decide
theorem test_lamp_test_begun : rec (after .lampTestBegun (lamps 0x0C04 false (.lampTest true))) 0
    = some (.live, some 0x0C04, some 0xFFFF, 0) := by decide
theorem test_lamp_test_ended : rec (after .lampTestEnded (lamps 0x0C00 true (.lampTest false))) 0
    = some (.live, some 0x0C00, some 0x0C01, 0) := by decide
theorem test_code_lost_input : (after .functionInputHandover (sent (.functionInput (.codeLost true)))).anu.fns.codeLost
    = true := by decide
theorem test_stale_notice : (fun a : Anu => (a.staleCount, a.fns.staleAny)) (after .staleNotice (sent (.staleNotice true))).anu
    = (1, true) := by decide
theorem test_line_change : (after (.buttonLineChange .ackb true) demo).anu.ackb = ⟨true, false, some 20⟩ := by decide
/-- 7.7 at 1000 and 1200. -/
def pressed (lockout : Timer) : State :=
  { demo with anu := { demo.anu with pendingAck := true, ackb := ⟨true, false, some 1000⟩, lockout := lockout } }
theorem test_press_takes_restriction : (fun a : Anu => (a.pendingAck, a.lockout))
    (after (.buttonDebounceExpiry .ackb) (pressed none)).anu = (false, some 1300) := by decide
theorem test_press_in_lockout : (after (.buttonDebounceExpiry .ackb) (pressed (some 1300))).anu.pendingAck = true := by
  decide
theorem test_lockout_ends : (after .lockoutExpiry (pressed (some 1300))).anu.lockout = none := by decide
theorem test_lamp_timeout : (after .lampTestTimeout
    { demo with anu := { demo.anu with testActive := true, test := some 10000 } }).anu.testActive = false := by decide

/-! ## Refresh, reports and the write queue -/

/-- 8.7 at 500: record 3 there goes STALE with its blank value. -/
theorem test_age_expiry : rec (after (.ageTimerExpiry 6) demo) 6 = some (.stale, some 0x1234, some 0x7777, 0) := by decide
/-- 10.5, step 2. -/
theorem test_set_event : (after (.setEvent .anu) { events 0x0800 with inFlight := [.events .anu [.oa]] }).rpu.events
    = 0x0804 := by decide
theorem test_stage_reported : (after (.reportHandover .anu) (sent (.report .anu [.stage .warning]))).rpu.content 0
    = 0x0040 := by decide
/-- 9.7: a request for 0500h replaces the value where it stands, and the grant takes the head. -/
def queued (m : List Msg) : State :=
  { demo with inFlight := m, mwq := { Mwq.reset with queue := [⟨0x450, 1, .field 2⟩, ⟨0x500, 56, .field 0⟩]
                                                     queueTurn := true } }
theorem test_request_coalesces : (after (.ownWriteRequest .fsu) (queued [.ownWrites .fsu [⟨0x450, 9, .field 2⟩]])).mwq.queue
    = [⟨0x450, 9, .field 2⟩, ⟨0x500, 56, .field 0⟩] := by decide
theorem test_grant : (fun s : State => (s.mem.read 0x450, s.mwq.queue, s.mwq.queueTurn)) (after .ownWriteGrant (queued []))
    = (1, [⟨0x500, 56, .field 0⟩], false) := by decide
theorem test_write_supersedes : (after (.actualWrite 0x500 56) (queued [])).mwq.queue = [] := by decide

/-! ## Operating states and resets -/

theorem test_drain_in_standby : (after .fieldDrainNotice { demoIn .standby with inFlight := [.drain] }).inFlight
    = [.report .csu [.opState .standby false]] := by decide
theorem test_power_reset : (fun s : State => (s.csu.op, s.flu.list, s.csu.locked)) (after .pwrgFall listed)
    = (.reset, [], false) := by decide
theorem test_power_rise : (after .pwrgRise State.reset).csu.settle = some 50 := by decide
/-- 12.1: the first release enters LOADING with cause POWER. -/
theorem test_first_release : (fun c : Csu => (c.op, c.cause, c.load, c.solo)) (after (.settleTimeExpiry true)
    (after .pwrgRise State.reset)).csu = (.loading, .power, some 10050, true) := by decide +kernel
/-- 12.7 at 900: the severity A entry alone is kept, and the lock. -/
theorem test_warm_reset : (fun s : State => (s.csu.op, s.flu.list.map Entry.code, s.csu.locked)) (after .wrstFall listed)
    = (.reset, [0x005], true) := by decide
theorem test_warm_release_unlocked : (after (.wrstRise false) (after .wrstFall
    { demo with csu := { demo.csu with locked := false } })).csu.cause = .warm := by decide +kernel
/-- 11.6: TIMEOUT with the count and the offset of the last check. -/
theorem test_load_timeout : (fun c : Csu => (c.op, c.verdict, c.failures, c.failOff, c.fbk)) (after .loadTimerExpiry
    { demoIn .loading with csu := { Csu.reset with op := .loading, load := some 10000, failures := 2, failOff := 0x19 } }).csu
    = (.fallback, .timeout, 2, 0x19, true) := by decide
theorem test_cab_line : (after (.cabactLineChange true) demo).csu.cabTimer = some 100 := by decide
/-- 12.7 at 160. -/
theorem test_cab_inactive : (after .cabactDebounceExpiry demo).csu.op = .standby := by decide
theorem test_idle_tick : step demo = .next { demo with now := 1 } := rfl

/-! ## Hypotheses that can be met -/

/-- The image with its check word, its CRC (R166). -/
def checked : Memory := image.write 255 0x1AEB

theorem checked_crc : imageCrc checked = checked.read 255 := crc_image 0x1AEB (.inr rfl)
theorem checked_content : ∀ o < 32 + 4 * min checked.imgN 48, wordFault checked o = false := by decide

/-- The demo state with the check word in its image. -/
def accepted : State := { demo with csu := { demo.csu with shadow := checked } }

theorem accepted_imageLaw : ImageLaw accepted :=
  { passes := fun _ => ⟨checked_crc, checked_content⟩
    limits := fun _ => ⟨limitsOf image, rfl,
      { quantum1 := by unfold isRounded; decide
        quantum2 := by unfold isRounded; decide
        acceleration := ⟨12, by unfold isRounded; decide, by decide, by decide⟩
        speed := by decide }⟩
    aspects := fun _ => by decide
    window := by decide }

theorem demo_stateLaw : StateLaw demo.csu := by constructor <;> decide

theorem demo_tableLaw : TableLaw demo.fsu.table := by constructor <;> decide

theorem listed_listLaw : FaultListLaw listed.flu :=
  { depth := by decide, identity := by decide, order := by decide, arrivals := by decide
    base := ⟨entry 15 0x005 .a 965 40, by decide, rfl⟩
    counter := by intro b hb; cases hb; decide }

theorem queued_queueLaw : QueueLaw (queued []).mwq := by constructor <;> decide

/-- A computer write to the record of this index, in RUNNING and in STANDBY. -/
theorem demo_write (op : OpState) (a : Addr) (i : Nat) (r : Record) (h : a.toNat < 0x1E00)
    (hi : fieldAt table a = some i) (hr : table[i]? = some r) : FieldWrite (demoIn op) op a i r r.fixed.kind :=
  ⟨rfl, .inl rfl, rfl, h, hi, hr, rfl⟩

/-- A state in which the computer has one read to make. -/
def reading (s : State) (a : Addr) : State := { s with reads := [a] }

theorem witness_StepTakesFront : { demo with pending := [.newPr] }.pending = .newPr :: [] ∧
    (demo.pending = [] ∧ demo.reads = []) ∧ (reading demo 0x500).reads = 0x500 :: [] ∧
    (reading demo 0x500).csu.op ≠ .reset ∧ (State.reset.csu.op = .reset ∧ State.reset.held = none) ∧
    (after (.plainWrite 1 1) State.reset).held ≠ none :=
  ⟨rfl, ⟨rfl, rfl⟩, rfl, by decide⟩

theorem witness_NoEventNoEffect :
    (takeFirst pickSpeed demo.inFlight = none ∧ takeFirst pickCompletion demo.inFlight = none ∧
      takeFirst pickNewPr demo.inFlight = none ∧
      takeFirst pickDelivery demo.inFlight = none ∧ takeFirst pickRank demo.inFlight = none ∧
      takeFirst pickListFsu demo.inFlight = none ∧ takeFirst pickListAnu demo.inFlight = none ∧
      takeFirst pickListRpu demo.inFlight = none ∧ takeFirst pickChime demo.inFlight = none ∧
      takeFirst pickLampFunction demo.inFlight = none ∧ takeFirst pickInput demo.inFlight = none ∧
      takeFirst pickStale demo.inFlight = none ∧
      takeFirst (pickEvents .csu) demo.inFlight = none ∧ takeFirst (pickReport .asu) demo.inFlight = none ∧
      takeFirst (pickOwnWrites .rpu) demo.inFlight = none ∧ takeFirst pickDrain demo.inFlight = none) ∧
    demo.mwq.queue = [] ∧ State.reset.asu.window = none ∧ State.reset.tcu.loss = none ∧ demo.tcu.hold = none ∧
    demo.anu.ackTimer = none ∧ demo.anu.cadence = none ∧ State.reset.anu.flash = none ∧ demo.anu.lockout = none ∧
    demo.anu.test = none ∧ (demo.anu.button .ltstb).timer = none ∧ demo.csu.load = none ∧
    State.reset.csu.cabTimer = none ∧ demo.csu.settle = none ∧ State.reset.csu.pwrg = false ∧ demo.csu.pwrg = true ∧
    (after .wrstFall demo).csu.wrst = false ∧ demo.csu.wrst = true := by decide
/-- The clauses of `NoEventNoEffect` for a path that two kinds of hand-over share, each with the other kind at its front,
for an age timer, and for a second cycle in RESET. -/
theorem witness_NoEventNoEffect_kinds :
    (∀ w n rest, takeFirst pickAspectInput (sent (.aspectStale true none)).inFlight ≠ some (.written w n, rest)) ∧
    (∀ entered n rest, takeFirst pickAspectInput (sent (.writtenAspect 3 (some 3))).inFlight
      ≠ some (.stale entered n, rest)) ∧
    (∀ m rest, takeFirst (pickFault .anu) (sent (.fault .anu .acknowledge)).inFlight ≠ some (.raise m, rest)) ∧
    (∀ m rest, takeFirst (pickFault .anu) (sent (.fault .anu .acknowledge)).inFlight ≠ some (.clear m, rest)) ∧
    (∀ rest, takeFirst (pickFault .anu) demo.inFlight ≠ some (.acknowledge, rest)) ∧
    (∀ rest, takeFirst pickLampTest (sent (.lampTest false)).inFlight ≠ some (true, rest)) ∧
    (∀ rest, takeFirst pickLampTest (sent (.lampTest true)).inFlight ≠ some (false, rest)) :=
  ⟨nofun, nofun, nofun, nofun, nofun, nofun, nofun⟩
theorem witness_NoEventNoEffect_states : (demoIn .standby).csu.op ≠ .running ∧ demo.fsu.table[48]? = none ∧
    (∃ r, demo.fsu.table[1]? = some r ∧ r.age = none) ∧ Instr.write (.plainWrite 0x0100 1) = some (0x0100, 1) ∧
    State.reset.csu.op = .reset ∧ (after (.plainWrite 0x0100 1) State.reset).held ≠ none := by decide

theorem witness_ComputerWriteTaken :
    ((Instr.eventWordWrite 1).write = some (0x1F07, 1) ∧ (Instr.plainWrite 0x1F07 1).write = some (0x1F07, 1)) ∧
    (State.reset.csu.op = .reset ∧ State.reset.held = none ∧ (after (.plainWrite 1 1) State.reset).held ≠ none) ∧
    (queued []).csu.op ≠ .reset ∧ (queued []).mwq.queueTurn = true ∧ (queued []).mwq.queue ≠ [] := by decide

theorem witness_PlainWritePasses : demo.portFree ∧ demo.mem.wf = true ∧ (demoIn .fallback).csu.op = .fallback ∧
    ((demoIn .loading).csu.op = .loading ∧ (0x1DFF : Addr).toNat < 0x1E00) ∧
    (demo.csu.op.hasTable = true ∧ (0x1DFF : Addr).toNat < 0x1E00 ∧ ∀ r ∈ demo.fsu.table, r.fixed.addr ≠ 0x1DFF) ∧
    (demo.csu.op ≠ .reset ∧ 0x1F10 ≤ (0x1F10 : Addr).toNat ∧ (0x1F3F : Addr).toNat < 0x1F40 ∧
      0x1F83 ≤ (0x1F83 : Addr).toNat) :=
  ⟨.inl rfl, by decide⟩

theorem witness_OwnedAndLockedSuppressed : demo.portFree ∧ demo.csu.op ≠ .reset ∧ demo.csu.op ≠ .fallback ∧
    (Instr.plainWrite 0x1F00 1).write = some (0x1F00, 1) ∧ (0x1F0F : Addr).toNat < 0x1F10 ∧
    ((0x1F00 : Addr) ≠ 0x1F07 ∧ (0x1F00 : Addr) ≠ 0x1F08 ∧ (0x1F00 : Addr) ≠ 0x1F0D) ∧
    (demoIn .loading).csu.op = .loading ∧ 0x1F40 ≤ (0x1F40 : Addr).toNat ∧ (0x1F7F : Addr).toNat < 0x1F80 ∧
    demo.csu.op.hasTable = true ∧ 0x1E00 ≤ (0x1E00 : Addr).toNat ∧ (0x1EFF : Addr).toNat ≤ 0x1EFF :=
  ⟨.inl rfl, by decide⟩

theorem witness_FaultSlotWriteSuppressed : ∃ r, OpState.running.hasTable = true ∧
    FieldWrite (demoIn .running) .running 0x600 5 r .faultSlot :=
  ⟨_, rfl, demo_write .running 0x600 5 _ (by decide) (by decide) rfl⟩

theorem witness_ActualWriteJudged : (∃ r, FieldWrite (demoIn .running) .running 0x500 0 r .actual) ∧
    (moving none none).fsu.speedCopy.selected = none ∧ (moving (some 560) (some 56)).fsu.speedCopy.selected = some 560 ∧
    (moving (some 560) (some 56)).fsu.speedCopy.d = some 56 ∧ 10 * (57 : Word).toNat ≤ 560 + 10 ∧
    ¬ 10 * (58 : Word).toNat ≤ 560 + 10 ∧ (moving (some 3999) (some 400)).fsu.speedCopy.d = some 400 ∧
    ¬ (401 : Word).toNat ≤ 400 :=
  ⟨⟨_, demo_write .running 0x500 0 _ (by decide) (by decide) rfl⟩, by decide⟩

theorem witness_PermittedWriteLimited : (∃ r, FieldWrite (demoIn .running) .running 0x501 1 r .permitted) ∧
    TableLaw (demoIn .running).fsu.table ∧ 160 = min (160 : Word).toNat (demoIn .running).fsu.c ∧
    demo.fsu.pr ≠ some 160 ∧ demo.fsu.pr = some 150 :=
  ⟨⟨_, demo_write .running 0x501 1 _ (by decide) (by decide) rfl⟩, demo_tableLaw, by decide⟩

theorem witness_TargetWriteLimited : ∃ r, FieldWrite (demoIn .running) .running 0x502 2 r .target :=
  ⟨_, demo_write .running 0x502 2 _ (by decide) (by decide) rfl⟩

theorem witness_AspectWriteJudged : (∃ r, FieldWrite (demoIn .running) .running 0x503 3 r .aspect) ∧
    numberOf (deriveDisplayed demo.tcu.uncoded demo.tcu.received (aspectOfWord demo.tcu.aspects 3)
      (lossAspect demo.tcu.aspects)) = some 3 :=
  ⟨⟨_, demo_write .running 0x503 3 _ (by decide) (by decide) rfl⟩, by decide⟩

theorem witness_LampsAndWatchedWritesPass :
    (∃ r, FieldWrite (demoIn .running) .running 0x420 4 r .lamps ∧
      (r.fixed.lamps.Pairwise fun p q => p.bit ≠ q.bit) ∧ ∀ p ∈ r.fixed.lamps, p.bit < 16) ∧
    ∃ r, FieldWrite (demoIn .running) .running 0x610 6 r .watched :=
  ⟨⟨_, demo_write .running 0x420 4 _ (by decide) (by decide) rfl, by decide, by decide⟩,
    ⟨_, demo_write .running 0x610 6 _ (by decide) (by decide) rfl⟩⟩

theorem witness_StandbyWriteRecorded : Kind.permitted ≠ .faultSlot ∧ TableLaw (demoIn .standby).fsu.table ∧
    (∃ r, FieldWrite (demoIn .standby) .standby 0x501 1 r .permitted) ∧
    ∃ r, FieldWrite (demoIn .standby) .standby 0x500 0 r .actual :=
  ⟨nofun, demo_tableLaw, ⟨_, demo_write .standby 0x501 1 _ (by decide) (by decide) rfl⟩,
    ⟨_, demo_write .standby 0x500 0 _ (by decide) (by decide) rfl⟩⟩

theorem witness_port : demo.portFree ∧ demo.mem.wf = true ∧ demo.csu.op ≠ .reset ∧ demo.csu.op ≠ .fallback :=
  ⟨.inl rfl, by decide⟩
/-- 1F07h, 1F08h and the fault entry window ask the same of the state. -/
theorem witness_EventWordClearedByOne : demo.portFree ∧ demo.mem.wf = true ∧ demo.csu.op ≠ .reset ∧
    demo.csu.op ≠ .fallback := witness_port
theorem witness_InterruptEnableLatched : demo.portFree ∧ demo.mem.wf = true ∧ demo.csu.op ≠ .reset ∧
    demo.csu.op ≠ .fallback := witness_port
theorem witness_WindowWordsAssembled :
    (demo.portFree ∧ demo.mem.wf = true ∧ demo.csu.op ≠ .reset ∧ demo.csu.op ≠ .fallback) ∧
    ((0xF000 : Word).toNat / 4096 = 15 ∧ (0xEFFF : Word).toNat / 4096 ≠ 15) ∧
    ((7 : Word).toNat < 8 ∧ (7 : Word).toNat % 4 ≠ 0 ∧ 8 ≤ (8 : Word).toNat ∧ (4 : Word).toNat % 4 = 0) ∧
    (959 : Word).toNat < 960 ∧ 960 ≤ (960 : Word).toNat :=
  ⟨witness_port, by decide⟩

theorem witness_EventsStayUntilCleared : StateLaw demo.csu ∧ exec .flashTimerExpiry demo = .next (after .flashTimerExpiry demo) ∧
    demo.csu.op ≠ .reset ∧ (after .flashTimerExpiry demo).csu.op ≠ .reset ∧
    (events 0x0800).rpu.events.getLsbD 11 = true :=
  ⟨demo_stateLaw, rfl, by decide⟩

theorem witness_TerritoryRequestJudged : demo.portFree ∧ demo.mem.wf = true ∧ demo.csu.op.hasTable = true ∧
    ¬ ((1 : Word) = 0) ∧ demo.asu.selected = some 561 ∧ demo.tcu.uncoded = false ∧ demo.tcu.state ≠ .lost :=
  ⟨.inl rfl, by decide⟩
/-- An accepted request that changes the territory to UNCODED, in LOST, and one to CODED; and one that changes nothing. -/
theorem witness_TerritoryRequestJudged_accepted :
    let lost : State := { demo with tcu := { demo.tcu with state := .lost } }
    let uncoded : State := { demo with tcu := { demo.tcu with uncoded := true } }
    (lost.portFree ∧ lost.mem.wf = true ∧ lost.csu.op.hasTable = true ∧ lost.tcu.state = .lost ∧
      ¬ ((1 : Word) = 1 ↔ lost.tcu.uncoded = true)) ∧
    (uncoded.portFree ∧ uncoded.mem.wf = true ∧ uncoded.csu.op.hasTable = true ∧
      ¬ ((0 : Word) = 1 ↔ uncoded.tcu.uncoded = true)) ∧
    ((0 : Word) = 1 ↔ demo.tcu.uncoded = true) :=
  ⟨⟨.inl rfl, by decide⟩, ⟨.inl rfl, by decide⟩, by decide⟩

theorem witness_ConfigurationCaptured : (demoIn .loading).portFree ∧
    MemoryLaw (demoIn .loading).mem (demoIn .loading).csu.shadow ∧ (demoIn .loading).csu.op = .loading ∧
    0x1E00 ≤ (0x1E00 : Addr).toNat ∧ (0x1EFE : Addr).toNat < 0x1EFF :=
  ⟨.inl rfl, ⟨by decide, by decide⟩, by decide⟩

/-- The image with its Vmax out of range, and its CRC. -/
def badImage : Memory := image.write 5 39
theorem witness_FailedCheckCounted : (demoIn .loading).portFree ∧
    MemoryLaw (demoIn .loading).mem (demoIn .loading).csu.shadow ∧ (demoIn .loading).csu.op = .loading ∧
    (demoIn .loading).csu.failures < 3 ∧
    imageCrc ((demoIn .loading).csu.shadow.write 255 0) ≠ 0 :=
  ⟨.inl rfl, ⟨by decide, by decide⟩, by decide, by decide, by
    rw [show imageCrc ((demoIn .loading).csu.shadow.write 255 0) = 0x1AEB from crc_image 0 (.inl rfl)]; decide⟩
theorem witness_FailedCheckCounted_content : imageCrc (badImage.write 255 0x90BC) = 0x90BC ∧
    wordFault (badImage.write 255 0x90BC) 5 = true ∧ ∀ p < 5, wordFault (badImage.write 255 0x90BC) p = false :=
  ⟨imageCrc_of_checkpoints (cps := [65535, 52519, 31789, 15700, 64396, 22998, 61561, 37225, 48635, 15865, 30801, 13004,
    59291, 29738, 40556, 61871, 57271, 8530, 51050, 12615, 40868, 213, 1503, 18357, 22133, 41792, 35873, 43726, 37052]) rfl
    (by decide +kernel) rfl, by decide⟩

theorem witness_AcceptedImageRuns : (demoIn .loading).portFree ∧
    MemoryLaw (demoIn .loading).mem (demoIn .loading).csu.shadow ∧ (demoIn .loading).csu.op = .loading ∧
    imageCrc ((demoIn .loading).csu.shadow.write 255 0x1AEB) = 0x1AEB ∧
    ∀ o < 32 + 4 * min ((demoIn .loading).csu.shadow.write 255 0x1AEB).imgN 48,
      wordFault ((demoIn .loading).csu.shadow.write 255 0x1AEB) o = false :=
  ⟨.inl rfl, ⟨by decide, by decide⟩, rfl, checked_crc, checked_content⟩

theorem witness_AxleEdgeCounted : (demo.csu.op = .running ∨ demo.csu.op = .standby) ∧
    ¬ (AxleChannel.two = .two ∧ demo.csu.solo = true) ∧
    ¬ (State.reset.csu.op = .running ∨ State.reset.csu.op = .standby) := by decide

theorem witness_WindowMeasuresChannels : ImageLaw accepted ∧ accepted.asu.window = some 200 ∧
    accepted.csu.solo = false := ⟨accepted_imageLaw, rfl, rfl⟩
theorem witness_WindowSelectsSpeed : demo.asu.window = some 200 := rfl
theorem witness_DisplaySpeedRounded : demo.asu.window = some 200 := rfl
theorem witness_WindowHandsResults : demo.asu.window = some 200 := rfl

theorem witness_SpeedHandoverRechecks : takeFirst pickSpeed (sent (.speed ⟨some 547, some 55⟩)).inFlight =
    some (⟨some 547, some 55⟩, []) ∧ (sent (.speed ⟨some 547, some 55⟩)).csu.op = .running := by decide

theorem witness_AspectDeliveryApplied : takeFirst pickDelivery (sent (.delivery 3 120)).inFlight = some ((3, 120), []) ∧
    TableLaw (sent (.delivery 3 120)).fsu.table := ⟨rfl, demo_tableLaw⟩

theorem witness_SlotsFollowList : takeFirst pickListFsu (sent (.listFsu [])).inFlight = some ([], []) ∧
    (sent (.listFsu [])).csu.op = .running := by decide

theorem witness_LampsFollowFunctions :
    takeFirst pickLampFunction (sent (.lampFunction .faultAny true)).inFlight = some ((.faultAny, true), []) ∧
    takeFirst pickLampTest (sent (.lampTest true)).inFlight = some (true, []) := by decide

theorem witness_AgeExpiryMakesStale : demo.csu.op = .running ∧
    (∃ r, demo.fsu.table[6]? = some r ∧ r.age = some 500 ∧ r.state ≠ .stale) ∧ TableLaw demo.fsu.table :=
  ⟨rfl, ⟨_, rfl, by decide⟩, demo_tableLaw⟩
/-- The demo state with record 6 already STALE while its timer runs. -/
def staleRunning : State := { demo with fsu := { demo.fsu with
  table := demo.fsu.table.modify 6 fun r => { r with state := .stale } } }
theorem witness_AgeExpiryMakesStale_already : staleRunning.csu.op = .running ∧
    (∃ r, staleRunning.fsu.table[6]? = some r ∧ r.age = some 500 ∧ r.state = .stale) ∧
    TableLaw staleRunning.fsu.table :=
  ⟨rfl, ⟨_, rfl, by decide⟩, by constructor <;> decide⟩

theorem witness_StrobeSampled : (demo.csu.op = .running ∨ demo.csu.op = .standby) ∧
    (sampled 1).tcu.lastStrobe = some 0 ∧ 0 + 40 ≤ (sampled 1).now + 40 ∧ ¬ 0 + 40 ≤ (sampled 1).now + 39 ∧
    (∀ n, (sampled 1).tcu.candidate = some ((5 : BitVec 4), n) → n + 1 ≠ (sampled 1).csu.shadow.imgK) := by
  refine ⟨.inl rfl, rfl, by decide, by decide, ?_⟩
  intro n h
  cases h
  decide

theorem witness_CodeConfirmed : ((sampled 2).csu.op = .running ∨ (sampled 2).csu.op = .standby) ∧
    (∀ x, (sampled 2).tcu.lastStrobe = some x → x + 40 ≤ (sampled 2).now + 40) ∧
    (sampled 2).tcu.candidate = some (5, 2) ∧ 2 + 1 = (sampled 2).csu.shadow.imgK ∧
    ((demo.tcu.aspects[5]?).map AspectEntry.valid = some true ∧ (demo.tcu.aspects[4]?).map AspectEntry.valid = some false) := by
  refine ⟨.inl rfl, ?_, rfl, by decide, by decide⟩
  intro x h
  cases h
  decide

theorem witness_TimersLoseCode : demo.tcu.loss = some 600 ∧ demo.tcu.state = .confirmed ∧ 0 < demo.csu.shadow.imgThold ∧
    ({ demo.tcu with state := .holding, hold := some 2600 } : Tcu).hold = some 2600 := by decide

theorem witness_WrittenAspectRecomputed :
    takeFirst pickAspectInput (sent (.writtenAspect 3 (some 3))).inFlight = some (.written 3 (some 3), []) ∧
    takeFirst pickAspectInput (sent (.aspectStale true (some 5))).inFlight = some (.stale true (some 5), []) := by decide

/-- A request in flight to the two-entry list. -/
def asked (b : Block) (r : FluRequest) : State := { listed with inFlight := [.fault b r] }

theorem witness_RaiseOfHeldEntry : FaultListLaw (asked .trp (.raise ⟨3, 0x110, .a, 8⟩)).flu ∧
    takeFirst (pickFault .trp) (asked .trp (.raise ⟨3, 0x110, .a, 8⟩)).inFlight = some (.raise ⟨3, 0x110, .a, 8⟩, []) ∧
    entry 3 0x110 .b 7 41 ∈ listed.flu.list ∧ entry 3 0x110 .a 8 41 ≠ entry 3 0x110 .b 7 41 :=
  ⟨listed_listLaw, by decide⟩

/-- A list of 32 entries of severity C, of which none is graver than a message of severity C. -/
def full (state : EntryState) (severity : Severity) : Flu :=
  { partialMsg := .none
    list := (List.range 32).map fun k =>
      { entry 1 (BitVec.ofNat 12 k) severity 1 (BitVec.ofNat 16 k) with state := state }
    base := some 0, counter := 32 }

theorem full_law (state : EntryState) (severity : Severity) : FaultListLaw (full state severity) := by
  cases state <;> cases severity <;>
    exact { depth := by decide, identity := by decide, order := by decide, arrivals := by decide
            base := ⟨_, List.mem_cons_self, rfl⟩
            counter := by intro b hb; cases hb; decide }

theorem witness_RaiseOfNewEntry : FaultListLaw listed.flu ∧ listed.flu.list.length < 32 ∧
    (∀ e ∈ listed.flu.list, ¬ (e.unit = 3 ∧ e.code = 0x111)) ∧
    takeFirst (pickFault .trp) (asked .trp (.raise ⟨3, 0x111, .b, 8⟩)).inFlight = some (.raise ⟨3, 0x111, .b, 8⟩, []) :=
  ⟨listed_listLaw, by decide⟩
theorem witness_RaiseOfNewEntry_full : FaultListLaw (full .activeAcked .b) ∧ FaultListLaw (full .activeUnacked .b) ∧
    (full .activeAcked .b).list.length = 32 ∧ (full .activeUnacked .b).list.length = 32 ∧
    (∀ e ∈ (full .activeUnacked .b).list, ¬ (e.state = .activeAcked ∨ e.severity = .c)) ∧
    ∀ e ∈ (full .activeAcked .b).list, e.state = .activeAcked :=
  ⟨full_law _ _, full_law _ _, by decide⟩

theorem witness_ClearOfEntry : FaultListLaw listed.flu ∧
    takeFirst (pickFault .trp) (asked .trp (.clear ⟨3, 0x110, .c, 0⟩)).inFlight = some (.clear ⟨3, 0x110, .c, 0⟩, []) ∧
    entry 3 0x110 .b 7 41 ∈ listed.flu.list := ⟨listed_listLaw, by decide⟩

theorem witness_AcknowledgeFirstUnseen : FaultListLaw listed.flu ∧
    takeFirst (pickFault .anu) (asked .anu .acknowledge).inFlight = some (.acknowledge, []) ∧
    listed.csu.op = .running ∧ (demoIn .standby).csu.op ≠ .running ∧
    listed.flu.list = [] ++ entry 15 0x005 .a 965 40 :: [entry 3 0x110 .b 7 41] := ⟨listed_listLaw, by decide⟩

theorem witness_StageEvaluatedOnce :
    takeFirst pickCompletion (staged .warning 1051).inFlight = some (⟨some 1051, .forward, false, false, false, false⟩, []) ∧
    takeFirst pickNewPr (sent (.newPr 80)).inFlight = some (80, []) := by decide

theorem witness_FallOfRankPends : takeFirst pickRank (sent (.rank 4)).inFlight = some (4, []) ∧
    (demo.csu.op = .running ∧ demo.anu.rank = some 5 ∧ 4 < 5) ∧
    ({ demo.anu with ackTimer := some 5000 } : Anu).ackTimer = some 5000 := by decide

theorem witness_FunctionInputsTaken :
    takeFirst pickListAnu (sent (.listAnu ⟨true, true, 2, 2⟩)).inFlight = some (⟨true, true, 2, 2⟩, []) ∧
    takeFirst pickInput (sent (.functionInput (.codeLost true))).inFlight = some (.codeLost true, []) ∧
    takeFirst pickInput (sent (.functionInput (.uncoded true))).inFlight = some (.uncoded true, []) ∧
    takeFirst pickStale (sent (.staleNotice true)).inFlight = some (true, []) := by decide

theorem witness_FlashCadenceAndChime : demo.anu.flash = some 500 ∧
    ({ demo.anu with sounding := .intermittent, buz := true, cadence := some 500 } : Anu).cadence = some 500 ∧
    takeFirst pickChime (sent .chime).inFlight = some ((), []) := by decide

theorem witness_AcknowledgePressArbitrated : (pressed none).anu.ackb.timer = some 1000 ∧
    ((pressed none).csu.op = .running ∧ (pressed none).anu.ackb.line = true ∧ (pressed none).anu.ackb.pressed = false ∧
      (pressed none).anu.lockout = none) ∧ (pressed none).anu.pendingAck = true ∧
    (pressed (some 1300)).anu.lockout = some 1300 := by decide

/-- The test button with its timer running: the line, the debounced level and a test in progress. -/
def testing (line level active : Bool) : State :=
  { demo with anu := { demo.anu with ltstb := ⟨line, level, some 20⟩, testActive := active
                                     test := if active then some 10000 else none } }
theorem witness_LampTestStartsAndEnds : (testing true false false).anu.ltstb.timer = some 20 ∧
    ((testing true false false).csu.op = .running ∧ (testing true false false).anu.ltstb.line = true ∧
      (testing true false false).anu.ltstb.pressed = false ∧ (testing true false false).anu.testActive = false) ∧
    ((testing false true true).csu.op = .running ∧ (testing false true true).anu.ltstb.line = false ∧
      (testing false true true).anu.ltstb.pressed = true ∧ (testing false true true).anu.testActive = true) ∧
    (testing false true true).anu.test = some 10000 := by decide

theorem witness_EventsSetTogether : takeFirst (pickEvents .anu) (sent (.events .anu [.oa])).inFlight = some ([.oa], []) ∧
    (∃ e ∈ [Event.oa], (events 0x0800).rpu.events.getLsbD e.bit = false) ∧
    ∀ e ∈ [Event.oa], (events 0x0804).rpu.events.getLsbD e.bit = true := by decide

theorem witness_ReportsFollowHandovers :
    takeFirst (pickReport .anu) (sent (.report .anu [.stage .warning])).inFlight = some ([.stage .warning], []) ∧
    takeFirst pickListRpu (sent (.listRpu [])).inFlight = some ([], []) ∧
    ({ demo.rpu with stage := .warning } : Rpu).content 0 ≠ demo.rpu.content 0 := by decide

theorem witness_OwnWritesEnqueued : QueueLaw (queued []).mwq ∧
    takeFirst (pickOwnWrites .fsu) (queued [.ownWrites .fsu [⟨0x450, 9, .field 2⟩]]).inFlight
      = some ([⟨0x450, 9, .field 2⟩], []) := ⟨queued_queueLaw, by decide⟩

theorem witness_HeadGrantedAndRederived : QueueLaw (queued []).mwq ∧ (queued []).mem.wf = true ∧
    (queued []).mwq.queue = ⟨0x450, 1, .field 2⟩ :: [⟨0x500, 56, .field 0⟩] := ⟨queued_queueLaw, by decide⟩
/-- The rule of R147: a marked field whose owner's value is not in memory. -/
theorem witness_HeadGrantedAndRederived_mark : demo.behind (.field 6) ⟨0x610, 0x1234, .field 6⟩ := by
  refine ⟨rfl, ?_⟩
  decide

theorem witness_LoadTimeoutAndDrain : ({ demo.csu with load := some 10000 } : Csu).load = some 10000 ∧
    takeFirst pickDrain (sent .drain).inFlight = some ((), []) := by decide

theorem witness_CabLevelFollowed : demo.csu.cabTimer = some 100 ∧
    (demo.csu.op = .running ∧ demo.csu.cabActive = true ∧ demo.csu.cabLine = false) := by decide
/-- The return: STANDBY with the debounced level INACTIVE and the line high. -/
theorem witness_CabLevelFollowed_return :
    let s : State := { demo with csu := { demo.csu with op := .standby, cabActive := false, cabLine := true } }
    s.csu.cabTimer = some 100 ∧ (s.csu.op = .standby ∧ s.csu.cabActive = false ∧ s.csu.cabLine = true) := by decide

theorem witness_PowerResetClears : demo.csu.pwrg = true := rfl

theorem witness_WarmResetKeeps : (listed.csu.wrst = true ∧ listed.csu.op ≠ .reset) ∧ FaultListLaw listed.flu ∧
    (State.reset.csu.wrst = true ∧ State.reset.csu.op = .reset) ∧ State.reset.csu.pwrg = false ∧
    (after .pwrgRise State.reset).csu.settle = some 50 ∧ (after .wrstFall State.reset).csu.wrst = false ∧
    (after .wrstFall State.reset).csu.pwrg = false := by
  refine ⟨by decide, listed_listLaw, by decide⟩

/-- The part in RESET, with the given image and lock. -/
def resetting (shadow : Memory) (power locked : Bool) : State :=
  { State.reset with csu := { Csu.reset with pwrg := true, wrst := false, powerReset := power, shadow := shadow
                                             locked := locked } }
theorem resetting_law (shadow : Memory) (power locked : Bool) : ResetLaw (resetting shadow power locked) :=
  { blocks := fun _ => ⟨rfl, rfl, rfl, rfl, rfl, rfl⟩
    load := fun _ => ⟨rfl, rfl, rfl, rfl, rfl, rfl, rfl⟩
    quiet := fun _ => ⟨rfl, rfl⟩ }
theorem resetting_released (shadow : Memory) (power locked : Bool) :
    (resetting shadow power locked).releasedBy (.wrstRise true) true 0 := .inr ⟨rfl, rfl, rfl, rfl, rfl⟩

/-- R18: a read held through RESET is taken once the release has entered a state. -/
theorem test_held_read_answered : (fun s : State => (s.held, s.answer))
    ({ demoIn .loading with held := some (.read 5), mem := [(5, 7)] } : State).takeHeld = (none, some 7) := by decide

theorem witness_ReleaseEntersLoading : (∀ sh p l, ResetLaw (resetting sh p l) ∧ (resetting sh p l).csu.op = .reset ∧
      (resetting sh p l).releasedBy (.wrstRise true) true 0) ∧
    (resetting [] true false).csu.powerReset = true ∧ (resetting [] false false).csu.locked = false ∧
    ((resetting image false true).csu.locked = true ∧ imageCrc image ≠ image.read 255) ∧
    (imageCrc (badImage.write 255 0x90BC) = (badImage.write 255 0x90BC).read 255 ∧
      wordFault (badImage.write 255 0x90BC) 5 = true) :=
  ⟨fun sh p l => ⟨resetting_law sh p l, rfl, resetting_released sh p l⟩, rfl, rfl, ⟨rfl, by
      rw [show imageCrc image = 0x1AEB from crc_image 0 (.inl rfl)]; decide⟩,
    witness_FailedCheckCounted_content.1, witness_FailedCheckCounted_content.2.1⟩

theorem witness_RetainedImageRuns : ResetLaw (resetting checked false true) ∧ (resetting checked false true).csu.op = .reset ∧
    (resetting checked false true).releasedBy (.wrstRise true) true 0 ∧
    (resetting checked false true).csu.powerReset = false ∧ (resetting checked false true).csu.locked = true ∧
    imageCrc checked = checked.read 255 ∧ ∀ o < 32 + 4 * min checked.imgN 48, wordFault checked o = false :=
  ⟨resetting_law _ _ _, rfl, resetting_released _ _ _, rfl, rfl, checked_crc, checked_content⟩

theorem witness_StorageLawsKept : step demo = .next { demo with now := 1 } ∧ MemoryLaw demo.mem demo.csu.shadow ∧
    QueueLaw (queued []).mwq ∧ FaultListLaw listed.flu ∧ InterruptLaw (events 0x0804).rpu :=
  ⟨rfl, ⟨by decide, by decide⟩, queued_queueLaw, listed_listLaw, by unfold InterruptLaw; decide⟩

theorem witness_StateLawsKept : StateLaw demo.csu ∧ ResetLaw (resetting [] true false) ∧
    (StateLaw accepted.csu ∧ ImageLaw accepted) ∧ AspectLaw demo.csu.op demo.tcu ∧ FunctionLaw demo.csu.op demo.anu ∧
    BuzzerLaw demo.csu.op demo.anu :=
  ⟨demo_stateLaw, resetting_law _ _ _, ⟨by constructor <;> decide, accepted_imageLaw⟩, by constructor <;> decide,
    fun _ f => by rw [← Anu.fnValue_iff]; cases f <;> decide,
    { outside := by decide
      demanded := fun _ p h => absurd (Anu.demanded_some.2 h) (by cases p <;> decide)
      idle := fun _ _ => .inl rfl, silent := by decide, continuous := by decide, chime := by decide, cadence := by decide }⟩

theorem demo_speed : SpeedShown (some 561) (some 56) :=
  ⟨nofun, fun v h => by cases h; exact ⟨by decide, 56, rfl, by unfold isRounded; decide⟩⟩

theorem witness_FieldLawsKept : TableLaw demo.fsu.table ∧ StateLaw demo.csu ∧ SupervisionLaw demo.csu.op demo.fsu ∧
    CeilingLaw demo.csu.op demo.fsu ∧ ActualLaw demo.csu.op demo.fsu ∧ LampsLaw demo.csu.op demo.fsu ∧
    SpeedLaw demo ∧ AspectShownLaw demo := by
  have hr : ∀ r ∈ demo.fsu.table, r ∈ table := fun _ h => h
  refine ⟨demo_tableLaw, demo_stateLaw, ⟨by decide, fun r h => ?_, by decide⟩, ⟨by decide, fun _ r h => ?_, fun _ r h => ?_⟩,
    ⟨by decide, fun _ r h => ?_⟩, ⟨by decide, by decide⟩,
    ⟨demo_speed, fun _ h => (by cases h), fun c h => (by cases h; exact demo_speed)⟩,
    ⟨by decide, fun _ _ n h => (by cases h), fun _ _ _ r h => ?_⟩⟩
  all_goals
    have h' := hr r h
    simp only [table, List.mem_cons, List.not_mem_nil, or_false] at h'
    rcases h' with rfl | rfl | rfl | rfl | rfl | rfl | rfl
  all_goals first
    | (constructor <;> decide)
    | exact fun hk => absurd hk (by decide)
    | exact fun _ _ => ⟨150, rfl, by decide⟩
    | exact fun _ _ _ => ⟨130, rfl, by decide⟩
    | exact fun _ => .inl rfl
    | exact fun _ hs => by revert hs; decide

end Sys2Proof.Tests
end

section
/-! SUPPORT and PROOF. A computer write to a word that a record supervises, and the FAULT_SLOT fields (R31). -/

namespace Sys2Proof.Machine

/-- There is no field table in RESET. -/
theorem OpState.ne_reset_of_hasTable {op : OpState} (h : op.hasTable = true) : op ≠ .reset := by
  rintro rfl
  cases h

/-- The decision on a write to a word that record i supervises is the field write of record i (R20). -/
theorem State.decideWrite_field {s : State} {a : Addr} {i : Nat} (w : Word) (ht : s.csu.op.hasTable = true)
    (ha : a.toNat < 0x1E00) (hi : fieldAt s.fsu.table a = some i) : s.decideWrite a w = s.fieldWrite i w := by
  unfold State.decideWrite
  rw [wordClass_field ht ha hi]

/-- A computer write to the word of record i, taken with the port free: whatever row names it, it is the field write of
record i on the state in which the computer has had its turn. -/
theorem FieldWrite.exec_eq {s : State} {op : OpState} {a : Addr} {i : Nat} {r : Record} {kind : Kind}
    (h : FieldWrite s op a i r kind) (ht : op.hasTable = true) {c : Instr} {w : Word} (hc : c.write = some (a, w)) :
    exec c s = .next (s.suppressed.fieldWrite i w) := by
  have htable : s.csu.op.hasTable = true := by rw [h.op]; exact ht
  calc exec c s = .next (s.computerWrite a w) := exec_write hc s
    _ = .next (s.suppressed.decideWrite a w) := by
      rw [State.computerWrite_free (OpState.ne_reset_of_hasTable htable) h.free]
    _ = .next (s.suppressed.fieldWrite i w) := by rw [State.decideWrite_field (s := s.suppressed) w htable h.area h.decoded]

/-- Settles O7: the word decodes to record i, and the field write of a FAULT_SLOT record changes nothing. -/
theorem faultSlotWriteSuppressed : Obligations.FaultSlotWriteSuppressed := by
  intro s op a w i r ht h
  have hslot : ∀ q, s.suppressed.fsu.table[i]? = some q → q.fixed.kind = .faultSlot := by
    intro q hq
    obtain rfl : r = q := Option.some.inj (h.record.symm.trans hq)
    exact h.kind
  rw [h.exec_eq ht rfl, State.fieldWrite_slot w hslot]

end Sys2Proof.Machine
end

section
/-! SUPPORT and PROOF. The window completion, the range of the selected speed (R40, R46–R50), and the display speed
(R54). -/

namespace Sys2Proof.Machine

/-! ## A window completion with the timer running (R38) -/

theorem exec_windowCompletion {s : State} {e : Nat} (brk : Bool) (h : s.asu.window = some e) :
    exec (.windowCompletion brk) s = .next ((s.reach e).completeWindow brk) := by
  show execWindowCompletion brk s = _
  unfold execWindowCompletion
  rw [h]

/-! ## The selected speed is the reading of a counted channel (R46–R50) -/

theorem takeHigher_fst (v1 v2 : Nat) : (takeHigher v1 v2).1 = v1 ∨ (takeHigher v1 v2).1 = v2 := by
  unfold takeHigher
  split
  · exact .inl rfl
  · exact .inr rfl

theorem takeLower_fst (v1 v2 : Nat) : (takeLower v1 v2).1 = v1 ∨ (takeLower v1 v2).1 = v2 := by
  unfold takeLower
  split
  · exact .inl rfl
  · exact .inr rfl

/-- With both channels GOOD the higher or the lower reading is selected, in agreement and in disagreement alike. -/
theorem selectBothGood_selected (a w limit : Nat) (brk : Bool) (v1 v2 disTime : Nat) (persistent : Bool) :
    (selectBothGood a w limit brk v1 v2 disTime persistent).selected = some (takeHigher v1 v2).1 ∨
      (selectBothGood a w limit brk v1 v2 disTime persistent).selected = some (takeLower v1 v2).1 := by
  unfold selectBothGood
  dsimp only
  split
  · exact .inl rfl
  · split
    · exact .inl rfl
    · split
      · cases brk
        · exact .inr rfl
        · exact .inl rfl
      · exact .inl rfl

theorem selectBothGood_reading {a w limit : Nat} {brk : Bool} {v1 v2 disTime v : Nat} {persistent : Bool}
    (h : (selectBothGood a w limit brk v1 v2 disTime persistent).selected = some v) : v = v1 ∨ v = v2 := by
  rcases selectBothGood_selected a w limit brk v1 v2 disTime persistent with hsel | hsel
  · obtain rfl : (takeHigher v1 v2).1 = v := Option.some.inj (hsel.symm.trans h)
    exact takeHigher_fst v1 v2
  · obtain rfl : (takeLower v1 v2).1 = v := Option.some.inj (hsel.symm.trans h)
    exact takeLower_fst v1 v2

/-- Channel 2 supplies the selected speed only while SOLO is latched low, when it is counted. -/
theorem selectSpeed_reading {solo brk : Bool} {a w limit : Nat} {c1 c2 : AxleState} {disTime v : Nat}
    {persistent : Bool} (h : (selectSpeed solo brk a w limit c1 c2 disTime persistent).selected = some v) :
    v = c1.v ∨ solo = false ∧ v = c2.v := by
  unfold selectSpeed at h
  cases solo with
  | true =>
    cases hf : c1.failed <;> simp only [hf, if_true] at h
    · exact .inl (Option.some.inj h).symm
    · cases h
  | false =>
    simp only [Bool.false_eq_true, if_false] at h
    split at h
    next => exact (selectBothGood_reading h).imp_right fun hv => ⟨rfl, hv⟩
    next => exact .inl (Option.some.inj h).symm
    next => exact .inr ⟨rfl, (Option.some.inj h).symm⟩
    next => cases h

/-! ## The range of the selected speed (R40) -/

/-- The clamp of R40 bounds what a counted channel reads after a completion. -/
theorem AxleState.completeWindow_v_le (c : AxleState) (diameter p w vp l : Nat) :
    (c.completeWindow diameter p w vp l).v ≤ 4000 :=
  Nat.min_le_left ..

theorem Asu.complete_selected_le {u : Asu} {sh : Memory} {solo brk : Bool} {v : Nat}
    (h : (u.complete sh solo brk).selected = some v) : v ≤ 4000 := by
  rcases selectSpeed_reading h with rfl | ⟨rfl, rfl⟩
  · exact AxleState.completeWindow_v_le ..
  · exact AxleState.completeWindow_v_le ..

/-! ## The display speed (R54) -/

@[simp] theorem Asu.complete_d (u : Asu) (sh : Memory) (solo brk : Bool) :
    (u.complete sh solo brk).d = displaySpeed (u.complete sh solo brk).selected := rfl

@[simp] theorem displaySpeed_none : displaySpeed none = none := rfl

@[simp] theorem displaySpeed_some (v : Nat) : displaySpeed (some v) = some ((2 * v + 10) / 20) := rfl

/-- The formula of R54 rounds half up from tenths to km/h. -/
theorem isRounded_displaySpeed (v : Nat) : isRounded ((2 * v + 10) / 20) v 10 := by
  unfold isRounded
  omega

/-- Rounding to km/h moves a speed by at most 5 tenths. -/
theorem isRounded.within_five {d v : Nat} (h : isRounded d v 10) : 10 * d ≤ v + 5 ∧ v ≤ 10 * d + 5 := by
  unfold isRounded at h
  omega

/-- A display speed fits the indication word, so the word passes every tolerance of at least 5 tenths. -/
theorem withinTolerance_of_within_five {d v tolerance : Nat} (hd : d ≤ 400) (hlow : 10 * d ≤ v + 5)
    (hhigh : v ≤ 10 * d + 5) (htol : 5 ≤ tolerance) : withinTolerance tolerance v (BitVec.ofNat 16 d) = true := by
  have hword : (BitVec.ofNat 16 d).toNat = d := by
    rw [BitVec.toNat_ofNat, Nat.mod_eq_of_lt (by omega)]
  rw [withinTolerance_iff, hword]
  omega

/-- Settles O25: the clamp of R40 bounds the selected speed by 4000 tenths, and R54 rounds it half up. -/
theorem displaySpeedRounded : Obligations.DisplaySpeedRounded := by
  intro s brk e hwindow
  refine ⟨_, exec_windowCompletion brk hwindow, fun hnone => ?_, fun v hv => ?_⟩
  · simp only [State.completeWindow_asu, Asu.complete_d] at hnone ⊢
    rw [hnone, displaySpeed_none]
  · simp only [State.completeWindow_asu, Asu.complete_d] at hv ⊢
    have hmax : v ≤ 4000 := Asu.complete_selected_le hv
    have hd : (2 * v + 10) / 20 ≤ 400 := by omega
    have hround := isRounded_displaySpeed v
    obtain ⟨hlow, hhigh⟩ := hround.within_five
    exact ⟨_, by rw [hv, displaySpeed_some], hround, rfl, hd, hlow, hhigh,
      fun _ htol => withinTolerance_of_within_five hd hlow hhigh htol⟩

end Sys2Proof.Machine
end

section
/-! SUPPORT. What a step can make of the state, said once: `Effect`, with a case for each operation of a command that is
neither a computer write nor a release, `Move`, which adds the parts of those two and of a step on an empty queue, and
`Invariant.step`, by which what every move keeps is kept by every step. -/

namespace Sys2Proof.Machine

/-- The FSU with a displayed aspect of number `x.1` and ceiling `x.2` (R68, R92). -/
def Fsu.delivered (f : Fsu) (running : Bool) (x : Nat × Nat) : Fsu :=
  let g := if running then { f with table := f.table.map (recheckAspect x.1) } else f
  if g.ceiling = some x.2 then g else g.ceilingChange running x.2

/-- The FSU with a new value of a lamp function (R14). -/
def Fsu.relit (f : Fsu) (running : Bool) (fn : LampFn) (v : Bool) : Fsu :=
  { f with
    fns := f.fns.set fn v
    table := if running then f.table.map fun r => if r.carries fn then relamp f.lampTest (f.fns.set fn v) r else r
      else f.table }

/-- The ANU with the debounced level of a button at that of its line (R124). -/
def Anu.settled (a : Anu) (b : Button) : Anu :=
  a.setButton b { a.button b with pressed := (a.button b).line, timer := none }

/-- The CSU with the debounced CABACT level at that of its line (R176). -/
def Csu.settled (c : Csu) : Csu := { c with cabActive := c.cabLine, cabTimer := none }

@[simp] theorem Csu.settled_eq (c : Csu) : c.settled = { c with cabActive := c.cabLine, cabTimer := none } := rfl

/-- What the command `c`, where it is no computer write and no release, makes of the state `s`: nothing, or an operation
of a block on the state at the ms of an expiry, or on the state without the hand-over that is taken. -/
inductive Effect (s : State) : Instr → State → Prop where
  /-- the event does not occur, or changes nothing (log 2) -/
  | nothing {c} : Effect s c s
  /-- R36 -/
  | edgeOne {b} (h : s.countsEdge .one = true) :
      Effect s (.axleEdge .one b) { s with asu := { s.asu with ch1 := s.asu.ch1.edge b } }
  | edgeTwo {b} (h : s.countsEdge .two = true) :
      Effect s (.axleEdge .two b) { s with asu := { s.asu with ch2 := s.asu.ch2.edge b } }
  /-- R45 -/
  | window {brk e} (h : s.asu.window = some e) : Effect s (.windowCompletion brk) ((s.reach e).completeWindow brk)
  /-- R58, R62 -/
  | speedRechecked {c rest} (h : takeFirst pickSpeed s.inFlight = some (c, rest)) (hop : s.csu.op = .running) :
      Effect s .speedHandover ({ s with inFlight := rest }.fsuCommit
        { s.fsu with speed := some c, table := s.fsu.table.map (recheckActual c) })
  | speedStored {c rest} (h : takeFirst pickSpeed s.inFlight = some (c, rest)) (hop : s.csu.op ≠ .running) :
      Effect s .speedHandover { s with inFlight := rest, fsu := { s.fsu with speed := some c } }
  /-- R71, R72 -/
  | completion {c rest} (h : takeFirst pickCompletion s.inFlight = some (c, rest)) :
      Effect s .completionHandoverAnu ({ s with inFlight := rest, anu := { s.anu with copy := some c } }.evaluate
        [.overspeed, .speedUnknown, .dirFwd, .dirRev, .channelFault])
  | newPr {pr rest} (h : takeFirst pickNewPr s.inFlight = some (pr, rest)) :
      Effect s .newPr ({ s with inFlight := rest, anu := { s.anu with reference := some (10 * pr) } }.evaluate
        [.overspeed])
  /-- R78 -/
  | strobeTaken {code elapsed} (h : { s with now := s.now + elapsed }.takesStrobe = true) :
      Effect s (.strobe code elapsed) ({ s with now := s.now + elapsed }.strobe code)
  | strobeIgnored {code elapsed} (h : { s with now := s.now + elapsed }.takesStrobe = false) :
      Effect s (.strobe code elapsed) { s with now := s.now + elapsed }
  /-- R82, R83 -/
  | strobesLost {e} (h : s.tcu.loss = some e) : Effect s .lossTimerExpiry (s.reach e).loseStrobes
  | holdEnded {e} (h : s.tcu.hold = some e) : Effect s .holdTimerExpiry (s.reach e).endHold
  /-- R89, R91 -/
  | aspectWritten {w n rest} (h : takeFirst pickAspectInput s.inFlight = some (.written w n, rest)) :
      Effect s .writtenAspectTaken
        ({ s with inFlight := rest }.tcuTake { s.tcu with written := some w, aspectStale := false } n)
  | aspectStale {b n rest} (h : takeFirst pickAspectInput s.inFlight = some (.stale b n, rest)) :
      Effect s .aspectStaleNotice ({ s with inFlight := rest }.tcuTake { s.tcu with aspectStale := b } n)
  /-- R68, R92 -/
  | delivery {x rest} (h : takeFirst pickDelivery s.inFlight = some (x, rest)) :
      Effect s .aspectDelivery ({ s with inFlight := rest }.fsuCommit (s.fsu.delivered (decide (s.csu.op = OpState.running)) x))
  /-- R94, R95 -/
  | rankTaken {r rest} (h : takeFirst pickRank s.inFlight = some (r, rest)) :
      Effect s .rankDelivery { s with inFlight := rest, anu := { s.anu with rank := some r } }
  | rankFallen {r old rest} (h : takeFirst pickRank s.inFlight = some (r, rest)) (hop : s.csu.op = .running)
      (hr : s.anu.rank = some old) (hlt : r < old) :
      Effect s .rankDelivery ((({ s with inFlight := rest, anu := { s.anu with
        rank := some r, pendingAck := true, ackTimer := s.startTimer (1000 * s.csu.shadow.imgTack) } }.reevaluate
          [.restrictAck]).followDemands.sendEvents .anu [.ad]).sendReport .anu
            (if s.anu.pendingAck then [] else [.restriction true]))
  | unacknowledged {e} (h : s.anu.ackTimer = some e) :
      Effect s .acknowledgementTimerExpiry
        ({ s.reach e with anu := { s.anu with ackTimer := none } }.sendFlu .anu [.raise restrictionMsg])
  /-- R104–R108 -/
  | raise {b m rest} (h : takeFirst (pickFault b) s.inFlight = some (.raise m, rest)) :
      Effect s (.raise b) ({ s with inFlight := rest }.takeRequest (.raise m))
  | clear {b m rest} (h : takeFirst (pickFault b) s.inFlight = some (.clear m, rest)) :
      Effect s (.clear b) ({ s with inFlight := rest }.takeRequest (.clear m))
  | acknowledge {rest} (h : takeFirst (pickFault .anu) s.inFlight = some (.acknowledge, rest))
      (hop : s.csu.op = .running) : Effect s .acknowledge ({ s with inFlight := rest }.takeRequest .acknowledge)
  | acknowledgeDropped {rest} (h : takeFirst (pickFault .anu) s.inFlight = some (.acknowledge, rest))
      (hop : s.csu.op ≠ .running) : Effect s .acknowledge { s with inFlight := rest }
  /-- R15 -/
  | slotsShown {es rest} (h : takeFirst pickListFsu s.inFlight = some (es, rest)) (hop : s.csu.op = .running) :
      Effect s .listHandoverFsu
        ({ s with inFlight := rest }.fsuCommit { s.fsu with table := showSlots es s.fsu.table })
  | slotsStay {es rest} (h : takeFirst pickListFsu s.inFlight = some (es, rest)) (hop : s.csu.op ≠ .running) :
      Effect s .listHandoverFsu { s with inFlight := rest }
  /-- R117, R120, R157 -/
  | summary {x rest} (h : takeFirst pickListAnu s.inFlight = some (x, rest)) :
      Effect s .listHandoverAnu (({ s with inFlight := rest, anu := { s.anu with summary := x } }.reevaluate
        [.faultA, .faultAny, .faultMore]).followDemands)
  | mirror {es rest} (h : takeFirst pickListRpu s.inFlight = some (es, rest)) :
      Effect s .listHandoverRpu
        ({ s with inFlight := rest }.rpuCommit { s.rpu with list := es } (9 :: mirrorOffsets))
  /-- R118, R121, R122 -/
  | chime {u rest} (h : takeFirst pickChime s.inFlight = some (u, rest)) :
      Effect s .chimeRequest { s with inFlight := rest }.chime
  | cadence {e} (h : s.anu.cadence = some e) : Effect s .cadenceTimerExpiry (s.reach e).stepCadence
  | flash {e} (h : s.anu.flash = some e) :
      Effect s .flashTimerExpiry ({ s.reach e with
        anu := { s.anu with phase := !s.anu.phase, flash := (s.reach e).startTimer Config.flashHalf } }.reevaluate
          [.overspeed, .restrictAck])
  /-- R14 -/
  | lampFunction {x rest} (h : takeFirst pickLampFunction s.inFlight = some (x, rest)) :
      Effect s .lampFunctionChange ({ s with inFlight := rest }.fsuCommit
        (s.fsu.relit (decide (s.csu.op = OpState.running)) x.1 x.2))
  /-- R117 -/
  | codeLost {b rest} (h : takeFirst pickInput s.inFlight = some (.codeLost b, rest)) :
      Effect s .functionInputHandover
        ({ s with inFlight := rest, anu := { s.anu with codeLost := b } }.reevaluate [.codeLost])
  | uncoded {b rest} (h : takeFirst pickInput s.inFlight = some (.uncoded b, rest)) :
      Effect s .functionInputHandover
        ({ s with inFlight := rest, anu := { s.anu with uncoded := b } }.reevaluate [.uncoded])
  | staleCounted {entered rest} (h : takeFirst pickStale s.inFlight = some (entered, rest)) :
      Effect s .staleNotice ({ s with inFlight := rest, anu := { s.anu with
        staleCount := if entered then s.anu.staleCount + 1 else s.anu.staleCount - 1 } }.reevaluate [.staleAny])
  /-- R124–R129 -/
  | buttonLine {b high} (h : (s.anu.button b).line ≠ high) :
      Effect s (.buttonLineChange b high) { s with anu := s.anu.setButton b { s.anu.button b with
        line := high
        timer := if s.csu.op = .reset then (s.anu.button b).timer else s.startTimer Config.buttonDebounce } }
  | buttonLevel {b e} (h : (s.anu.button b).timer = some e) :
      Effect s (.buttonDebounceExpiry b) { s.reach e with anu := s.anu.settled b }
  | buttonChanged {b e} (h : (s.anu.button b).timer = some e) (hop : s.csu.op = .running)
      (hl : (s.anu.button b).line ≠ (s.anu.button b).pressed) :
      Effect s (.buttonDebounceExpiry b) ({ s.reach e with anu := s.anu.settled b }.buttonChanged b (s.anu.button b).line)
  | lockoutEnded {e} (h : s.anu.lockout = some e) :
      Effect s .lockoutExpiry { s.reach e with anu := { s.anu with lockout := none } }
  | lampTestTimeout {e} (h : s.anu.test = some e) : Effect s .lampTestTimeout (s.reach e).endLampTest
  | lampTestBegun {rest} (h : takeFirst pickLampTest s.inFlight = some (true, rest)) :
      Effect s .lampTestBegun ({ s with inFlight := rest }.setLampTest true)
  | lampTestEnded {rest} (h : takeFirst pickLampTest s.inFlight = some (false, rest)) :
      Effect s .lampTestEnded ({ s with inFlight := rest }.setLampTest false)
  /-- R135 -/
  | ageStopped {i r e} (hop : s.csu.op = .running) (hr : s.fsu.table[i]? = some r) (h : r.age = some e)
      (hst : r.state = .stale) :
      Effect s (.ageTimerExpiry i)
        { s.reach e with fsu := { s.fsu with table := s.fsu.table.set i { r with age := none } } }
  | ageExpired {i r e} (hop : s.csu.op = .running) (hr : s.fsu.table[i]? = some r) (h : r.age = some e)
      (hst : r.state ≠ .stale) : Effect s (.ageTimerExpiry i) ((s.reach e).goStale i r)
  /-- R155, R158 -/
  | events {b es rest} (h : takeFirst (pickEvents b) s.inFlight = some (es, rest)) :
      Effect s (.setEvent b) ({ s with inFlight := rest }.setEvents es)
  | report {b items rest} (h : takeFirst (pickReport b) s.inFlight = some (items, rest)) :
      Effect s (.reportHandover b)
        ({ s with inFlight := rest }.rpuCommit (items.foldl Rpu.applyItem s.rpu) (reachedOffsets items))
  /-- R145, R150, R177 -/
  | enqueue {b ws rest} (h : takeFirst (pickOwnWrites b) s.inFlight = some (ws, rest)) :
      Effect s (.ownWriteRequest b) { s with inFlight := rest, mwq := s.mwq.enqueueAll ws }
  | grant : Effect s .ownWriteGrant s.grantHead
  | drained {u rest} (h : takeFirst pickDrain s.inFlight = some (u, rest)) (hop : s.csu.op = .standby) :
      Effect s .fieldDrainNotice ({ s with inFlight := rest }.sendReport .csu [.opState .standby false])
  | drainDropped {u rest} (h : takeFirst pickDrain s.inFlight = some (u, rest)) (hop : s.csu.op ≠ .standby) :
      Effect s .fieldDrainNotice { s with inFlight := rest }
  /-- R172, R173 -/
  | powerReset (h : s.csu.pwrg = true) :
      Effect s .pwrgFall ({ s with csu := { s.csu with pwrg := false } }.enterReset true)
  | powerGood (h : s.csu.pwrg = false) :
      Effect s .pwrgRise { s with csu := { s.csu with pwrg := true, settle := s.startTimer Config.settleTime } }
  | settled {solo e} (h : s.csu.settle = some e) (hw : s.csu.wrst = false) :
      Effect s (.settleTimeExpiry solo) { s.reach e with csu := { s.csu with settle := none } }
  | warmReset (h : s.csu.wrst = true) (hop : s.csu.op ≠ .reset) :
      Effect s .wrstFall ({ s with csu := { s.csu with wrst := false } }.enterReset false)
  | warmFall (h : s.csu.wrst = true) (hop : s.csu.op = .reset) :
      Effect s .wrstFall { s with csu := { s.csu with wrst := false } }
  | warmRise {solo} (h : s.csu.wrst = false) (hp : ¬ (s.csu.pwrg = true ∧ s.csu.settle = none)) :
      Effect s (.wrstRise solo) { s with csu := { s.csu with wrst := true } }
  /-- R169 -/
  | loadTimeout {e} (h : s.csu.load = some e) :
      Effect s .loadTimerExpiry { s.reach e with csu := { s.csu with verdict := .timeout } }.enterFallback
  /-- R176–R178 -/
  | cabLine {high} (h : s.csu.cabLine ≠ high) :
      Effect s (.cabactLineChange high) { s with csu := { s.csu with
        cabLine := high
        cabTimer := if s.csu.op = .reset then s.csu.cabTimer else s.startTimer Config.cabDebounce } }
  | cabLevel {e} (h : s.csu.cabTimer = some e) : Effect s .cabactDebounceExpiry { s.reach e with csu := s.csu.settled }
  | cabStandby {e} (h : s.csu.cabTimer = some e) (hop : s.csu.op = .running) (hl : s.csu.cabLine = false)
      (ha : s.csu.cabActive = true) : Effect s .cabactDebounceExpiry { s.reach e with csu := s.csu.settled }.enterStandby
  | cabReturn {e} (h : s.csu.cabTimer = some e) (hop : s.csu.op = .standby) (hl : s.csu.cabLine = true)
      (ha : s.csu.cabActive = false) : Effect s .cabactDebounceExpiry { s.reach e with csu := s.csu.settled }.returnToRunning

/-- Only the territory word of RUNNING and STANDBY is a territory request (R33). -/
theorem wordClass_territory {op : OpState} {table : List Record} {a : Addr} (h : wordClass op table a = .territory) :
    op.hasTable = true := by
  cases op with
  | running | standby => rfl
  | reset | fallback => cases h
  | loading =>
    refine absurd h ?_
    exact ite_class_ne nofun <| ite_class_ne nofun <| ite_class_ne nofun <| ite_class_ne nofun <|
      ite_class_ne nofun <| ite_class_ne nofun <| ite_class_ne nofun <| ite_class_ne nofun <|
      ite_class_ne nofun <| ite_class_ne nofun <| ite_class_ne nofun nofun

theorem Outcome.next_inj {s t : State} (h : (Host.Outcome.next s : Host.Outcome State Fault Refusal) = .next t) :
    s = t := Host.Outcome.next.inj h

/-- A timer's expiry is taken where it runs, and is no event where it is stopped (log 2). -/
theorem Effect.ofTimer {s : State} {c : Instr} {act : Nat → State} (timer : Timer) :
    (∀ e, timer = some e → Effect s c (act e)) →
    Effect s c (match timer with
      | some e => act e
      | none => s) := by
  intro h
  cases timer with
  | none => exact .nothing
  | some e => exact h e rfl

/-- Every command is a computer write, or a release and the take of a held cycle, or comes to one of the cases of
`Effect`. -/
theorem exec_cases {c : Instr} {s t : State} (h : exec c s = .next t) :
    (∃ a w, c.write = some (a, w) ∧ t = s.computerWrite a w) ∨
    (∃ now solo, s.releasedBy c solo now ∧ t = State.release { s with
      now := now, csu := { s.csu with wrst := true, settle := none } } solo) ∨
    Effect s c t := by
  cases c with
  | actualWrite | permittedWrite | targetWrite | aspectWrite | lampsWrite | watchedWrite | faultSlotWrite
  | standbyFieldWrite | eventWordWrite | interruptEnableWrite | territoryWrite | configurationCaptureWrite
  | checkWordWrite | lockedConfigurationWrite | faultEntryUnitCodeWrite | faultEntrySeverityActionWrite
  | faultEntryTextIndexWrite | plainWrite =>
    exact .inl ⟨_, _, rfl, (Outcome.next_inj h).symm⟩
  | axleEdge ch b =>
    obtain rfl := Outcome.next_inj h
    refine .inr (.inr ?_)
    cases ch <;> dsimp only <;> split
    · exact .edgeOne ‹_›
    · exact .nothing
    · exact .edgeTwo ‹_›
    · exact .nothing
  | windowCompletion brk =>
    obtain rfl := Outcome.next_inj h
    refine .inr (.inr ?_)
    exact .ofTimer _ fun _ he => .window he
  | speedHandover =>
    obtain rfl := Outcome.next_inj h
    refine .inr (.inr ?_)
    refine State.takeMsg_ind .nothing fun c rest hm => ?_
    split
    · exact .speedRechecked hm ‹_›
    · exact .speedStored hm ‹_›
  | completionHandoverAnu =>
    obtain rfl := Outcome.next_inj h
    refine .inr (.inr ?_)
    exact State.takeMsg_ind .nothing fun _ _ hm => .completion hm
  | newPr =>
    obtain rfl := Outcome.next_inj h
    refine .inr (.inr ?_)
    exact State.takeMsg_ind .nothing fun _ _ hm => .newPr hm
  | strobe code elapsed =>
    obtain rfl := Outcome.next_inj h
    refine .inr (.inr ?_)
    dsimp only
    split
    · exact .strobeTaken ‹_›
    · exact .strobeIgnored (Bool.eq_false_iff.mpr ‹_›)
  | lossTimerExpiry =>
    obtain rfl := Outcome.next_inj h
    refine .inr (.inr ?_)
    exact .ofTimer _ fun _ he => .strobesLost he
  | holdTimerExpiry =>
    obtain rfl := Outcome.next_inj h
    refine .inr (.inr ?_)
    exact .ofTimer _ fun _ he => .holdEnded he
  | writtenAspectTaken =>
    obtain rfl := Outcome.next_inj h
    refine .inr (.inr ?_)
    split
    · exact .aspectWritten ‹_›
    · exact .nothing
  | aspectStaleNotice =>
    obtain rfl := Outcome.next_inj h
    refine .inr (.inr ?_)
    split
    · exact .aspectStale ‹_›
    · exact .nothing
  | aspectDelivery =>
    obtain rfl := Outcome.next_inj h
    refine .inr (.inr ?_)
    refine State.takeMsg_ind .nothing fun x rest hm => ?_
    have := Effect.delivery hm
    by_cases hop : s.csu.op = .running <;> simpa [Fsu.delivered, hop] using this
  | rankDelivery =>
    obtain rfl := Outcome.next_inj h
    refine .inr (.inr ?_)
    refine State.takeMsg_ind .nothing fun r rest hm => ?_
    dsimp only
    split
    next old hr =>
      split
      next hlt =>
        have := Effect.rankFallen hm hlt.2 hr hlt.1
        by_cases hp : s.anu.pendingAck = true <;> simpa [hp, State.sendReport, State.startTimer] using this
      next => exact .rankTaken hm
    next => exact .rankTaken hm
  | acknowledgementTimerExpiry =>
    obtain rfl := Outcome.next_inj h
    refine .inr (.inr ?_)
    exact .ofTimer _ fun _ he => .unacknowledged he
  | raise b =>
    obtain rfl := Outcome.next_inj h
    refine .inr (.inr ?_)
    split
    · exact .raise ‹_›
    · exact .nothing
  | clear b =>
    obtain rfl := Outcome.next_inj h
    refine .inr (.inr ?_)
    split
    · exact .clear ‹_›
    · exact .nothing
  | acknowledge =>
    obtain rfl := Outcome.next_inj h
    refine .inr (.inr ?_)
    split
    next rest hm =>
      dsimp only
      split
      · exact .acknowledge hm ‹_›
      · exact .acknowledgeDropped hm ‹_›
    next => exact .nothing
  | listHandoverFsu =>
    obtain rfl := Outcome.next_inj h
    refine .inr (.inr ?_)
    refine State.takeMsg_ind .nothing fun c rest hm => ?_
    split
    · exact .slotsShown hm ‹_›
    · exact .slotsStay hm ‹_›
  | listHandoverAnu =>
    obtain rfl := Outcome.next_inj h
    refine .inr (.inr ?_)
    exact State.takeMsg_ind .nothing fun _ _ hm => .summary hm
  | listHandoverRpu =>
    obtain rfl := Outcome.next_inj h
    refine .inr (.inr ?_)
    exact State.takeMsg_ind .nothing fun _ _ hm => .mirror hm
  | chimeRequest =>
    obtain rfl := Outcome.next_inj h
    refine .inr (.inr ?_)
    exact State.takeMsg_ind .nothing fun _ _ hm => .chime hm
  | cadenceTimerExpiry =>
    obtain rfl := Outcome.next_inj h
    refine .inr (.inr ?_)
    exact .ofTimer _ fun _ he => .cadence he
  | flashTimerExpiry =>
    obtain rfl := Outcome.next_inj h
    refine .inr (.inr ?_)
    exact .ofTimer _ fun _ he => .flash he
  | lampFunctionChange =>
    obtain rfl := Outcome.next_inj h
    refine .inr (.inr ?_)
    refine State.takeMsg_ind .nothing fun x rest hm => ?_
    have := Effect.lampFunction hm
    by_cases hop : s.csu.op = .running <;> simpa [Fsu.relit, hop] using this
  | functionInputHandover =>
    obtain rfl := Outcome.next_inj h
    refine .inr (.inr ?_)
    refine State.takeMsg_ind .nothing fun i rest hm => ?_
    cases i with
    | codeLost => exact .codeLost hm
    | uncoded => exact .uncoded hm
  | staleNotice =>
    obtain rfl := Outcome.next_inj h
    refine .inr (.inr ?_)
    exact State.takeMsg_ind .nothing fun _ _ hm => .staleCounted hm
  | buttonLineChange b high =>
    obtain rfl := Outcome.next_inj h
    refine .inr (.inr ?_)
    dsimp only
    split
    · exact .nothing
    · exact .buttonLine ‹_›
  | buttonDebounceExpiry b =>
    obtain rfl := Outcome.next_inj h
    refine .inr (.inr ?_)
    dsimp only
    split
    next => exact .nothing
    next e he =>
      split
      · exact .buttonLevel he
      · split
        · exact .buttonChanged he ‹_› ‹_›
        · exact .buttonLevel he
  | lockoutExpiry =>
    obtain rfl := Outcome.next_inj h
    refine .inr (.inr ?_)
    exact .ofTimer _ fun _ he => .lockoutEnded he
  | lampTestTimeout =>
    obtain rfl := Outcome.next_inj h
    refine .inr (.inr ?_)
    exact .ofTimer _ fun _ he => .lampTestTimeout he
  | lampTestBegun =>
    obtain rfl := Outcome.next_inj h
    refine .inr (.inr ?_)
    split
    · exact .lampTestBegun ‹_›
    · exact .nothing
  | lampTestEnded =>
    obtain rfl := Outcome.next_inj h
    refine .inr (.inr ?_)
    split
    · exact .lampTestEnded ‹_›
    · exact .nothing
  | ageTimerExpiry i =>
    obtain rfl := Outcome.next_inj h
    refine .inr (.inr ?_)
    split
    next r hop hr =>
      split
      · exact .nothing
      · dsimp only
        split
        · exact .ageStopped hop hr ‹_› ‹_›
        · exact .ageExpired hop hr ‹_› ‹_›
    next => exact .nothing
  | setEvent b =>
    obtain rfl := Outcome.next_inj h
    refine .inr (.inr ?_)
    exact State.takeMsg_ind .nothing fun _ _ hm => .events hm
  | reportHandover b =>
    obtain rfl := Outcome.next_inj h
    refine .inr (.inr ?_)
    exact State.takeMsg_ind .nothing fun _ _ hm => .report hm
  | ownWriteRequest b =>
    obtain rfl := Outcome.next_inj h
    refine .inr (.inr ?_)
    exact State.takeMsg_ind .nothing fun _ _ hm => .enqueue hm
  | ownWriteGrant =>
    obtain rfl := Outcome.next_inj h
    refine .inr (.inr ?_)
    exact .grant
  | fieldDrainNotice =>
    obtain rfl := Outcome.next_inj h
    refine .inr (.inr ?_)
    refine State.takeMsg_ind .nothing fun u rest hm => ?_
    split
    · exact .drained hm ‹_›
    · exact .drainDropped hm ‹_›
  | pwrgFall =>
    obtain rfl := Outcome.next_inj h
    refine .inr (.inr ?_)
    split
    · exact .powerReset ‹_›
    · exact .nothing
  | pwrgRise =>
    obtain rfl := Outcome.next_inj h
    refine .inr (.inr ?_)
    split
    · exact .nothing
    · exact .powerGood (Bool.eq_false_iff.mpr ‹_›)
  | settleTimeExpiry solo =>
    obtain rfl := Outcome.next_inj h
    split
    next e he =>
      dsimp only
      split
      next hw =>
        refine .inr (.inl ⟨max s.now e, solo, .inl ⟨rfl, hw, e, he, rfl⟩, ?_⟩)
        simp [State.reach, hw]
      next hw => exact .inr (.inr (.settled he (Bool.eq_false_iff.mpr hw)))
    next => exact .inr (.inr .nothing)
  | wrstFall =>
    obtain rfl := Outcome.next_inj h
    refine .inr (.inr ?_)
    dsimp only
    split
    · split
      · exact .warmFall ‹_› ‹_›
      · exact .warmReset ‹_› ‹_›
    · exact .nothing
  | wrstRise solo =>
    obtain rfl := Outcome.next_inj h
    dsimp only
    split
    next => exact .inr (.inr .nothing)
    next hw =>
      have hw' : s.csu.wrst = false := Bool.eq_false_iff.mpr hw
      split
      next hp =>
        refine .inr (.inl ⟨s.now, solo, .inr ⟨rfl, hw', hp.1, hp.2, rfl⟩, ?_⟩)
        rw [hp.2]
      next hp => exact .inr (.inr (.warmRise hw' hp))
  | loadTimerExpiry =>
    obtain rfl := Outcome.next_inj h
    refine .inr (.inr ?_)
    exact .ofTimer _ fun _ he => .loadTimeout he
  | cabactLineChange high =>
    obtain rfl := Outcome.next_inj h
    refine .inr (.inr ?_)
    dsimp only
    split
    · exact .nothing
    · exact .cabLine ‹_›
  | cabactDebounceExpiry =>
    obtain rfl := Outcome.next_inj h
    refine .inr (.inr ?_)
    split
    next => exact .nothing
    next e he =>
      dsimp only
      split
      · exact .cabLevel he
      next hne =>
        split
        next hop hl => exact .cabStandby he hop hl (by simpa [hl] using hne)
        next hop hl => exact .cabReturn he hop hl (by simpa [hl] using hne)
        next => exact .cabLevel he

/-- The two ways a release goes (R171, R173), from the part `s` with its last source of RESET gone. -/
inductive ReleasedTo (s : State) (solo : Bool) : State → Prop where
  | loading {cause verdict off} : ReleasedTo s solo
      ((s.atRelease { s.csu with
        solo := solo, cause := cause
        verdict := if cause = .warmImageLost then verdict else s.csu.verdict
        failures := if cause = .warmImageLost then 0 else s.csu.failures
        failOff := if cause = .warmImageLost then off else s.csu.failOff } .loading).enterLoading verdict off)
  | running (hlocked : s.csu.locked = true) (hpass : checkImage s.csu.shadow = .pass) : ReleasedTo s solo
      ((s.atRelease { s.csu with
        solo := solo, cause := .warmImageKept, verdict := .accepted, failures := 0, failOff := 0 }
          .running).takeImage).enterRunning

theorem State.releaseRetained_cases (s : State) (solo : Bool) (hl : s.csu.locked = true) (r : CheckResult)
    (hr : checkImage s.csu.shadow = r) : ReleasedTo s solo (s.releaseRetained { s.csu with solo := solo } r) := by
  cases r with
  | pass => exact .running hl hr
  | crcFails => exact .loading (cause := .warmImageLost)
  | contentFails o => exact .loading (cause := .warmImageLost)

theorem State.releaseTo_cases (s : State) (solo : Bool) : ReleasedTo s solo (s.releaseTo solo) := by
  unfold State.releaseTo
  dsimp only
  by_cases hp : s.csu.powerReset = true
  · rw [if_pos hp]
    exact .loading (cause := .power)
  · rw [if_neg hp]
    by_cases hl : s.csu.locked = true
    · rw [if_neg (by simp [hl])]
      exact s.releaseRetained_cases solo hl _ rfl
    · rw [if_pos (by simp [hl])]
      exact .loading (cause := .warm)

/-- One part of a step: the operations into which a computer cycle and a release fall, and the cases of `Effect`. -/
inductive Move : State → State → Prop where
  /-- what no law speaks of: the commands and reads that wait, the held cycle, the word passed back, the clock -/
  | aside {s pending reads held answer now} : Move s { s with
      pending := pending, reads := reads, held := held, answer := answer, now := now }
  | effect {s t c} (h : Effect s c t) : Move s t
  /-- the computer's turn on the port (R149) -/
  | turn {s} (hop : s.csu.op ≠ .reset) : Move s { s with mwq := { s.mwq with queueTurn := true } }
  | receive {s} (hop : s.csu.op ≠ .reset) (a : Addr) (w : Word) : Move s (s.receive a w)
  | field {s i} (hop : s.csu.op.hasTable = true) (w : Word) : Move s (s.fieldWrite i w)
  | capture {s} (hop : s.csu.op = .loading) (a : Addr) (w : Word) : Move s (s.capture a w)
  | accept {s} (hop : s.csu.op = .loading) (hpass : checkImage s.csu.shadow = .pass) : Move s s.acceptImage
  | reject {s} (hop : s.csu.op = .loading) (v : Verdict) (off : BitVec 8) : Move s (s.rejectImage v off)
  | events {s} (hop : s.csu.op ≠ .reset) (b : Block) (es : List Event) : Move s (s.sendEvents b es)
  | clearEvents {s} (hop : s.csu.op ≠ .reset) (m : Word) : Move s { s with rpu := s.rpu.clearByOne m }
  | latchEnable {s} (hop : s.csu.op ≠ .reset) (m : Word) :
      Move s { s with rpu := { s.rpu with enable := m }.followIntr }
  | territory {s u} (hop : s.csu.op.hasTable = true) (hu : u ≠ s.tcu.uncoded) : Move s (s.changeTerritory u)
  | window {s} (hop : s.csu.op ≠ .reset) (x : WindowStep) : Move s (s.takeWindow x)
  | release {s t solo c now} (h : s.releasedBy c solo now)
      (ht : ReleasedTo { s with now := now, csu := { s.csu with wrst := true, settle := none } } solo t) : Move s t

/-- Parts of a step, one after the other. -/
abbrev Moves : State → State → Prop := Relation.ReflTransGen Move

theorem State.serveQueueTurn_moves (s : State) : Moves s s.serveQueueTurn := by
  unfold State.serveQueueTurn
  split
  · exact .single (.effect .grant)
  · exact .refl

/-- The decision on a computer write (R20–R35) falls into moves. -/
theorem State.decideWrite_moves {s : State} (hop : s.csu.op ≠ .reset) (a : Addr) (w : Word) :
    Moves s (s.decideWrite a w) := by
  unfold State.decideWrite
  split
  next i hk => exact .single (.field (wordClass_field_inv hk).1 w)
  next => exact .single (.receive hop a w)
  next hk =>
    have hl := wordClass_capture hk
    exact .tail (.single (.receive hop a w)) (.capture (by simpa using hl) a w)
  next hk =>
    have hl := wordClass_check hk
    refine .tail (.tail (.single (.receive hop a w)) (.capture (by simpa using hl) a w)) ?_
    have hl' : ((s.receive a w).capture a w).csu.op = .loading := by simpa [State.capture] using hl
    unfold State.judgeImage
    generalize hr : checkImage ((s.receive a w).capture a w).csu.shadow = r
    cases r with
    | pass => exact .accept hl' hr
    | crcFails => exact .reject hl' _ _
    | contentFails o => exact .reject hl' _ _
  next => exact .single (.events hop _ _)
  next => exact .refl
  next => exact .tail (.single (.clearEvents hop w)) (.receive (s := { s with rpu := s.rpu.clearByOne w }) hop _ _)
  next =>
    exact .tail (.single (.latchEnable hop w))
      (.receive (s := { s with rpu := { s.rpu with enable := w }.followIntr }) hop _ _)
  next hk =>
    have ht := wordClass_territory hk
    unfold State.writeTerritory
    split
    next u hu =>
      split
      · dsimp only
        split
        · exact .single (.receive hop _ _)
        next hne => exact .tail (.single (.receive hop _ _)) (.territory (by simpa using ht) (by simpa using hne))
      · exact .tail (.single (.receive hop _ _)) (.events (by simpa using hop) _ _)
    next => exact .tail (.single (.receive hop _ _)) (.events (by simpa using hop) _ _)
  next => exact .tail (.single (.receive hop a w)) (.window (by simpa using hop) _)
  next => exact .tail (.single (.receive hop a w)) (.window (by simpa using hop) _)
  next => exact .tail (.single (.receive hop a w)) (.window (by simpa using hop) _)

theorem State.computerCycle_moves (s : State) (c : HeldCycle) : Moves s (s.computerCycle c) := by
  refine State.computerCycle_ind c .refl (fun h => .single .aside) (fun hop a => ?_) fun hop a w => ?_
  · exact .tail (.tail s.serveQueueTurn_moves (.turn (by simpa using hop))) .aside
  · exact .trans (.tail (.tail s.serveQueueTurn_moves (.turn (by simpa using hop))) .aside)
      (State.decideWrite_moves (by simpa using hop) a w)

theorem State.takeHeld_moves (s : State) : Moves s s.takeHeld := by
  unfold State.takeHeld
  split
  · exact s.computerCycle_moves _
  · exact .refl

theorem exec_moves {c : Instr} {s t : State} (h : exec c s = .next t) : Moves s t := by
  obtain ⟨a, w, -, rfl⟩ | ⟨now, solo, hr, rfl⟩ | he := exec_cases h
  · exact s.computerCycle_moves _
  · exact .trans (.single (.release hr (State.releaseTo_cases _ _))) (State.takeHeld_moves _)
  · exact .single (.effect he)

theorem State.idle_moves (s : State) : Moves s s.idle := by
  unfold State.idle
  split
  · exact .single .aside
  · split
    · exact .single .aside
    · exact .head (.aside (s := s)) (State.computerCycle_moves _ _)

theorem step_moves {s t : State} (h : step s = .next t) : Moves s t := by
  unfold step at h
  split at h
  · obtain rfl := Outcome.next_inj h
    exact s.idle_moves
  · exact .head (.aside (s := s)) (exec_moves h)

/-- What every move keeps, every step keeps. -/
theorem Invariant.step {P : State → Prop} (hmove : ∀ s t, Move s t → P s → P t) {s t : State} (h : step s = .next t)
    (hs : P s) : P t := by
  have hm := step_moves h
  clear h
  induction hm with
  | refl => exact hs
  | tail _ hm ih => exact hmove _ _ hm ih

end Sys2Proof.Machine
end

section
/-! SUPPORT and PROOF. The storage laws: memory and shadow, the write queue, the fault list, INTR (O57). -/

namespace Sys2Proof.Machine

/-! ## Memory and shadow (log 8) -/

theorem State.acceptImage_csu (s : State) : s.acceptImage.csu = { s.csu with
    op := if s.csu.cabActive then .running else .standby, load := none, locked := true, verdict := .accepted
    failOff := 0 } := by
  simp [State.acceptImage, State.enterRunning_csu]

theorem State.rejectImage_shadow (s : State) (v : Verdict) (off : BitVec 8) :
    (s.rejectImage v off).csu.shadow = s.csu.shadow := by
  unfold State.rejectImage
  dsimp only
  split
  · simp
  · rfl

theorem Effect.memoryLaw {s t : State} {c : Instr} (h : Effect s c t) (hl : MemoryLaw s.mem s.csu.shadow) :
    MemoryLaw t.mem t.csu.shadow := by
  cases h with
  | grant => exact hl.grantHead
  | powerReset => exact hl.clearShadow
  | warmReset | loadTimeout => exact hl
  | _ => simpa using hl

theorem ReleasedTo.memoryLaw {s t : State} {solo : Bool} (h : ReleasedTo s solo t)
    (hl : MemoryLaw s.mem s.csu.shadow) : MemoryLaw t.mem t.csu.shadow := by
  cases h with
  | loading => simpa using hl.clearShadow
  | running => simpa [State.enterRunning_csu, State.atRelease_csu] using hl

theorem Move.memoryLaw {s t : State} (h : Move s t) (hl : MemoryLaw s.mem s.csu.shadow) :
    MemoryLaw t.mem t.csu.shadow := by
  cases h with
  | effect h => exact h.memoryLaw hl
  | receive hop a w => exact hl.receive a w
  | field hop w =>
    rw [State.fieldWrite_csu]
    obtain ⟨hm, -⟩ | ⟨r, x, -, hm, -⟩ := State.fieldWrite_port s _ w
    · rwa [hm]
    · rw [hm, State.receive_mem]
      exact hl.write _ x
  | capture hop a w => exact hl.writeShadow _ w
  | accept => simpa [State.acceptImage_csu] using hl
  | reject => simpa [State.rejectImage_shadow] using hl
  | release _ ht => exact ht.memoryLaw hl
  | _ => simpa using hl

/-! ## The write queue (R145, R146) -/

theorem QueueLaw.reset : QueueLaw Mwq.reset :=
  ⟨Nat.zero_le _, .nil, .nil⟩

theorem QueueLaw.emptied {q : Mwq} : QueueLaw { q with queue := [], marks := [] } :=
  ⟨Nat.zero_le _, .nil, .nil⟩

theorem QueueLaw.enterStandby {s : State} (hl : QueueLaw s.mwq) : QueueLaw s.enterStandby.mwq := by
  rw [(standby_entered s).drain]
  exact ⟨hl.depth, hl.distinct, hl.marks⟩

theorem QueueLaw.enterRunning {s : State} (hl : QueueLaw s.mwq) : QueueLaw s.enterRunning.mwq := by
  unfold State.enterRunning
  dsimp only
  split
  · simpa using hl
  · exact QueueLaw.enterStandby (by simpa using hl)

theorem QueueLaw.enterFallback (s : State) : QueueLaw s.enterFallback.mwq :=
  QueueLaw.emptied.enqueueAll _

theorem QueueLaw.atRelease {s : State} (hl : QueueLaw s.mwq) (c : Csu) (op : OpState) :
    QueueLaw (s.atRelease c op).mwq := by
  rw [State.atRelease_mwq]
  exact hl.enqueueAll _

theorem Effect.queueLaw {s t : State} {c : Instr} (h : Effect s c t) (hl : QueueLaw s.mwq) : QueueLaw t.mwq := by
  cases h with
  | enqueue => exact hl.enqueueAll _
  | grant => exact hl.grantHead
  | powerReset | warmReset => exact .reset
  | loadTimeout => exact .enterFallback _
  | cabStandby => exact .enterStandby hl
  | _ => simpa using hl

theorem ReleasedTo.queueLaw {s t : State} {solo : Bool} (h : ReleasedTo s solo t) (hl : QueueLaw s.mwq) :
    QueueLaw t.mwq := by
  cases h with
  | loading => simpa using QueueLaw.atRelease hl _ _
  | running =>
    refine .enterRunning ?_
    rw [State.takeImage_mwq]
    exact QueueLaw.atRelease (by exact hl) _ _

theorem Move.queueLaw {s t : State} (h : Move s t) (hl : QueueLaw s.mwq) : QueueLaw t.mwq := by
  cases h with
  | effect h => exact h.queueLaw hl
  | turn => exact ⟨hl.depth, hl.distinct, hl.marks⟩
  | receive hop a w => exact hl.receive a w
  | field hop w =>
    obtain ⟨-, hm⟩ | ⟨r, x, -, -, hm⟩ := State.fieldWrite_port s _ w
    · rwa [hm]
    · rw [hm]
      exact hl.receive _ x
  | accept => exact .enterRunning (by simpa using hl)
  | reject =>
    unfold State.rejectImage
    dsimp only
    split
    · simpa using hl
    · exact .enterFallback _
  | release _ ht => exact ht.queueLaw hl
  | _ => simpa using hl

/-! ## The fault list (R101–R103, R106) -/

theorem FaultListLaw.takeWindow {s : State} (hl : FaultListLaw s.flu) (x : WindowStep) :
    FaultListLaw (s.takeWindow x).flu := by
  unfold State.takeWindow
  dsimp only
  split
  · exact FaultListLaw.takeRequest (by exact hl.withPartial _) _
  · split
    · simpa using hl.withPartial _
    · exact hl.withPartial _

theorem Effect.faultListLaw {s t : State} {c : Instr} (h : Effect s c t) (hl : FaultListLaw s.flu) :
    FaultListLaw t.flu := by
  cases h with
  | raise | clear | acknowledge => exact FaultListLaw.takeRequest (by exact hl) _
  | powerReset => exact .reset
  | warmReset => exact hl.warm
  | loadTimeout => exact hl.withPartial _
  | _ => simpa using hl

theorem ReleasedTo.faultListLaw {s t : State} {solo : Bool} (h : ReleasedTo s solo t) (hl : FaultListLaw s.flu) :
    FaultListLaw t.flu := by
  cases h with
  | loading | running => simpa using hl

theorem Move.faultListLaw {s t : State} (h : Move s t) (hl : FaultListLaw s.flu) : FaultListLaw t.flu := by
  cases h with
  | effect h => exact h.faultListLaw hl
  | reject =>
    unfold State.rejectImage
    dsimp only
    split
    · simpa using hl
    · exact hl.withPartial _
  | window hop x => exact hl.takeWindow x
  | release _ ht => exact ht.faultListLaw hl
  | _ => simpa using hl

/-! ## INTR (R161) -/

theorem InterruptLaw.followIntr (r : Rpu) : InterruptLaw r.followIntr := rfl

theorem InterruptLaw.reset : InterruptLaw Rpu.reset := rfl

theorem InterruptLaw.congr {r q : Rpu} (hl : InterruptLaw r) (events : q.events = r.events)
    (enable : q.enable = r.enable) (intr : q.intr = r.intr) : InterruptLaw q := by
  unfold InterruptLaw
  rw [intr, events, enable]
  exact hl

theorem Rpu.applyItem_events (r : Rpu) (i : ReportItem) :
    (r.applyItem i).events = r.events ∧ (r.applyItem i).enable = r.enable ∧ (r.applyItem i).intr = r.intr := by
  cases i <;> exact ⟨rfl, rfl, rfl⟩

/-- No item of a report hand-over is an event, the enable or INTR. -/
theorem Rpu.applyItems_events (items : List ReportItem) (r : Rpu) :
    (items.foldl Rpu.applyItem r).events = r.events ∧ (items.foldl Rpu.applyItem r).enable = r.enable ∧
      (items.foldl Rpu.applyItem r).intr = r.intr := by
  induction items generalizing r with
  | nil => exact ⟨rfl, rfl, rfl⟩
  | cons i items ih =>
    obtain ⟨he, hn, hi⟩ := ih (r.applyItem i)
    obtain ⟨he', hn', hi'⟩ := r.applyItem_events i
    exact ⟨he.trans he', hn.trans hn', hi.trans hi'⟩

theorem State.setEvents_cases (s : State) (es : List Event) :
    (s.setEvents es).rpu = s.rpu ∨ (s.setEvents es).rpu = s.rpu.setEvents es := by
  unfold State.setEvents
  split
  · exact .inl rfl
  · split
    · exact .inr rfl
    · exact .inr (by simp)

theorem State.enterFallback_interrupt (s : State) : InterruptLaw s.enterFallback.rpu := rfl

theorem Effect.interruptLaw {s t : State} {c : Instr} (h : Effect s c t) (hl : InterruptLaw s.rpu) :
    InterruptLaw t.rpu := by
  cases h with
  | mirror =>
    rw [State.rpuCommit_rpu]
    exact hl.congr rfl rfl rfl
  | @events b es rest hm =>
    obtain hr | hr := State.setEvents_cases { s with inFlight := rest } es
    · rwa [hr]
    · rw [hr]
      exact .followIntr _
  | @report b items rest hm =>
    obtain ⟨he, hn, hi⟩ := Rpu.applyItems_events items s.rpu
    rw [State.rpuCommit_rpu]
    exact hl.congr he hn hi
  | powerReset | warmReset => exact .reset
  | loadTimeout => exact State.enterFallback_interrupt _
  | _ => simpa using hl

theorem ReleasedTo.interruptLaw {s t : State} {solo : Bool} (h : ReleasedTo s solo t) : InterruptLaw t.rpu := by
  cases h with
  | loading | running => simp [State.atRelease_rpu, State.rpuAtRelease, InterruptLaw, Rpu.reset, intrLevel]

theorem Move.interruptLaw {s t : State} (h : Move s t) (hl : InterruptLaw s.rpu) : InterruptLaw t.rpu := by
  cases h with
  | effect h => exact h.interruptLaw hl
  | clearEvents | latchEnable => exact .followIntr _
  | reject =>
    unfold State.rejectImage
    dsimp only
    split
    · simpa using hl
    · exact State.enterFallback_interrupt _
  | release _ ht => exact ht.interruptLaw
  | _ => simpa using hl

/-- Settles O57: each of the four laws is kept by every move of a step. -/
theorem storageLawsKept : Obligations.StorageLawsKept := fun _ _ h =>
  ⟨Invariant.step (P := fun s => MemoryLaw s.mem s.csu.shadow) (fun _ _ => Move.memoryLaw) h,
    Invariant.step (P := fun s => QueueLaw s.mwq) (fun _ _ => Move.queueLaw) h,
    Invariant.step (P := fun s => FaultListLaw s.flu) (fun _ _ => Move.faultListLaw) h,
    Invariant.step (P := fun s => InterruptLaw s.rpu) (fun _ _ => Move.interruptLaw) h⟩

end Sys2Proof.Machine
end

section
/-! SUPPORT and PROOF. What the operating state says of the inputs, the load and the blocks in RESET, and the image in force
(first part of O58). -/

namespace Sys2Proof.Machine

/-! ## The operating state after an operation -/

@[simp] theorem State.enterFallback_csu (s : State) :
    s.enterFallback.csu = { s.csu with op := .fallback, fbk := true, load := none } := rfl

/-- A failed check leaves LOADING only at the third failure (R168). -/
theorem State.rejectImage_csu (s : State) (v : Verdict) (off : BitVec 8) :
    (s.rejectImage v off).csu =
      if s.csu.failures + 1 < 3 then { s.csu with failures := s.csu.failures + 1, verdict := v, failOff := off }
      else { s.csu with
        failures := s.csu.failures + 1, verdict := v, failOff := off, op := .fallback, fbk := true, load := none } := by
  by_cases h : s.csu.failures + 1 < Config.maxAttempts
  · rw [State.rejectImage, if_pos h, if_pos (by exact h), State.sendReport_csu]
  · rw [State.rejectImage, if_neg h, if_neg (by exact h), State.enterFallback_csu]

/-! ## Inputs, load and outputs (R163, R169, R172, R179) -/

theorem StateLaw.enterReset {c : Csu} (power : Bool) (h : c.pwrg = false ∨ c.wrst = false) :
    StateLaw (c.inReset power) where
  inReset := ⟨fun _ => h.imp_right .inl, fun _ => rfl⟩
  settling h := absurd rfl h
  loading := ⟨fun h => absurd rfl h, nofun⟩
  attempts := nofun
  accepted := nofun
  fbk := ⟨nofun, nofun⟩

/-- While a source of RESET remains, the inputs change their own levels and the settle time alone (R172). -/
theorem StateLaw.inputs {c d : Csu} (hl : StateLaw c) (hop : c.op = .reset)
    (hd : d = { c with pwrg := d.pwrg, wrst := d.wrst, settle := d.settle })
    (hreset : d.pwrg = false ∨ d.wrst = false ∨ d.settle ≠ none) (hsettle : d.settle ≠ none → d.pwrg = true) :
    StateLaw d := by
  have hdop : d.op = .reset := by rw [hd]; exact hop
  have hload : d.load = c.load := by rw [hd]
  have hfbk : d.fbk = c.fbk := by rw [hd]
  refine ⟨⟨fun _ => hreset, fun _ => hdop⟩, hsettle, ?_, ?_, ?_, ?_⟩
  · rw [hload, hdop, ← hop]
    exact hl.loading
  · rw [hdop]
    nofun
  · rw [hdop]
    nofun
  · rw [hfbk, hdop, ← hop]
    exact hl.fbk

/-- Out of RESET, with no source of RESET left, the rest of the law is that of the state entered. -/
theorem StateLaw.outside {c : Csu} (hop : c.op ≠ .reset) (hp : c.pwrg = true) (hw : c.wrst = true)
    (hs : c.settle = none) (loading : c.load ≠ none ↔ c.op = .loading)
    (attempts : c.op = .loading → c.locked = false ∧ c.failures < 3)
    (accepted : c.op.hasTable = true → c.locked = true ∧ c.verdict = .accepted)
    (fbk : c.fbk = true ↔ c.op = .fallback) : StateLaw c where
  inReset := by simp [hop, hp, hw, hs]
  settling h := absurd hs h
  loading := loading
  attempts := attempts
  accepted := accepted
  fbk := fbk

/-- Out of RESET no source of RESET is left (R172). -/
theorem StateLaw.released {c : Csu} (hl : StateLaw c) (hop : c.op ≠ .reset) :
    c.pwrg = true ∧ c.wrst = true ∧ c.settle = none := by
  have h := fun hr => hop (hl.inReset.mpr hr)
  refine ⟨?_, ?_, ?_⟩
  · by_contra hc
    exact h (.inl (by simpa using hc))
  · by_contra hc
    exact h (.inr (.inl (by simpa using hc)))
  · by_contra hc
    exact h (.inr (.inr hc))

/-- RUNNING and STANDBY take turns without another change of what the law speaks of (R177, R178). -/
theorem StateLaw.switch {c d : Csu} (hl : StateLaw c) (hc : c.op.hasTable = true) (hd : d.op.hasTable = true)
    (hcd : d = { c with op := d.op, cabActive := d.cabActive, cabTimer := d.cabTimer }) : StateLaw d := by
  obtain ⟨hp, hw, hs⟩ := hl.released (OpState.ne_reset_of_hasTable hc)
  have hload : c.load = none := by
    by_contra h
    rw [hl.loading.mp h] at hc
    cases hc
  have hfbk : c.fbk = false := by
    by_contra h
    rw [hl.fbk.mp (by simpa using h)] at hc
    cases hc
  have hnl : d.op ≠ .loading := by intro h; rw [h] at hd; cases hd
  have hnf : d.op ≠ .fallback := by intro h; rw [h] at hd; cases hd
  rw [hcd]
  exact .outside (OpState.ne_reset_of_hasTable hd) hp hw hs (by simp [hload, hnl]) (fun h => absurd h hnl)
    (fun _ => hl.accepted hc) (by simp [hfbk, hnf])

/-- A load that ends without an accepted image enters FALLBACK (R168, R169). -/
theorem StateLaw.fallback {c : Csu} (hl : StateLaw c) (hop : c.op = .loading) (v : Verdict) (n : Nat)
    (off : BitVec 8) : StateLaw { c with
      op := .fallback, fbk := true, load := none, verdict := v, failures := n, failOff := off } := by
  obtain ⟨hp, hw, hs⟩ := hl.released (by rw [hop]; nofun)
  exact .outside nofun hp hw hs ⟨fun h => absurd rfl h, nofun⟩ nofun nofun ⟨fun _ => rfl, fun _ => rfl⟩

/-- The cab line and its filter are not spoken of. -/
theorem StateLaw.cab {c : Csu} (hl : StateLaw c) (line active : Bool) (timer : Timer) :
    StateLaw { c with cabLine := line, cabActive := active, cabTimer := timer } :=
  ⟨hl.inReset, hl.settling, hl.loading, hl.attempts, hl.accepted, hl.fbk⟩

theorem Effect.stateLaw {s t : State} {c : Instr} (h : Effect s c t) (hl : StateLaw s.csu) : StateLaw t.csu := by
  cases h with
  | powerReset => exact .enterReset _ (.inl rfl)
  | warmReset => exact .enterReset _ (.inr rfl)
  | powerGood h =>
    exact hl.inputs (hl.inReset.mpr (.inl h)) rfl (.inr (.inr nofun)) fun _ => rfl
  | settled h hw =>
    exact hl.inputs (hl.inReset.mpr (.inr (.inl hw))) rfl (.inr (.inl hw)) fun h => absurd rfl h
  | warmFall h hop => exact hl.inputs hop rfl (.inr (.inl rfl)) hl.settling
  | warmRise h hp =>
    refine hl.inputs (hl.inReset.mpr (.inr (.inl h))) rfl ?_ hl.settling
    by_cases hpw : s.csu.pwrg = true
    · exact .inr (.inr fun hs => hp ⟨hpw, hs⟩)
    · exact .inl (by simpa using hpw)
  | loadTimeout h => exact hl.fallback (hl.loading.mp (by simp [h])) .timeout _ _
  | cabLine => exact hl.cab _ _ _
  | cabLevel => exact hl.cab _ _ _
  | cabStandby h hop => exact hl.switch (by rw [hop]; rfl) (by simp; rfl) (by simp)
  | cabReturn h hop => exact hl.switch (by rw [hop]; rfl) (by simp; rfl) (by simp)
  | _ => simpa using hl

/-- A release is taken in RESET, and leaves none of its sources (R172). -/
theorem StateLaw.releasedBy {s : State} (hl : StateLaw s.csu) {c : Instr} {solo : Bool} {now : Nat}
    (h : s.releasedBy c solo now) : s.csu.op = .reset ∧ s.csu.pwrg = true := by
  obtain ⟨-, -, e, he, -⟩ | ⟨-, hw, hp, -, -⟩ := h
  · have hs : s.csu.settle ≠ none := by simp [he]
    exact ⟨hl.inReset.mpr (.inr (.inr hs)), hl.settling hs⟩
  · exact ⟨hl.inReset.mpr (.inr (.inl hw)), hp⟩

theorem ReleasedTo.csu_released {s t : State} {solo : Bool} (h : ReleasedTo s solo t) :
    t.csu.pwrg = s.csu.pwrg ∧ t.csu.wrst = s.csu.wrst ∧ t.csu.settle = s.csu.settle := by
  cases h with
  | loading => simp [State.atRelease_csu]
  | running => simp [State.enterRunning_csu, State.atRelease_csu]

theorem ReleasedTo.stateLaw {s t : State} {solo : Bool} (h : ReleasedTo s solo t) (hp : s.csu.pwrg = true)
    (hw : s.csu.wrst = true) (hs : s.csu.settle = none) (hf : s.csu.fbk = false) (hload : s.csu.load = none) :
    StateLaw t.csu := by
  obtain ⟨hp', hw', hs'⟩ := h.csu_released
  rw [hp] at hp'
  rw [hw] at hw'
  rw [hs] at hs'
  cases h with
  | loading =>
    exact .outside (by simp) hp' hw' hs' (by simp [State.startTimer]) (by simp) (by simp [OpState.hasTable])
      (by simp [State.atRelease_csu, hf])
  | running hlocked hpass =>
    refine .outside ?_ hp' hw' hs' ?_ ?_ ?_ ?_ <;>
      simp [State.enterRunning_csu, State.atRelease_csu, hf, hload, hlocked]

theorem Move.stateLaw {s t : State} (h : Move s t) (hl : StateLaw s.csu) : StateLaw t.csu := by
  cases h with
  | effect h => exact h.stateLaw hl
  | capture => exact ⟨hl.inReset, hl.settling, hl.loading, hl.attempts, hl.accepted, hl.fbk⟩
  | accept hop =>
    obtain ⟨hp, hw, hs⟩ := hl.released (by rw [hop]; nofun)
    have hfbk : s.csu.fbk = false := by
      by_contra h
      exact absurd (hop.symm.trans (hl.fbk.mp (by simpa using h))) nofun
    rw [State.acceptImage_csu]
    cases s.csu.cabActive <;>
      exact .outside nofun hp hw hs ⟨fun h => absurd rfl h, nofun⟩ nofun (fun _ => ⟨rfl, rfl⟩)
        ⟨fun h => absurd (hfbk.symm.trans h) nofun, nofun⟩
  | reject hop v off =>
    rw [State.rejectImage_csu]
    split
    next hn =>
      refine ⟨hl.inReset, hl.settling, hl.loading, fun h => ⟨(hl.attempts h).1, hn⟩, fun h => ?_, hl.fbk⟩
      rw [hop] at h
      cases h
    next => exact hl.fallback hop v _ off
  | release hr ht =>
    obtain ⟨hop, hp⟩ := hl.releasedBy hr
    refine ht.stateLaw hp rfl rfl ?_ ?_
    · by_contra h
      exact absurd (hop.symm.trans (hl.fbk.mp (by simpa using h))) nofun
    · by_contra h
      exact absurd (hop.symm.trans (hl.loading.mp h)) nofun
  | _ => simpa using hl

/-! ## The blocks in RESET -/

theorem ResetLaw.outside {s : State} (h : s.csu.op ≠ .reset) : ResetLaw s :=
  ⟨fun hr => absurd hr h, fun hr => absurd hr h, fun hr => absurd hr h⟩

theorem ResetLaw.enterReset (s : State) (power : Bool) : ResetLaw (s.enterReset power) where
  blocks _ := ⟨rfl, rfl, rfl, rfl, rfl, rfl⟩
  load _ := ⟨rfl, rfl, rfl, rfl, rfl, rfl, rfl⟩
  quiet _ := ⟨rfl, by cases power <;> rfl⟩

/-- In RESET nothing is in flight and no timer but the settle time runs, so only the inputs' own changes are left. -/
theorem Effect.resetLaw_inside {s t : State} {c : Instr} (h : Effect s c t) (hop : s.csu.op = .reset)
    (hl : ResetLaw s) : ResetLaw t := by
  obtain ⟨hasu, htcu, hfsu, hanu, hmwq, hrpu⟩ := hl.blocks hop
  obtain ⟨hfail, hverdict, hoff, hload, hactive, hcab, hfbk⟩ := hl.load hop
  obtain ⟨hin, hpartial⟩ := hl.quiet hop
  cases h with
  | nothing => exact hl
  | powerReset | warmReset => exact .enterReset _ _
  | powerGood | settled | warmFall | warmRise | strobeIgnored => exact ⟨hl.blocks, hl.load, hl.quiet⟩
  | @buttonLine b high _ =>
    refine ⟨fun _ => ⟨hasu, htcu, hfsu, ?_, hmwq, hrpu⟩, hl.load, hl.quiet⟩
    dsimp only
    rw [if_pos hop]
    generalize hx : s.anu = x at hanu ⊢
    rw [hanu]
    cases b <;> rfl
  | cabLine =>
    refine ⟨hl.blocks, fun _ => ⟨hfail, hverdict, hoff, hload, hactive, ?_, hfbk⟩, hl.quiet⟩
    dsimp only
    rw [if_pos hop, hcab]
  | grant =>
    have hq : s.mwq.queue = [] := by rw [hmwq]; rfl
    unfold State.grantHead
    rw [hq]
    exact hl
  | edgeOne h | edgeTwo h =>
    rw [State.countsEdge, hop] at h
    cases h
  | strobeTaken h =>
    rw [State.takesStrobe, hop] at h
    cases h
  | window h =>
    rw [hasu] at h
    cases h
  | strobesLost h | holdEnded h =>
    rw [htcu] at h
    cases h
  | unacknowledged h | cadence h | flash h | lockoutEnded h | lampTestTimeout h =>
    rw [hanu] at h
    cases h
  | @buttonLevel b e h | @buttonChanged b e h =>
    rw [hanu] at h
    cases b <;> cases h
  | loadTimeout h =>
    rw [hload] at h
    cases h
  | cabLevel h | cabStandby h | cabReturn h =>
    rw [hcab] at h
    cases h
  | ageStopped hrun | ageExpired hrun =>
    rw [hop] at hrun
    cases hrun
  | speedRechecked h | speedStored h | completion h | newPr h | aspectWritten h | aspectStale h | delivery h
  | rankTaken h | rankFallen h | raise h | clear h | acknowledge h | acknowledgeDropped h | slotsShown h
  | slotsStay h | summary h | mirror h | chime h | lampFunction h | codeLost h | uncoded h | staleCounted h
  | lampTestBegun h | lampTestEnded h | events h | report h | enqueue h | drained h | drainDropped h =>
    rw [hin] at h
    cases h

theorem Effect.resetLaw {s t : State} {c : Instr} (h : Effect s c t) (hl : ResetLaw s) : ResetLaw t := by
  by_cases hop : s.csu.op = .reset
  · exact h.resetLaw_inside hop hl
  · cases h with
    | powerReset | warmReset => exact .enterReset _ _
    | warmFall _ hr => exact absurd hr hop
    | loadTimeout | cabStandby | cabReturn => exact .outside (by simp)
    | _ => exact .outside (by simpa using hop)

theorem ReleasedTo.op_ne_reset {s t : State} {solo : Bool} (h : ReleasedTo s solo t) : t.csu.op ≠ .reset := by
  cases h with
  | loading => simp
  | running => simp [State.enterRunning_csu, State.atRelease_csu]

theorem Move.resetLaw {s t : State} (h : Move s t) (hl : ResetLaw s) : ResetLaw t := by
  cases h with
  | effect h => exact h.resetLaw hl
  | aside => exact ⟨hl.blocks, hl.load, hl.quiet⟩
  | field hop | territory hop => exact .outside (by simpa using OpState.ne_reset_of_hasTable hop)
  | capture hop =>
    refine .outside ?_
    rw [State.capture, hop]
    nofun
  | accept =>
    refine .outside ?_
    rw [State.acceptImage_csu]
    cases s.csu.cabActive <;> nofun
  | reject hop =>
    refine .outside ?_
    rw [State.rejectImage_csu]
    split <;> simp [hop]
  | release _ ht => exact .outside ht.op_ne_reset
  | turn hop | receive hop | events hop | clearEvents hop | latchEnable hop | window hop =>
    exact .outside (by simpa using hop)

/-! ## The image in force (R38, R41, R76, R166–R168) -/

@[simp] theorem Tcu.recompute_aspects (t : Tcu) : t.recompute.aspects = t.aspects := rfl

@[simp] theorem Tcu.receive_aspects (t : Tcu) (a : Option Aspect) : (t.receive a).aspects = t.aspects := by
  unfold Tcu.receive
  split <;> rfl

@[simp] theorem Tcu.recomputeFrom_aspects (t u : Tcu) : (Tcu.recomputeFrom t u).aspects = u.aspects := by
  unfold Tcu.recomputeFrom
  split <;> rfl

@[simp] theorem Tcu.toLost_aspects (t : Tcu) : t.toLost.1.aspects = t.aspects := by
  simp [Tcu.toLost]

@[simp] theorem Tcu.confirm_aspects (t : Tcu) (code : BitVec 4) : (t.confirm code).1.aspects = t.aspects := by
  unfold Tcu.confirm
  split
  · rfl
  · dsimp only
    split
    · simp
    · split
      · rfl
      · simp

@[simp] theorem State.strobe_aspects (s : State) (code : BitVec 4) :
    (s.strobe code).tcu.aspects = s.tcu.aspects := by
  unfold State.strobe
  dsimp only
  split <;> simp

@[simp] theorem State.loseStrobes_aspects (s : State) : s.loseStrobes.tcu.aspects = s.tcu.aspects := by
  unfold State.loseStrobes
  dsimp only
  split
  · split <;> simp
  · simp
  · simp
  · simp

@[simp] theorem State.endHold_aspects (s : State) : s.endHold.tcu.aspects = s.tcu.aspects := by
  simp [State.endHold]

@[simp] theorem State.changeTerritory_aspects (s : State) (u : Bool) :
    (s.changeTerritory u).tcu.aspects = s.tcu.aspects := by
  unfold State.changeTerritory
  dsimp only
  split <;> simp

theorem ImageLaw.congr {s t : State} (hl : ImageLaw s) (op : t.csu.op.hasTable = s.csu.op.hasTable)
    (shadow : t.csu.shadow = s.csu.shadow) (limits : t.asu.limits = s.asu.limits)
    (aspects : t.tcu.aspects = s.tcu.aspects) (window : t.asu.window ≠ none ↔ s.asu.window ≠ none) : ImageLaw t where
  passes := by rw [op, shadow]; exact hl.passes
  limits := by rw [op, shadow, limits]; exact hl.limits
  aspects := by rw [op, shadow, aspects]; exact hl.aspects
  window := by rw [window, op]; exact hl.window

theorem ImageLaw.outside {s : State} (op : s.csu.op.hasTable = false) (window : s.asu.window = none) :
    ImageLaw s where
  passes h := by rw [op] at h; cases h
  limits h := by rw [op] at h; cases h
  aspects h := by rw [op] at h; cases h
  window := by simp [window, op]

theorem ImageLaw.window_none {s : State} (hl : ImageLaw s) (op : s.csu.op.hasTable = false) :
    s.asu.window = none := by
  by_contra h
  rw [hl.window.mp h] at op
  cases op

/-- The one rounding of the manual, by a divisor that is not 0 (00_scope.md, Conventions, Rounding). -/
theorem isRounded_roundHalfUp (num : Nat) {den : Nat} (h : 0 < den) : isRounded (roundHalfUp num den) num den := by
  unfold isRounded roundHalfUp
  have hd : 0 < 2 * den := by omega
  have hlow := Nat.div_mul_le_self (2 * num + den) (2 * den)
  have hhigh := Nat.lt_div_mul_add (a := 2 * num + den) hd
  constructor
  · nlinarith
  · nlinarith

/-- P and W of an image that passes the check are not 0 (R167, 13.1). -/
theorem divisor_pos_of_words {sh : Memory} (h : ∀ o < 32 + 4 * min sh.imgN 48, wordFault sh o = false) :
    0 < 10000 * sh.imgP * sh.imgW := by
  have hp : generalFault sh 1 = false := h 1 (by omega)
  have hw : generalFault sh 4 = false := h 4 (by omega)
  have hp' : 20 ≤ sh.imgP := by
    simp only [generalFault, inRange, Bool.not_eq_false', decide_eq_true_eq] at hp
    exact hp.1
  have hw' : 0 < sh.imgW := by
    simp only [generalFault, Bool.not_eq_false', List.contains_eq_mem, decide_eq_true_eq, List.mem_cons,
      List.not_mem_nil, or_false] at hw
    unfold Memory.imgW
    omega
  positivity

theorem LimitsLaw.ofImage {sh : Memory} (h : ∀ o < 32 + 4 * min sh.imgN 48, wordFault sh o = false) :
    LimitsLaw sh (limitsOf sh) where
  quantum1 := by
    have := isRounded_roundHalfUp (1 * 31416 * sh.imgD1 * 36) (divisor_pos_of_words h)
    rwa [Nat.one_mul] at this
  quantum2 := by
    have := isRounded_roundHalfUp (1 * 31416 * sh.imgD2 * 36) (divisor_pos_of_words h)
    rwa [Nat.one_mul] at this
  acceleration := ⟨_, isRounded_roundHalfUp _ (by omega), rfl, rfl⟩
  speed := rfl

/-- What the two stages of the check find in an image that passes (R166). -/
theorem image_of_pass {sh : Memory} (h : checkImage sh = .pass) : imageCrc sh = sh.read 255 ∧
    ∀ o < 32 + 4 * min sh.imgN 48, wordFault sh o = false := by
  refine ⟨?_, wordFault_of_pass h⟩
  by_contra hc
  rw [checkImage, if_pos hc] at h
  cases h

/-- A RUNNING entry with an image that passes, taken by its users (R168, R175). -/
theorem ImageLaw.enterRunning {s : State} (hpass : checkImage s.csu.shadow = .pass)
    (hlim : s.asu.limits = some (limitsOf s.csu.shadow)) (hasp : s.tcu.aspects = s.csu.shadow.aspectTable) :
    ImageLaw s.enterRunning := by
  have hrun := running_entered s hlim hasp
  obtain ⟨hcrc, hwords⟩ := image_of_pass hpass
  have hlaw : ImageLaw s.enterRunningOnly := by
    refine ⟨fun _ => ?_, fun _ => ?_, fun _ => ?_, ?_⟩
    · rw [State.enterRunningOnly_csu]
      exact ⟨hcrc, hwords⟩
    · rw [State.enterRunningOnly_csu, hrun.asu]
      exact ⟨_, rfl, .ofImage hwords⟩
    · rw [State.enterRunningOnly_csu, hrun.tcu]
    · rw [State.enterRunningOnly_csu, hrun.asu]
      exact ⟨fun _ => rfl, fun _ => nofun⟩
  unfold State.enterRunning
  dsimp only
  split
  · exact hlaw
  · exact hlaw.congr (by simp; rfl) (by simp) (by simp) (by simp) (by simp)

theorem Effect.imageLaw {s t : State} {c : Instr} (h : Effect s c t) (hs : StateLaw s.csu) (hl : ImageLaw s) :
    ImageLaw t := by
  cases h with
  | window h => exact hl.congr (by simp) (by simp) (by simp; rfl) (by simp) (by simp [h, State.startTimer])
  | aspectWritten | aspectStale => exact hl.congr (by simp) (by simp) (by simp) (by simp) (by simp)
  | powerReset | warmReset => exact .outside rfl rfl
  | powerGood | settled | warmFall | warmRise | cabLine | cabLevel => exact ⟨hl.passes, hl.limits, hl.aspects, hl.window⟩
  | loadTimeout h =>
    have hop : s.csu.op = .loading := hs.loading.mp (by simp [h])
    exact .outside rfl (hl.window_none (by rw [hop]; rfl))
  | cabStandby h hop | cabReturn h hop =>
    exact hl.congr (by simp [hop, OpState.hasTable]) (by simp) (by simp) (by simp) (by simp)
  | _ => exact hl.congr (by simp) (by simp) (by simp) (by simp) (by simp)

theorem ReleasedTo.imageLaw {s t : State} {solo : Bool} (h : ReleasedTo s solo t) (hw : s.asu.window = none) :
    ImageLaw t := by
  cases h with
  | loading => exact .outside (by simp [OpState.hasTable]) (by simpa using hw)
  | running hlocked hpass =>
    refine .enterRunning ?_ ?_ ?_
    · simpa [State.atRelease_csu] using hpass
    · rfl
    · rfl

theorem Move.imageLaw {s t : State} (h : Move s t) (hs : StateLaw s.csu) (hl : ImageLaw s) : ImageLaw t := by
  cases h with
  | effect h => exact h.imageLaw hs hl
  | aside | turn | clearEvents | latchEnable => exact ⟨hl.passes, hl.limits, hl.aspects, hl.window⟩
  | capture hop =>
    have hop' : s.csu.op.hasTable = false := by rw [hop]; rfl
    exact .outside hop' (hl.window_none hop')
  | accept hop hpass =>
    refine .enterRunning ?_ ?_ ?_
    · simpa using hpass
    · rfl
    · rfl
  | reject hop v off =>
    have hop' : s.csu.op.hasTable = false := by rw [hop]; rfl
    refine .outside ?_ (by simpa using hl.window_none hop')
    rw [State.rejectImage_csu]
    split
    · exact hop'
    · rfl
  | release hr ht =>
    have hop : s.csu.op.hasTable = false := by rw [(hs.releasedBy hr).1]; rfl
    exact ht.imageLaw (hl.window_none hop)
  | _ => exact hl.congr (by simp) (by simp) (by simp) (by simp) (by simp)

end Sys2Proof.Machine
end

section
/-! SUPPORT and PROOF. The displayed aspect, the lamp functions and the buzzer (second part of O58). -/

namespace Sys2Proof.Machine

/-! ## The displayed aspect and the hold timer (R83, R89) -/

theorem AspectLaw.outside {op : OpState} {t : Tcu} (hop : op.hasTable = false) (hold : t.hold ≠ none ↔ t.state = .holding) :
    AspectLaw op t :=
  ⟨fun h => absurd (hop.symm.trans h) nofun, hold⟩

/-- What the displayed aspect is derived from stays (R89). -/
theorem AspectLaw.congr {op : OpState} {t u : Tcu} (hl : AspectLaw op t) (uncoded : u.uncoded = t.uncoded)
    (received : u.received = t.received) (written : u.written = t.written) (stale : u.aspectStale = t.aspectStale)
    (aspects : u.aspects = t.aspects) (displayed : u.displayed = t.displayed)
    (hold : u.hold ≠ none ↔ u.state = .holding) : AspectLaw op u := by
  refine ⟨fun hop => ?_, hold⟩
  rw [displayed, hl.displayed hop]
  simp only [Tcu.derive, Tcu.writtenAspect, uncoded, received, written, stale, aspects]

theorem AspectLaw.recompute (op : OpState) {t : Tcu} (hold : t.hold ≠ none ↔ t.state = .holding) :
    AspectLaw op t.recompute :=
  ⟨fun _ => rfl, hold⟩

@[simp] theorem Tcu.receive_rest (t : Tcu) (a : Option Aspect) :
    t.receive a = { t with received := (t.receive a).received } := by
  unfold Tcu.receive
  split <;> rfl

/-- The received aspect changes with a recomputation (R80). -/
theorem AspectLaw.receive {op : OpState} {t u : Tcu} (hl : AspectLaw op t) (a : Option Aspect)
    (uncoded : u.uncoded = t.uncoded) (written : u.written = t.written)
    (stale : u.aspectStale = t.aspectStale) (aspects : u.aspects = t.aspects) (displayed : u.displayed = t.displayed)
    (hold : u.hold ≠ none ↔ u.state = .holding) : AspectLaw op (Tcu.recomputeFrom t (u.receive a)) := by
  have hrest := u.receive_rest a
  unfold Tcu.recomputeFrom
  split
  next hr =>
    rw [hrest]
    exact hl.congr uncoded hr.symm written stale aspects displayed hold
  next =>
    rw [hrest]
    exact .recompute op hold

theorem AspectLaw.keep {op : OpState} {t u : Tcu} (hl : AspectLaw op t)
    (uncoded : u.uncoded = t.uncoded) (received : u.received = t.received) (written : u.written = t.written)
    (stale : u.aspectStale = t.aspectStale) (aspects : u.aspects = t.aspects) (displayed : u.displayed = t.displayed)
    (hold : u.hold ≠ none ↔ u.state = .holding) : AspectLaw op (Tcu.recomputeFrom t u) := by
  rw [Tcu.recomputeFrom, if_pos received.symm]
  exact hl.congr uncoded received written stale aspects displayed hold

/-- A confirmation of a code by a TCU `u` that differs from `t` in what a sample changes (R80). -/
theorem AspectLaw.confirm {op : OpState} {t u : Tcu} (hl : AspectLaw op t)
    (hu : u = { t with lastStrobe := u.lastStrobe, lastSampled := u.lastSampled, candidate := u.candidate
                       loss := u.loss }) (code : BitVec 4) :
    AspectLaw op (Tcu.recomputeFrom t (u.confirm code).1) := by
  have hold : u.hold ≠ none ↔ u.state = .holding := by rw [hu]; exact hl.hold
  unfold Tcu.confirm
  split
  · rw [hu]
    exact hl.keep rfl rfl rfl rfl rfl rfl hl.hold
  · dsimp only
    split
    · rw [hu]
      exact hl.receive _ rfl rfl rfl rfl rfl ⟨fun h => absurd rfl h, nofun⟩
    · split
      · rw [hu]
        exact hl.keep rfl rfl rfl rfl rfl rfl hl.hold
      · rw [hu]
        exact hl.receive _ rfl rfl rfl rfl rfl ⟨fun h => absurd rfl h, nofun⟩

theorem AspectLaw.strobe {s : State} (hl : AspectLaw s.csu.op s.tcu) (code : BitVec 4) :
    AspectLaw s.csu.op (s.strobe code).tcu := by
  unfold State.strobe
  dsimp only
  split
  · rw [State.tcuCommit_tcu]
    exact hl.confirm rfl code
  · rw [State.tcuCommit_tcu]
    exact hl.congr rfl rfl rfl rfl rfl rfl hl.hold

theorem AspectLaw.loseStrobes {s : State} (hl : AspectLaw s.csu.op s.tcu) :
    AspectLaw s.csu.op s.loseStrobes.tcu := by
  have hlost : AspectLaw s.csu.op
      (Tcu.recomputeFrom s.tcu ({ s.tcu with candidate := none, loss := none } : Tcu).toLost.1) :=
    hl.receive _ rfl rfl rfl rfl rfl ⟨fun h => absurd rfl h, nofun⟩
  unfold State.loseStrobes
  dsimp only
  split
  · split
    · rw [State.tcuCommit_tcu]
      exact hl.congr rfl rfl rfl rfl rfl rfl ⟨fun _ => rfl, fun _ => nofun⟩
    · rw [State.tcuCommit_tcu]
      exact hlost
  · rw [State.tcuCommit_tcu]
    exact hlost
  all_goals
    rw [State.tcuCommit_tcu]
    exact hl.congr rfl rfl rfl rfl rfl rfl hl.hold

theorem AspectLaw.endHold {s : State} (hl : AspectLaw s.csu.op s.tcu) : AspectLaw s.csu.op s.endHold.tcu := by
  have hlost : AspectLaw s.csu.op (Tcu.recomputeFrom s.tcu s.tcu.toLost.1) :=
    hl.receive (u := { s.tcu with state := .lost, hold := none }) _ rfl rfl rfl rfl rfl
      ⟨fun h => absurd rfl h, nofun⟩
  rw [State.endHold, State.tcuCommit_tcu]
  exact hlost

theorem AspectLaw.changeTerritory {s : State} (hl : AspectLaw s.csu.op s.tcu) (u : Bool) :
    AspectLaw s.csu.op (s.changeTerritory u).tcu := by
  unfold State.changeTerritory
  dsimp only
  split
  · rw [State.tcuCommit_tcu]
    exact .recompute _ hl.hold
  · rw [State.tcuCommit_tcu]
    exact .recompute _ ⟨fun h => absurd rfl h, nofun⟩

/-- The TCU at a RUNNING entry shows the loss aspect, by R89 as by R81. -/
theorem AspectLaw.tcuEntry (op : OpState) (s : State) : AspectLaw op s.tcuEntry.tcu := by
  rw [State.tcuEntry_values]
  refine ⟨fun _ => ?_, ⟨fun h => absurd rfl h, nofun⟩⟩
  show lossAspect s.tcu.aspects = codedDisplay none (lossAspect s.tcu.aspects)
  cases lossAspect s.tcu.aspects <;> rfl

theorem AspectLaw.enterRunning (op : OpState) (s : State) : AspectLaw op s.enterRunning.tcu := by
  unfold State.enterRunning
  dsimp only
  split
  · simpa [State.enterRunningOnly] using AspectLaw.tcuEntry op _
  · simpa [State.enterRunningOnly] using AspectLaw.tcuEntry op _

theorem AspectLaw.op {op op' : OpState} {t : Tcu} (hl : AspectLaw op t) (h : op'.hasTable = true → op.hasTable = true) :
    AspectLaw op' t :=
  ⟨fun ht => hl.displayed (h ht), hl.hold⟩

theorem Effect.aspectLaw {s t : State} {c : Instr} (h : Effect s c t) (hl : AspectLaw s.csu.op s.tcu) :
    AspectLaw t.csu.op t.tcu := by
  cases h with
  | strobeTaken h =>
    rw [State.strobe_csu]
    exact AspectLaw.strobe (by exact hl) _
  | strobesLost =>
    rw [State.loseStrobes_csu]
    exact AspectLaw.loseStrobes (by exact hl)
  | holdEnded =>
    rw [State.endHold_csu]
    exact AspectLaw.endHold (by exact hl)
  | aspectWritten | aspectStale =>
    rw [State.tcuTake_tcu]
    exact .recompute _ hl.hold
  | powerReset | warmReset => exact .outside rfl ⟨fun h => absurd rfl h, nofun⟩
  | loadTimeout => exact .outside rfl hl.hold
  | cabStandby h hop | cabReturn h hop => simpa using hl.op (by rw [hop]; exact fun _ => rfl)
  | _ => simpa using hl

theorem ReleasedTo.aspectLaw {s t : State} {solo : Bool} (h : ReleasedTo s solo t) (hl : AspectLaw s.csu.op s.tcu) :
    AspectLaw t.csu.op t.tcu := by
  cases h with
  | loading => exact .outside (by simp [OpState.hasTable]) (by simpa using hl.hold)
  | running => exact .enterRunning _ _

theorem Move.aspectLaw {s t : State} (h : Move s t) (hl : AspectLaw s.csu.op s.tcu) : AspectLaw t.csu.op t.tcu := by
  cases h with
  | effect h => exact h.aspectLaw hl
  | capture => exact hl
  | accept => exact .enterRunning _ _
  | reject hop v off =>
    rw [State.rejectImage_tcu]
    refine .outside ?_ hl.hold
    rw [State.rejectImage_csu]
    split <;> simp [hop, OpState.hasTable]
  | territory => simpa using hl.changeTerritory _
  | release _ ht => exact ht.aspectLaw hl
  | _ => simpa using hl

/-! ## The lamp functions (R117, R119) -/

/-- In RUNNING and STANDBY every function has its value. -/
theorem functionLaw_iff {op : OpState} {a : Anu} :
    FunctionLaw op a ↔ (op.hasTable = true → ∀ f, a.fns.get f = a.fnValue f) := by
  refine forall_congr' fun _ => forall_congr' fun f => ?_
  rw [← Anu.fnValue_iff]
  exact Bool.eq_iff_iff.symm

/-- An input changes, and the functions it reaches are re-evaluated. -/
theorem FunctionLaw.reevaluate {s : State} {op : OpState} {a : Anu} (hl : FunctionLaw op a) (hop : s.csu.op = op)
    {fs : List LampFn} (fns : s.anu.fns = a.fns) (others : ∀ f, f ∉ fs → s.anu.fnValue f = a.fnValue f) :
    FunctionLaw op (s.reevaluate fs).anu := by
  rw [functionLaw_iff] at hl ⊢
  intro ht f
  rw [State.reevaluate_anu, hop, if_pos ht]
  have hval : ∀ l : LampValues, ({ s.anu with fns := l } : Anu).fnValue f = s.anu.fnValue f := fun l => by
    cases f <;> rfl
  rw [hval]
  show (s.anu.reevaluated fs).get f = _
  rw [Anu.reevaluated_get]
  split
  · rfl
  next h => rw [fns, hl ht f, others f h]

/-- The functions do not depend on the sound. -/
theorem FunctionLaw.sound {op : OpState} {a b : Anu} (hl : FunctionLaw op a)
    (hb : b = { a with sounding := b.sounding, buz := b.buz, cadence := b.cadence }) : FunctionLaw op b := by
  rw [functionLaw_iff] at hl ⊢
  intro ht f
  rw [hb]
  refine (hl ht f).trans ?_
  cases f <;> rfl

/-- The parts of the ANU that no function has for an input. -/
theorem FunctionLaw.congr {op : OpState} {a b : Anu} (hl : FunctionLaw op a) (fns : b.fns = a.fns)
    (h : ∀ f, b.fnValue f = a.fnValue f) : FunctionLaw op b := by
  rw [functionLaw_iff] at hl ⊢
  intro ht f
  rw [fns, hl ht f, h f]

theorem FunctionLaw.outside {op : OpState} {a : Anu} (hop : op.hasTable = false) : FunctionLaw op a :=
  fun h => absurd (hop.symm.trans h) nofun

@[simp] theorem State.evaluate_anu (s : State) (fs : List LampFn) : (s.evaluate fs).anu =
    ({ s with anu := { s.anu with stage := s.evaluatedStage } }.reevaluate fs).followDemands.anu := by
  unfold State.evaluate
  dsimp only
  split <;> simp

theorem FunctionLaw.evaluate {s : State} {op : OpState} {a : Anu} (hl : FunctionLaw op a) (hop : s.csu.op = op)
    {fs : List LampFn} (fns : s.anu.fns = a.fns)
    (others : ∀ st f, f ∉ fs → ({ s.anu with stage := st } : Anu).fnValue f = a.fnValue f) :
    FunctionLaw op (s.evaluate fs).anu := by
  rw [State.evaluate_anu]
  refine FunctionLaw.sound ?_ (State.followDemands_anu _)
  exact hl.reevaluate (by exact hop) (by exact fns) (others _)

theorem FunctionLaw.endRestriction {s : State} {op : OpState} {a : Anu} (hl : FunctionLaw op a) (hop : s.csu.op = op)
    (fns : s.anu.fns = a.fns) (values : ∀ f, s.anu.fnValue f = a.fnValue f) :
    FunctionLaw op s.endRestriction.anu := by
  unfold State.endRestriction
  split
  · rw [State.sendReport_anu, State.sendFlu_anu]
    refine FunctionLaw.sound ?_ (State.followDemands_anu _)
    refine hl.reevaluate (by exact hop) (by exact fns) fun f hf => ?_
    refine Eq.trans ?_ (values f)
    cases f
    case restrictAck => simp at hf
    all_goals rfl
  · exact hl.congr fns values

/-- The functions that a press or a release reaches are those of the restriction that it may end (R126–R129). -/
theorem FunctionLaw.buttonChanged {s : State} {op : OpState} {a : Anu} (hl : FunctionLaw op a) (hop : s.csu.op = op)
    (fns : s.anu.fns = a.fns) (values : ∀ f, s.anu.fnValue f = a.fnValue f) (b : Button) (pressed : Bool) :
    FunctionLaw op (s.buttonChanged b pressed).anu := by
  have hs : FunctionLaw op s.anu := hl.congr fns values
  cases b <;> cases pressed
  · exact hs
  · show FunctionLaw op s.pressAck.anu
    unfold State.pressAck
    split
    · exact hs
    · unfold State.arbitrate
      split
      · exact hl.endRestriction hop fns fun f => (Eq.trans (by cases f <;> rfl) (values f))
      · split
        · rw [State.sendFlu_anu]
          exact hs.congr rfl fun f => by cases f <;> rfl
        · exact hs.congr rfl fun f => by cases f <;> rfl
  · show FunctionLaw op (if s.anu.testActive then s.endLampTest else s).anu
    split
    · rw [State.endLampTest, State.sendReport_anu, State.send_anu]
      exact hs.congr rfl fun f => by cases f <;> rfl
    · exact hs
  · show FunctionLaw op (if s.anu.testActive then s else s.startLampTest).anu
    split
    · exact hs
    · rw [State.startLampTest, State.sendReport_anu]
      refine FunctionLaw.sound ?_ (State.chime_anu _)
      exact hs.congr rfl fun f => by cases f <;> rfl

theorem State.stepCadence_anu (s : State) : s.stepCadence.anu = { s.anu with
    sounding := s.stepCadence.anu.sounding, buz := s.stepCadence.anu.buz, cadence := s.stepCadence.anu.cadence } := by
  unfold State.stepCadence
  split
  · rfl
  · split <;> rfl
  all_goals rfl

theorem Anu.setButton_fns (a : Anu) (b : Button) (x : ButtonState) : (a.setButton b x).fns = a.fns := by
  cases b <;> rfl

theorem Anu.setButton_fnValue (a : Anu) (b : Button) (x : ButtonState) (f : LampFn) :
    (a.setButton b x).fnValue f = a.fnValue f := by
  cases b <;> cases f <;> rfl

theorem FunctionLaw.enterStandby {s : State} (hl : FunctionLaw .running s.anu) :
    FunctionLaw .standby s.enterStandby.anu := by
  have h := standby_entered s
  rw [functionLaw_iff] at hl
  intro _ f
  have hf := h.functions f
  split at hf
  next => exact hf
  next hne =>
    rw [hf, hl rfl f, ← Anu.fnValue_iff, h.anu]
    cases f
    case overspeed => exact absurd (.inl rfl) hne
    case restrictAck => exact absurd (.inr rfl) hne
    all_goals rfl

theorem FunctionLaw.returnToRunning {s : State} (hl : FunctionLaw .standby s.anu) :
    FunctionLaw .running s.returnToRunning.anu := by
  have h := standby_left s
  obtain ⟨ws, fns, hfns, -, -⟩ := h.sent
  rw [functionLaw_iff] at hl
  intro _ f
  by_cases hf : f ∈ [LampFn.overspeed, .restrictAck]
  · exact hfns.evaluated rfl f hf
  · rw [hfns.others f (.inr hf), hl rfl f, ← Anu.fnValue_iff, h.anu]
    cases f
    case overspeed => simp at hf
    case restrictAck => simp at hf
    all_goals rfl

theorem FunctionLaw.enterRunning (s : State) : FunctionLaw s.enterRunning.csu.op s.enterRunning.anu := by
  have hrun : FunctionLaw .running s.enterRunningOnly.anu := State.anuEntry_functions _ _
  unfold State.enterRunning
  dsimp only
  split
  · rw [State.enterRunningOnly_csu]
    exact hrun
  · rw [State.enterStandby_csu]
    exact hrun.enterStandby

theorem Effect.functionLaw {s t : State} {c : Instr} (h : Effect s c t) (hl : FunctionLaw s.csu.op s.anu) :
    FunctionLaw t.csu.op t.anu := by
  cases h with
  | completion | newPr =>
    rw [State.evaluate_csu]
    refine hl.evaluate (by exact rfl) (by exact rfl) fun st f hf => ?_
    cases f <;> first | rfl | simp at hf
  | rankTaken | unacknowledged | lockoutEnded =>
    simp only [State.sendFlu_csu, State.sendFlu_anu, State.reach_csu]
    exact hl.congr rfl fun f => by cases f <;> rfl
  | rankFallen =>
    simp only [State.sendReport_csu, State.sendEvents_csu, State.followDemands_csu, State.reevaluate_csu,
      State.sendReport_anu, State.sendEvents_anu]
    refine FunctionLaw.sound ?_ (State.followDemands_anu _)
    refine hl.reevaluate (by exact rfl) (by exact rfl) fun f hf => ?_
    cases f <;> first | rfl | simp at hf
  | summary =>
    rw [State.followDemands_csu, State.reevaluate_csu]
    refine FunctionLaw.sound ?_ (State.followDemands_anu _)
    refine hl.reevaluate (by exact rfl) (by exact rfl) fun f hf => ?_
    cases f <;> first | rfl | simp at hf
  | chime =>
    rw [State.chime_csu]
    exact hl.sound (State.chime_anu _)
  | cadence =>
    rw [State.stepCadence_csu, State.reach_csu]
    exact hl.sound (State.stepCadence_anu _)
  | flash | codeLost | uncoded | staleCounted =>
    rw [State.reevaluate_csu]
    refine hl.reevaluate (by exact rfl) (by exact rfl) fun f hf => ?_
    cases f <;> first | rfl | simp at hf
  | buttonLine | buttonLevel =>
    exact hl.congr (Anu.setButton_fns ..) fun f => Anu.setButton_fnValue _ _ _ f
  | buttonChanged =>
    rw [State.buttonChanged_csu]
    exact hl.buttonChanged (by exact rfl) (Anu.setButton_fns ..) (fun f => Anu.setButton_fnValue _ _ _ f) _ _
  | lampTestTimeout =>
    rw [State.endLampTest_csu, State.endLampTest, State.sendReport_anu, State.send_anu]
    exact hl.congr rfl fun f => by cases f <;> rfl
  | powerReset | warmReset | loadTimeout => exact .outside rfl
  | cabStandby h hop =>
    rw [State.enterStandby_csu]
    rw [hop] at hl
    exact FunctionLaw.enterStandby (by exact hl)
  | cabReturn h hop =>
    rw [State.returnToRunning_csu]
    rw [hop] at hl
    exact FunctionLaw.returnToRunning (by exact hl)
  | _ => simpa using hl

theorem ReleasedTo.functionLaw {s t : State} {solo : Bool} (h : ReleasedTo s solo t) : FunctionLaw t.csu.op t.anu := by
  cases h with
  | loading => exact .outside (by simp [OpState.hasTable])
  | running => exact .enterRunning _

theorem Move.functionLaw {s t : State} (h : Move s t) (hl : FunctionLaw s.csu.op s.anu) :
    FunctionLaw t.csu.op t.anu := by
  cases h with
  | effect h => exact h.functionLaw hl
  | capture => exact hl
  | accept => exact .enterRunning _
  | reject hop v off =>
    refine .outside ?_
    rw [State.rejectImage_csu]
    split <;> simp [hop, OpState.hasTable]
  | release _ ht => exact ht.functionLaw
  | _ => simpa using hl

/-! ## The buzzer (R120–R123) -/

/-- What the sounding pattern alone says of BUZ and of the cadence (R121, R123). -/
structure SoundLaw (op : OpState) (a : Anu) : Prop where
  outside : op ≠ .running → a.sounding = .none
  silent : a.sounding = .none → a.buz = false ∧ a.cadence = none
  continuous : a.sounding = .continuous → a.buz = true ∧ a.cadence = none
  chime : a.sounding = .chime → a.buz = true
  cadence : a.sounding ≠ .none → a.sounding ≠ .continuous → a.cadence ≠ none

theorem BuzzerLaw.sound {op : OpState} {a : Anu} (hl : BuzzerLaw op a) : SoundLaw op a :=
  ⟨hl.outside, hl.silent, hl.continuous, hl.chime, hl.cadence⟩

theorem SoundLaw.congr {op : OpState} {a b : Anu} (hl : SoundLaw op a) (h : b.soundsAs a) : SoundLaw op b := by
  obtain ⟨hs, hb, hc⟩ := h
  refine ⟨?_, ?_, ?_, ?_, ?_⟩
  · rw [hs]; exact hl.outside
  · rw [hs, hb, hc]; exact hl.silent
  · rw [hs, hb, hc]; exact hl.continuous
  · rw [hs, hb]; exact hl.chime
  · rw [hs, hc]; exact hl.cadence

/-- Nothing sounds. -/
theorem SoundLaw.quiet {op : OpState} {a : Anu} (hs : a.sounding = .none) (hb : a.buz = false) (hc : a.cadence = none) :
    SoundLaw op a := by
  refine ⟨fun _ => hs, fun _ => ⟨hb, hc⟩, ?_, ?_, fun h => absurd hs h⟩ <;> rw [hs] <;> nofun

/-- Outside RUNNING the sound is all that the law speaks of. -/
theorem SoundLaw.buzzer {op : OpState} {a : Anu} (hl : SoundLaw op a) (hop : op ≠ .running) : BuzzerLaw op a :=
  ⟨hl.outside, fun h => absurd h hop, fun h => absurd h hop, hl.silent, hl.continuous, hl.chime, hl.cadence⟩

/-- The demands and the sound stay. -/
theorem BuzzerLaw.congr {op : OpState} {a b : Anu} (hl : BuzzerLaw op a) (stage : b.stage = a.stage)
    (summary : b.summary = a.summary) (pending : b.pendingAck = a.pendingAck) (h : b.soundsAs a) : BuzzerLaw op b := by
  have hd := Anu.demanded_congr stage summary pending
  have hsound := hl.sound.congr h
  refine ⟨hsound.outside, fun hop p hp => ?_, fun hop hp => ?_, hsound.silent, hsound.continuous, hsound.chime,
    hsound.cadence⟩
  · rw [← Anu.demanded_some, hd, Anu.demanded_some] at hp
    rw [h.1]
    exact hl.demanded hop p hp
  · rw [← Anu.demanded_none, hd, Anu.demanded_none] at hp
    rw [h.1]
    exact hl.idle hop hp

theorem Anu.mustSound.ne_none {a : Anu} {p : Pattern} (h : a.mustSound p) : p ≠ .none := by
  rintro rfl
  exact h.1

theorem Anu.mustSound.ne_chime {a : Anu} {p : Pattern} (h : a.mustSound p) : p ≠ .chime := by
  rintro rfl
  exact h.1

/-- However the demands have changed, the buzzer follows them (R120, R121). -/
theorem BuzzerLaw.follows {op : OpState} {now : Nat} {before after : Anu} (hl : SoundLaw op before)
    (h : BuzzerFollows op now before after) : BuzzerLaw op after := by
  by_cases hop : op = .running
  · by_cases hd : ∃ p, after.mustSound p
    · obtain ⟨p, hp⟩ := hd
      have honly : ∀ q, after.mustSound q → q = p := fun q hq => by
        rw [← Anu.demanded_some] at hp hq
        exact Option.some.inj (hq.symm.trans hp)
      by_cases hb : before.sounding = p
      · have hs := h.stays hop p hp hb
        have hlaw := hl.congr hs
        refine ⟨hlaw.outside, fun _ q hq => ?_, fun _ hn => absurd hp.1 (hn p), hlaw.silent, hlaw.continuous,
          hlaw.chime, hlaw.cadence⟩
        rw [honly q hq, hs.1, hb]
      · obtain ⟨hs, hbuz, hc⟩ := h.begins hop p hp hb
        refine ⟨fun h => absurd hop h, fun _ q hq => ?_, fun _ hn => absurd hp.1 (hn p), fun h0 => ?_, fun h0 => ?_,
          fun _ => hbuz, fun _ h0 => ?_⟩
        · rw [honly q hq, hs]
        · exact absurd (hs.symm.trans h0) hp.ne_none
        · rw [if_pos (hs.symm.trans h0)] at hc
          exact ⟨hbuz, hc⟩
        · rw [if_neg (fun hp => h0 (hs.trans hp))] at hc
          rw [hc]
          nofun
    · have hnone : ∀ p, ¬ after.demands p := by
        rw [← Anu.demanded_none]
        cases hdem : after.demanded with
        | none => rfl
        | some p => exact absurd ⟨p, Anu.demanded_some.mp hdem⟩ hd
      have he := h.ends hop hnone
      split at he
      next hb =>
        have hlaw := hl.congr he
        refine ⟨hlaw.outside, fun _ q hq => absurd hq.1 (hnone q), fun _ _ => ?_, hlaw.silent, hlaw.continuous,
          hlaw.chime, hlaw.cadence⟩
        rw [he.1]
        exact hb.symm
      next =>
        obtain ⟨hs, hb, hc⟩ := he
        have hlaw : SoundLaw op after := .quiet hs hb hc
        exact ⟨hlaw.outside, fun _ q hq => absurd hq.1 (hnone q), fun _ _ => .inl hs, hlaw.silent, hlaw.continuous,
          hlaw.chime, hlaw.cadence⟩
  · exact (hl.congr (h.outside hop)).buzzer hop

theorem BuzzerLaw.followDemands {s : State} {op : OpState} {a : Anu} (hl : SoundLaw op a) (hop : s.csu.op = op)
    (h : s.anu.soundsAs a) : BuzzerLaw op s.followDemands.anu := by
  subst hop
  exact .follows hl (s.followDemands_follows a h)

theorem BuzzerLaw.evaluate {s : State} {op : OpState} {a : Anu} (hl : SoundLaw op a) (hop : s.csu.op = op)
    (h : s.anu.soundsAs a) (fs : List LampFn) : BuzzerLaw op (s.evaluate fs).anu := by
  rw [State.evaluate_anu]
  refine .followDemands hl (by simpa using hop) ?_
  rw [State.reevaluate_anu]
  exact h

theorem BuzzerLaw.endRestriction {s : State} {op : OpState} {a : Anu} (hl : BuzzerLaw op a) (hop : s.csu.op = op)
    (stage : s.anu.stage = a.stage) (summary : s.anu.summary = a.summary) (pending : s.anu.pendingAck = a.pendingAck)
    (h : s.anu.soundsAs a) : BuzzerLaw op s.endRestriction.anu := by
  unfold State.endRestriction
  split
  · rw [State.sendReport_anu, State.sendFlu_anu]
    refine .followDemands hl.sound (by simpa using hop) ?_
    rw [State.reevaluate_anu]
    exact h
  · exact hl.congr stage summary pending h

/-- A CHIME sounds only where no demand does (R122). -/
theorem BuzzerLaw.chimeTaken {s : State} {op : OpState} {a : Anu} (hl : BuzzerLaw op a) (hop : s.csu.op = op)
    (stage : s.anu.stage = a.stage) (summary : s.anu.summary = a.summary) (pending : s.anu.pendingAck = a.pendingAck)
    (h : s.anu.soundsAs a) : BuzzerLaw op s.chime.anu := by
  have hs := hl.congr stage summary pending h
  have hchime : op = .running → s.anu.sounding = .chime ∨ s.anu.sounding = .none →
      BuzzerLaw op (s.startPattern .chime).anu := by
    intro hrun hsound
    refine ⟨fun h => absurd hrun h, fun _ p hp => ?_, fun _ _ => .inr rfl, nofun, nofun, fun _ => rfl, fun _ _ => nofun⟩
    have hp' : s.anu.mustSound p := hp
    have := hs.demanded hrun p hp'
    obtain hsound | hsound := hsound
    · exact absurd (this.symm.trans hsound) hp'.ne_chime
    · exact absurd (this.symm.trans hsound) hp'.ne_none
  unfold State.chime
  rw [hop]
  split
  next hrun =>
    split
    · exact hs
    · exact hs
    next hsound =>
      exact ⟨fun h => absurd hrun h, fun _ p hp => hsound ▸ hs.demanded hrun p hp,
        fun _ hn => by
          have := hs.idle hrun hn
          rw [hsound] at this
          exact absurd this (by simp),
        nofun, nofun, nofun, fun _ _ => nofun⟩
    next hsound => exact hchime hrun (.inl hsound)
    next hsound => exact hchime hrun (.inr hsound)
  next => exact hs

theorem BuzzerLaw.buttonChanged {s : State} {op : OpState} {a : Anu} (hl : BuzzerLaw op a) (hop : s.csu.op = op)
    (stage : s.anu.stage = a.stage) (summary : s.anu.summary = a.summary) (pending : s.anu.pendingAck = a.pendingAck)
    (h : s.anu.soundsAs a) (b : Button) (pressed : Bool) : BuzzerLaw op (s.buttonChanged b pressed).anu := by
  have hs := hl.congr stage summary pending h
  cases b <;> cases pressed
  · exact hs
  · show BuzzerLaw op s.pressAck.anu
    unfold State.pressAck
    split
    · exact hs
    · unfold State.arbitrate
      split
      · exact hl.endRestriction hop stage summary pending h
      · split
        · rw [State.sendFlu_anu]
          exact hl.congr stage summary pending h
        · exact hl.congr stage summary pending h
  · show BuzzerLaw op (if s.anu.testActive then s.endLampTest else s).anu
    split
    · rw [State.endLampTest, State.sendReport_anu, State.send_anu]
      exact hl.congr stage summary pending h
    · exact hs
  · show BuzzerLaw op (if s.anu.testActive then s else s.startLampTest).anu
    split
    · exact hs
    · rw [State.startLampTest, State.sendReport_anu]
      exact hl.chimeTaken (by simpa using hop) stage summary pending h

/-- The cadence runs on in a pattern that repeats, and ends a CHIME (R121). -/
theorem BuzzerLaw.stepCadence {s : State} {op : OpState} (hl : BuzzerLaw op s.anu)  (hc : s.anu.cadence ≠ none) : BuzzerLaw op s.stepCadence.anu := by
  have hrun : op = .running := by
    by_contra h
    exact hc (hl.silent (hl.outside h)).2
  unfold State.stepCadence
  split
  next hs =>
    exact ⟨fun h => absurd hrun h, hl.demanded, hl.idle, fun h => absurd (hs.symm.trans h) nofun,
      fun h => absurd (hs.symm.trans h) nofun, fun h => absurd (hs.symm.trans h) nofun, fun _ _ => nofun⟩
  next hs =>
    split <;>
      exact ⟨fun h => absurd hrun h, hl.demanded, hl.idle, fun h => absurd (hs.symm.trans h) nofun,
        fun h => absurd (hs.symm.trans h) nofun, fun h => absurd (hs.symm.trans h) nofun, fun _ _ => nofun⟩
  next hs =>
    have hq : SoundLaw op s.anu.silenced := .quiet rfl rfl rfl
    refine ⟨hq.outside, fun _ p hp => ?_, fun _ _ => .inl rfl, hq.silent, hq.continuous, hq.chime, hq.cadence⟩
    have hp' : s.anu.mustSound p := hp
    exact absurd ((hl.demanded hrun p hp').symm.trans hs) hp'.ne_chime
  next hs => exact absurd (hl.silent hs).2 hc
  next hs => exact absurd (hl.continuous hs).2 hc

theorem Anu.setButton_sound (a : Anu) (b : Button) (x : ButtonState) : (a.setButton b x).stage = a.stage ∧
    (a.setButton b x).summary = a.summary ∧ (a.setButton b x).pendingAck = a.pendingAck ∧
    (a.setButton b x).soundsAs a := by
  cases b <;> exact ⟨rfl, rfl, rfl, rfl, rfl, rfl⟩

theorem BuzzerLaw.enterStandby (s : State) : BuzzerLaw .standby s.enterStandby.anu := by
  rw [(standby_entered s).anu]
  exact (SoundLaw.quiet rfl rfl rfl).buzzer nofun

theorem BuzzerLaw.enterRunning (s : State) : BuzzerLaw s.enterRunning.csu.op s.enterRunning.anu := by
  have hrun : BuzzerLaw .running s.enterRunningOnly.anu := by
    have hop : s.beforeFsu.fsuEntry.csu.op = .running := by simp [State.beforeFsu]
    show BuzzerLaw .running (s.beforeFsu.fsuEntry.anuEntry _).anu
    rw [State.anuEntry_eq]
    exact .followDemands (a := Anu.reset false false) (.quiet rfl rfl rfl) (by exact hop) ⟨rfl, rfl, rfl⟩
  unfold State.enterRunning
  dsimp only
  split
  · rw [State.enterRunningOnly_csu]
    exact hrun
  · rw [State.enterStandby_csu]
    exact .enterStandby _

theorem BuzzerLaw.enterFallback (s : State) : BuzzerLaw .fallback s.enterFallback.anu :=
  (SoundLaw.quiet rfl rfl rfl).buzzer nofun

theorem Effect.buzzerLaw {s t : State} {c : Instr} (h : Effect s c t) (hl : BuzzerLaw s.csu.op s.anu) :
    BuzzerLaw t.csu.op t.anu := by
  cases h with
  | completion | newPr =>
    rw [State.evaluate_csu]
    exact .evaluate hl.sound (by exact rfl) (by exact ⟨rfl, rfl, rfl⟩) _
  | rankTaken | lockoutEnded => exact hl.congr rfl rfl rfl ⟨rfl, rfl, rfl⟩
  | unacknowledged =>
    rw [State.sendFlu_csu, State.sendFlu_anu]
    exact hl.congr rfl rfl rfl ⟨rfl, rfl, rfl⟩
  | rankFallen =>
    simp only [State.sendReport_csu, State.sendEvents_csu, State.followDemands_csu, State.reevaluate_csu,
      State.sendReport_anu, State.sendEvents_anu]
    exact .followDemands hl.sound (by simp) (by simpa using ⟨rfl, rfl, rfl⟩)
  | summary =>
    rw [State.followDemands_csu, State.reevaluate_csu]
    exact .followDemands hl.sound (by simp) (by simpa using ⟨rfl, rfl, rfl⟩)
  | chime =>
    rw [State.chime_csu]
    exact hl.chimeTaken (by exact rfl) (by exact rfl) (by exact rfl) (by exact rfl) (by exact ⟨rfl, rfl, rfl⟩)
  | cadence h =>
    rw [State.stepCadence_csu, State.reach_csu]
    exact BuzzerLaw.stepCadence (by exact hl) (by simp [h])
  | flash | codeLost | uncoded | staleCounted =>
    rw [State.reevaluate_csu, State.reevaluate_anu]
    exact hl.congr rfl rfl rfl ⟨rfl, rfl, rfl⟩
  | @buttonLine b =>
    obtain ⟨h1, h2, h3, h4⟩ := s.anu.setButton_sound b _
    exact hl.congr h1 h2 h3 h4
  | @buttonLevel b =>
    obtain ⟨h1, h2, h3, h4⟩ := s.anu.setButton_sound b _
    exact hl.congr h1 h2 h3 h4
  | @buttonChanged b =>
    obtain ⟨h1, h2, h3, h4⟩ := s.anu.setButton_sound b _
    rw [State.buttonChanged_csu]
    exact hl.buttonChanged (by exact rfl) h1 h2 h3 h4 _ _
  | lampTestTimeout =>
    rw [State.endLampTest_csu, State.endLampTest, State.sendReport_anu, State.send_anu]
    exact hl.congr rfl rfl rfl ⟨rfl, rfl, rfl⟩
  | powerReset | warmReset => exact (SoundLaw.quiet rfl rfl rfl).buzzer nofun
  | loadTimeout => exact .enterFallback _
  | cabStandby =>
    rw [State.enterStandby_csu]
    exact .enterStandby _
  | cabReturn h hop =>
    rw [State.returnToRunning_csu]
    refine .follows (SoundLaw.quiet ?_ ?_ ?_) (standby_left _).buzzer
    · exact hl.outside (by rw [hop]; nofun)
    · exact (hl.silent (hl.outside (by rw [hop]; nofun))).1
    · exact (hl.silent (hl.outside (by rw [hop]; nofun))).2
  | _ => simpa using hl

theorem ReleasedTo.buzzerLaw {s t : State} {solo : Bool} (h : ReleasedTo s solo t) (hl : BuzzerLaw s.csu.op s.anu)
    (hop : s.csu.op = .reset) : BuzzerLaw t.csu.op t.anu := by
  have hs := hl.outside (by rw [hop]; nofun)
  obtain ⟨hb, hc⟩ := hl.silent hs
  cases h with
  | loading =>
    rw [State.enterLoading_csu, State.enterLoading_anu]
    exact SoundLaw.buzzer (by exact .quiet hs hb hc) (by simp)
  | running => exact .enterRunning _

theorem Move.buzzerLaw {s t : State} (h : Move s t) (hs : StateLaw s.csu) (hl : BuzzerLaw s.csu.op s.anu) :
    BuzzerLaw t.csu.op t.anu := by
  cases h with
  | effect h => exact h.buzzerLaw hl
  | capture => exact hl
  | accept => exact .enterRunning _
  | reject hop v off =>
    unfold State.rejectImage
    dsimp only
    split
    · simpa using hl
    · exact .enterFallback _
  | release hr ht => exact ht.buzzerLaw (by exact hl) (by exact (hs.releasedBy hr).1)
  | _ => simpa using hl

/-- Settles O58: each of the six laws is kept by every move of a step. The image in force and the buzzer need the law of
the operating state beside theirs. -/
theorem stateLawsKept : Obligations.StateLawsKept := fun _ _ h =>
  ⟨Invariant.step (P := fun s => StateLaw s.csu) (fun _ _ => Move.stateLaw) h,
    Invariant.step (P := ResetLaw) (fun _ _ => Move.resetLaw) h,
    fun hs hl => (Invariant.step (P := fun s => StateLaw s.csu ∧ ImageLaw s)
      (fun _ _ hm hp => ⟨hm.stateLaw hp.1, hm.imageLaw hp.1 hp.2⟩) h ⟨hs, hl⟩).2,
    Invariant.step (P := fun s => AspectLaw s.csu.op s.tcu) (fun _ _ => Move.aspectLaw) h,
    Invariant.step (P := fun s => FunctionLaw s.csu.op s.anu) (fun _ _ => Move.functionLaw) h,
    fun hs hl => (Invariant.step (P := fun s => StateLaw s.csu ∧ BuzzerLaw s.csu.op s.anu)
      (fun _ _ hm hp => ⟨hm.stateLaw hp.1, hm.buzzerLaw hp.1 hp.2⟩) h ⟨hs, hl⟩).2⟩

end Sys2Proof.Machine
end

section
/-! SUPPORT and PROOF. What a move can make of the FSU: `FsuMove`, with a case for each operation on the field table, and
the law of the field table itself (R1–R4). -/

namespace Sys2Proof.Machine

/-- The FSU at a STANDBY entry (R10). -/
def Fsu.parked (f : Fsu) : Fsu :=
  { f with
    table := f.table.map fun r => { r with shown := some r.fixed.blankWord, age := none }
    lampTest := false }

@[simp] theorem State.enterStandby_fsu (s : State) : s.enterStandby.fsu = s.fsu.parked := by
  simp [State.enterStandby, Fsu.parked]

/-- The FSU with a speed copy of a completion (R58, R62). -/
def Fsu.speeded (f : Fsu) (running : Bool) (c : SpeedCopy) : Fsu :=
  { f with speed := some c, table := if running then f.table.map (recheckActual c) else f.table }

/-- The FSU told of a lamp test's start or end (R13, R129). -/
def Fsu.lampTested (f : Fsu) (running : Bool) (active : Bool) : Fsu :=
  { f with lampTest := active, table := if running then f.table.map (relamp active f.fns) else f.table }

/-- What a move can make of the operating state and the FSU. -/
inductive FsuMove (s : State) : OpState → Fsu → Prop where
  | same : FsuMove s s.csu.op s.fsu
  /-- from a state without a table to another (R164, R179) -/
  | untabled {op} (h : StateLaw s.csu → s.csu.op.hasTable = false) (hop : op.hasTable = false) : FsuMove s op s.fsu
  | reset : FsuMove s .reset .reset
  /-- R6, R175 -/
  | entered {v : State} (h : checkImage v.csu.shadow = .pass)
      (hv : v.asu.speedCopy = { selected := some 0, d := some 0 }) : FsuMove s .running v.fsuEntry.fsu
  | enteredStandby {v : State} (h : checkImage v.csu.shadow = .pass)
      (hv : v.asu.speedCopy = { selected := some 0, d := some 0 }) : FsuMove s .standby v.fsuEntry.fsu.parked
  /-- R10 -/
  | parked (hop : s.csu.op = .running) : FsuMove s .standby s.fsu.parked
  | returned {v : State} (hv : v.fsu = s.fsu) (hop : s.csu.op = .standby) : FsuMove s .running v.fsuReturn.fsu
  /-- R58 -/
  | speed {c} (hc : Msg.speed c ∈ s.inFlight) :
      FsuMove s s.csu.op (s.fsu.speeded (decide (s.csu.op = .running)) c)
  /-- R68, R92 -/
  | delivered {x} : FsuMove s s.csu.op (s.fsu.delivered (decide (s.csu.op = .running)) x)
  /-- R15 -/
  | slots {es} (hop : s.csu.op = .running) :
      FsuMove s s.csu.op { s.fsu with table := showSlots es s.fsu.table }
  /-- R14 -/
  | relit {fn b} : FsuMove s s.csu.op (s.fsu.relit (decide (s.csu.op = .running)) fn b)
  /-- R13 -/
  | lampTested {b} : FsuMove s s.csu.op (s.fsu.lampTested (decide (s.csu.op = .running)) b)
  /-- R24, R25 -/
  | written {i r w} (hop : s.csu.op.hasTable = true) (hr : s.fsu.table[i]? = some r)
      (hk : r.fixed.kind ≠ .faultSlot) : FsuMove s s.csu.op (s.fieldWrite i w).fsu
  /-- R135 -/
  | stale {v : State} {i r} (hv : v.fsu = s.fsu) (hop : s.csu.op = .running) (hr : s.fsu.table[i]? = some r)
      (hst : r.state ≠ .stale) (hage : r.age ≠ none) : FsuMove s s.csu.op (v.goStale i r).fsu
  | ageStopped {i r} (hop : s.csu.op = .running) (hr : s.fsu.table[i]? = some r) (hst : r.state = .stale) :
      FsuMove s s.csu.op { s.fsu with table := s.fsu.table.set i { r with age := none } }

theorem FsuMove.of_eq {s : State} {op op' : OpState} {f f' : Fsu} (h : FsuMove s op f) (hop : op' = op) (hf : f' = f) :
    FsuMove s op' f' := hop ▸ hf ▸ h

/-- What `takeFirst` gives is in flight. -/
theorem takeFirst_mem {α : Type} {p : Msg → Option α} {ms rest : List Msg} {x : α}
    (h : takeFirst p ms = some (x, rest)) : ∃ m ∈ ms, p m = some x := by
  induction ms generalizing rest with
  | nil => cases h
  | cons m ms ih =>
    unfold takeFirst at h
    split at h
    next y hy =>
      simp only [Option.some.injEq, Prod.mk.injEq] at h
      exact ⟨m, by simp, h.1 ▸ hy⟩
    next =>
      cases ht : takeFirst p ms with
      | none => simp [ht] at h
      | some z =>
        obtain ⟨y, r⟩ := z
        simp only [ht, Option.map_some, Option.some.injEq, Prod.mk.injEq] at h
        obtain ⟨rfl, -⟩ := h
        obtain ⟨m', hm, hp⟩ := ih ht
        exact ⟨m', List.mem_cons_of_mem _ hm, hp⟩

theorem pickSpeed_inv {m : Msg} {c : SpeedCopy} (h : pickSpeed m = some c) : m = .speed c := by
  cases m <;> simp [pickSpeed] at h
  rw [h]

theorem speed_mem_of_takeFirst {ms rest : List Msg} {c : SpeedCopy} (h : takeFirst pickSpeed ms = some (c, rest)) :
    Msg.speed c ∈ ms := by
  obtain ⟨m, hm, hp⟩ := takeFirst_mem h
  exact pickSpeed_inv hp ▸ hm

theorem Effect.fsu {s t : State} {c : Instr} (h : Effect s c t) : FsuMove s t.csu.op t.fsu := by
  cases h with
  | speedRechecked h hop => exact (FsuMove.speed (speed_mem_of_takeFirst h)).of_eq (by simp) (by simp [Fsu.speeded, hop])
  | speedStored h hop => exact (FsuMove.speed (speed_mem_of_takeFirst h)).of_eq rfl (by simp [Fsu.speeded, hop])
  | @delivery x _ h => exact (FsuMove.delivered (x := x)).of_eq (by simp) (by simp)
  | @slotsShown es _ h hop => exact (FsuMove.slots (es := es) hop).of_eq (by simp) (by simp)
  | @lampFunction x _ h => exact (FsuMove.relit (fn := x.1) (b := x.2)).of_eq (by simp) (by simp)
  | lampTestBegun h => exact (FsuMove.lampTested (b := true)).of_eq (by simp) (by simp [Fsu.lampTested])
  | lampTestEnded h => exact (FsuMove.lampTested (b := false)).of_eq (by simp) (by simp [Fsu.lampTested])
  | ageStopped hop hr h hst => exact (FsuMove.ageStopped hop hr hst).of_eq (by simp) (by simp)
  | ageExpired hop hr h hst =>
    exact (FsuMove.stale (by simp) hop hr hst (by rw [h]; nofun)).of_eq (by simp) rfl
  | powerReset | warmReset => exact .reset
  | loadTimeout h =>
    refine FsuMove.of_eq (.untabled (fun hl => ?_) rfl) rfl rfl
    rw [hl.loading.mp (by rw [h]; nofun)]
    rfl
  | cabStandby h hop => exact (FsuMove.parked hop).of_eq (by simp) (by simp)
  | cabReturn h hop => exact (FsuMove.returned (by simp) hop).of_eq (by simp) (State.anuReturn_fsu _)
  | _ => exact FsuMove.same.of_eq (by simp) (by simp)

theorem State.enterRunning_move {s : State} (v : State) (h : checkImage v.csu.shadow = .pass) :
    FsuMove s v.enterRunning.csu.op v.enterRunning.fsu := by
  have hpass : checkImage v.beforeFsu.csu.shadow = .pass := by
    rw [v.beforeFsu_rest.1]
    exact h
  have hspeed : v.beforeFsu.asu.speedCopy = { selected := some 0, d := some 0 } := by
    rw [v.beforeFsu_asu]
    rfl
  have hfsu : v.enterRunningOnly.fsu = v.beforeFsu.fsuEntry.fsu := State.anuEntry_fsu _ _
  unfold State.enterRunning
  dsimp only
  split
  · exact (FsuMove.entered hpass hspeed).of_eq (by simp) hfsu
  · exact (FsuMove.enteredStandby hpass hspeed).of_eq (by simp) (by rw [State.enterStandby_fsu, hfsu])

theorem Move.fsu {s t : State} (h : Move s t) : FsuMove s t.csu.op t.fsu := by
  cases h with
  | effect h => exact h.fsu
  | capture => exact .same
  | @field i hop w =>
    by_cases hr : ∃ r, s.fsu.table[i]? = some r ∧ r.fixed.kind ≠ .faultSlot
    · obtain ⟨r, hr, hk⟩ := hr
      exact (FsuMove.written hop hr hk).of_eq (by simp) rfl
    · rw [State.fieldWrite_slot w fun r hr' => by_contra fun hk => hr ⟨r, hr', hk⟩]
      exact .same
  | accept hop h =>
    unfold State.acceptImage
    exact State.enterRunning_move _ (by simpa using h)
  | reject hop v off =>
    unfold State.rejectImage
    dsimp only
    split
    · exact FsuMove.same.of_eq (by simp) (by simp)
    · exact FsuMove.untabled (fun _ => by rw [hop]; rfl) rfl
  | release hr ht =>
    cases ht with
    | loading =>
      exact (FsuMove.untabled (op := .loading) (fun hl => by rw [(hl.releasedBy hr).1]; rfl) rfl).of_eq (by simp)
        (by simp)
    | running hl h => exact State.enterRunning_move _ (by rw [State.takeImage_csu, State.atRelease_csu]; exact h)
  | _ => exact FsuMove.same.of_eq (by simp) (by simp)

/-! ## What changes of a table's rows -/

/-- LIVE or CORRECTED. -/
def Record.current (r : Record) : Prop := r.state = .live ∨ r.state = .corrected

/-- A record with another shown value and, where a recheck sets its state, LIVE for CORRECTED or CORRECTED for LIVE (R8);
nothing is said of the age timer. -/
structure Record.Redrawn (r q : Record) : Prop where
  fixed : q.fixed = r.fixed
  written : q.written = r.written
  count : q.count = r.count
  state : q.state = r.state ∨ (r.fixed.kind.rechecked = true ∧ r.current ∧ q.current)

/-- A row as it was, or a row of this kind redrawn with its age timer as it was. -/
def Kind.row (k : Kind) (r q : Record) : Prop := q = r ∨ (r.fixed.kind = k ∧ r.Redrawn q ∧ q.age = r.age)

/-- The rows of one kind are redrawn, and the others stay. -/
abbrev Kind.redrawn (k : Kind) (old new : List Record) : Prop := List.Forall₂ k.row old new

theorem Record.Redrawn.shown (r : Record) (v : Option Word) : r.Redrawn { r with shown := v } :=
  ⟨rfl, rfl, rfl, .inl rfl⟩

theorem recheckState_cases (r : Record) (x : Word) :
    recheckState r x = r.state ∨ (r.current ∧ (recheckState r x = .live ∨ recheckState r x = .corrected)) := by
  unfold recheckState Record.current
  cases r.state <;> simp only [true_or, or_true, true_and, reduceCtorEq, false_or] <;> split <;> simp

theorem Record.Redrawn.recheck {r : Record} (hk : r.fixed.kind.rechecked = true) (running : Bool) (v : Word) :
    r.Redrawn (r.recheck running v) := by
  refine ⟨rfl, rfl, rfl, ?_⟩
  obtain h | h := recheckState_cases r v
  · exact .inl h
  · exact .inr ⟨hk, h⟩

theorem Record.Redrawn.refreshed (r : Record) (v : Option Word) : r.Redrawn (r.refreshed v) := by
  unfold Record.refreshed
  cases v with
  | none => exact .shown r none
  | some x =>
    refine ⟨rfl, rfl, rfl, ?_⟩
    dsimp only
    split
    next hk =>
      obtain h | h := recheckState_cases r x
      · exact .inl h
      · exact .inr ⟨hk, h⟩
    next => exact .inl rfl

theorem Kind.row.refl (k : Kind) (r : Record) : k.row r r := .inl rfl

theorem retarget_row (running : Bool) (pr : Nat) (r : Record) : Kind.target.row r (retarget running pr r) := by
  unfold retarget
  split
  next hk => exact .inr ⟨hk, .recheck (by rw [hk]; rfl) _ _, rfl⟩
  next => exact .refl _ r

theorem repermit_row (running : Bool) (c : Nat) (r : Record) : Kind.permitted.row r (repermit running c r) := by
  unfold repermit
  split
  next hk => exact .inr ⟨hk, .recheck (by rw [hk]; rfl) _ _, rfl⟩
  next => exact .refl _ r

theorem recheckAspect_row (n : Nat) (r : Record) : Kind.aspect.row r (recheckAspect n r) := by
  unfold recheckAspect
  split
  next hk => exact .inr ⟨hk, .recheck (by rw [hk]; rfl) _ _, rfl⟩
  next => exact .refl _ r

theorem recheckActual_row (c : SpeedCopy) (r : Record) : Kind.actual.row r (recheckActual c r) := by
  unfold recheckActual
  split
  next hk =>
    have hr : r.fixed.kind.rechecked = true := by rw [hk]; rfl
    split
    · exact .inr ⟨hk, .shown r _, rfl⟩
    · exact .inr ⟨hk, .shown r _, rfl⟩
    all_goals
      split
      · split
        · exact .inr ⟨hk, .recheck hr _ _, rfl⟩
        · exact .inr ⟨hk, .recheck hr _ _, rfl⟩
      · exact .refl _ r
  next => exact .refl _ r

theorem relamp_row (test : Bool) (fns : LampValues) (r : Record) : Kind.lamps.row r (relamp test fns r) := by
  unfold relamp
  split
  next hk => exact .inr ⟨hk, .shown r _, rfl⟩
  next => exact .refl _ r

theorem forall₂_map {α : Type} {R : α → α → Prop} {f : α → α} (h : ∀ a, R a (f a)) (l : List α) :
    List.Forall₂ R l (l.map f) := by
  rw [List.forall₂_map_right_iff, List.forall₂_same]
  exact fun a _ => h a

theorem forall₂_mapIdx {α : Type} {R : α → α → Prop} {f : Nat → α → α} (h : ∀ i a, R a (f i a)) (l : List α) :
    List.Forall₂ R l (l.mapIdx f) := by
  induction l generalizing f with
  | nil => exact .nil
  | cons a l ih =>
    rw [List.mapIdx_cons]
    exact .cons (h 0 a) (ih fun i => h (i + 1))

theorem forall₂_set {α : Type} {R : α → α → Prop} (hrefl : ∀ a, R a a) {l : List α} {i : Nat} {a b : α}
    (ha : l[i]? = some a) (h : R a b) : List.Forall₂ R l (l.set i b) := by
  induction l generalizing i with
  | nil => simp at ha
  | cons x l ih =>
    cases i with
    | zero =>
      obtain rfl : x = a := by simpa using ha
      exact .cons h (List.forall₂_same.mpr fun a _ => hrefl a)
    | succ i => exact .cons (hrefl x) (ih (by simpa using ha))

/-- A row of the new list comes of a row of the old one. -/
theorem forall₂_mem {α : Type} {R : α → α → Prop} {l m : List α} (h : List.Forall₂ R l m) {b : α} (hb : b ∈ m) :
    ∃ a ∈ l, R a b := by
  induction h with
  | nil => simp at hb
  | @cons a c l m hr _ ih =>
    obtain rfl | hb := List.mem_cons.mp hb
    · exact ⟨a, by simp, hr⟩
    · obtain ⟨a', ha, hr⟩ := ih hb
      exact ⟨a', List.mem_cons_of_mem _ ha, hr⟩

theorem forall₂_map_eq {α β : Type} {g : α → β} {l m : List α} (h : List.Forall₂ (fun a b => g b = g a) l m) :
    m.map g = l.map g := by
  induction h with
  | nil => rfl
  | cons hr _ ih => rw [List.map_cons, List.map_cons, hr, ih]

theorem Kind.row.fixed {k : Kind} {r q : Record} (h : k.row r q) : q.fixed = r.fixed := by
  obtain rfl | ⟨-, h, -⟩ := h
  · rfl
  · exact h.fixed

theorem Kind.row.toRedrawn {k : Kind} {r q : Record} (h : k.row r q) : r.Redrawn q := by
  obtain rfl | ⟨-, h, -⟩ := h
  · exact .shown q q.shown
  · exact h

/-- A row of another kind stays. -/
theorem Kind.row.eq {k : Kind} {r q : Record} (h : k.row r q) (hk : r.fixed.kind ≠ k) : q = r :=
  h.resolve_right fun h => hk h.1

theorem Kind.redrawn.refl (k : Kind) (t : List Record) : k.redrawn t t :=
  List.forall₂_same.mpr fun r _ => .refl k r

theorem Kind.redrawn.fixed {k : Kind} {old new : List Record} (h : k.redrawn old new) :
    new.map Record.fixed = old.map Record.fixed :=
  forall₂_map_eq (h.imp fun _ _ => Kind.row.fixed)

theorem Fsu.speeded_table (f : Fsu) (running : Bool) (c : SpeedCopy) :
    Kind.actual.redrawn f.table (f.speeded running c).table := by
  unfold Fsu.speeded
  dsimp only
  split
  · exact forall₂_map (recheckActual_row c) _
  · exact .refl _ _

theorem Fsu.relit_table (f : Fsu) (running : Bool) (fn : LampFn) (b : Bool) :
    Kind.lamps.redrawn f.table (f.relit running fn b).table := by
  unfold Fsu.relit
  dsimp only
  split
  · refine forall₂_map (fun r => ?_) _
    split
    · exact relamp_row _ _ r
    · exact .refl _ r
  · exact .refl _ _

theorem Fsu.lampTested_table (f : Fsu) (running b : Bool) :
    Kind.lamps.redrawn f.table (f.lampTested running b).table := by
  unfold Fsu.lampTested
  dsimp only
  split
  · exact forall₂_map (relamp_row _ _) _
  · exact .refl _ _

theorem showSlots_table (es : List Entry) (t : List Record) : Kind.faultSlot.redrawn t (showSlots es t) := by
  refine forall₂_mapIdx (fun i r => ?_) t
  split
  next hk => exact .inr ⟨hk, .shown r _, rfl⟩
  next => exact .refl _ r

theorem Fsu.withPr_table (f : Fsu) (running : Bool) : Kind.target.redrawn f.table (f.withPr running).table := by
  unfold Fsu.withPr
  dsimp only
  split
  · exact .refl _ _
  · exact forall₂_map (retarget_row _ _) _

/-- The FSU with the number of a displayed aspect shown, before its ceiling is compared (R92). -/
def Fsu.aspectShown (f : Fsu) (running : Bool) (n : Nat) : Fsu :=
  { f with table := if running then f.table.map (recheckAspect n) else f.table }

theorem Fsu.delivered_eq (f : Fsu) (running : Bool) (x : Nat × Nat) :
    f.delivered running x = if f.ceiling = some x.2 then f.aspectShown running x.1
      else (f.aspectShown running x.1).ceilingChange running x.2 := by
  unfold Fsu.delivered Fsu.aspectShown
  cases running <;> rfl

theorem Fsu.aspectShown_table (f : Fsu) (running : Bool) (n : Nat) :
    Kind.aspect.redrawn f.table (f.aspectShown running n).table := by
  unfold Fsu.aspectShown
  dsimp only
  split
  · exact forall₂_map (recheckAspect_row _) _
  · exact .refl _ _

/-- The FSU with a new ceiling and PERMITTED against it, before PR is derived (R68). -/
def Fsu.ceiled (f : Fsu) (running : Bool) (c : Nat) : Fsu :=
  { f with ceiling := some c, table := f.table.map (repermit running c) }

theorem Fsu.ceilingChange_eq (f : Fsu) (running : Bool) (c : Nat) :
    f.ceilingChange running c = (f.ceiled running c).withPr running := rfl

theorem Fsu.ceiled_table (f : Fsu) (running : Bool) (c : Nat) :
    Kind.permitted.redrawn f.table (f.ceiled running c).table := forall₂_map (repermit_row _ _) _

/-- A predicate of the FSU that the parts of a delivery keep, a delivery keeps. -/
theorem Fsu.delivered_ind {P : Fsu → Prop} {f : Fsu} {running : Bool} {x : Nat × Nat}
    (aspect : P (f.aspectShown running x.1))
    (change : P (f.aspectShown running x.1) → P (((f.aspectShown running x.1).ceiled running x.2).withPr running)) :
    P (f.delivered running x) := by
  rw [Fsu.delivered_eq]
  split
  · exact aspect
  · exact change aspect

/-! ## The field table (R1–R4) -/

/-- The law of the table speaks of the static parts alone. -/
theorem TableLaw.congr {old new : List Record} (hl : TableLaw old)
    (h : new.map Record.fixed = old.map Record.fixed) : TableLaw new := by
  have hlen : new.length = old.length := by simpa using congrArg List.length h
  have hcount : ∀ k, new.countP (fun r => r.fixed.kind == k) = old.countP (fun r => r.fixed.kind == k) := fun k => by
    have := congrArg (List.countP fun x : FieldStatic => x.kind == k) h
    rwa [List.countP_map, List.countP_map] at this
  have hmem : ∀ P : FieldStatic → Prop, (∀ r ∈ old, P r.fixed) → ∀ r ∈ new, P r.fixed := fun P hP r hr => by
    have hr := List.mem_map_of_mem (f := Record.fixed) hr
    rw [h] at hr
    obtain ⟨q, hq, hqr⟩ := List.mem_map.mp hr
    exact hqr ▸ hP q hq
  exact
    { size := hlen.trans_le hl.size
      area := hmem (fun x => x.addr.toNat < 0x1E00) hl.area
      distinct := by
        have := hl.distinct
        rw [← List.pairwise_map (f := Record.fixed) (R := fun x y => x.addr ≠ y.addr)] at this ⊢
        exact h ▸ this
      single := fun k hk => (hcount k).trans_le (hl.single k hk)
      lamps := (hcount _).trans_le hl.lamps
      slots := (hcount _).trans_le hl.slots
      slotPeriod := hmem (fun x => x.kind = .faultSlot → x.period = 0) hl.slotPeriod
      period := hmem (fun x => x.period ≤ 25500 ∧ x.period % 100 = 0) hl.period
      tolerance := hmem (fun x => x.kind = .actual → 5 ≤ x.tolerance ∧ x.tolerance ≤ 100) hl.tolerance
      lampBlank := hmem (fun x => x.kind = .lamps → x.blank = 0) hl.lampBlank
      pairs := hmem (fun x => x.lamps.length ≤ 4 ∧ (∀ p ∈ x.lamps, p.bit < 16) ∧
        x.lamps.Pairwise fun p q => p.bit ≠ q.bit) hl.pairs }

theorem TableLaw.nil : TableLaw [] := by constructor <;> simp

theorem map_set_fixed {t : List Record} {i : Nat} {r q : Record} (hr : t[i]? = some r) (h : q.fixed = r.fixed) :
    (t.set i q).map Record.fixed = t.map Record.fixed :=
  forall₂_map_eq (forall₂_set (R := fun a b : Record => b.fixed = a.fixed) (fun _ => rfl) hr h)

theorem Fsu.withRecord_fixed {f : Fsu} {i : Nat} {r q : Record} (hr : f.table[i]? = some r) (h : q.fixed = r.fixed)
    (running : Bool) (k : Kind) : (f.withRecord running i k q).table.map Record.fixed = f.table.map Record.fixed := by
  unfold Fsu.withRecord
  split
  · exact (Fsu.withPr_table _ _).fixed.trans (map_set_fixed hr h)
  · exact map_set_fixed hr h

theorem TableLaw.parked {f : Fsu} (hl : TableLaw f.table) : TableLaw f.parked.table :=
  hl.congr (by simp [Fsu.parked, Function.comp_def])

theorem TableLaw.entered {v : State} (h : checkImage v.csu.shadow = .pass) : TableLaw v.fsuEntry.fsu.table := by
  refine (tableLaw_of_pass h).congr ?_
  rw [State.fsuEntry_fsu]
  exact forall₂_map_eq (forall₂_mapIdx (by exact fun _ _ => rfl) _)

theorem FsuMove.tableLaw {s : State} {op : OpState} {f : Fsu} (h : FsuMove s op f) (hl : TableLaw s.fsu.table) :
    TableLaw f.table := by
  cases h with
  | same | untabled => exact hl
  | reset => exact .nil
  | entered h => exact .entered h
  | enteredStandby h => exact (TableLaw.entered h).parked
  | parked => exact hl.parked
  | returned hv =>
    rw [State.fsuReturn_fsu, hv]
    exact hl.congr (forall₂_map_eq (forall₂_mapIdx (fun i r => (Record.Redrawn.refreshed r _).fixed) _))
  | speed => exact hl.congr (Fsu.speeded_table ..).fixed
  | delivered =>
    refine Fsu.delivered_ind (P := fun f => TableLaw f.table) (hl.congr (Fsu.aspectShown_table ..).fixed) fun h => ?_
    exact (h.congr (Fsu.ceiled_table ..).fixed).congr (Fsu.withPr_table ..).fixed
  | slots => exact hl.congr (showSlots_table ..).fixed
  | relit => exact hl.congr (Fsu.relit_table ..).fixed
  | lampTested => exact hl.congr (Fsu.lampTested_table ..).fixed
  | written hop hr hk =>
    rw [State.fieldWrite_fsu _ hr hk]
    dsimp only
    split <;> exact hl.congr (Fsu.withRecord_fixed hr (by rfl) _ _)
  | stale hv hop hr =>
    rw [State.goStale_fsu, hv]
    exact hl.congr (Fsu.withRecord_fixed hr (by rfl) _ _)
  | ageStopped hop hr => exact hl.congr (map_set_fixed hr rfl)

end Sys2Proof.Machine
end

section
/-! SUPPORT and PROOF. What every step keeps of the runtime part of the records, of the limits, and of the lamp fields
(second part of O59). -/

namespace Sys2Proof.Machine

/-! ## The runtime part of the records (R5, R7, R11, R133, R135, R141) -/

theorem Record.Redrawn.current {r q : Record} (h : r.Redrawn q) : q.current ↔ r.current := by
  obtain hs | ⟨-, hr, hq⟩ := h.state
  · unfold Record.current
    rw [hs]
  · exact ⟨fun _ => hr, fun _ => hq⟩

/-- A redrawn record enters and leaves neither UNSET nor STALE. -/
theorem Record.Redrawn.state_eq {r q : Record} (h : r.Redrawn q) {st : FieldState} (hst : st = .unset ∨ st = .stale) :
    q.state = st ↔ r.state = st := by
  obtain hs | ⟨-, hr, hq⟩ := h.state
  · rw [hs]
  · obtain rfl | rfl := hst <;> obtain hr | hr := hr <;> obtain hq | hq := hq <;> simp [hr, hq]

/-- A redrawn record keeps its law, where its age timer is as the operating state has it. -/
theorem RecordLaw.redrawn {op op' : OpState} {r q : Record} (hl : RecordLaw op r) (h : r.Redrawn q)
    (timer : q.age ≠ none → 0 < r.fixed.period ∧ op' = .running)
    (supervised : op' = .running → 0 < r.fixed.period → q.state ≠ .stale → q.age ≠ none) : RecordLaw op' q := by
  refine ⟨fun hs => ?_, fun hk hc => ?_, fun hk => ?_, ?_, fun hk => ?_, ?_, ?_⟩
  · rw [h.written]
    exact hl.unsetOnly ((h.state_eq (.inl rfl)).mp hs)
  · rw [h.written]
    exact hl.writtenHas (h.fixed ▸ hk) (h.current.mp hc)
  · rw [h.fixed] at hk
    obtain hs | ⟨hr, -, -⟩ := h.state
    · rw [hs, h.written, h.count]
      exact hl.slot hk
    · rw [hk] at hr
      nomatch hr
  · rw [h.count]
    exact hl.count
  · rw [h.fixed] at hk
    obtain hs | ⟨hr, -, -⟩ := h.state
    · rw [hs, h.count]
      exact hl.uncorrected hk
    · obtain hk | hk := hk <;> rw [hk] at hr <;> nomatch hr
  · rw [h.fixed]
    exact timer
  · rw [h.fixed]
    exact supervised

theorem RecordLaw.row {op : OpState} {k : Kind} {r q : Record} (hl : RecordLaw op r) (h : k.row r q) :
    RecordLaw op q := by
  obtain rfl | ⟨-, h, hage⟩ := h
  · exact hl
  · refine hl.redrawn h (hage ▸ hl.timer) fun ho hp hs => ?_
    rw [hage]
    exact hl.supervised ho hp fun h' => hs ((h.state_eq (.inr rfl)).mpr h')

/-- The silent condition turns on which records are supervised and which are STALE. -/
theorem silentHolds_congr {old new : List Record}
    (h : List.Forall₂ (fun r q => q.fixed.period = r.fixed.period ∧ (q.state = .stale ↔ r.state = .stale)) old new) :
    silentHolds new = silentHolds old := by
  have hmap : new.map (fun r => (r.fixed.period, r.state == .stale)) =
      old.map (fun r => (r.fixed.period, r.state == .stale)) := by
    refine forall₂_map_eq (h.imp fun r q hrq => ?_)
    rw [hrq.1]
    congr 1
    rw [Bool.eq_iff_iff]
    simpa using hrq.2
  have hp := congrArg (fun l : List (Nat × Bool) => l.any (fun x => decide (0 < x.1)) &&
    l.all fun x => decide (x.1 = 0) || x.2) hmap
  simpa [silentHolds, Function.comp_def] using hp

theorem silentHolds_set {t : List Record} {i : Nat} {r q : Record} (hr : t[i]? = some r)
    (hp : q.fixed.period = r.fixed.period) (hs : q.state = .stale ↔ r.state = .stale) :
    silentHolds (t.set i q) = silentHolds t :=
  silentHolds_congr (forall₂_set (fun _ => ⟨rfl, Iff.rfl⟩) hr ⟨hp, hs⟩)

theorem Kind.redrawn.silent {k : Kind} {old new : List Record} (h : k.redrawn old new) :
    silentHolds new = silentHolds old := by
  refine silentHolds_congr (h.imp fun r q hrq => ⟨by rw [hrq.fixed], ?_⟩)
  obtain rfl | ⟨-, h, -⟩ := hrq
  · rfl
  · exact h.state_eq (.inr rfl)

/-- Rows of a kind are redrawn, and the silent flag stays. -/
theorem SupervisionLaw.redrawn {op : OpState} {f g : Fsu} {k : Kind} (hl : SupervisionLaw op f)
    (h : k.redrawn f.table g.table) (hs : g.silent = f.silent) : SupervisionLaw op g := by
  refine ⟨fun hop => ?_, fun q hq => ?_, ?_⟩
  · rw [hl.table hop] at h
    exact List.forall₂_nil_left_iff.mp h
  · obtain ⟨r, hr, hrq⟩ := forall₂_mem h hq
    exact (hl.records r hr).row hrq
  · rw [hs, hl.silent, h.silent]

@[simp] theorem Fsu.withPr_silent (f : Fsu) (b : Bool) : (f.withPr b).silent = f.silent := by
  unfold Fsu.withPr
  dsimp only
  split <;> rfl

theorem SupervisionLaw.withPr {op : OpState} {f : Fsu} (hl : SupervisionLaw op f) (b : Bool) :
    SupervisionLaw op (f.withPr b) := hl.redrawn (f.withPr_table b) (f.withPr_silent b)

/-- The records keep their law when one of them takes a runtime part that keeps it. -/
theorem SupervisionLaw.records_set {op : OpState} {f : Fsu} (hl : SupervisionLaw op f) {i : Nat} {q : Record}
    (hq : RecordLaw op q) : ∀ r ∈ f.table.set i q, RecordLaw op r := fun r hr => by
  obtain hr | rfl := List.mem_or_eq_of_mem_set hr
  · exact hl.records r hr
  · exact hq

theorem Fsu.withRecord_records {op : OpState} {f : Fsu} (hl : SupervisionLaw op f) {i : Nat} {q : Record}
    (hq : RecordLaw op q) (b : Bool) (k : Kind) : ∀ r ∈ (f.withRecord b i k q).table, RecordLaw op r := by
  have hset := hl.records_set (i := i) hq
  unfold Fsu.withRecord
  split
  · intro r hr
    obtain ⟨r', hr', hrow⟩ := forall₂_mem (Fsu.withPr_table _ b) hr
    exact (hset r' hr').row hrow
  · exact hset

theorem Fsu.withRecord_silentHolds (f : Fsu) (b : Bool) (i : Nat) (k : Kind) (q : Record) :
    silentHolds (f.withRecord b i k q).table = silentHolds (f.table.set i q) := by
  unfold Fsu.withRecord
  split
  · exact (Fsu.withPr_table _ b).silent
  · rfl

@[simp] theorem Fsu.withRecord_silent (f : Fsu) (b : Bool) (i : Nat) (k : Kind) (q : Record) :
    (f.withRecord b i k q).silent = f.silent := by
  unfold Fsu.withRecord
  split <;> simp

theorem countAfter_le (n : Nat) (c : Bool) : countAfter n c ≤ 8 := by
  unfold countAfter
  split
  · exact Nat.min_le_left _ _
  · simp

/-- LAMPS and WATCHED writes are never corrections (R27, R30). -/
theorem State.judge_uncorrected {s : State} {r : Record} (hk : r.fixed.kind = .lamps ∨ r.fixed.kind = .watched)
    (w : Word) : (s.judge r w).corrected = false := by
  unfold State.judge
  obtain hk | hk := hk <;> rw [hk] <;> rfl

/-- A recorded write keeps the law of its record (R7, R11, R24, R25). -/
theorem RecordLaw.written {s : State} {r : Record} (hl : RecordLaw s.csu.op r) (hk : r.fixed.kind ≠ .faultSlot)
    (w : Word) : RecordLaw s.csu.op (s.writtenRecord r w (s.judge r w)) := by
  unfold State.writtenRecord
  refine ⟨fun h => ?_, fun _ _ => nofun, fun h => absurd h hk, countAfter_le _ _, fun h => ?_, fun h => ?_,
    fun hop hp _ => ?_⟩
  · dsimp only at h
    split at h <;> nomatch h
  · have hj := State.judge_uncorrected (s := s) (r := r) h w
    rw [hj]
    exact ⟨nofun, rfl⟩
  · dsimp only at h
    split at h
    next hc => exact ⟨hc.2, hc.1⟩
    next => exact hl.timer h
  · dsimp only at hp ⊢
    rw [if_pos ⟨hop, hp⟩]
    nofun

/-- A record that goes STALE keeps its law (R135). -/
theorem RecordLaw.stale {op : OpState} {r : Record} (hl : RecordLaw op r) (hk : r.fixed.kind ≠ .faultSlot)
    (v : Option Word) : RecordLaw op { r with state := .stale, age := none, shown := v } :=
  ⟨nofun, nofun, fun h => absurd h hk, hl.count, fun h => ⟨nofun, (hl.uncorrected h).2⟩, fun h => absurd rfl h,
    fun _ _ h => absurd rfl h⟩

theorem SupervisionLaw.parked {op : OpState} {f : Fsu} (hl : SupervisionLaw op f) : SupervisionLaw .standby f.parked := by
  refine ⟨nofun, fun q hq => ?_, ?_⟩
  · obtain ⟨r, hr, rfl⟩ := List.mem_map.mp hq
    exact (hl.records r hr).redrawn ⟨rfl, rfl, rfl, .inl rfl⟩ (fun h => absurd rfl h) nofun
  · show f.silent = _
    rw [hl.silent]
    exact (silentHolds_congr (forall₂_map (fun r => ⟨rfl, Iff.rfl⟩) _)).symm

theorem SupervisionLaw.returned {v : State} (hl : SupervisionLaw .standby v.fsu) :
    SupervisionLaw .running v.fsuReturn.fsu := by
  rw [State.fsuReturn_fsu]
  have hrow : ∀ (r : Record) x, r.Redrawn { r.refreshed x with age := v.fullPeriod r } := fun r x => by
    have h := Record.Redrawn.refreshed r x
    exact ⟨h.fixed, h.written, h.count, h.state⟩
  refine ⟨nofun, fun q hq => ?_, ?_⟩
  · obtain ⟨r, hr, x, rfl⟩ := forall₂_mem (R := fun r q => ∃ x, q = { r.refreshed x with age := v.fullPeriod r })
      (forall₂_mapIdx (fun i r => ⟨_, rfl⟩) _) hq
    refine (hl.records r hr).redrawn (hrow r x) (fun h => ?_) fun _ hp _ => ?_
    · dsimp only [State.fullPeriod] at h
      split at h
      next hp => exact ⟨hp, rfl⟩
      next => exact absurd rfl h
    · dsimp only [State.fullPeriod]
      rw [if_pos hp]
      nofun
  · dsimp only
    rw [hl.silent]
    refine (silentHolds_congr (forall₂_mapIdx (fun i r => ?_) _)).symm
    exact ⟨by rw [(hrow r _).fixed], (hrow r _).state_eq (.inr rfl)⟩

/-- A record as R6 makes it keeps the law of RUNNING. -/
theorem State.newRecord_law (v : State) (i : Nat) (x : Option Word) :
    RecordLaw .running { v.newRecord i with shown := x } := by
  unfold State.newRecord
  refine ⟨fun _ => rfl, fun hk h => ?_, fun hk => ?_, Nat.zero_le 8, fun hk => ?_, fun h => ?_, fun _ hp _ => ?_⟩
  · dsimp only at hk h
    rw [if_neg hk] at h
    obtain h | h := h <;> nomatch h
  · exact ⟨if_pos hk, rfl, rfl⟩
  · refine ⟨?_, rfl⟩
    dsimp only
    split <;> nofun
  · dsimp only at h
    split at h
    next hp => exact ⟨hp, rfl⟩
    next => exact absurd rfl h
  · dsimp only at hp ⊢
    rw [if_pos hp]
    nofun

/-- The rows of a RUNNING entry. -/
theorem State.mem_fsuEntry {v : State} {r : Record} (h : r ∈ v.fsuEntry.fsu.table) :
    ∃ i j, r = { v.newRecord i with shown := v.freshShown v.blankFsu v.blankFsu.table j (v.newRecord i) } := by
  rw [State.fsuEntry_fsu] at h
  obtain ⟨q, hq, j, rfl⟩ := forall₂_mem (R := fun q r : Record =>
      ∃ j, r = { q with shown := v.freshShown v.blankFsu v.blankFsu.table j q })
    (forall₂_mapIdx (fun i r => ⟨_, rfl⟩) _) h
  obtain ⟨i, rfl⟩ := State.mem_blankFsu hq
  exact ⟨i, j, rfl⟩

/-- Where no record is STALE the part is not silent (R141). -/
theorem silentHolds_of_fresh {t : List Record} (h : ∀ r ∈ t, r.state ≠ .stale) : silentHolds t = false := by
  unfold silentHolds
  rw [Bool.and_eq_false_iff]
  by_cases hs : ∃ r ∈ t, 0 < r.fixed.period
  · obtain ⟨r, hr, hp⟩ := hs
    refine .inr (List.all_eq_false.mpr ⟨r, hr, ?_⟩)
    simp [h r hr, Nat.ne_of_gt hp]
  · exact .inl (by simpa using hs)

theorem SupervisionLaw.entered (v : State) : SupervisionLaw .running v.fsuEntry.fsu := by
  refine ⟨nofun, fun r hr => ?_, ?_⟩
  · obtain ⟨i, j, rfl⟩ := State.mem_fsuEntry hr
    exact v.newRecord_law i _
  · have hfresh : ∀ r ∈ v.fsuEntry.fsu.table, r.state ≠ .stale := fun r hr => by
      obtain ⟨i, j, rfl⟩ := State.mem_fsuEntry hr
      unfold State.newRecord
      dsimp only
      split <;> nofun
    rw [silentHolds_of_fresh hfresh, State.fsuEntry_fsu]
    rfl

theorem Fsu.delivered_silent (f : Fsu) (b : Bool) (x : Nat × Nat) : (f.delivered b x).silent = f.silent :=
  Fsu.delivered_ind (P := fun g => g.silent = f.silent) rfl fun _ => Fsu.withPr_silent _ _

theorem FsuMove.supervisionLaw {s : State} {op : OpState} {f : Fsu} (h : FsuMove s op f) (hs : StateLaw s.csu)
    (ht : TableLaw s.fsu.table) (hl : SupervisionLaw s.csu.op s.fsu) : SupervisionLaw op f := by
  cases h with
  | same => exact hl
  | untabled h hop =>
    have hnil := hl.table (h hs)
    exact ⟨fun _ => hnil, by rw [hnil]; nofun, hl.silent⟩
  | reset => exact ⟨fun _ => rfl, nofun, rfl⟩
  | entered => exact .entered _
  | enteredStandby => exact (SupervisionLaw.entered _).parked
  | parked => exact hl.parked
  | returned hv hop =>
    refine .returned ?_
    rw [hv, ← hop]
    exact hl
  | speed => exact hl.redrawn (Fsu.speeded_table ..) rfl
  | delivered =>
    refine Fsu.delivered_ind (P := SupervisionLaw s.csu.op) (hl.redrawn (Fsu.aspectShown_table ..) rfl) fun h => ?_
    exact (h.redrawn (Fsu.ceiled_table ..) rfl).withPr _
  | slots => exact hl.redrawn (showSlots_table ..) rfl
  | relit => exact hl.redrawn (Fsu.relit_table ..) rfl
  | lampTested => exact hl.redrawn (Fsu.lampTested_table ..) rfl
  | @written i r w hop hr hk =>
    have hrec := (hl.records r (List.mem_of_getElem? hr)).written hk w
    rw [State.fieldWrite_fsu _ hr hk]
    dsimp only
    have htable : s.csu.op.hasTable = false → ∀ t : List Record, t = [] := fun h => absurd (h.symm.trans hop) nofun
    split
    next => exact ⟨fun h => htable h _, Fsu.withRecord_records hl hrec _ _, rfl⟩
    next hst =>
      refine ⟨fun h => htable h _, Fsu.withRecord_records hl hrec _ _, ?_⟩
      rw [Fsu.withRecord_silent, hl.silent, Fsu.withRecord_silentHolds]
      refine (silentHolds_set hr (by rfl) ?_).symm
      refine iff_of_false (fun h => ?_) hst
      simp only [State.writtenRecord] at h
      split at h <;> nomatch h
  | @stale v i r hv hop hr hst hage =>
    have hrl := hl.records r (List.mem_of_getElem? hr)
    have hk : r.fixed.kind ≠ .faultSlot := fun hk => by
      have := ht.slotPeriod r (List.mem_of_getElem? hr) hk
      exact absurd (hrl.timer hage).1 (by omega)
    rw [State.goStale_fsu, hv]
    refine ⟨fun h => ?_, Fsu.withRecord_records hl (hrl.stale hk _) _ _, rfl⟩
    rw [hop] at h
    nomatch h
  | @ageStopped i r hop hr hst =>
    have hrl := hl.records r (List.mem_of_getElem? hr)
    have hq : RecordLaw s.csu.op { r with age := none } :=
      hrl.redrawn ⟨rfl, rfl, rfl, .inl rfl⟩ (fun h => absurd rfl h) fun _ _ h => absurd hst h
    refine ⟨fun h => ?_, hl.records_set hq, ?_⟩
    · rw [hop] at h
      nomatch h
    · rw [hl.silent]
      exact (silentHolds_set hr (by rfl) (by exact Iff.rfl)).symm

end Sys2Proof.Machine
end

section
/-! SUPPORT and PROOF. What every step keeps of the limits of chapter 4 and of the lamp and watched fields (third part of
O59). -/

namespace Sys2Proof.Machine

/-! ## The limits (R65–R67) -/

/-- A record shows a value of at most a limit. -/
def Record.within (r : Record) (limit : Nat) : Prop := ∃ v, r.shown = some v ∧ v.toNat ≤ limit

/-- A TARGET record shows its written value: it is LIVE, CORRECTED, or STALE and held (R67). -/
def Record.holds (r : Record) : Prop :=
  r.state = .live ∨ r.state = .corrected ∨ (r.state = .stale ∧ r.fixed.action = .hold)

theorem wordOf_toNat_le (n : Nat) : (wordOf n).toNat ≤ n := by
  simpa [wordOf] using Nat.mod_le n _

theorem wordOf_min_le (w : Word) (n : Nat) : (wordOf (min w.toNat n)).toNat ≤ n :=
  (wordOf_toNat_le _).trans (Nat.min_le_right _ _)

theorem permittedShown_le {r : Record} (h : r.state ≠ .unset) (c : Nat) : (permittedShown c r).toNat ≤ c := by
  unfold permittedShown
  split
  · contradiction
  · exact wordOf_toNat_le c
  · exact wordOf_min_le _ c
  · exact wordOf_toNat_le c

theorem targetShown_le {r : Record} (h : r.holds) (hw : r.written ≠ none) (pr : Nat) :
    (targetShown pr r).toNat ≤ pr := by
  unfold targetShown
  obtain ⟨w, hw⟩ := Option.ne_none_iff_exists'.mp hw
  rw [hw]
  obtain hs | hs | ⟨hs, ha⟩ := h
  · rw [hs]
    exact wordOf_min_le w pr
  · rw [hs]
    exact wordOf_min_le w pr
  · rw [hs]
    dsimp only
    rw [if_pos ha]
    exact wordOf_min_le w pr

/-- A limited write shows at most its limit (R64, R67). -/
theorem judgeLimit_le (limit : Nat) (w : Word) : ∃ x, (judgeLimit limit w).word = some x ∧ x.toNat ≤ limit := by
  unfold judgeLimit
  split
  next h => exact ⟨w, rfl, h⟩
  next => exact ⟨_, rfl, wordOf_toNat_le limit⟩

theorem Record.Redrawn.holds {r q : Record} (h : r.Redrawn q) : q.holds ↔ r.holds := by
  have hc := h.current
  have hs := h.state_eq (.inr rfl)
  unfold Record.current at hc
  unfold Record.holds
  rw [← or_assoc, ← or_assoc, hc, hs, h.fixed]

/-- PR turns on the PERMITTED rows: on whether each is current, and on its written value (R65). -/
theorem derivePr_congr {old new : List Record} (h : List.Forall₂ (fun r q => q.fixed.kind = r.fixed.kind ∧
      (r.fixed.kind = .permitted → q.written = r.written ∧ (q.current ↔ r.current))) old new) (c : Nat) :
    derivePr new c = derivePr old c := by
  unfold derivePr
  induction h with
  | nil => rfl
  | @cons r q old new hrq _ ih =>
    obtain ⟨hk, hp⟩ := hrq
    rw [List.find?_cons, List.find?_cons, hk]
    by_cases hpk : r.fixed.kind = .permitted
    · obtain ⟨hw, hc⟩ := hp hpk
      simp only [hpk, beq_self_eq_true, hw]
      unfold Record.current at hc
      cases hr : r.state <;> cases hq : q.state <;> simp [hr, hq] at hc <;> cases r.written <;> rfl
    · rw [show (r.fixed.kind == Kind.permitted) = false by simpa using hpk]
      exact ih

theorem Record.Redrawn.reference {r q : Record} (h : r.Redrawn q) : q.fixed.kind = r.fixed.kind ∧
    (r.fixed.kind = .permitted → q.written = r.written ∧ (q.current ↔ r.current)) :=
  ⟨by rw [h.fixed], fun _ => ⟨h.written, h.current⟩⟩

theorem Kind.row.reference {k : Kind} {r q : Record} (h : k.row r q) : q.fixed.kind = r.fixed.kind ∧
    (r.fixed.kind = .permitted → q.written = r.written ∧ (q.current ↔ r.current)) := by
  obtain rfl | ⟨-, h, -⟩ := h
  · exact ⟨rfl, fun _ => ⟨rfl, Iff.rfl⟩⟩
  · exact h.reference

theorem Kind.redrawn.derivePr {k : Kind} {old new : List Record} (h : k.redrawn old new) (c : Nat) :
    derivePr new c = derivePr old c := derivePr_congr (h.imp fun _ _ => Kind.row.reference) c

/-- Without a current PERMITTED record PR is C (R65). -/
theorem derivePr_of_fresh {t : List Record} (h : ∀ r ∈ t, r.fixed.kind = .permitted → ¬ r.current) (c : Nat) :
    derivePr t c = c := by
  unfold derivePr
  cases hf : t.find? fun r => r.fixed.kind == .permitted with
  | none => rfl
  | some r =>
    have hr := h r (List.mem_of_find?_eq_some hf) (by simpa using List.find?_some hf)
    unfold Record.current at hr
    dsimp only
    split
    · exact absurd (.inl ‹_›) hr
    · exact absurd (.inr ‹_›) hr
    · rfl

/-- Rows of a kind without a limit are redrawn. -/
theorem CeilingLaw.redrawn {op : OpState} {f g : Fsu} {k : Kind} (hl : CeilingLaw op f) (hp : k ≠ .permitted)
    (ht : k ≠ .target) (h : k.redrawn f.table g.table) (hc : g.ceiling = f.ceiling) (hpr : g.pr = f.pr) :
    CeilingLaw op g := by
  have hc' : g.c = f.c := by unfold Fsu.c; rw [hc]
  have hr' : g.reference = f.reference := by unfold Fsu.reference; rw [hpr]
  refine ⟨fun hop => ?_, fun hop q hq hk hs => ?_, fun hop q hq hk hs hw => ?_⟩
  · rw [hpr, hc', h.derivePr]
    exact hl.reference hop
  · obtain ⟨r, hr, hrow⟩ := forall₂_mem h hq
    obtain rfl := hrow.eq fun hk' => hp (hk'.symm.trans (hrow.fixed ▸ hk))
    rw [hc']
    exact hl.permitted hop q hr hk hs
  · obtain ⟨r, hr, hrow⟩ := forall₂_mem h hq
    obtain rfl := hrow.eq fun hk' => ht (hk'.symm.trans (hrow.fixed ▸ hk))
    rw [hr']
    exact hl.target hop q hr hk hs hw

theorem CeilingLaw.outside {op : OpState} {f : Fsu} (hop : op.hasTable = false) : CeilingLaw op f :=
  have hrun : op ≠ .running := by
    rintro rfl
    nomatch hop
  ⟨fun h => absurd (hop.symm.trans h) nofun, fun h => absurd h hrun, fun h => absurd h hrun⟩

@[simp] theorem Fsu.withPr_c (f : Fsu) (b : Bool) : (f.withPr b).c = f.c := by
  unfold Fsu.withPr
  dsimp only
  split <;> rfl

/-- PR derived anew, with TARGET against it, keeps what PERMITTED and TARGET show within their limits (R65, R67). -/
theorem CeilingLaw.withPr {op : OpState} {f : Fsu}
    (permitted : op = .running → ∀ r ∈ f.table, r.fixed.kind = .permitted → r.state ≠ .unset → r.within f.c)
    (target : op = .running → ∀ r ∈ f.table, r.fixed.kind = .target → r.holds → r.written ≠ none →
      r.within f.reference) : CeilingLaw op (f.withPr (decide (op = .running))) := by
  have hd := (f.withPr_table (decide (op = .running))).derivePr f.c
  refine ⟨fun _ => ?_, fun hop q hq hk hs => ?_, fun hop q hq hk hs hw => ?_⟩
  · rw [Fsu.withPr_c, hd]
    unfold Fsu.withPr
    dsimp only
    split
    next h => exact h
    next => rfl
  · obtain ⟨r, hr, hrow⟩ := forall₂_mem (f.withPr_table _) hq
    obtain rfl := hrow.eq fun hk' => by rw [hrow.fixed, hk'] at hk; nomatch hk
    rw [Fsu.withPr_c]
    exact permitted hop q hr hk hs
  · unfold Fsu.withPr at hq ⊢
    dsimp only at hq ⊢
    by_cases hsame : f.pr = some (derivePr f.table f.c)
    · rw [if_pos hsame] at hq ⊢
      exact target hop q hq hk hs hw
    · rw [if_neg hsame] at hq ⊢
      obtain ⟨r, hr, rfl⟩ := List.mem_map.mp hq
      have hrow := retarget_row (decide (op = .running)) (derivePr f.table f.c) r
      have hkr : r.fixed.kind = .target := hrow.fixed ▸ hk
      have hred := Record.Redrawn.recheck (r := r) (by rw [hkr]; rfl) (decide (op = .running))
        (targetShown (derivePr f.table f.c) r)
      unfold retarget at hs hw ⊢
      rw [if_pos hkr] at hs hw ⊢
      refine ⟨_, if_pos (by simpa using hop), ?_⟩
      exact targetShown_le (hred.holds.mp hs) (by rw [← hred.written]; exact hw) _

/-- A record takes a new runtime part that shows no more than its limit. -/
theorem CeilingLaw.withRecord {op : OpState} {f : Fsu} {i : Nat} {r q : Record} (hl : CeilingLaw op f)
    (hr : f.table[i]? = some r) (hf : q.fixed = r.fixed)
    (permitted : op = .running → r.fixed.kind = .permitted → q.state ≠ .unset → q.within f.c)
    (target : op = .running → r.fixed.kind = .target → q.holds → q.written ≠ none → q.within f.reference) :
    CeilingLaw op (f.withRecord (decide (op = .running)) i r.fixed.kind q) := by
  have hp : op = .running → ∀ x ∈ f.table.set i q, x.fixed.kind = .permitted → x.state ≠ .unset → x.within f.c := by
    intro hop x hx hk hs
    obtain hx | rfl := List.mem_or_eq_of_mem_set hx
    · exact hl.permitted hop x hx hk hs
    · exact permitted hop (hf ▸ hk) hs
  have ht : op = .running → ∀ x ∈ f.table.set i q, x.fixed.kind = .target → x.holds → x.written ≠ none →
      x.within f.reference := by
    intro hop x hx hk hs hw
    obtain hx | rfl := List.mem_or_eq_of_mem_set hx
    · exact hl.target hop x hx hk hs hw
    · exact target hop (hf ▸ hk) hs hw
  unfold Fsu.withRecord
  split
  · exact .withPr hp ht
  next hk =>
    refine ⟨fun hop => ?_, hp, ht⟩
    refine (hl.reference hop).trans (congrArg some ?_)
    exact (derivePr_congr (forall₂_set (fun _ => ⟨rfl, fun _ => ⟨rfl, Iff.rfl⟩⟩) hr
      ⟨by rw [hf], fun h => absurd h hk⟩) _).symm

theorem CeilingLaw.parked {f : Fsu} (hl : CeilingLaw .running f) : CeilingLaw .standby f.parked := by
  refine ⟨fun _ => ?_, nofun, nofun⟩
  refine (hl.reference rfl).trans (congrArg some ?_)
  exact (derivePr_congr (forall₂_map (fun r => ⟨rfl, fun _ => ⟨rfl, Iff.rfl⟩⟩) _) _).symm

/-- What a return from STANDBY makes of a row (R10). -/
theorem State.mem_fsuReturn {v : State} {q : Record} (h : q ∈ v.fsuReturn.fsu.table) : ∃ r ∈ v.fsu.table, ∃ i,
    r.Redrawn q ∧ (∀ x, v.freshShown v.fsu v.fsu.table i r = x → q.shown = x) := by
  rw [State.fsuReturn_fsu] at h
  obtain ⟨r, hr, i, rfl⟩ := forall₂_mem (R := fun r q => ∃ i,
      q = { r.refreshed (v.freshShown v.fsu v.fsu.table i r) with age := v.fullPeriod r })
    (forall₂_mapIdx (fun i r => ⟨i, rfl⟩) _) h
  have hd := Record.Redrawn.refreshed r (v.freshShown v.fsu v.fsu.table i r)
  refine ⟨r, hr, i, ⟨hd.fixed, hd.written, hd.count, hd.state⟩, fun x hx => ?_⟩
  rw [hx]
  cases x <;> rfl

theorem CeilingLaw.returned {v : State} (hl : CeilingLaw .standby v.fsu) : CeilingLaw .running v.fsuReturn.fsu := by
  have hc : v.fsuReturn.fsu.c = v.fsu.c := by rw [State.fsuReturn_fsu]; rfl
  have hr : v.fsuReturn.fsu.reference = v.fsu.reference := by rw [State.fsuReturn_fsu]; rfl
  refine ⟨fun _ => ?_, fun _ q hq hk hs => ?_, fun _ q hq hk hs hw => ?_⟩
  · rw [hc, State.fsuReturn_fsu]
    refine (hl.reference rfl).trans (congrArg some (derivePr_congr (forall₂_mapIdx (fun i r => ?_) _) _).symm)
    exact (Record.Redrawn.refreshed r _).reference
  · obtain ⟨r, -, i, hd, hshown⟩ := State.mem_fsuReturn hq
    rw [hc]
    refine ⟨permittedShown v.fsu.c r, hshown _ ?_, permittedShown_le (fun h => hs ((hd.state_eq (.inl rfl)).mpr h)) _⟩
    unfold State.freshShown
    rw [← hd.fixed, hk]
  · obtain ⟨r, -, i, hd, hshown⟩ := State.mem_fsuReturn hq
    rw [hr]
    refine ⟨targetShown v.fsu.reference r, hshown _ ?_, targetShown_le (hd.holds.mp hs) (hd.written ▸ hw) _⟩
    unfold State.freshShown
    rw [← hd.fixed, hk]

theorem State.newRecord_unset {v : State} {i : Nat} (h : (v.newRecord i).fixed.kind ≠ .faultSlot) :
    (v.newRecord i).state = .unset := if_neg h

theorem CeilingLaw.entered (v : State) : CeilingLaw .running v.fsuEntry.fsu := by
  have hunset : ∀ q ∈ v.fsuEntry.fsu.table, q.fixed.kind ≠ .faultSlot → q.state = .unset := fun q hq hk => by
    obtain ⟨i, j, rfl⟩ := State.mem_fsuEntry hq
    exact State.newRecord_unset hk
  refine ⟨fun _ => ?_, fun _ q hq hk hs => ?_, fun _ q hq hk hs => ?_⟩
  · rw [derivePr_of_fresh (fun q hq hk hc => ?_), State.fsuEntry_fsu]
    · rfl
    · have := hunset q hq (by rw [hk]; nofun)
      unfold Record.current at hc
      rw [this] at hc
      obtain hc | hc := hc <;> nomatch hc
  · exact absurd (hunset q hq (by rw [hk]; nofun)) hs
  · have := hunset q hq (by rw [hk]; nofun)
    rw [this] at hs
    obtain hs | hs | ⟨hs, -⟩ := hs <;> nomatch hs

theorem CeilingLaw.ceiled {op : OpState} {f : Fsu} (hl : CeilingLaw op f) (c : Nat) :
    CeilingLaw op ((f.ceiled (decide (op = .running)) c).withPr (decide (op = .running))) := by
  refine .withPr (fun hop q hq hk hs => ?_) fun hop q hq hk hs hw => ?_
  · obtain ⟨r, -, rfl⟩ := List.mem_map.mp hq
    have hkr : r.fixed.kind = .permitted := (repermit_row (decide (op = .running)) c r).fixed ▸ hk
    have hd := Record.Redrawn.recheck (r := r) (by rw [hkr]; rfl) (decide (op = .running)) (permittedShown c r)
    unfold repermit at hs ⊢
    rw [if_pos hkr] at hs ⊢
    exact ⟨_, if_pos (by simpa using hop), permittedShown_le (fun h => hs ((hd.state_eq (.inl rfl)).mpr h)) c⟩
  · obtain ⟨r, hr, hrow⟩ := forall₂_mem (f.ceiled_table _ c) hq
    obtain rfl := hrow.eq fun hk' => by rw [hrow.fixed, hk'] at hk; nomatch hk
    exact hl.target hop q hr hk hs hw

theorem FsuMove.ceilingLaw {s : State} {op : OpState} {f : Fsu} (h : FsuMove s op f)
    (hl : CeilingLaw s.csu.op s.fsu) : CeilingLaw op f := by
  cases h with
  | same => exact hl
  | untabled _ hop => exact .outside hop
  | reset => exact .outside rfl
  | entered => exact .entered _
  | enteredStandby => exact (CeilingLaw.entered _).parked
  | parked hop => exact CeilingLaw.parked (hop ▸ hl)
  | returned hv hop => exact .returned (by rw [hv, ← hop]; exact hl)
  | speed => exact hl.redrawn (by decide) (by decide) (Fsu.speeded_table ..) rfl rfl
  | delivered =>
    refine Fsu.delivered_ind (P := CeilingLaw s.csu.op) ?_ fun h => h.ceiled _
    exact hl.redrawn (by decide) (by decide) (Fsu.aspectShown_table ..) rfl rfl
  | slots => exact hl.redrawn (by decide) (by decide) (showSlots_table ..) rfl rfl
  | relit => exact hl.redrawn (by decide) (by decide) (Fsu.relit_table ..) rfl rfl
  | lampTested => exact hl.redrawn (by decide) (by decide) (Fsu.lampTested_table ..) rfl rfl
  | @written i r w hop hr hk =>
    have h : CeilingLaw s.csu.op (s.fsu.withRecord (decide (s.csu.op = .running)) i r.fixed.kind
        (s.writtenRecord r w (s.judge r w))) := by
      have hword : ∀ limit, s.judge r w = judgeLimit limit w → s.csu.op = .running →
          (s.writtenRecord r w (s.judge r w)).within limit := fun limit hj hrun => by
        obtain ⟨x, hx, hle⟩ := judgeLimit_le limit w
        rw [hj]
        exact ⟨x, (if_pos hrun).trans hx, hle⟩
      refine hl.withRecord hr rfl (fun hrun hp _ => ?_) fun hrun ht _ _ => ?_
      · exact hword _ (by unfold State.judge; rw [hp]) hrun
      · exact hword _ (by unfold State.judge; rw [ht]) hrun
    rw [State.fieldWrite_fsu _ hr hk]
    dsimp only
    split
    · exact ⟨h.reference, h.permitted, h.target⟩
    · exact h
  | @stale v i r hv hop hr hst hage =>
    have h : CeilingLaw s.csu.op (s.fsu.withRecord (decide (s.csu.op = .running)) i r.fixed.kind
        { r with state := .stale, age := none, shown := v.staleShown { r with state := .stale, age := none } }) := by
      refine hl.withRecord hr rfl (fun _ hp hs => ?_) fun _ ht hh hw => ?_
      · refine ⟨permittedShown s.fsu.c { r with state := .stale, age := none }, ?_, permittedShown_le hs _⟩
        unfold State.staleShown
        rw [hv]
        dsimp only
        rw [hp]
      · refine ⟨targetShown s.fsu.reference { r with state := .stale, age := none }, ?_, targetShown_le hh hw _⟩
        unfold State.staleShown
        rw [hv]
        dsimp only
        rw [ht]
    rw [State.goStale_fsu, hv]
    rw [decide_eq_true hop] at h
    exact ⟨h.reference, h.permitted, h.target⟩
  | @ageStopped i r hop hr hst =>
    have hmem := List.mem_of_getElem? hr
    refine ⟨fun hop => ?_, fun hop q hq hk hs => ?_, fun hop q hq hk hs hw => ?_⟩
    · refine (hl.reference hop).trans (congrArg some ?_)
      exact (derivePr_congr (forall₂_set (fun _ => ⟨rfl, fun _ => ⟨rfl, Iff.rfl⟩⟩) hr
        (by exact ⟨rfl, fun _ => ⟨rfl, Iff.rfl⟩⟩)) _).symm
    · obtain hq | rfl := List.mem_or_eq_of_mem_set hq
      · exact hl.permitted hop q hq hk hs
      · exact hl.permitted hop r hmem hk hs
    · obtain hq | rfl := List.mem_or_eq_of_mem_set hq
      · exact hl.target hop q hq hk hs hw
      · exact hl.target hop r hmem hk hs hw

/-! ## The lamp and watched fields (R9, R13, R138) -/

/-- Rows of another kind are redrawn, and lamp test and functions stay. -/
theorem LampsLaw.redrawn {op : OpState} {f g : Fsu} {k : Kind} (hl : LampsLaw op f) (hk : k ≠ .lamps)
    (hw : k ≠ .watched) (h : k.redrawn f.table g.table) (ht : g.lampTest = f.lampTest) (hf : g.fns = f.fns) :
    LampsLaw op g := by
  refine ⟨fun hop q hq hkq => ?_, fun hop q hq hkq => ?_⟩
  · obtain ⟨r, hr, hrow⟩ := forall₂_mem h hq
    obtain rfl := hrow.eq fun hk' => hk (hk'.symm.trans (hrow.fixed ▸ hkq))
    rw [ht, hf]
    exact hl.lamps hop q hr hkq
  · obtain ⟨r, hr, hrow⟩ := forall₂_mem h hq
    obtain rfl := hrow.eq fun hk' => hw (hk'.symm.trans (hrow.fixed ▸ hkq))
    exact hl.watched hop q hr hkq

/-- LAMPS rows are redrawn as the lamps are to be shown. -/
theorem LampsLaw.relamped {op : OpState} {f g : Fsu} (hl : LampsLaw op f) (h : Kind.lamps.redrawn f.table g.table)
    (hlamps : op = .running → ∀ q ∈ g.table, q.fixed.kind = .lamps → q.shown = some (lampsShown g.lampTest g.fns q)) :
    LampsLaw op g := by
  refine ⟨hlamps, fun hop q hq hkq => ?_⟩
  obtain ⟨r, hr, hrow⟩ := forall₂_mem h hq
  obtain rfl := hrow.eq fun hk' => by rw [hrow.fixed, hk'] at hkq; nomatch hkq
  exact hl.watched hop q hr hkq

theorem LampsLaw.withPr {op : OpState} {f : Fsu} (hl : LampsLaw op f) (b : Bool) : LampsLaw op (f.withPr b) := by
  refine hl.redrawn (by decide) (by decide) (Fsu.withPr_table _ _) ?_ ?_ <;>
    · unfold Fsu.withPr
      dsimp only
      split <;> rfl

theorem LampsLaw.outside {op : OpState} {f : Fsu} (hop : op ≠ .running) : LampsLaw op f :=
  ⟨fun h => absurd h hop, fun h => absurd h hop⟩

/-- What a LAMPS row shows turns on its static part, its state and its written value. -/
theorem lampsShown_congr {r q : Record} (hf : q.fixed = r.fixed) (hs : q.state = r.state) (hw : q.written = r.written)
    (test : Bool) (fns : LampValues) : lampsShown test fns q = lampsShown test fns r := by
  unfold lampsShown lampsBase
  rw [hf, hs, hw]

theorem watchedShown_congr {r q : Record} (hf : q.fixed = r.fixed) (hs : q.state = r.state)
    (hw : q.written = r.written) : watchedShown q = watchedShown r := by
  unfold watchedShown
  rw [hf, hs, hw]

/-- A function that no bit of a field is assigned to does not show in it. -/
theorem mergeLamps_set {fns : LampValues} {fn : LampFn} {b : Bool} {lamps : List LampPair}
    (h : lamps.any (·.fn == fn) = false) (w : Word) : mergeLamps (fns.set fn b) lamps w = mergeLamps fns lamps w := by
  induction lamps generalizing w with
  | nil => rfl
  | cons p ps ih =>
    rw [List.any_cons, Bool.or_eq_false_iff] at h
    have hne : p.fn ≠ fn := by simpa using h.1
    rw [mergeLamps, mergeLamps, LampValues.get_set, if_neg hne]
    exact ih h.2 _

theorem LampsLaw.relit {op : OpState} {f : Fsu} (hl : LampsLaw op f) (fn : LampFn) (b : Bool) :
    LampsLaw op (f.relit (decide (op = .running)) fn b) := by
  refine hl.relamped (f.relit_table ..) fun hop q hq hk => ?_
  have htable : (f.relit (decide (op = .running)) fn b).table =
      f.table.map fun r => if r.carries fn then relamp f.lampTest (f.fns.set fn b) r else r :=
    if_pos (by simpa using hop)
  rw [htable] at hq
  obtain ⟨r, hr, rfl⟩ := List.mem_map.mp hq
  show _ = some (lampsShown f.lampTest (f.fns.set fn b) _)
  by_cases hc : r.carries fn = true
  · rw [if_pos hc] at hk ⊢
    have hkr : r.fixed.kind = .lamps := (relamp_row f.lampTest (f.fns.set fn b) r).fixed ▸ hk
    unfold relamp
    rw [if_pos hkr]
    exact congrArg some (lampsShown_congr rfl rfl rfl _ _).symm
  · rw [if_neg hc] at hk ⊢
    rw [hl.lamps hop r hr hk]
    unfold lampsShown
    rw [mergeLamps_set (by simpa [Record.carries] using hc)]

theorem LampsLaw.lampTested {op : OpState} {f : Fsu} (hl : LampsLaw op f) (b : Bool) :
    LampsLaw op (f.lampTested (decide (op = .running)) b) := by
  refine hl.relamped (f.lampTested_table ..) fun hop q hq hk => ?_
  have htable : (f.lampTested (decide (op = .running)) b).table = f.table.map (relamp b f.fns) :=
    if_pos (by simpa using hop)
  rw [htable] at hq
  obtain ⟨r, hr, rfl⟩ := List.mem_map.mp hq
  have hkr : r.fixed.kind = .lamps := (relamp_row b f.fns r).fixed ▸ hk
  unfold relamp
  rw [if_pos hkr]
  exact congrArg some (lampsShown_congr rfl rfl rfl _ _).symm

/-- A record takes a new runtime part, which shows what a LAMPS or WATCHED field is to show. -/
theorem LampsLaw.withRecord {op : OpState} {f : Fsu} {i : Nat} {r q : Record} (hl : LampsLaw op f)
    (hf : q.fixed = r.fixed)
    (lamps : op = .running → r.fixed.kind = .lamps → q.shown = some (lampsShown f.lampTest f.fns q))
    (watched : op = .running → r.fixed.kind = .watched → q.shown = watchedShown q) :
    LampsLaw op (f.withRecord (decide (op = .running)) i r.fixed.kind q) := by
  have hset : LampsLaw op { f with table := f.table.set i q } := by
    refine ⟨fun hop x hx hk => ?_, fun hop x hx hk => ?_⟩
    · obtain hx | rfl := List.mem_or_eq_of_mem_set hx
      · exact hl.lamps hop x hx hk
      · exact lamps hop (hf ▸ hk)
    · obtain hx | rfl := List.mem_or_eq_of_mem_set hx
      · exact hl.watched hop x hx hk
      · exact watched hop (hf ▸ hk)
  unfold Fsu.withRecord
  split
  · exact hset.withPr _
  · exact hset

theorem LampsLaw.returned (v : State) : LampsLaw .running v.fsuReturn.fsu := by
  have ht : v.fsuReturn.fsu.lampTest = v.fsu.lampTest := by rw [State.fsuReturn_fsu]
  have hf : v.fsuReturn.fsu.fns = v.fsu.fns := by rw [State.fsuReturn_fsu]
  have hstate : ∀ r q : Record, r.Redrawn q → r.fixed.kind.rechecked = false → q.state = r.state := fun r q h hk =>
    h.state.resolve_right fun hr => by rw [hk] at hr; nomatch hr.1
  refine ⟨fun _ q hq hk => ?_, fun _ q hq hk => ?_⟩ <;> obtain ⟨r, -, i, hd, hshown⟩ := State.mem_fsuReturn hq
  · have hkr : r.fixed.kind = .lamps := hd.fixed ▸ hk
    rw [ht, hf, lampsShown_congr hd.fixed (hstate r q hd (by rw [hkr]; rfl)) hd.written]
    refine hshown _ ?_
    unfold State.freshShown
    rw [hkr]
  · have hkr : r.fixed.kind = .watched := hd.fixed ▸ hk
    rw [watchedShown_congr hd.fixed (hstate r q hd (by rw [hkr]; rfl)) hd.written]
    refine hshown _ ?_
    unfold State.freshShown
    rw [hkr]

theorem LampsLaw.entered (v : State) : LampsLaw .running v.fsuEntry.fsu := by
  have ht : v.fsuEntry.fsu.lampTest = v.blankFsu.lampTest := by rw [State.fsuEntry_fsu]
  have hf : v.fsuEntry.fsu.fns = v.blankFsu.fns := by rw [State.fsuEntry_fsu]
  refine ⟨fun _ q hq hk => ?_, fun _ q hq hk => ?_⟩ <;> obtain ⟨i, j, rfl⟩ := State.mem_fsuEntry hq
  · rw [ht, hf]
    refine Eq.trans ?_ (congrArg some (lampsShown_congr rfl rfl rfl _ _).symm)
    show v.freshShown _ _ _ _ = _
    unfold State.freshShown
    rw [show (v.newRecord i).fixed.kind = .lamps from hk]
    rfl
  · refine Eq.trans ?_ (watchedShown_congr rfl rfl rfl).symm
    show v.freshShown _ _ _ _ = _
    unfold State.freshShown
    rw [show (v.newRecord i).fixed.kind = .watched from hk]
    rfl

theorem FsuMove.lampsLaw {s : State} {op : OpState} {f : Fsu} (h : FsuMove s op f)
    (hl : LampsLaw s.csu.op s.fsu) : LampsLaw op f := by
  cases h with
  | same => exact hl
  | untabled _ hop => exact .outside (by rintro rfl; nomatch hop)
  | reset => exact .outside nofun
  | entered => exact .entered _
  | enteredStandby | parked => exact .outside nofun
  | returned => exact .returned _
  | speed => exact hl.redrawn (by decide) (by decide) (Fsu.speeded_table ..) rfl rfl
  | delivered =>
    refine Fsu.delivered_ind (P := LampsLaw s.csu.op) ?_ fun h => ?_
    · exact hl.redrawn (by decide) (by decide) (Fsu.aspectShown_table ..) rfl rfl
    · exact LampsLaw.withPr (h.redrawn (by decide) (by decide) (Fsu.ceiled_table ..) rfl rfl) _
  | slots => exact hl.redrawn (by decide) (by decide) (showSlots_table ..) rfl rfl
  | relit => exact hl.relit _ _
  | lampTested => exact hl.lampTested _
  | @written i r w hop hr hk =>
    have h : LampsLaw s.csu.op (s.fsu.withRecord (decide (s.csu.op = .running)) i r.fixed.kind
        (s.writtenRecord r w (s.judge r w))) := by
      refine hl.withRecord rfl (fun hrun hkr => ?_) fun hrun hkr => ?_
      · have hj : s.judge r w = judgeLamps s.fsu.lampTest s.fsu.fns r.fixed.lamps w := by unfold State.judge; rw [hkr]
        rw [hj]
        exact if_pos hrun
      · have hj : s.judge r w = passed w := by unfold State.judge; rw [hkr]
        rw [hj]
        exact if_pos hrun
    rw [State.fieldWrite_fsu _ hr hk]
    dsimp only
    split
    · exact ⟨h.lamps, h.watched⟩
    · exact h
  | @stale v i r hv hop hr hst hage =>
    have h : LampsLaw s.csu.op (s.fsu.withRecord (decide (s.csu.op = .running)) i r.fixed.kind
        { r with state := .stale, age := none, shown := v.staleShown { r with state := .stale, age := none } }) := by
      refine hl.withRecord rfl (fun _ hkr => ?_) fun _ hkr => ?_ <;>
        · unfold State.staleShown
          rw [hv]
          dsimp only
          rw [hkr]
          rfl
    rw [State.goStale_fsu, hv]
    rw [decide_eq_true hop] at h
    exact ⟨h.lamps, h.watched⟩
  | @ageStopped i r hop hr hst =>
    have hmem := List.mem_of_getElem? hr
    refine ⟨fun hop q hq hk => ?_, fun hop q hq hk => ?_⟩ <;>
      obtain hq | rfl := List.mem_or_eq_of_mem_set hq
    · exact hl.lamps hop q hq hk
    · exact hl.lamps hop r hmem hk
    · exact hl.watched hop q hq hk
    · exact hl.watched hop r hmem hk

end Sys2Proof.Machine
end

section
/-! SUPPORT and PROOF. What every step keeps of the measured speed, in the ASU, in flight and in the FSU, and of the ACTUAL
field (fourth part of O59). -/

namespace Sys2Proof.Machine

/-! ## The commands that steer (log 1) -/

/-- The commands that may send or take a hand-over by which one of ASU, TCU and FSU steers another, or drop all of them. -/
def Instr.steers : Instr → Bool
  | .windowCompletion _ | .speedHandover | .strobe _ _ | .lossTimerExpiry | .holdTimerExpiry | .writtenAspectTaken
  | .aspectStaleNotice | .aspectDelivery | .ageTimerExpiry _ | .pwrgFall | .wrstFall | .loadTimerExpiry => true
  | _ => false

/-- A state with the steering hand-overs, the TCU and the measured speed of another. -/
structure Unsteered (s t : State) : Prop where
  steering : t.steering = s.steering
  tcu : t.tcu = s.tcu
  selected : t.asu.selected = s.asu.selected
  d : t.asu.d = s.asu.d

theorem Unsteered.refl (s : State) : Unsteered s s := ⟨rfl, rfl, rfl, rfl⟩

/-- A path that carries no steering hand-over is taken. -/
theorem Unsteered.taken {α : Type} {p : Msg → Option α} {s t : State} {rest : List Msg} {x : α}
    (hp : ∀ m, Msg.steers m = true → p m = none) (h : takeFirst p s.inFlight = some (x, rest))
    (ht : Unsteered { s with inFlight := rest } t) : Unsteered s t :=
  ⟨ht.steering.trans (steers_takeFirst hp h), ht.tcu, ht.selected, ht.d⟩

theorem Effect.unsteered {s t : State} {c : Instr} (h : Effect s c t) (hc : Instr.steers c = false) : Unsteered s t := by
  cases h with
  | acknowledgeDropped h | slotsStay h | drainDropped h | rankTaken h =>
    exact .taken (by intro m hm; cases m <;> first | rfl | nomatch hm) h ⟨rfl, rfl, rfl, rfl⟩
  | enqueue h => exact .taken (by intro m hm; cases m <;> first | rfl | nomatch hm) h ⟨rfl, rfl, rfl, rfl⟩
  | raise h | clear h | acknowledge h | slotsShown h | mirror h | chime h | lampFunction h | events h | report h
  | drained h =>
    refine .taken (by intro m hm; cases m <;> first | rfl | nomatch hm) h ?_
    constructor <;> simp
  | lampTestBegun h | lampTestEnded h =>
    refine .taken (by intro m hm; cases m <;> first | rfl | nomatch hm) h ?_
    unfold State.setLampTest
    constructor <;> simp
  | completion h | newPr h | rankFallen h | summary h | codeLost h | uncoded h | staleCounted h =>
    refine .taken (by intro m hm; cases m <;> first | rfl | nomatch hm) h ?_
    constructor <;> simp
    rfl
  | window | speedRechecked | speedStored | strobeTaken | strobeIgnored | strobesLost | holdEnded | aspectWritten
  | aspectStale | delivery | ageStopped | ageExpired | powerReset | warmReset | warmFall | loadTimeout =>
    nomatch hc
  | nothing | cadence | lampTestTimeout | grant => constructor <;> simp
  | unacknowledged | flash | buttonChanged | cabStandby | cabReturn =>
    constructor <;> simp
    rfl
  | _ => exact ⟨rfl, rfl, rfl, rfl⟩

/-! ## The measured speed (R54, R56, R58) -/

theorem SpeedShown.zero : SpeedShown (some 0) (some 0) :=
  ⟨nofun, fun _ h => Option.some.inj h ▸ ⟨Nat.zero_le _, 0, rfl, by unfold isRounded; omega⟩⟩

/-- A completion rounds the speed it selects (R54). -/
theorem SpeedShown.complete (u : Asu) (sh : Memory) (solo brk : Bool) :
    SpeedShown (u.complete sh solo brk).selected (u.complete sh solo brk).d := by
  rw [Asu.complete_d]
  refine ⟨fun h => by rw [h]; rfl, fun v h => ⟨Asu.complete_selected_le h, ?_⟩⟩
  rw [h]
  exact ⟨_, rfl, isRounded_displaySpeed v⟩

theorem speed_mem_steering {s : State} {c : SpeedCopy} : Msg.speed c ∈ s.steering ↔ Msg.speed c ∈ s.inFlight := by
  unfold State.steering
  simp [Msg.steers]

/-- What a move makes of the speed copy: the copies in flight give it, or it is that of an entry. -/
theorem FsuMove.speed_copy {s : State} {op : OpState} {f : Fsu} (h : FsuMove s op f) : f.speed = s.fsu.speed ∨
    ∀ c, f.speed = some c → c = { selected := some 0, d := some 0 } ∨ Msg.speed c ∈ s.inFlight := by
  have hpr : ∀ (g : Fsu) b, (g.withPr b).speed = g.speed := fun g b => by
    unfold Fsu.withPr
    dsimp only
    split <;> rfl
  have hrec : ∀ (g : Fsu) b i k q, (g.withRecord b i k q).speed = g.speed := fun g b i k q => by
    unfold Fsu.withRecord
    split
    · exact hpr _ _
    · rfl
  have hentry : ∀ v : State, v.fsuEntry.fsu.speed = some v.asu.speedCopy := fun v => by rw [State.fsuEntry_fsu]; rfl
  cases h with
  | reset => exact .inr nofun
  | entered _ hv => exact .inr fun c hc => .inl ((Option.some.inj ((hentry _).symm.trans hc)).symm.trans hv)
  | enteredStandby _ hv => exact .inr fun c hc => .inl ((Option.some.inj ((hentry _).symm.trans hc)).symm.trans hv)
  | returned hv => rw [State.fsuReturn_fsu, hv]; exact .inl rfl
  | speed hc => exact .inr fun c h => .inr (Option.some.inj h ▸ hc)
  | delivered => exact .inl (Fsu.delivered_ind (P := fun g => g.speed = s.fsu.speed) rfl fun _ => hpr _ _)
  | written hop hr hk =>
    refine .inl ?_
    rw [State.fieldWrite_fsu _ hr hk]
    dsimp only
    split <;> exact hrec ..
  | stale hv =>
    refine .inl ?_
    rw [State.goStale_fsu, hv]
    exact hrec ..
  | _ => exact .inl rfl

/-- The copies in flight are those of before, or that of the ASU as it now is. -/
theorem SpeedLaw.of {s t : State} (hl : SpeedLaw s) (hm : FsuMove s t.csu.op t.fsu)
    (asu : SpeedShown t.asu.selected t.asu.d)
    (msgs : ∀ c, Msg.speed c ∈ t.steering → Msg.speed c ∈ s.steering ∨ c = t.asu.speedCopy) : SpeedLaw t := by
  refine ⟨asu, fun c hc => ?_, fun c hc => ?_⟩
  · obtain h | rfl := msgs c (speed_mem_steering.mpr hc)
    · exact hl.inFlight c (speed_mem_steering.mp h)
    · exact asu
  · obtain h | h := hm.speed_copy
    · exact hl.copy c (h ▸ hc)
    · obtain rfl | h := h c hc
      · exact .zero
      · exact hl.inFlight c h

theorem SpeedLaw.unsteered {s t : State} (hl : SpeedLaw s) (hm : FsuMove s t.csu.op t.fsu) (h : Unsteered s t) :
    SpeedLaw t :=
  hl.of hm (by rw [h.selected, h.d]; exact hl.asu) fun _ hc => .inl (h.steering ▸ hc)

theorem takeFirst_rest {α : Type} {p : Msg → Option α} {ms rest : List Msg} {x : α}
    (h : takeFirst p ms = some (x, rest)) : ∀ m ∈ rest, m ∈ ms := by
  induction ms generalizing x rest with
  | nil => cases h
  | cons m ms ih =>
    unfold takeFirst at h
    split at h
    next =>
      simp only [Option.some.injEq, Prod.mk.injEq] at h
      exact fun y hy => List.mem_cons_of_mem _ (h.2 ▸ hy)
    next =>
      cases ht : takeFirst p ms with
      | none => simp [ht] at h
      | some z =>
        simp only [ht, Option.map_some, Option.some.injEq, Prod.mk.injEq] at h
        obtain ⟨-, rfl⟩ := h
        intro y hy
        obtain rfl | hy := List.mem_cons.mp hy
        · exact List.mem_cons_self
        · exact List.mem_cons_of_mem _ (ih ht y hy)

/-- A speed copy that is left in flight was in flight. -/
theorem speed_mem_rest {α : Type} {p : Msg → Option α} {s : State} {rest : List Msg} {x : α} {c : SpeedCopy}
    (h : takeFirst p s.inFlight = some (x, rest)) (hc : Msg.speed c ∈ ({ s with inFlight := rest } : State).steering) :
    Msg.speed c ∈ s.steering :=
  speed_mem_steering.mpr (takeFirst_rest h _ (speed_mem_steering.mp hc))

theorem speed_notMem_deliveries {vmax : Nat} {a : Option Aspect} {c : SpeedCopy} :
    Msg.speed c ∉ (deliveries vmax a).filter Msg.steers := by
  rw [deliveries_steers]
  cases a <;> simp

/-- The TCU sends no speed copy. -/
theorem State.tcuCommit_speed {s : State} {u : Tcu} {rs : List FluRequest} {again : Bool} {c : SpeedCopy}
    (h : Msg.speed c ∈ (s.tcuCommit u rs again).steering) : Msg.speed c ∈ s.steering := by
  rw [State.tcuCommit_steering] at h
  refine (List.mem_append.mp h).resolve_right fun h => ?_
  split at h
  · exact speed_notMem_deliveries h
  · nomatch h

/-- An operation of the TCU comes to a commit of it (R90). -/
def TcuCommitted (s t : State) : Prop := ∃ u rs again, t = s.tcuCommit u rs again

theorem State.strobe_committed (s : State) (code : BitVec 4) : TcuCommitted s (s.strobe code) := by
  unfold State.strobe
  dsimp only
  split <;> exact ⟨_, _, _, rfl⟩

theorem State.loseStrobes_committed (s : State) : TcuCommitted s s.loseStrobes := by
  unfold State.loseStrobes
  dsimp only
  split
  · split <;> exact ⟨_, _, _, rfl⟩
  all_goals exact ⟨_, _, _, rfl⟩

theorem State.endHold_committed (s : State) : TcuCommitted s s.endHold := ⟨_, _, _, rfl⟩

theorem State.tcuTake_committed (s : State) (u : Tcu) (n : Option Nat) : TcuCommitted s (s.tcuTake u n) := ⟨_, _, _, rfl⟩

theorem State.changeTerritory_committed (s : State) (b : Bool) : TcuCommitted s (s.changeTerritory b) := by
  unfold State.changeTerritory
  dsimp only
  split <;> exact ⟨_, _, _, rfl⟩

theorem SpeedLaw.committed {s s' t : State} (hl : SpeedLaw s) (hm : FsuMove s t.csu.op t.fsu) (h : TcuCommitted s' t)
    (hasu : s'.asu = s.asu) (hmsgs : ∀ c, Msg.speed c ∈ s'.steering → Msg.speed c ∈ s.steering) : SpeedLaw t := by
  obtain ⟨u, rs, again, rfl⟩ := h
  refine hl.of hm ?_ fun c hc => .inl (hmsgs c (State.tcuCommit_speed hc))
  rw [State.tcuCommit_asu, hasu]
  exact hl.asu

theorem Effect.speedLaw {s t : State} {c : Instr} (h : Effect s c t) (hl : SpeedLaw s) : SpeedLaw t := by
  have hm := h.fsu
  have hun : Instr.steers c = false → SpeedLaw t := fun hc => hl.unsteered hm (h.unsteered hc)
  cases h with
  | window h =>
    refine hl.of hm ?_ fun c hc => ?_
    · rw [State.completeWindow_asu]
      exact .complete _ _ _ _
    · rw [State.completeWindow_steering, List.mem_append] at hc
      refine hc.imp id fun hc => ?_
      rw [State.completeWindow_asu]
      exact Msg.speed.inj (List.mem_singleton.mp hc)
  | speedRechecked h =>
    refine hl.of hm (by simpa using hl.asu) fun c hc => .inl ?_
    rw [State.fsuCommit_steering] at hc
    exact speed_mem_rest h hc
  | speedStored h => exact hl.of hm hl.asu fun c hc => .inl (speed_mem_rest h hc)
  | strobeTaken => exact hl.committed hm (State.strobe_committed _ _) rfl fun _ h => h
  | nothing | strobeIgnored | warmFall | ageStopped => exact hl.unsteered hm ⟨rfl, rfl, rfl, rfl⟩
  | strobesLost => exact hl.committed hm (State.loseStrobes_committed _) rfl fun _ h => h
  | holdEnded => exact hl.committed hm (State.endHold_committed _) rfl fun _ h => h
  | aspectWritten h | aspectStale h => exact hl.committed hm (State.tcuTake_committed _ _ _) rfl fun _ hc => speed_mem_rest h hc
  | delivery h =>
    refine hl.of hm (by simpa using hl.asu) fun c hc => .inl ?_
    rw [State.fsuCommit_steering] at hc
    exact speed_mem_rest h hc
  | ageExpired =>
    refine hl.of hm (by simpa using hl.asu) fun c hc => .inl ?_
    rw [State.goStale_steering, List.mem_append] at hc
    refine hc.resolve_right fun hc => ?_
    split at hc
    · simp at hc
    · nomatch hc
  | powerReset | warmReset => exact hl.of hm .zero nofun
  | loadTimeout => exact hl.of hm hl.asu nofun
  | _ => exact hun rfl

theorem SpeedLaw.enterRunning {s v : State} (hl : SpeedLaw s) (hm : FsuMove s v.enterRunning.csu.op v.enterRunning.fsu)
    (hmsgs : ∀ c, Msg.speed c ∈ v.steering → Msg.speed c ∈ s.steering) : SpeedLaw v.enterRunning := by
  have hasu : v.enterRunning.asu.speedCopy = { selected := some 0, d := some 0 } := by
    have h : v.enterRunningOnly.asu = v.beforeFsu.asu := by
      show (v.beforeFsu.fsuEntry.anuEntry _).asu = _
      simp
    unfold State.enterRunning
    dsimp only
    split
    · rw [h, v.beforeFsu_asu]
      rfl
    · rw [State.enterStandby_asu, h, v.beforeFsu_asu]
      rfl
  have hsteer : v.enterRunning.steering = v.enterRunningOnly.steering := by
    unfold State.enterRunning
    dsimp only
    split <;> simp
  refine hl.of hm ?_ fun c hc => ?_
  · have hv : v.enterRunning.asu.selected = some 0 := congrArg SpeedCopy.selected hasu
    have hd : v.enterRunning.asu.d = some 0 := congrArg SpeedCopy.d hasu
    rw [hv, hd]
    exact .zero
  · rw [hsteer, State.enterRunningOnly_steering, List.mem_append, List.mem_append] at hc
    obtain (hc | hc) | hc := hc
    · exact .inl (hmsgs c hc)
    · rw [hasu]
      exact .inr (by simpa using hc)
    · exact absurd hc speed_notMem_deliveries

theorem Move.speedLaw {s t : State} (h : Move s t) (hl : SpeedLaw s) : SpeedLaw t := by
  have hm := h.fsu
  cases h with
  | effect h => exact h.speedLaw hl
  | receive | events => exact hl.unsteered hm ⟨by simp, by simp, by simp, by simp⟩
  | window => exact hl.unsteered hm ⟨by simp, by simp, by simp, by simp⟩
  | @field i hop w =>
    by_cases hr : ∃ r, s.fsu.table[i]? = some r ∧ r.fixed.kind ≠ .faultSlot
    · obtain ⟨r, hr, hk⟩ := hr
      refine hl.of hm (by simpa using hl.asu) fun c hc => .inl ?_
      rw [State.fieldWrite_steering w hr hk, List.mem_append] at hc
      refine hc.resolve_right fun hc => ?_
      split at hc
      · simp at hc
      · nomatch hc
    · rw [State.fieldWrite_slot w fun r hr' => by_contra fun hk => hr ⟨r, hr', hk⟩]
      exact hl
  | accept => exact hl.enterRunning hm fun c hc => by simpa [State.steering] using hc
  | reject hop v off =>
    refine hl.of hm (by simpa using hl.asu) ?_
    unfold State.rejectImage
    dsimp only
    split
    · rw [State.sendReport_steering]
      exact fun c hc => .inl hc
    · nofun
  | territory => exact hl.committed hm (State.changeTerritory_committed _ _) rfl fun _ h => h
  | release hr ht =>
    cases ht with
    | loading => exact hl.unsteered hm ⟨by rw [State.enterLoading_steering]; rfl, by simp, by simp, by simp⟩
    | running => exact hl.enterRunning hm fun c hc => by simpa [State.steering] using hc
  | _ => exact hl.unsteered hm ⟨rfl, rfl, rfl, rfl⟩

/-! ## Written values (R7) -/

/-- A record that is LIVE or CORRECTED has a written value, but for a FAULT_SLOT record (R6, R7). -/
def Recorded (table : List Record) : Prop :=
  ∀ r ∈ table, r.fixed.kind ≠ .faultSlot → r.current → r.written ≠ none

theorem Recorded.redrawn {old new : List Record} (hl : Recorded old) (h : List.Forall₂ Record.Redrawn old new) :
    Recorded new := fun q hq hk hc => by
  obtain ⟨r, hr, hrow⟩ := forall₂_mem h hq
  rw [hrow.written]
  exact hl r hr (hrow.fixed ▸ hk) (hrow.current.mp hc)

theorem Recorded.row {k : Kind} {old new : List Record} (hl : Recorded old) (h : k.redrawn old new) : Recorded new :=
  hl.redrawn (h.imp fun _ _ => Kind.row.toRedrawn)

theorem Recorded.set {t : List Record} (hl : Recorded t) {q : Record}
    (hq : q.fixed.kind ≠ .faultSlot → q.current → q.written ≠ none) (i : Nat) : Recorded (t.set i q) := fun x hx => by
  obtain hx | rfl := List.mem_or_eq_of_mem_set hx
  · exact hl x hx
  · exact hq

theorem Recorded.withRecord {f : Fsu} (hl : Recorded f.table) {q : Record}
    (hq : q.fixed.kind ≠ .faultSlot → q.current → q.written ≠ none) (b : Bool) (i : Nat) (k : Kind) :
    Recorded (f.withRecord b i k q).table := by
  unfold Fsu.withRecord
  split
  · exact Recorded.row (by exact hl.set hq i) (Fsu.withPr_table _ _)
  · exact hl.set hq i

theorem Recorded.parked {f : Fsu} (hl : Recorded f.table) : Recorded f.parked.table :=
  hl.redrawn (forall₂_map (fun _ => ⟨rfl, rfl, rfl, .inl rfl⟩) _)

theorem Recorded.entered (v : State) : Recorded v.fsuEntry.fsu.table := fun q hq hk hc => by
  obtain ⟨i, j, rfl⟩ := State.mem_fsuEntry hq
  have hunset : (v.newRecord i).state = .unset := State.newRecord_unset hk
  obtain hc | hc := hc <;> nomatch hunset.symm.trans hc

theorem FsuMove.recorded {s : State} {op : OpState} {f : Fsu} (h : FsuMove s op f) (hl : Recorded s.fsu.table) :
    Recorded f.table := by
  cases h with
  | same | untabled => exact hl
  | reset => exact nofun
  | entered => exact .entered _
  | enteredStandby => exact (Recorded.entered _).parked
  | parked => exact hl.parked
  | returned hv =>
    intro q hq
    obtain ⟨r, hr, i, hd, -⟩ := State.mem_fsuReturn hq
    rw [hd.fixed, hd.written, hd.current]
    exact hl r (hv ▸ hr)
  | speed => exact hl.row (Fsu.speeded_table ..)
  | delivered =>
    refine Fsu.delivered_ind (P := fun f => Recorded f.table) (hl.row (Fsu.aspectShown_table ..)) fun h => ?_
    exact (h.row (Fsu.ceiled_table ..)).row (Fsu.withPr_table ..)
  | slots => exact hl.row (showSlots_table ..)
  | relit => exact hl.row (Fsu.relit_table ..)
  | lampTested => exact hl.row (Fsu.lampTested_table ..)
  | written hop hr hk =>
    rw [State.fieldWrite_fsu _ hr hk]
    dsimp only
    split <;> exact hl.withRecord (by exact fun _ _ => nofun) _ _ _
  | stale hv hop hr =>
    rw [State.goStale_fsu, hv]
    refine hl.withRecord (fun _ hc => ?_) _ _ _
    obtain hc | hc := hc <;> nomatch hc
  | @ageStopped i r hop hr => exact hl.set (by exact hl r (List.mem_of_getElem? hr)) _

/-! ## The ACTUAL field (R60–R63) -/

/-- A record shows a value within its tolerance of the selected speed, where that is known (R60). -/
def Record.tolerates (r : Record) (selected : Option Nat) : Prop := ∃ x, r.shown = some x ∧ ∀ v, selected = some v →
  10 * x.toNat ≤ v + r.fixed.tolerance ∧ v ≤ 10 * x.toNat + r.fixed.tolerance

/-- The display speed lies within every tolerance that an image may give (R54, R62). -/
theorem SpeedShown.tolerated {selected d : Option Nat} (h : SpeedShown selected d) {v tolerance : Nat}
    (hv : selected = some v) (htol : 5 ≤ tolerance) :
    10 * (wordOf (d.getD 0)).toNat ≤ v + tolerance ∧ v ≤ 10 * (wordOf (d.getD 0)).toNat + tolerance := by
  obtain ⟨hmax, x, hx, hround⟩ := h.known v hv
  obtain ⟨hlow, hhigh⟩ := hround.within_five
  rw [← withinTolerance_iff, hx, Option.getD_some]
  exact withinTolerance_of_within_five (by omega) hlow hhigh htol

theorem SpeedLaw.speedCopy {s : State} (hl : SpeedLaw s) : SpeedShown s.fsu.speedCopy.selected s.fsu.speedCopy.d := by
  unfold Fsu.speedCopy
  cases h : s.fsu.speed with
  | none => exact .zero
  | some c => exact hl.copy c h

theorem Record.Redrawn.fresh {r q : Record} (h : r.Redrawn q) :
    (q.state = .unset ∨ q.state = .stale) ↔ (r.state = .unset ∨ r.state = .stale) :=
  or_congr (h.state_eq (.inl rfl)) (h.state_eq (.inr rfl))

/-- Rows of another kind are redrawn, and the speed copy stays. -/
theorem ActualLaw.redrawn {op : OpState} {f g : Fsu} {k : Kind} (hl : ActualLaw op f) (hk : k ≠ .actual)
    (h : k.redrawn f.table g.table) (hs : g.speed = f.speed) : ActualLaw op g := by
  have hs' : g.speedCopy = f.speedCopy := by unfold Fsu.speedCopy; rw [hs]
  refine ⟨fun hop q hq hkq hst => ?_, fun hop q hq hkq hst => ?_⟩ <;>
    obtain ⟨r, hr, hrow⟩ := forall₂_mem h hq <;>
    obtain rfl := hrow.eq fun hk' => hk (hk'.symm.trans (hrow.fixed ▸ hkq)) <;>
    rw [hs']
  · exact hl.follows hop q hr hkq hst
  · exact hl.within hop q hr hkq hst

theorem ActualLaw.outside {op : OpState} {f : Fsu} (hop : op ≠ .running) : ActualLaw op f :=
  ⟨fun h => absurd h hop, fun h => absurd h hop⟩

theorem ActualLaw.withPr {op : OpState} {f : Fsu} (hl : ActualLaw op f) (b : Bool) : ActualLaw op (f.withPr b) := by
  refine hl.redrawn (by decide) (Fsu.withPr_table _ _) ?_
  unfold Fsu.withPr
  dsimp only
  split <;> rfl

/-- A record takes a new runtime part that shows what an ACTUAL field is to show. -/
theorem ActualLaw.withRecord {op : OpState} {f : Fsu} {i : Nat} {r q : Record} (hl : ActualLaw op f)
    (hf : q.fixed = r.fixed)
    (follows : op = .running → r.fixed.kind = .actual → (q.state = .unset ∨ q.state = .stale) →
      q.shown = some (actualFollows f.speedCopy q))
    (within : op = .running → r.fixed.kind = .actual → q.current → q.tolerates f.speedCopy.selected) (b : Bool) :
    ActualLaw op (f.withRecord b i r.fixed.kind q) := by
  have hset : ActualLaw op { f with table := f.table.set i q } := by
    refine ⟨fun hop x hx hk hs => ?_, fun hop x hx hk hs => ?_⟩ <;>
      obtain hx | rfl := List.mem_or_eq_of_mem_set hx
    · exact hl.follows hop x hx hk hs
    · exact follows hop (hf ▸ hk) hs
    · exact hl.within hop x hx hk hs
    · exact within hop (hf ▸ hk) hs
  unfold Fsu.withRecord
  split
  · exact hset.withPr b
  · exact hset

/-- An ACTUAL write shows the written word within the tolerance, and d beyond it (R60, R61). -/
theorem judgeActual_tolerated {sp : SpeedCopy} (hs : SpeedShown sp.selected sp.d) {tolerance : Nat}
    (htol : 5 ≤ tolerance) (w : Word) : ∃ x, (judgeActual sp tolerance w).word = some x ∧
      ∀ v, sp.selected = some v → 10 * x.toNat ≤ v + tolerance ∧ v ≤ 10 * x.toNat + tolerance := by
  unfold judgeActual
  cases hsel : sp.selected with
  | none => exact ⟨w, rfl, nofun⟩
  | some v =>
    dsimp only
    split
    next hp =>
      refine ⟨w, rfl, fun v' hv => ?_⟩
      obtain rfl := Option.some.inj hv
      rw [actualPasses, Bool.and_eq_true] at hp
      exact (withinTolerance_iff ..).mp hp.2
    next => exact ⟨_, rfl, fun v' hv => hs.tolerated (hsel.trans hv) htol⟩

/-- A completion's copy rechecks the ACTUAL rows (R62, R63). -/
theorem ActualLaw.speeded {op : OpState} {f : Fsu} {c : SpeedCopy} (hl : ActualLaw op f)
    (htol : ∀ r ∈ f.table, r.fixed.kind = .actual → 5 ≤ r.fixed.tolerance) (hc : SpeedShown c.selected c.d) :
    ActualLaw op (f.speeded (decide (op = .running)) c) := by
  by_cases hop : op = .running
  swap
  · exact .outside hop
  have htable : (f.speeded (decide (op = .running)) c).table = f.table.map (recheckActual c) := if_pos (by simpa using hop)
  refine ⟨fun _ q hq hk hs => ?_, fun _ q hq hk hs => ?_⟩ <;>
    rw [htable] at hq <;>
    obtain ⟨r, hr, rfl⟩ := List.mem_map.mp hq <;>
    have hkr : r.fixed.kind = .actual := (recheckActual_row c r).fixed ▸ hk
  · unfold recheckActual at hs ⊢
    rw [if_pos hkr] at hs ⊢
    cases hst : r.state with
    | unset => rfl
    | stale => rfl
    | live | corrected =>
      have hcur : r.current := by unfold Record.current; rw [hst]; simp
      have hd := (recheckActual_row c r).toRedrawn
      have hfresh := hd.fresh.mp (by unfold recheckActual; rw [if_pos hkr]; exact hs)
      rw [hst] at hfresh
      obtain h | h := hfresh <;> nomatch h
  · have hcur : r.current := (recheckActual_row c r).toRedrawn.current.mp hs
    obtain ⟨x, hx, -⟩ := hl.within hop r hr hkr hcur
    show (recheckActual c r).tolerates c.selected
    have hcurrent : recheckActual c r = match c.selected, r.shown with
        | some v, some x =>
          if withinTolerance r.fixed.tolerance v x then r.recheck true x else r.recheck true (wordOf (c.d.getD 0))
        | _, _ => r := by
      unfold recheckActual
      rw [if_pos hkr]
      obtain h | h := hcur <;> rw [h] <;> rfl
    rw [hcurrent, hx]
    cases hsel : c.selected with
    | none => exact ⟨x, hx, nofun⟩
    | some v =>
      dsimp only
      split
      next hw => exact ⟨x, rfl, fun v' hv => Option.some.inj hv ▸ (withinTolerance_iff ..).mp hw⟩
      next => exact ⟨_, rfl, fun v' hv => hc.tolerated (hsel.trans hv) (htol r hr hkr)⟩

theorem ActualLaw.returned {v : State} (hs : SpeedShown v.fsu.speedCopy.selected v.fsu.speedCopy.d)
    (hrec : Recorded v.fsu.table)
    (htol : ∀ r ∈ v.fsu.table, r.fixed.kind = .actual → 5 ≤ r.fixed.tolerance) : ActualLaw .running v.fsuReturn.fsu := by
  have hcopy : v.fsuReturn.fsu.speedCopy = v.fsu.speedCopy := by rw [State.fsuReturn_fsu]; rfl
  refine ⟨fun _ q hq hk hst => ?_, fun _ q hq hk hst => ?_⟩ <;>
    obtain ⟨r, hr, i, hd, hshown⟩ := State.mem_fsuReturn hq <;>
    have hkr : r.fixed.kind = .actual := hd.fixed ▸ hk <;>
    rw [hcopy]
  · have hblank : actualFollows v.fsu.speedCopy q = actualFollows v.fsu.speedCopy r := by
      unfold actualFollows
      rw [hd.fixed]
    rw [hblank]
    refine hshown _ ?_
    unfold State.freshShown
    rw [hkr]
    obtain h | h := hd.fresh.mp hst <;> rw [h]
  · have hcur : r.current := hd.current.mp hst
    obtain ⟨w, hw⟩ := Option.ne_none_iff_exists'.mp (hrec r hr (by rw [hkr]; nofun) hcur)
    have hfresh : v.freshShown v.fsu v.fsu.table i r = match v.fsu.speedCopy.selected with
        | some n => some (if actualPasses r.fixed.tolerance n w then w else wordOf (v.fsu.speedCopy.d.getD 0))
        | none => some w := by
      unfold State.freshShown
      rw [hkr, hw]
      obtain h | h := hcur <;> rw [h] <;> cases v.fsu.speedCopy.selected <;> rfl
    show q.tolerates _
    unfold Record.tolerates
    rw [hshown _ hfresh, hd.fixed]
    cases hsel : v.fsu.speedCopy.selected with
    | none => exact ⟨w, rfl, nofun⟩
    | some n =>
      refine ⟨_, rfl, fun n' hn => ?_⟩
      split
      next hp =>
        rw [actualPasses, Bool.and_eq_true] at hp
        exact Option.some.inj hn ▸ (withinTolerance_iff ..).mp hp.2
      next => exact hs.tolerated (hsel.trans hn) (htol r hr hkr)

theorem ActualLaw.entered (v : State) : ActualLaw .running v.fsuEntry.fsu := by
  have hcopy : v.fsuEntry.fsu.speedCopy = v.blankFsu.speedCopy := by rw [State.fsuEntry_fsu]; rfl
  refine ⟨fun _ q hq hk _ => ?_, fun _ q hq hk hs => ?_⟩ <;> obtain ⟨i, j, rfl⟩ := State.mem_fsuEntry hq
  · rw [hcopy]
    show v.freshShown _ _ _ _ = _
    unfold State.freshShown
    rw [show (v.newRecord i).fixed.kind = .actual from hk,
      State.newRecord_unset (by rw [show (v.newRecord i).fixed.kind = .actual from hk]; nofun)]
    rfl
  · have h : (v.newRecord i).state = .unset :=
      State.newRecord_unset (by rw [show (v.newRecord i).fixed.kind = .actual from hk]; nofun)
    obtain hs | hs := hs <;> nomatch h.symm.trans hs

theorem FsuMove.actualLaw {s : State} {op : OpState} {f : Fsu} (h : FsuMove s op f) (ht : TableLaw s.fsu.table)
    (hrec : Recorded s.fsu.table) (hs : SpeedLaw s) (hl : ActualLaw s.csu.op s.fsu) : ActualLaw op f := by
  have htol : ∀ r ∈ s.fsu.table, r.fixed.kind = .actual → 5 ≤ r.fixed.tolerance := fun r hr hk =>
    (ht.tolerance r hr hk).1
  cases h with
  | same => exact hl
  | untabled _ hop => exact .outside (by rintro rfl; nomatch hop)
  | reset => exact .outside nofun
  | entered => exact .entered _
  | enteredStandby | parked => exact .outside nofun
  | returned hv hop =>
    exact .returned (by rw [hv]; exact hs.speedCopy) (by rw [hv]; exact hrec) (by rw [hv]; exact htol)
  | speed hc => exact hl.speeded htol (hs.inFlight _ hc)
  | delivered =>
    refine Fsu.delivered_ind (P := ActualLaw s.csu.op) ?_ fun h => ?_
    · exact hl.redrawn (by decide) (Fsu.aspectShown_table ..) rfl
    · exact ActualLaw.withPr (h.redrawn (by decide) (Fsu.ceiled_table ..) rfl) _
  | slots => exact hl.redrawn (by decide) (showSlots_table ..) rfl
  | relit => exact hl.redrawn (by decide) (Fsu.relit_table ..) rfl
  | lampTested => exact hl.redrawn (by decide) (Fsu.lampTested_table ..) rfl
  | @written i r w hop hr hk =>
    have h : ActualLaw s.csu.op (s.fsu.withRecord (decide (s.csu.op = .running)) i r.fixed.kind
        (s.writtenRecord r w (s.judge r w))) := by
      refine hl.withRecord (by rfl) (fun _ _ hst => ?_) (fun hrun hkr _ => ?_) _
      · simp only [State.writtenRecord] at hst
        split at hst <;> obtain h | h := hst <;> nomatch h
      · have hj : s.judge r w = judgeActual s.fsu.speedCopy r.fixed.tolerance w := by unfold State.judge; rw [hkr]
        obtain ⟨x, hx, hwithin⟩ := judgeActual_tolerated hs.speedCopy (htol r (List.mem_of_getElem? hr) hkr) w
        rw [hj]
        exact ⟨x, (if_pos hrun).trans hx, hwithin⟩
    rw [State.fieldWrite_fsu _ hr hk]
    dsimp only
    split
    · exact ⟨h.follows, h.within⟩
    · exact h
  | @stale v i r hv hop hr hst hage =>
    have h : ActualLaw s.csu.op (s.fsu.withRecord true i r.fixed.kind
        { r with state := .stale, age := none, shown := v.staleShown { r with state := .stale, age := none } }) := by
      refine hl.withRecord (by rfl) (fun _ hkr _ => ?_) (fun _ _ hcur => ?_) _
      · unfold State.staleShown
        rw [hv]
        dsimp only
        rw [hkr]
        rfl
      · obtain h | h := hcur <;> nomatch h
    rw [State.goStale_fsu, hv]
    exact ⟨h.follows, h.within⟩
  | @ageStopped i r hop hr hst =>
    have hmem := List.mem_of_getElem? hr
    refine ⟨fun hop q hq hk hs => ?_, fun hop q hq hk hs => ?_⟩ <;>
      obtain hq | rfl := List.mem_or_eq_of_mem_set hq
    · exact hl.follows hop q hq hk hs
    · exact hl.follows hop r hmem hk hs
    · exact hl.within hop q hq hk hs
    · exact hl.within hop r hmem hk hs

end Sys2Proof.Machine
end

section
/-! SUPPORT and PROOF. What every step keeps of the ASPECT field and of what is in flight between the TCU and the FSU, and
O59. -/

namespace Sys2Proof.Machine

/-! ## The numbers in flight -/

/-- The number that a message delivers. -/
def Msg.delivered : Msg → Option Nat
  | .delivery n _ => some n
  | _ => none

/-- The number that the FSU found for the word on the ASPECT record that a message carries. -/
def Msg.judged : Msg → Option (Option Nat)
  | .writtenAspect _ n | .aspectStale _ n => some n
  | _ => none

theorem lastDelivery_eq (ms : List Msg) : lastDelivery ms = (ms.filterMap Msg.delivered).getLast? := by
  unfold lastDelivery
  congr 2

theorem lastJudged_eq (ms : List Msg) : lastJudged ms = (ms.filterMap Msg.judged).getLast? := by
  unfold lastJudged
  congr 2

theorem filterMap_steers {α : Type} {g : Msg → Option α} (hg : ∀ m, Msg.steers m = false → g m = none) (ms : List Msg) :
    (ms.filter Msg.steers).filterMap g = ms.filterMap g := by
  induction ms with
  | nil => rfl
  | cons m ms ih =>
    rw [List.filter_cons]
    cases hm : Msg.steers m with
    | true => simp [List.filterMap_cons, ih]
    | false => simp [hg m hm, ih]

/-- Only steering hand-overs count for the latest delivery and the latest number found. -/
theorem lastDelivery_steering (s : State) : lastDelivery s.inFlight = lastDelivery s.steering := by
  rw [lastDelivery_eq, lastDelivery_eq, State.steering,
    filterMap_steers fun m hm => by cases m <;> first | rfl | nomatch hm]

theorem lastJudged_steering (s : State) : lastJudged s.inFlight = lastJudged s.steering := by
  rw [lastJudged_eq, lastJudged_eq, State.steering,
    filterMap_steers fun m hm => by cases m <;> first | rfl | nomatch hm]

theorem lastDelivery_append (ms : List Msg) {xs : List Msg} (h : xs.filterMap Msg.delivered = []) :
    lastDelivery (ms ++ xs) = lastDelivery ms := by
  rw [lastDelivery_eq, lastDelivery_eq, List.filterMap_append, h, List.append_nil]

theorem lastDelivery_concat (ms : List Msg) (n c : Nat) : lastDelivery (ms ++ [.delivery n c]) = some n := by
  rw [lastDelivery_eq, List.filterMap_append]
  exact List.getLast?_concat

theorem lastJudged_append (ms : List Msg) {xs : List Msg} (h : xs.filterMap Msg.judged = []) :
    lastJudged (ms ++ xs) = lastJudged ms := by
  rw [lastJudged_eq, lastJudged_eq, List.filterMap_append, h, List.append_nil]

/-- Taking the first of a path leaves the others of it. -/
theorem takeFirst_filterMap {α β : Type} {p : Msg → Option α} {g : Msg → Option β} {ms rest : List Msg} {x : α}
    (h : takeFirst p ms = some (x, rest)) (hpg : ∀ m, p m = none → g m = none) :
    ∃ m, p m = some x ∧ ms.filterMap g = (g m).toList ++ rest.filterMap g := by
  induction ms generalizing x rest with
  | nil => cases h
  | cons m ms ih =>
    unfold takeFirst at h
    split at h
    next y hy =>
      simp only [Option.some.injEq, Prod.mk.injEq] at h
      obtain ⟨rfl, rfl⟩ := h
      refine ⟨m, hy, ?_⟩
      rw [List.filterMap_cons]
      cases g m <;> rfl
    next hm =>
      cases ht : takeFirst p ms with
      | none => simp [ht] at h
      | some z =>
        simp only [ht, Option.map_some, Option.some.injEq, Prod.mk.injEq] at h
        obtain ⟨rfl, rfl⟩ := h
        obtain ⟨m', hp, he⟩ := ih ht
        refine ⟨m', hp, ?_⟩
        rw [List.filterMap_cons, List.filterMap_cons, hpg m hm]
        exact he

/-- Taking from a path without a number leaves the numbers. -/
theorem takeFirst_filterMap_of_none {α β : Type} {p : Msg → Option α} {g : Msg → Option β} {ms rest : List Msg} {x : α}
    (h : takeFirst p ms = some (x, rest)) (hpg : ∀ m, p m ≠ none → g m = none) : rest.filterMap g = ms.filterMap g := by
  induction ms generalizing x rest with
  | nil => cases h
  | cons m ms ih =>
    unfold takeFirst at h
    split at h
    next y hy =>
      simp only [Option.some.injEq, Prod.mk.injEq] at h
      obtain ⟨rfl, rfl⟩ := h
      rw [List.filterMap_cons, hpg m (by rw [hy]; nofun)]
    next hm =>
      cases ht : takeFirst p ms with
      | none => simp [ht] at h
      | some z =>
        simp only [ht, Option.map_some, Option.some.injEq, Prod.mk.injEq] at h
        obtain ⟨rfl, rfl⟩ := h
        rw [List.filterMap_cons, List.filterMap_cons, ih ht]

/-! ## The displayed aspect (R89) -/

/-- With a loss aspect in the image and a received aspect there is a displayed aspect. -/
theorem deriveDisplayed_ne_none {received written loss : Option Aspect} (hr : received ≠ none) (hl : loss ≠ none)
    (uncoded : Bool) : deriveDisplayed uncoded received written loss ≠ none := by
  obtain ⟨r, rfl⟩ := Option.ne_none_iff_exists'.mp hr
  cases uncoded <;> cases written <;> simp [deriveDisplayed, uncodedDisplay, codedDisplay, hl]

/-- An operation of the TCU keeps that there is a received aspect, and leaves the displayed aspect or shows one. -/
structure Tcu.Advances (t u : Tcu) : Prop where
  aspects : u.aspects = t.aspects
  received : lossAspect t.aspects ≠ none → t.received ≠ none → u.received ≠ none
  displayed : lossAspect t.aspects ≠ none → t.received ≠ none → u.displayed = t.displayed ∨ u.displayed ≠ none

theorem Tcu.Advances.recompute {t u : Tcu} (aspects : u.aspects = t.aspects)
    (received : lossAspect t.aspects ≠ none → t.received ≠ none → u.received ≠ none) : t.Advances u.recompute :=
  ⟨aspects, received, fun hl hr => .inr (deriveDisplayed_ne_none (received hl hr) (by rw [aspects]; exact hl) _)⟩

theorem Tcu.Advances.recomputeFrom {t u : Tcu} (aspects : u.aspects = t.aspects)
    (received : lossAspect t.aspects ≠ none → t.received ≠ none → u.received ≠ none)
    (displayed : u.displayed = t.displayed) : t.Advances (Tcu.recomputeFrom t u) := by
  unfold Tcu.recomputeFrom
  split
  · exact ⟨aspects, received, fun _ _ => .inl displayed⟩
  · exact .recompute aspects received

theorem Tcu.receive_received {t : Tcu} {a : Option Aspect} (ha : a ≠ none) (ht : t.received ≠ none) :
    (t.receive a).received ≠ none := by
  unfold Tcu.receive
  split
  · exact ht
  · exact ha

@[simp] theorem Tcu.receive_displayed (t : Tcu) (a : Option Aspect) : (t.receive a).displayed = t.displayed := by
  unfold Tcu.receive
  split <;> rfl

@[simp] theorem Tcu.confirm_displayed (t : Tcu) (code : BitVec 4) : (t.confirm code).1.displayed = t.displayed := by
  unfold Tcu.confirm
  split
  · rfl
  · dsimp only
    split
    · exact Tcu.receive_displayed _ _
    · split
      · rfl
      · exact Tcu.receive_displayed _ _

theorem Tcu.confirm_received {t : Tcu} (hl : lossAspect t.aspects ≠ none) (hr : t.received ≠ none) (code : BitVec 4) :
    (t.confirm code).1.received ≠ none := by
  unfold Tcu.confirm
  split
  · exact hr
  · dsimp only
    split
    · exact Tcu.receive_received nofun hr
    · split
      · exact hr
      · exact Tcu.receive_received hl hr

/-- An operation of the TCU that takes no word of the ASPECT record. -/
def TcuAdvanced (s t : State) : Prop := ∃ u rs, s.tcu.Advances u ∧ t = s.tcuCommit u rs

theorem State.strobe_advanced (s : State) (code : BitVec 4) : TcuAdvanced s (s.strobe code) := by
  unfold State.strobe
  dsimp only
  split
  · refine ⟨_, _, .recomputeFrom (by simp) (fun hl hr => ?_) (by simp), rfl⟩
    exact Tcu.confirm_received (by exact hl) (by exact hr) _
  · exact ⟨_, _, by exact ⟨rfl, fun _ h => h, fun _ _ => .inl rfl⟩, rfl⟩

theorem Tcu.toLost_advances {t u : Tcu} (haspects : u.aspects = t.aspects) (hreceived : u.received = t.received)
    (hdisplayed : u.displayed = t.displayed) : t.Advances (Tcu.recomputeFrom t u.toLost.1) := by
  refine .recomputeFrom (by simpa using haspects) (fun hl hr => ?_) ?_
  · exact Tcu.receive_received (by rw [haspects]; exact hl) (by exact hreceived ▸ hr)
  · rw [← hdisplayed]
    exact Tcu.receive_displayed _ _

theorem State.loseStrobes_advanced (s : State) : TcuAdvanced s s.loseStrobes := by
  unfold State.loseStrobes
  dsimp only
  split
  · split
    · exact ⟨_, _, by exact ⟨rfl, fun _ h => h, fun _ _ => .inl rfl⟩, rfl⟩
    · exact ⟨_, _, Tcu.toLost_advances (by rfl) (by rfl) (by rfl), rfl⟩
  · exact ⟨_, _, Tcu.toLost_advances (by rfl) (by rfl) (by rfl), rfl⟩
  all_goals exact ⟨_, _, by exact ⟨rfl, fun _ h => h, fun _ _ => .inl rfl⟩, rfl⟩

theorem State.endHold_advanced (s : State) : TcuAdvanced s s.endHold :=
  ⟨_, _, Tcu.toLost_advances rfl rfl rfl, rfl⟩

theorem State.changeTerritory_advanced (s : State) (b : Bool) : TcuAdvanced s (s.changeTerritory b) := by
  unfold State.changeTerritory
  dsimp only
  split
  · exact ⟨_, _, .recompute (by rfl) (by exact fun _ h => h), rfl⟩
  · exact ⟨_, _, .recompute (by rfl) (by exact fun h _ => h), rfl⟩

/-! ## The ASPECT field (R91–R93) -/

/-- The shown values of the ASPECT rows are those of before. -/
def AspectRows (old new : List Record) : Prop :=
  ∀ q ∈ new, q.fixed.kind = .aspect → ∃ r ∈ old, r.fixed.kind = .aspect ∧ q.shown = r.shown

theorem AspectRows.refl (t : List Record) : AspectRows t t := fun q hq hk => ⟨q, hq, hk, rfl⟩

theorem Kind.redrawn.aspectRows {k : Kind} {old new : List Record} (h : k.redrawn old new) (hk : k ≠ .aspect) :
    AspectRows old new := fun q hq hkq => by
  obtain ⟨r, hr, hrow⟩ := forall₂_mem h hq
  obtain rfl := hrow.eq fun hk' => hk (hk'.symm.trans (hrow.fixed ▸ hkq))
  exact ⟨q, hr, hkq, rfl⟩

/-- A state with the TCU of another, and the latest delivery and the latest number found for the record. -/
structure AspectQuiet (s t : State) : Prop where
  tcu : t.tcu = s.tcu
  delivery : lastDelivery t.inFlight = lastDelivery s.inFlight
  judged : lastJudged t.inFlight = lastJudged s.inFlight

theorem Unsteered.quiet {s t : State} (h : Unsteered s t) : AspectQuiet s t :=
  ⟨h.tcu, by rw [lastDelivery_steering, h.steering, ← lastDelivery_steering],
    by rw [lastJudged_steering, h.steering, ← lastJudged_steering]⟩

/-- Hand-overs without a number are sent. -/
theorem AspectQuiet.sent {s t : State} {xs : List Msg} (htcu : t.tcu = s.tcu) (h : t.steering = s.steering ++ xs)
    (hd : xs.filterMap Msg.delivered = []) (hj : xs.filterMap Msg.judged = []) : AspectQuiet s t :=
  ⟨htcu, by rw [lastDelivery_steering, h, lastDelivery_append _ hd, ← lastDelivery_steering],
    by rw [lastJudged_steering, h, lastJudged_append _ hj, ← lastJudged_steering]⟩

/-- A speed copy is taken. -/
theorem AspectQuiet.speedTaken {s t : State} {c : SpeedCopy} {rest : List Msg} (htcu : t.tcu = s.tcu)
    (h : takeFirst pickSpeed s.inFlight = some (c, rest))
    (ht : t.steering = ({ s with inFlight := rest } : State).steering) : AspectQuiet s t := by
  have hpick : ∀ {α : Type} {g : Msg → Option α}, (∀ c, g (.speed c) = none) →
      rest.filterMap g = s.inFlight.filterMap g := fun hg => takeFirst_filterMap_of_none h fun m hm => by
    obtain ⟨x, hx⟩ := Option.ne_none_iff_exists'.mp hm
    rw [pickSpeed_inv hx, hg]
  refine ⟨htcu, ?_, ?_⟩
  · rw [lastDelivery_steering, ht, ← lastDelivery_steering, lastDelivery_eq, lastDelivery_eq]
    exact congrArg _ (hpick fun _ => rfl)
  · rw [lastJudged_steering, ht, ← lastJudged_steering, lastJudged_eq, lastJudged_eq]
    exact congrArg _ (hpick fun _ => rfl)

/-- Nothing of the TCU has changed, and the ASPECT rows show what they may. -/
theorem AspectShownLaw.quiet {s t : State} (hl : AspectShownLaw s) (h : AspectQuiet s t)
    (hop : t.csu.op.hasTable = true → s.csu.op.hasTable = true)
    (rows : t.csu.op = .running → lossAspect s.tcu.aspects ≠ none → lastDelivery s.inFlight = none →
      ∀ q ∈ t.fsu.table, q.fixed.kind = .aspect →
        q.shown = s.tcu.displayed.map (fun a => BitVec.ofNat 16 a.number) ∨
        ∃ n, lastJudged s.inFlight = some n ∧ q.shown = n.map (BitVec.ofNat 16)) : AspectShownLaw t := by
  refine ⟨fun ht => ?_, fun ht => ?_, fun hrun => ?_⟩
  · rw [h.tcu]
    exact hl.received (hop ht)
  · rw [h.tcu, h.delivery]
    exact hl.delivered (hop ht)
  · rw [h.tcu, h.delivery, h.judged]
    exact rows hrun

/-- Nothing of the TCU has changed, nor the operating state, nor the ASPECT rows. -/
theorem AspectShownLaw.still {s t : State} (hl : AspectShownLaw s) (h : AspectQuiet s t) (hop : t.csu.op = s.csu.op)
    (rows : AspectRows s.fsu.table t.fsu.table) : AspectShownLaw t :=
  hl.quiet h (hop ▸ id) fun hrun hloss hd q hq hk => by
    obtain ⟨r, hr, hkr, hs⟩ := rows q hq hk
    rw [hs]
    exact hl.shown (hop ▸ hrun) hloss hd r hr hkr

/-- The clock has no part in it. -/
theorem AspectShownLaw.at {s : State} (hl : AspectShownLaw s) (n : Nat) : AspectShownLaw { s with now := n } :=
  hl.still ⟨rfl, rfl, rfl⟩ rfl (.refl _)

theorem AspectShownLaw.outside {s : State} (hop : s.csu.op.hasTable = false) : AspectShownLaw s := by
  refine ⟨fun h => ?_, fun h => ?_, fun h => ?_⟩
  · exact absurd (hop.symm.trans h) nofun
  · exact absurd (hop.symm.trans h) nofun
  · rw [h] at hop
    nomatch hop

/-- Where a commit of the TCU delivers, the last delivery carries the number; where not, the law is to hold as it is. -/
theorem AspectShownLaw.commit {s : State} {u : Tcu} {rs : List FluRequest} {again : Bool}
    (received : s.csu.op.hasTable = true → lossAspect u.aspects ≠ none → u.received ≠ none)
    (displayed : s.csu.op.hasTable = true → lossAspect u.aspects ≠ none → delivers again s.tcu u = true →
      u.displayed ≠ none)
    (delivered : s.csu.op.hasTable = true → lossAspect u.aspects ≠ none → delivers again s.tcu u = false →
      ∀ n, lastDelivery s.inFlight = some n → u.displayed.map Aspect.number = some n)
    (shown : s.csu.op = .running → lossAspect u.aspects ≠ none → delivers again s.tcu u = false →
      lastDelivery s.inFlight = none → ∀ r ∈ s.fsu.table, r.fixed.kind = .aspect →
        r.shown = u.displayed.map (fun a => BitVec.ofNat 16 a.number) ∨
        ∃ n, lastJudged s.inFlight = some n ∧ r.shown = n.map (BitVec.ofNat 16)) :
    AspectShownLaw (s.tcuCommit u rs again) := by
  cases hdel : delivers again s.tcu u with
  | false =>
    have hq : (s.tcuCommit u rs again).steering = s.steering := by
      rw [State.tcuCommit_steering, hdel]
      simp
    have hd : lastDelivery (s.tcuCommit u rs again).inFlight = lastDelivery s.inFlight := by
      rw [lastDelivery_steering, hq, ← lastDelivery_steering]
    have hj : lastJudged (s.tcuCommit u rs again).inFlight = lastJudged s.inFlight := by
      rw [lastJudged_steering, hq, ← lastJudged_steering]
    refine ⟨?_, ?_, ?_⟩
    · simpa using received
    · rw [hd]
      simpa using fun ht hloss => delivered ht hloss hdel
    · rw [hd, hj]
      simpa using fun hrun hloss => shown hrun hloss hdel
  | true =>
    have hlast : s.csu.op.hasTable = true → lossAspect u.aspects ≠ none →
        lastDelivery (s.tcuCommit u rs again).inFlight = u.displayed.map Aspect.number := fun ht hloss => by
      obtain ⟨a, ha⟩ := Option.ne_none_iff_exists'.mp (displayed ht hloss hdel)
      rw [lastDelivery_steering, State.tcuCommit_steering, hdel, if_pos rfl, deliveries_steers, ha]
      exact lastDelivery_concat _ _ _
    refine ⟨?_, fun ht hloss n hn => ?_, fun hrun hloss hnone => ?_⟩
    · simpa using received
    · rw [State.tcuCommit_csu] at ht
      rw [State.tcuCommit_tcu] at hloss ⊢
      exact (hlast ht hloss).symm.trans hn
    · rw [State.tcuCommit_csu] at hrun
      rw [State.tcuCommit_tcu] at hloss
      have ht : s.csu.op.hasTable = true := by rw [hrun]; rfl
      rw [hlast ht hloss, Option.map_eq_none_iff] at hnone
      exact absurd hnone (displayed ht hloss hdel)

/-- What shows as an aspect turns on its number. -/
theorem map_ofNat_number {a b : Option Aspect} (h : a.map Aspect.number = b.map Aspect.number) :
    a.map (fun x => BitVec.ofNat 16 x.number) = b.map (fun x => BitVec.ofNat 16 x.number) := by
  have := congrArg (Option.map (BitVec.ofNat 16)) h
  simpa [Function.comp_def] using this

theorem delivers_eq_false {again : Bool} {t u : Tcu} (h : delivers again t u = false) :
    again = false ∧ t.displayed.map Aspect.number = u.displayed.map Aspect.number := by
  have hd : ¬ delivers again t u = true := by rw [h]; nofun
  rw [delivers_iff, not_or, not_not] at hd
  exact ⟨by simpa using hd.1, hd.2⟩

theorem AspectShownLaw.advanced {s t : State} (hl : AspectShownLaw s) (h : TcuAdvanced s t) : AspectShownLaw t := by
  obtain ⟨u, rs, hu, rfl⟩ := h
  refine .commit (fun ht hloss => ?_) (fun ht hloss hdel => ?_) (fun ht hloss hdel n hn => ?_)
    fun hrun hloss hdel hd r hr hk => ?_ <;> rw [hu.aspects] at hloss
  · exact hu.received hloss (hl.received ht hloss)
  · refine (hu.displayed hloss (hl.received ht hloss)).elim (fun he => ?_) id
    rw [delivers_iff, he] at hdel
    obtain h | h := hdel
    · nomatch h
    · exact absurd rfl h
  · rw [← (delivers_eq_false hdel).2]
    exact hl.delivered ht hloss n hn
  · rw [← map_ofNat_number (delivers_eq_false hdel).2]
    exact hl.shown hrun hloss hd r hr hk

/-- The TCU takes the oldest word on the ASPECT record (R89, R91): where the latest number found for the record is the one
it carried, it is that of the aspect now displayed, or this one is delivered. -/
theorem AspectShownLaw.taken {s : State} {i : AspectInput} {n : Option Nat} {rest : List Msg} {u : Tcu}
    (hl : AspectShownLaw s) (h : takeFirst pickAspectInput s.inFlight = some (i, rest))
    (hn : ∀ m, pickAspectInput m = some i → m.judged = some n) (haspects : u.aspects = s.tcu.aspects)
    (hreceived : u.received = s.tcu.received) : AspectShownLaw ({ s with inFlight := rest }.tcuTake u n) := by
  have hd : lastDelivery rest = lastDelivery s.inFlight := by
    rw [lastDelivery_eq, lastDelivery_eq, takeFirst_filterMap_of_none h]
    intro m hm
    cases m <;> first | rfl | exact absurd rfl hm
  obtain ⟨m, hpick, hj⟩ := takeFirst_filterMap (g := Msg.judged) h (by intro m hm; cases m <;> first | rfl | nomatch hm)
  rw [hn m hpick] at hj
  unfold State.tcuTake
  refine .commit (fun ht hloss => ?_) (fun ht hloss _ => ?_) (fun ht hloss hdel k hk => ?_)
    fun hrun hloss hdel hnone r hr hk => ?_ <;>
    rw [Tcu.recompute_aspects, haspects] at hloss
  · exact hreceived ▸ hl.received ht hloss
  · exact deriveDisplayed_ne_none (hreceived ▸ hl.received ht hloss) (haspects ▸ hloss) _
  · rw [← (delivers_eq_false hdel).2]
    exact hl.delivered ht hloss k (hd ▸ hk)
  · obtain ⟨hagain, hnum⟩ := delivers_eq_false hdel
    obtain hs | ⟨k, hk', hs⟩ := hl.shown hrun hloss (hd ▸ hnone) r hr hk
    · rw [← map_ofNat_number hnum]
      exact .inl hs
    · rw [lastJudged_eq, hj] at hk'
      cases hrest : rest.filterMap Msg.judged with
      | nil =>
        rw [hrest] at hk'
        obtain rfl : n = k := by simpa using hk'
        have hder : numberOf u.derive = n := by simpa using hagain
        refine .inl (hs.trans ?_)
        rw [← hder]
        show _ = u.derive.map _
        simp [numberOf, Function.comp_def]
      | cons y ys =>
        refine .inr ⟨k, ?_, hs⟩
        show lastJudged rest = some k
        rw [lastJudged_eq, hrest]
        rw [hrest] at hk'
        simpa using hk'

/-- A displayed aspect's delivery shows its number in the ASPECT rows (R92). -/
theorem Fsu.delivered_aspect {f : Fsu} {x : Nat × Nat} : ∀ q ∈ (f.delivered true x).table, q.fixed.kind = .aspect →
    q.shown = some (wordOf x.1) := by
  refine Fsu.delivered_ind (P := fun g => ∀ q ∈ g.table, q.fixed.kind = .aspect → q.shown = some (wordOf x.1))
    (fun q hq hk => ?_) fun h q hq hk => ?_
  · obtain ⟨r, -, rfl⟩ := List.mem_map.mp hq
    have hkr : r.fixed.kind = .aspect := (recheckAspect_row x.1 r).fixed ▸ hk
    unfold recheckAspect
    rw [if_pos hkr]
    rfl
  · obtain ⟨r, hr, hkr, hs⟩ := (Fsu.withPr_table _ _).aspectRows (by decide) q hq hk
    obtain ⟨r', hr', hkr', hs'⟩ := (Fsu.ceiled_table _ _ _).aspectRows (by decide) r hr hkr
    rw [hs, hs']
    exact h r' hr' hkr'

/-- The FSU takes the oldest delivery (R92): with it the last is gone, or the last stays. -/
theorem AspectShownLaw.delivery {s : State} {x : Nat × Nat} {rest : List Msg} (hl : AspectShownLaw s)
    (h : takeFirst pickDelivery s.inFlight = some (x, rest)) : AspectShownLaw
      ({ s with inFlight := rest }.fsuCommit (s.fsu.delivered (decide (s.csu.op = OpState.running)) x)) := by
  obtain ⟨m, hpick, hd⟩ := takeFirst_filterMap (g := Msg.delivered) h (by intro m hm; cases m <;> first | rfl | nomatch hm)
  have hm : m.delivered = some x.1 := by
    cases m <;> simp [pickDelivery] at hpick
    rw [← hpick]
    rfl
  rw [hm] at hd
  have hdt : ∀ f, lastDelivery (({ s with inFlight := rest } : State).fsuCommit f).inFlight =
      (rest.filterMap Msg.delivered).getLast? := fun f => by
    rw [lastDelivery_steering, State.fsuCommit_steering, ← lastDelivery_steering, lastDelivery_eq]
  have hds : lastDelivery s.inFlight = (x.1 :: rest.filterMap Msg.delivered).getLast? := by
    rw [lastDelivery_eq, hd]
    rfl
  refine ⟨by simpa using hl.received, fun ht hloss n hn => ?_, fun hrun hloss hnone q hq hk => ?_⟩
  · rw [State.fsuCommit_tcu] at hloss ⊢
    rw [State.fsuCommit_csu] at ht
    refine hl.delivered ht hloss n ?_
    rw [hdt] at hn
    rw [hds]
    cases hrest : rest.filterMap Msg.delivered with
    | nil => rw [hrest] at hn; nomatch hn
    | cons y ys =>
      rw [hrest] at hn
      simpa using hn
  · rw [State.fsuCommit_tcu] at hloss ⊢
    rw [State.fsuCommit_csu] at hrun
    rw [hdt, List.getLast?_eq_none_iff] at hnone
    rw [hnone] at hds
    have hnum := hl.delivered (by rw [hrun]; rfl) hloss x.1 hds
    rw [State.fsuCommit_fsu, decide_eq_true hrun] at hq
    refine .inl ((Fsu.delivered_aspect q hq hk).trans ?_)
    have := congrArg (Option.map (BitVec.ofNat 16)) hnum
    simpa [Function.comp_def, wordOf] using this.symm

/-! ## The rows a write or an expiry changes -/

theorem eq_of_countP_le_one {α : Type} {p : α → Bool} {l : List α} (h : l.countP p ≤ 1) {a b : α} (ha : a ∈ l)
    (hb : b ∈ l) (pa : p a = true) (pb : p b = true) : a = b := by
  rw [List.countP_eq_length_filter] at h
  have ha := List.mem_filter.mpr ⟨ha, pa⟩
  have hb := List.mem_filter.mpr ⟨hb, pb⟩
  match hf : l.filter p, h, ha, hb with
  | [x], _, ha, hb => exact (List.mem_singleton.mp ha).trans (List.mem_singleton.mp hb).symm

theorem Fsu.withRecord_aspectRows {f : Fsu} {i : Nat} {q : Record} {k : Kind} (hk : q.fixed.kind ≠ .aspect) (b : Bool) :
    AspectRows f.table (f.withRecord b i k q).table := by
  have hset : AspectRows f.table (f.table.set i q) := fun x hx hkx => by
    obtain hx | rfl := List.mem_or_eq_of_mem_set hx
    · exact ⟨x, hx, hkx, rfl⟩
    · exact absurd hkx hk
  unfold Fsu.withRecord
  split
  · intro x hx hkx
    obtain ⟨r, hr, hkr, hs⟩ := (Fsu.withPr_table _ b).aspectRows (by decide) x hx hkx
    obtain ⟨r', hr', hkr', hs'⟩ := hset r hr hkr
    exact ⟨r', hr', hkr', hs.trans hs'⟩
  · exact hset

/-- The ASPECT record is the only one of its kind (R4). -/
theorem TableLaw.aspect_unique {f : Fsu} {i : Nat} {r q : Record} (ht : TableLaw f.table) (hr : f.table[i]? = some r)
    (hf : q.fixed = r.fixed) (hk : r.fixed.kind = .aspect) (b : Bool) :
    ∀ x ∈ (f.withRecord b i .aspect q).table, x.fixed.kind = .aspect → x = q := by
  intro x hx hkx
  have hx : x ∈ f.table.set i q := hx
  have hq : q ∈ f.table.set i q := List.mem_set (List.getElem?_eq_some_iff.mp hr).1 q
  have hone := (ht.congr (map_set_fixed hr hf)).single .aspect (by simp)
  exact eq_of_countP_le_one hone hx hq (by simpa using hkx) (by simpa [hf] using hk)

/-- A word on the ASPECT record is sent to the TCU with the number that the record shows. -/
theorem AspectShownLaw.judged {s t : State} {m : Msg} {n : Option Nat} (hl : AspectShownLaw s)
    (hsteer : t.steering = s.steering ++ [m]) (hm : m.judged = some n) (htcu : t.tcu = s.tcu) (hop : t.csu.op = s.csu.op)
    (rows : t.csu.op = .running → s.tcu.received ≠ none → lossAspect s.tcu.aspects ≠ none → ∀ q ∈ t.fsu.table,
      q.fixed.kind = .aspect → q.shown = n.map (BitVec.ofNat 16)) : AspectShownLaw t := by
  have hd : lastDelivery t.inFlight = lastDelivery s.inFlight := by
    rw [lastDelivery_steering, hsteer, lastDelivery_append, ← lastDelivery_steering]
    cases m <;> first | rfl | nomatch hm
  refine ⟨?_, ?_, fun hrun hloss _ q hq hk => .inr ⟨n, ?_, ?_⟩⟩
  · rw [htcu, hop]
    exact hl.received
  · rw [htcu, hop, hd]
    exact hl.delivered
  · rw [lastJudged_steering, hsteer, lastJudged_eq, List.filterMap_append]
    simp [hm]
  · rw [htcu] at hloss
    exact rows hrun (hl.received (by rw [← hop, hrun]; rfl) hloss) hloss q hq hk

/-- What a judged ASPECT write shows is the number found for it (R91). -/
theorem judgeAspect_shown {t : Tcu} {w : Word} (h : wouldDisplay t w ≠ none) :
    (judgeAspect t w).word = (numberOf (wouldDisplay t w)).map (BitVec.ofNat 16) := by
  obtain ⟨a, ha⟩ := Option.ne_none_iff_exists'.mp h
  unfold judgeAspect
  rw [ha]
  dsimp only
  split
  next hw => exact congrArg some hw.symm
  next => rfl

theorem AspectShownLaw.fieldWrite {s : State} (hl : AspectShownLaw s) (ht : TableLaw s.fsu.table) {i : Nat} {r : Record}
    (hr : s.fsu.table[i]? = some r) (hk : r.fixed.kind ≠ .faultSlot) (w : Word) : AspectShownLaw (s.fieldWrite i w) := by
  have hsteer := State.fieldWrite_steering w hr hk
  have hfsu : (s.fieldWrite i w).fsu.table = (s.fsu.withRecord (decide (s.csu.op = .running)) i r.fixed.kind
      (s.writtenRecord r w (s.judge r w))).table := by
    rw [State.fieldWrite_fsu w hr hk]
    dsimp only
    split <;> rfl
  by_cases hka : r.fixed.kind = .aspect
  · rw [if_pos hka] at hsteer
    refine hl.judged hsteer rfl (by simp) (by simp) fun hrun hrec hloss q hq hkq => ?_
    rw [hfsu, hka] at hq
    rw [ht.aspect_unique hr (by rfl) hka _ q hq hkq]
    have hj : s.judge r w = judgeAspect s.tcu w := by unfold State.judge; rw [hka]
    have hrun' : s.csu.op = .running := by simpa using hrun
    rw [hj]
    refine (if_pos hrun').trans (judgeAspect_shown ?_)
    exact deriveDisplayed_ne_none hrec hloss _
  · rw [if_neg hka, List.append_nil] at hsteer
    refine hl.still (Unsteered.quiet ⟨hsteer, by simp, by simp, by simp⟩) (by simp) ?_
    rw [hfsu]
    exact Fsu.withRecord_aspectRows (by exact hka) _

theorem AspectShownLaw.goStale {s : State} (hl : AspectShownLaw s) (ht : TableLaw s.fsu.table) {i : Nat} {r : Record}
    (hr : s.fsu.table[i]? = some r) : AspectShownLaw (s.goStale i r) := by
  have hsteer := State.goStale_steering s i r
  have hfsu := State.goStale_fsu s i r
  by_cases hka : r.fixed.kind = .aspect
  · rw [if_pos hka] at hsteer
    refine hl.judged hsteer rfl (by simp) (by simp) fun hrun hrec hloss q hq hkq => ?_
    rw [hfsu, hka] at hq
    rw [ht.aspect_unique hr (by rfl) hka true q hq hkq]
    show s.staleShown _ = _
    unfold State.staleShown
    dsimp only
    rw [hka]
    exact rfl
  · rw [if_neg hka, List.append_nil] at hsteer
    refine hl.still (Unsteered.quiet ⟨hsteer, by simp, by simp, by simp⟩) (by simp) ?_
    rw [hfsu]
    exact Fsu.withRecord_aspectRows (by exact hka) _

/-- A return from STANDBY shows the displayed aspect (R10). -/
theorem State.returnToRunning_aspect (s : State) : ∀ q ∈ s.returnToRunning.fsu.table, q.fixed.kind = .aspect →
    q.shown = s.tcu.displayed.map (fun a => BitVec.ofNat 16 a.number) := by
  have hfsu : ∃ v : State, v.tcu = s.tcu ∧ s.returnToRunning.fsu = v.fsuReturn.fsu :=
    ⟨_, by simp, State.anuReturn_fsu _⟩
  obtain ⟨v, hv, hfsu⟩ := hfsu
  intro q hq hk
  rw [hfsu] at hq
  obtain ⟨r, -, i, hd, hshown⟩ := State.mem_fsuReturn hq
  have hkr : r.fixed.kind = .aspect := hd.fixed ▸ hk
  have hfresh : v.freshShown v.fsu v.fsu.table i r = (numberOf v.tcu.displayed).map wordOf := by
    unfold State.freshShown
    rw [hkr]
  rw [hshown _ hfresh, hv]
  simp [numberOf, wordOf, Function.comp_def]

theorem AspectShownLaw.enterRunning (v : State) : AspectShownLaw v.enterRunning := by
  have htcu : v.enterRunningOnly.tcu = v.beforeFsu.tcu := by
    show (v.beforeFsu.fsuEntry.anuEntry _).tcu = _
    simp
  rw [v.beforeFsu_tcu] at htcu
  have hrun : AspectShownLaw v.enterRunningOnly := by
    have hlast : lossAspect v.tcu.aspects ≠ none →
        lastDelivery v.enterRunningOnly.inFlight = (lossAspect v.tcu.aspects).map Aspect.number := fun h => by
      obtain ⟨a, ha⟩ := Option.ne_none_iff_exists'.mp h
      rw [lastDelivery_steering, State.enterRunningOnly_steering, deliveries_steers, ha]
      exact lastDelivery_concat _ _ _
    refine ⟨fun _ hloss => ?_, fun _ hloss n hn => ?_, fun _ hloss hnone => ?_⟩ <;> rw [htcu] at hloss
    · rw [htcu]
      exact hloss
    · rw [htcu]
      exact (hlast hloss).symm.trans hn
    · rw [hlast hloss, Option.map_eq_none_iff] at hnone
      exact absurd hnone hloss
  unfold State.enterRunning
  dsimp only
  split
  · exact hrun
  · refine hrun.quiet (Unsteered.quiet ?_) (fun _ => by simp [OpState.hasTable]) fun h => ?_
    · exact ⟨by simp, by simp, by simp, by simp⟩
    · rw [State.enterStandby_csu] at h
      nomatch h

theorem Effect.aspectShownLaw {s t : State} {c : Instr} (h : Effect s c t) (ht : TableLaw s.fsu.table)
    (hl : AspectShownLaw s) : AspectShownLaw t := by
  have hun : Instr.steers c = false → AspectQuiet s t := fun hc => (h.unsteered hc).quiet
  cases h with
  | nothing => exact hl
  | window h =>
    refine hl.still (.sent (by simp) (State.completeWindow_steering _ _) rfl rfl) (by simp) ?_
    simpa using AspectRows.refl _
  | speedRechecked h hop =>
    refine hl.still (.speedTaken (by simp) h (by simp)) (by simp) ?_
    rw [State.fsuCommit_fsu]
    exact (Kind.redrawn.aspectRows (k := .actual) (forall₂_map (recheckActual_row _) _) (by decide))
  | speedStored h => exact hl.still (.speedTaken rfl h rfl) rfl (.refl _)
  | strobeTaken => exact (hl.at _).advanced (State.strobe_advanced _ _)
  | strobesLost => exact (hl.at _).advanced (State.loseStrobes_advanced _)
  | holdEnded => exact (hl.at _).advanced (State.endHold_advanced _)
  | aspectWritten h =>
    refine hl.taken h (fun m hm => ?_) rfl rfl
    cases m <;> simp [pickAspectInput] at hm
    rw [← hm.2]
    rfl
  | aspectStale h =>
    refine hl.taken h (fun m hm => ?_) rfl rfl
    cases m <;> simp [pickAspectInput] at hm
    rw [← hm.2]
    rfl
  | delivery h => exact hl.delivery h
  | slotsShown =>
    refine hl.still (hun rfl) (by simp) ?_
    rw [State.fsuCommit_fsu]
    exact (showSlots_table _ _).aspectRows (by decide)
  | lampFunction =>
    refine hl.still (hun rfl) (by simp) ?_
    rw [State.fsuCommit_fsu]
    exact (Fsu.relit_table ..).aspectRows (by decide)
  | lampTestBegun | lampTestEnded =>
    refine hl.still (hun rfl) (by simp) ?_
    rw [State.setLampTest_fsu]
    dsimp only
    split
    · exact (Kind.redrawn.aspectRows (k := .lamps) (forall₂_map (relamp_row _ _) _) (by decide))
    · exact .refl _
  | strobeIgnored | warmFall => exact hl.still ⟨rfl, rfl, rfl⟩ rfl (.refl _)
  | @ageStopped i r e hop hr h hst =>
    refine hl.still ⟨rfl, rfl, rfl⟩ rfl fun q hq hk => ?_
    obtain hq | rfl := List.mem_or_eq_of_mem_set hq
    · exact ⟨q, hq, hk, rfl⟩
    · exact ⟨r, List.mem_of_getElem? hr, hk, rfl⟩
  | ageExpired hop hr =>
    exact (hl.at _).goStale (by exact ht) (by exact hr)
  | powerReset | warmReset | loadTimeout => exact .outside rfl
  | cabStandby h hop =>
    refine hl.quiet (hun rfl) (fun _ => by rw [hop]; rfl) fun h => ?_
    rw [State.enterStandby_csu] at h
    nomatch h
  | @cabReturn e h hop =>
    refine hl.quiet (hun rfl) (fun _ => by rw [hop]; rfl) fun _ _ _ q hq hk => .inl ?_
    exact State.returnToRunning_aspect { s.reach e with csu := s.csu.settled } q hq hk
  | _ => exact hl.still (hun rfl) (by simp) (by simpa using AspectRows.refl _)

theorem Move.aspectShownLaw {s t : State} (h : Move s t) (ht : TableLaw s.fsu.table) (hl : AspectShownLaw s) :
    AspectShownLaw t := by
  cases h with
  | effect h => exact h.aspectShownLaw ht hl
  | receive | events | window =>
    exact hl.still (Unsteered.quiet ⟨by simp, by simp, by simp, by simp⟩) (by simp) (by simpa using AspectRows.refl _)
  | @field i hop w =>
    by_cases hr : ∃ r, s.fsu.table[i]? = some r ∧ r.fixed.kind ≠ .faultSlot
    · obtain ⟨r, hr, hk⟩ := hr
      exact hl.fieldWrite ht hr hk w
    · rw [State.fieldWrite_slot w fun r hr' => by_contra fun hk => hr ⟨r, hr', hk⟩]
      exact hl
  | accept => exact .enterRunning _
  | reject hop v off =>
    refine .outside ?_
    rw [State.rejectImage_csu]
    split <;> simp [hop, OpState.hasTable]
  | territory => exact hl.advanced (State.changeTerritory_advanced _ _)
  | release _ h =>
    cases h with
    | loading => exact .outside (by simp [OpState.hasTable])
    | running => exact .enterRunning _
  | _ => exact hl.still ⟨rfl, rfl, rfl⟩ rfl (.refl _)

/-- Settles O59: each of the seven laws is kept by every move of a step, the supervision with the law of the operating
state and of the table beside it, the ACTUAL field with those of table, written values and speed. -/
theorem fieldLawsKept : Obligations.FieldLawsKept := fun _ _ h =>
  ⟨Invariant.step (P := fun s => TableLaw s.fsu.table) (fun _ _ hm => hm.fsu.tableLaw) h,
    fun hs ht hl => (Invariant.step
      (P := fun s => StateLaw s.csu ∧ TableLaw s.fsu.table ∧ SupervisionLaw s.csu.op s.fsu)
      (fun _ _ hm ⟨hs, ht, hl⟩ => ⟨hm.stateLaw hs, hm.fsu.tableLaw ht, hm.fsu.supervisionLaw hs ht hl⟩)
      h ⟨hs, ht, hl⟩).2.2,
    Invariant.step (P := fun s => CeilingLaw s.csu.op s.fsu) (fun _ _ hm => hm.fsu.ceilingLaw) h,
    Invariant.step (P := SpeedLaw) (fun _ _ => Move.speedLaw) h,
    fun ht hsup hs hl => (Invariant.step
      (P := fun s => TableLaw s.fsu.table ∧ Recorded s.fsu.table ∧ SpeedLaw s ∧ ActualLaw s.csu.op s.fsu)
      (fun _ _ hm ⟨ht, hw, hs, hl⟩ =>
        ⟨hm.fsu.tableLaw ht, hm.fsu.recorded hw, hm.speedLaw hs, hm.fsu.actualLaw ht hw hs hl⟩)
      h ⟨ht, fun r hr => (hsup.records r hr).writtenHas, hs, hl⟩).2.2.2,
    Invariant.step (P := fun s => LampsLaw s.csu.op s.fsu) (fun _ _ hm => hm.fsu.lampsLaw) h,
    fun ht hl => (Invariant.step (P := fun s => TableLaw s.fsu.table ∧ AspectShownLaw s)
      (fun _ _ hm ⟨ht, hl⟩ => ⟨hm.fsu.tableLaw ht, hm.aspectShownLaw ht hl⟩) h ⟨ht, hl⟩).2⟩

end Sys2Proof.Machine
end

section
/-! SUPPORT and PROOF. What a step takes, which hand-over a command takes, and the commands whose event does not occur
(log 1, log 2, log 3). -/

namespace Sys2Proof.Machine

/-! ## The front of the queue (log 3, log 7) -/

theorem State.idle_of_no_reads {s : State} (h : s.reads = []) : s.idle = { s with now := s.now + 1 } := by
  unfold State.idle
  split
  · rfl
  next hr => nomatch h.symm.trans hr

theorem State.idle_of_reads {s : State} {a : Addr} {rest : List Addr} (h : s.reads = a :: rest) :
    s.idle = if s.csu.op = .reset ∧ s.held ≠ none then s.tick
      else { s with reads := rest }.computerCycle (.read a) := by
  unfold State.idle
  rw [h]

theorem step_of_pending {s : State} {c : Instr} {rest : List Instr} (h : s.pending = c :: rest) :
    step s = exec c { s with pending := rest } := by
  unfold step
  rw [h]

theorem step_of_idle {s : State} (h : s.pending = []) : step s = .next s.idle := by
  unfold step
  rw [h]

/-- Settles O1: by what waits, a command, a read, or neither. -/
theorem stepTakesFront : Obligations.StepTakesFront := by
  intro s
  refine ⟨fun c rest h => step_of_pending h, fun h hr => ?_, fun a rest h hr => ⟨fun hop => ?_, fun hop hh => ?_,
    fun hop hh => ?_⟩⟩
  · rw [step_of_idle h, State.idle_of_no_reads hr]
  · refine ⟨_, step_of_idle h, ?_⟩
    rw [State.idle_of_reads hr, if_neg fun hc => hop hc.1]
    exact State.computerCycle_read (s := { s with reads := rest }) hop a
  · rw [step_of_idle h, State.idle_of_reads hr, if_neg fun hc => hc.2 hh,
      State.computerCycle_reset (s := { s with reads := rest }) hop]
    simp [hh]
  · rw [step_of_idle h, State.idle_of_reads hr, if_pos ⟨hop, hh⟩]
    rfl

/-! ## The oldest of a path (log 1) -/

theorem takeFirst_eq_some_iff {α : Type} {p : Msg → Option α} {ms : List Msg} {x : α} {rest : List Msg} :
    takeFirst p ms = some (x, rest) ↔ ∃ before m after, ms = before ++ m :: after ∧ (∀ k ∈ before, p k = none) ∧
      p m = some x ∧ rest = before ++ after := by
  induction ms generalizing rest with
  | nil => simp [takeFirst]
  | cons m ms ih =>
    unfold takeFirst
    cases hm : p m with
    | some y =>
      constructor
      · intro h
        simp only [Option.some.injEq, Prod.mk.injEq] at h
        obtain ⟨rfl, rfl⟩ := h
        exact ⟨[], m, ms, rfl, nofun, hm, rfl⟩
      · rintro ⟨before, k, after, hms, hb, hk, rfl⟩
        cases before with
        | nil =>
          obtain ⟨rfl, rfl⟩ := List.cons.inj hms
          obtain rfl : y = x := Option.some.inj (hm.symm.trans hk)
          rfl
        | cons b bs =>
          obtain ⟨rfl, -⟩ := List.cons.inj hms
          rw [hb m (by simp)] at hm
          nomatch hm
    | none =>
      dsimp only
      rw [Option.map_eq_some_iff]
      constructor
      · rintro ⟨⟨y, r⟩, ht, he⟩
        obtain ⟨rfl, rfl⟩ := Prod.mk.inj he
        obtain ⟨before, k, after, rfl, hb, hk, rfl⟩ := ih.mp ht
        refine ⟨m :: before, k, after, rfl, fun j hj => ?_, hk, rfl⟩
        obtain rfl | hj := List.mem_cons.mp hj
        · exact hm
        · exact hb j hj
      · rintro ⟨before, k, after, hms, hb, hk, rfl⟩
        cases before with
        | nil =>
          obtain ⟨rfl, rfl⟩ := List.cons.inj hms
          rw [hm] at hk
          nomatch hk
        | cons b bs =>
          obtain ⟨rfl, rfl⟩ := List.cons.inj hms
          exact ⟨(x, bs ++ after), ih.mpr ⟨bs, k, after, rfl, fun j hj => hb j (List.mem_cons_of_mem _ hj), hk, rfl⟩, rfl⟩

theorem takeFirst_eq_none_iff {α : Type} {p : Msg → Option α} {ms : List Msg} :
    takeFirst p ms = none ↔ ∀ m ∈ ms, p m = none := by
  induction ms with
  | nil => simp [takeFirst]
  | cons m ms ih =>
    unfold takeFirst
    cases hm : p m with
    | some y => simp [hm]
    | none => simp [hm, ih]

/-- Settles O2. -/
theorem takesOldestOfPath : Obligations.TakesOldestOfPath := fun _ _ _ =>
  ⟨fun _ _ => takeFirst_eq_some_iff, takeFirst_eq_none_iff⟩

/-! ## Events that do not occur (log 2) -/

/-- A command that takes a hand-over finds none of its path. -/
theorem next_takeMsg_none {α : Type} {p : Msg → Option α} {s : State} {act : α → State → State}
    (h : takeFirst p s.inFlight = none) :
    (Host.Outcome.next (s.takeMsg p act) : Host.Outcome State Fault Refusal) = .next s := by
  rw [State.takeMsg_none act h]

theorem exec_writtenAspectTaken_of_none {s : State}
    (h : ∀ w n rest, takeFirst pickAspectInput s.inFlight ≠ some (.written w n, rest)) :
    exec .writtenAspectTaken s = .next s := by
  show execWrittenAspectTaken s = _
  unfold execWrittenAspectTaken
  split
  · exact absurd ‹_› (h _ _ _)
  · rfl

theorem exec_aspectStaleNotice_of_none {s : State}
    (h : ∀ b n rest, takeFirst pickAspectInput s.inFlight ≠ some (.stale b n, rest)) :
    exec .aspectStaleNotice s = .next s := by
  show execAspectStaleNotice s = _
  unfold execAspectStaleNotice
  split
  · exact absurd ‹_› (h _ _ _)
  · rfl

theorem exec_raise_of_none {s : State} {b : Block}
    (h : ∀ m rest, takeFirst (pickFault b) s.inFlight ≠ some (.raise m, rest)) : exec (.raise b) s = .next s := by
  show execRaise b s = _
  unfold execRaise
  split
  · exact absurd ‹_› (h _ _)
  · rfl

theorem exec_clear_of_none {s : State} {b : Block}
    (h : ∀ m rest, takeFirst (pickFault b) s.inFlight ≠ some (.clear m, rest)) : exec (.clear b) s = .next s := by
  show execClear b s = _
  unfold execClear
  split
  · exact absurd ‹_› (h _ _)
  · rfl

theorem exec_acknowledge_of_none {s : State}
    (h : ∀ rest, takeFirst (pickFault .anu) s.inFlight ≠ some (.acknowledge, rest)) :
    exec .acknowledge s = .next s := by
  show execAcknowledge s = _
  unfold execAcknowledge
  split
  · exact absurd ‹_› (h _)
  · rfl

theorem exec_lampTestBegun_of_none {s : State}
    (h : ∀ rest, takeFirst pickLampTest s.inFlight ≠ some (true, rest)) : exec .lampTestBegun s = .next s := by
  show execLampTestBegun s = _
  unfold execLampTestBegun
  split
  · exact absurd ‹_› (h _)
  · rfl

theorem exec_lampTestEnded_of_none {s : State}
    (h : ∀ rest, takeFirst pickLampTest s.inFlight ≠ some (false, rest)) : exec .lampTestEnded s = .next s := by
  show execLampTestEnded s = _
  unfold execLampTestEnded
  split
  · exact absurd ‹_› (h _)
  · rfl

theorem exec_ageTimerExpiry_of_none {s : State} {i : Nat}
    (h : s.csu.op ≠ .running ∨ s.fsu.table[i]? = none ∨ ∃ r, s.fsu.table[i]? = some r ∧ r.age = none) :
    exec (.ageTimerExpiry i) s = .next s := by
  show execAgeTimerExpiry i s = _
  unfold execAgeTimerExpiry
  split
  next r hop hr =>
    obtain h | h | ⟨q, hq, h⟩ := h
    · exact absurd hop h
    · nomatch hr.symm.trans h
    · obtain rfl := Option.some.inj (hr.symm.trans hq)
      rw [h]
  · rfl

theorem exec_buttonDebounceExpiry_of_none {s : State} {b : Button} (h : (s.anu.button b).timer = none) :
    exec (.buttonDebounceExpiry b) s = .next s := by
  show execButtonDebounceExpiry b s = _
  unfold execButtonDebounceExpiry
  dsimp only
  rw [h]

theorem exec_buttonLineChange_same (s : State) (b : Button) :
    exec (.buttonLineChange b (s.anu.button b).line) s = .next s :=
  congrArg Host.Outcome.next (if_pos rfl)

theorem exec_cabactLineChange_same (s : State) : exec (.cabactLineChange s.csu.cabLine) s = .next s :=
  congrArg Host.Outcome.next (if_pos rfl)

theorem State.grantHead_of_empty {s : State} (h : s.mwq.queue = []) : s.grantHead = s := by
  unfold State.grantHead
  rw [h]

/-- Settles O3: command by command, by what it takes: a hand-over, a timer, a line, or the second cycle in RESET. -/
theorem noEventNoEffect : Obligations.NoEventNoEffect := by
  intro s
  have hmatch : ∀ {t : Timer} {f : Nat → State}, t = none →
      (Host.Outcome.next (match t with
        | some e => f e
        | none => s) : Host.Outcome State Fault Refusal) = .next s := by
    rintro _ _ rfl
    rfl
  refine ⟨next_takeMsg_none, next_takeMsg_none, next_takeMsg_none, exec_writtenAspectTaken_of_none,
    exec_aspectStaleNotice_of_none, next_takeMsg_none, next_takeMsg_none, fun _ => exec_raise_of_none, fun _ => exec_clear_of_none, exec_acknowledge_of_none,
    next_takeMsg_none, next_takeMsg_none, next_takeMsg_none, next_takeMsg_none, next_takeMsg_none, next_takeMsg_none,
    next_takeMsg_none, exec_lampTestBegun_of_none, exec_lampTestEnded_of_none, fun _ => next_takeMsg_none,
    fun _ => next_takeMsg_none, fun _ => next_takeMsg_none, next_takeMsg_none,
    fun h => congrArg Host.Outcome.next (State.grantHead_of_empty h), fun _ => hmatch,
    fun _ => exec_ageTimerExpiry_of_none, hmatch, hmatch, hmatch, hmatch, hmatch, hmatch, hmatch,
    fun _ => exec_buttonDebounceExpiry_of_none, exec_buttonLineChange_same s, hmatch, ?_,
    exec_cabactLineChange_same s, ?_, ?_, ?_, ?_, ?_, ?_⟩
  · intro h
    show execCabactDebounceExpiry s = _
    unfold execCabactDebounceExpiry
    rw [h]
  · intro solo h
    show execSettleTimeExpiry solo s = _
    unfold execSettleTimeExpiry
    rw [h]
  · intro h
    show execPwrgFall s = _
    unfold execPwrgFall
    rw [h]
    rfl
  · intro h
    show execPwrgRise s = _
    unfold execPwrgRise
    rw [h]
    rfl
  · intro h
    show execWrstFall s = _
    unfold execWrstFall
    rw [h]
    rfl
  · intro solo h
    show execWrstRise solo s = _
    unfold execWrstRise
    rw [h]
    rfl
  · intro c a w hc hop hh
    obtain ⟨x, hx⟩ := Option.ne_none_iff_exists'.mp hh
    rw [exec_write hc, State.computerWrite_reset hop]
    exact congrArg Host.Outcome.next (State.eq_of_parts rfl rfl rfl rfl rfl rfl (by simp [hx]) rfl rfl rfl rfl rfl rfl
      rfl rfl)

end Sys2Proof.Machine
end

section
/-! SUPPORT and PROOF. Computer writes: the port, the words without an owner, the words of the part, the report block and
the configuration region (chapter 2, R149). -/

namespace Sys2Proof.Machine

/-! ## The take (R18, R149) -/

/-- A computer write taken with the port free is decided on the state in which the computer has had its turn. -/
theorem exec_write_free {c : Instr} {s : State} {a : Addr} {w : Word} (hc : c.write = some (a, w))
    (hop : s.csu.op ≠ .reset) (hf : s.portFree) : exec c s = .next (s.suppressed.decideWrite a w) := by
  rw [exec_write hc, State.computerWrite_free hop hf]

theorem State.rederive_queueTurn (s : State) : s.rederive.mwq.queueTurn = s.mwq.queueTurn := by
  obtain ⟨ms, -, h | ⟨w, -, -, h⟩⟩ := s.rederive_cases <;> rw [h]
  exact Mwq.enqueue_queueTurn _ _

theorem State.grantHead_queueTurn {s : State} (h : s.mwq.queue ≠ []) : s.grantHead.mwq.queueTurn = false := by
  unfold State.grantHead
  split
  next hq => exact absurd hq h
  next e es hq =>
    rw [State.noticeDrain_mwq]
    exact State.rederive_queueTurn _

/-- Settles O4: in RESET the write is held; else the queue's head is granted where it has the turn, and the write is
decided on the state that leaves. -/
theorem computerWriteTaken : Obligations.ComputerWriteTaken := by
  intro c s a w hc
  refine ⟨fun hop => ⟨fun hh => ?_, fun hh => ?_⟩, fun hop hturn hq => ?_, fun d hd => ?_⟩
  · rw [exec_write hc, State.computerWrite_reset hop, hh]
    rfl
  · obtain ⟨x, hx⟩ := Option.ne_none_iff_exists'.mp hh
    rw [exec_write hc, State.computerWrite_reset hop]
    exact congrArg Host.Outcome.next (State.eq_of_parts rfl rfl rfl rfl rfl rfl (by simp [hx]) rfl rfl rfl rfl rfl rfl
      rfl rfl)
  · have hserve : s.serveQueueTurn = s.grantHead := if_pos ⟨hturn, hq⟩
    have hfree : s.grantHead.portFree := .inl (State.grantHead_queueTurn hq)
    have hop' : s.grantHead.csu.op ≠ .reset := by simpa using hop
    refine ⟨s.grantHead, rfl, hop', hfree, ?_⟩
    rw [exec_write hc, exec_write hc, State.computerWrite_taken hop, State.computerWrite_taken hop', hserve,
      State.serveQueueTurn_free hfree]
  · rw [exec_write hd, exec_write hc]

/-! ## The class of a word (R20) -/

theorem wordClass_loading (table : List Record) (a : Addr) : wordClass .loading table a =
    if a.toNat < 0x1E00 then .plain
    else if a.toNat < 0x1EFF then .capture
    else if a.toNat = 0x1EFF then .check
    else if a.toNat = 0x1F07 then .eventWord
    else if a.toNat = 0x1F08 then .enable
    else if a.toNat < 0x1F10 then .partOwned
    else if a.toNat < 0x1F40 then .plain
    else if a.toNat < 0x1F80 then .partOwned
    else if a.toNat = 0x1F80 then .unitCode
    else if a.toNat = 0x1F81 then .severityAction
    else if a.toNat = 0x1F82 then .textIndex
    else .plain := rfl

/-- The operating states that decode writes by address (R20). -/
theorem OpState.decodes {op : OpState} (hr : op ≠ .reset) (hf : op ≠ .fallback) :
    op = .loading ∨ op.hasTable = true := by
  cases op
  · exact absurd rfl hr
  · exact .inl rfl
  · exact .inr rfl
  · exact .inr rfl
  · exact absurd rfl hf

theorem fieldAt_eq_none {table : List Record} {a : Addr} (h : ∀ r ∈ table, r.fixed.addr ≠ a) :
    fieldAt table a = none := by
  unfold fieldAt
  rw [List.findIdx?_eq_none_iff]
  simpa using h

/-- The words of the report block and the window that the computer writes. -/
theorem wordClass_reports {op : OpState} (hr : op ≠ .reset) (hf : op ≠ .fallback) (table : List Record) :
    wordClass op table 0x1F07 = .eventWord ∧ wordClass op table 0x1F08 = .enable ∧
    wordClass op table 0x1F80 = .unitCode ∧ wordClass op table 0x1F81 = .severityAction ∧
    wordClass op table 0x1F82 = .textIndex := by
  obtain rfl | h := OpState.decodes hr hf
  · exact ⟨rfl, rfl, rfl, rfl, rfl⟩
  · rw [wordClass_hasTable h, wordClass_hasTable h, wordClass_hasTable h, wordClass_hasTable h, wordClass_hasTable h]
    exact ⟨rfl, rfl, rfl, rfl, rfl⟩

/-- The unused words between report block and mirror and after the window (R23). -/
theorem wordClass_unused {op : OpState} (hr : op ≠ .reset) (hf : op ≠ .fallback) {table : List Record} {a : Addr}
    (ha : (0x1F10 ≤ a.toNat ∧ a.toNat < 0x1F40) ∨ 0x1F83 ≤ a.toNat) : wordClass op table a = .plain := by
  obtain rfl | h := OpState.decodes hr hf
  · rw [wordClass_loading]
    obtain ⟨hlow, hhigh⟩ | h := ha <;> simp (disch := omega) only [if_pos, if_neg]
  · rw [wordClass_hasTable h]
    obtain ⟨hlow, hhigh⟩ | h := ha <;> simp (disch := omega) only [if_pos, if_neg]

/-- The words that a block of the part owns (R33). -/
theorem wordClass_owned {op : OpState} (hr : op ≠ .reset) (hf : op ≠ .fallback) {table : List Record} {a : Addr}
    (ha : (0x1F00 ≤ a.toNat ∧ a.toNat < 0x1F10 ∧ a.toNat ≠ 0x1F07 ∧ a.toNat ≠ 0x1F08 ∧ a.toNat ≠ 0x1F0D) ∨
      (a.toNat = 0x1F0D ∧ op = .loading) ∨ (0x1F40 ≤ a.toNat ∧ a.toNat < 0x1F80)) :
    wordClass op table a = .partOwned := by
  obtain rfl | h := OpState.decodes hr hf
  · rw [wordClass_loading]
    obtain ⟨h1, h2, h3, h4, h5⟩ | ⟨h, -⟩ | ⟨h1, h2⟩ := ha <;> simp (disch := omega) only [if_pos, if_neg]
  · have hl : op ≠ .loading := by
      rintro rfl
      nomatch h
    rw [wordClass_hasTable h]
    obtain ⟨h1, h2, h3, h4, h5⟩ | ⟨-, h⟩ | ⟨h1, h2⟩ := ha
    · simp (disch := omega) only [if_pos, if_neg]
    · exact absurd h hl
    · simp (disch := omega) only [if_pos, if_neg]

/-- Settles O5: the word has class PLAIN in each of the ranges, and a PLAIN write is its reception. -/
theorem plainWritePasses : Obligations.PlainWritePasses := by
  intro s a w hf hwf ha
  have hclass : s.csu.op ≠ .reset ∧ wordClass s.csu.op s.fsu.table a = .plain := by
    obtain hop | ⟨hop, hlow⟩ | ⟨ht, hlow, hfield⟩ | ⟨hop, hunused⟩ := ha
    · rw [hop]
      exact ⟨nofun, rfl⟩
    · rw [hop, wordClass_loading, if_pos hlow]
      exact ⟨nofun, rfl⟩
    · exact ⟨OpState.ne_reset_of_hasTable ht, wordClass_display ht hlow (fieldAt_eq_none hfield)⟩
    · by_cases hfb : s.csu.op = .fallback
      · rw [hfb]
        exact ⟨nofun, rfl⟩
      · exact ⟨hop, wordClass_unused hop hfb hunused⟩
  have hdecide : s.suppressed.decideWrite a w = s.suppressed.receive a w := by
    unfold State.decideWrite
    rw [show wordClass s.suppressed.csu.op s.suppressed.fsu.table a = .plain from hclass.2]
  refine ⟨_, exec_write_free rfl hclass.1 hf, ?_, ?_⟩
  · rw [hdecide]
    exact received hwf a w
  · rw [hdecide]
    exact s.receive_rest a w

/-- Settles O6: a word of the part changes nothing, and one of the locked region sets CI, whatever row names it. -/
theorem ownedAndLockedSuppressed : Obligations.OwnedAndLockedSuppressed := by
  intro c s a w hc hf hr hfb
  refine ⟨fun ha => ?_, fun ht hlow hhigh => ?_⟩
  · have hclass : wordClass s.csu.op s.fsu.table a = .partOwned := by
      refine wordClass_owned hr hfb ?_
      obtain ⟨h1, h2, h3, h4, h5⟩ | ⟨rfl, h⟩ | h := ha
      · exact .inl ⟨h1, h2, addr_toNat_ne h3, addr_toNat_ne h4, addr_toNat_ne h5⟩
      · exact .inr (.inl ⟨rfl, h⟩)
      · exact .inr (.inr h)
    rw [exec_write_free hc hr hf]
    unfold State.decideWrite
    rw [show wordClass s.suppressed.csu.op s.suppressed.fsu.table a = .partOwned from hclass]
  · refine ⟨?_, by rw [exec_write hc, exec_write (c := .lockedConfigurationWrite a w) rfl]⟩
    have hclass : wordClass s.csu.op s.fsu.table a = .locked := by
      rw [wordClass_hasTable ht, if_neg (by omega), if_pos (by omega)]
    rw [exec_write_free hc hr hf]
    unfold State.decideWrite
    rw [show wordClass s.suppressed.csu.op s.suppressed.fsu.table a = .locked from hclass]
    rfl

/-! ## The event word and the enable (R159–R161) -/

/-- Settles O14. -/
theorem eventWordClearedByOne : Obligations.EventWordClearedByOne := by
  intro s m hf hwf hr hfb
  have hdecide : s.suppressed.decideWrite 0x1F07 m =
      ({ s with rpu := s.rpu.clearByOne m } : State).suppressed.receive 0x1F07 (s.rpu.clearByOne m).events := by
    unfold State.decideWrite
    rw [show wordClass s.suppressed.csu.op s.suppressed.fsu.table 0x1F07 = .eventWord from
      (wordClass_reports hr hfb _).1]
    rfl
  have hrpu : (s.suppressed.decideWrite 0x1F07 m).rpu = s.rpu.clearByOne m := by
    rw [hdecide]
    simp
  refine ⟨_, exec_write_free rfl hr hf, ?_, fun k => ?_, ?_, ?_⟩
  · rw [hrpu, hdecide]
    exact received (s := { s with rpu := s.rpu.clearByOne m }) hwf 0x1F07 _
  · rw [hrpu]
    show (s.rpu.events &&& ~~~ m).getLsbD k = _
    by_cases hk : k < 16
    · simp [hk]
    · simp [BitVec.getLsbD_of_ge _ k (Nat.le_of_not_lt hk)]
  · rw [hrpu]
    exact intrLevel_iff _ _
  · rw [hrpu, hdecide]
    exact State.receive_rest { s with rpu := s.rpu.clearByOne m } 0x1F07 _

/-- The RPU with the enable latched (R160, R161). -/
def Rpu.enabled (r : Rpu) (m : Word) : Rpu := { r with enable := m }.followIntr

theorem State.writeEnable_eq (s : State) (m : Word) :
    s.writeEnable m = { s with rpu := s.rpu.enabled m }.receive 0x1F08 m := rfl

/-- Settles O15. -/
theorem interruptEnableLatched : Obligations.InterruptEnableLatched := by
  intro s m hf hwf hr hfb
  have hdecide : s.suppressed.decideWrite 0x1F08 m =
      ({ s with rpu := s.rpu.enabled m } : State).suppressed.receive 0x1F08 m := by
    unfold State.decideWrite
    rw [show wordClass s.suppressed.csu.op s.suppressed.fsu.table 0x1F08 = .enable from
      (wordClass_reports hr hfb _).2.1]
    rfl
  have hrpu : (s.suppressed.decideWrite 0x1F08 m).rpu = s.rpu.enabled m := by
    rw [hdecide]
    simp
  refine ⟨_, exec_write_free rfl hr hf, ?_, ?_, ?_⟩
  · rw [hrpu, hdecide]
    exact received (s := { s with rpu := s.rpu.enabled m }) hwf 0x1F08 _
  · rw [hrpu]
    exact intrLevel_iff _ _
  · rw [hrpu, hdecide]
    exact State.receive_rest { s with rpu := s.rpu.enabled m } 0x1F08 _

/-! ## The configuration region in LOADING (R165) -/

/-- Settles O19. -/
theorem configurationCaptured : Obligations.ConfigurationCaptured := by
  intro s a w hf hm hop hlow hhigh
  have hdecide : s.suppressed.decideWrite a w = (s.suppressed.receive a w).capture a w := by
    unfold State.decideWrite
    rw [show wordClass s.suppressed.csu.op s.suppressed.fsu.table a = .capture by
      rw [State.suppressed_csu, hop, wordClass_loading, if_neg (by omega), if_pos hhigh]]
  refine ⟨_, exec_write_free rfl (by rw [hop]; nofun) hf, ?_, fun o => ?_, ?_⟩
  · rw [hdecide]
    exact (received hm.1 a w).after rfl rfl rfl (by simp [State.capture])
  · rw [hdecide]
    have hcsu : (s.suppressed.receive a w).csu = s.csu := by simp
    show ((s.suppressed.receive a w).csu.shadow.write (a.toNat - 0x1E00) w).read o = _
    rw [hcsu]
    exact Memory.read_write hm.2 _ _ _
  · rw [hdecide]
    unfold State.capture
    rw [s.receive_rest a w]

end Sys2Proof.Machine
end

section
/-! SUPPORT and PROOF. Computer writes: the territory request, the fault entry window, and the check word (chapters 5, 6
and 11). -/

namespace Sys2Proof.Machine

/-! ## Received writes and what their owner does besides -/

/-- What a received write leaves, with hand-overs added. -/
theorem Received.sends {s u : State} {a : Addr} {x : Word} (hwf : s.mem.wf = true) {sent : List Msg}
    (mem : u.mem = (s.suppressed.receive a x).mem) (held : u.held = (s.suppressed.receive a x).held)
    (mwq : u.mwq = (s.suppressed.receive a x).mwq)
    (inFlight : u.inFlight = (s.suppressed.receive a x).inFlight ++ sent) : Received s u a x sent :=
  (received hwf a x).after mem held mwq inFlight

/-! ## The territory word (R86–R88) -/

theorem State.decideWrite_territory {s : State} (ht : s.csu.op.hasTable = true) (w : Word) :
    s.decideWrite 0x1F0D w = s.writeTerritory w := by
  unfold State.decideWrite
  rw [wordClass_hasTable ht]
  rfl

theorem Asu.standing_iff (u : Asu) : u.standing = true ↔ ∃ v, u.selected = some v ∧ v ≤ 4 := by
  unfold Asu.standing
  cases u.selected with
  | none => simp
  | some v => simp [show Config.standstill = 4 from rfl]

theorem State.acceptsTerritory_iff (s : State) (u : Bool) : s.acceptsTerritory u = true ↔
    u = false ∨ s.tcu.uncoded = true ∨ (∃ v, s.asu.selected = some v ∧ v ≤ 4) ∨ s.tcu.state = .lost := by
  unfold State.acceptsTerritory
  rw [← Asu.standing_iff]
  cases u <;> cases s.tcu.uncoded <;> cases s.asu.standing <;> cases s.tcu.state <;> simp

theorem territoryWord_eq (b : Bool) : territoryWord b = if b = true then 1 else 0 := by
  cases b <;> rfl

/-- A refused or malformed request (R88). -/
theorem State.writeTerritory_refused {s : State} {w : Word}
    (h : ∀ u, territoryRequest w = some u → s.acceptsTerritory u = false) :
    s.writeTerritory w = (s.receive 0x1F0D (territoryWord s.tcu.uncoded)).sendEvents .tcu [.tr] := by
  unfold State.writeTerritory
  split
  next u hu => rw [h u hu]; rfl
  next => rfl

/-- An accepted request (R87). -/
theorem State.writeTerritory_accepted {s : State} {w : Word} {u : Bool} (hu : territoryRequest w = some u)
    (h : s.acceptsTerritory u = true) : s.writeTerritory w =
      if u = s.tcu.uncoded then s.receive 0x1F0D w else (s.receive 0x1F0D w).changeTerritory u := by
  unfold State.writeTerritory
  rw [hu]
  dsimp only
  rw [if_pos h]

/-- The TCU after an accepted change of territory (R87), before the displayed aspect is recomputed. -/
def State.territoryTcu (s : State) (u : Bool) : Tcu :=
  if u = true then { s.tcu with uncoded := true }.recompute
  else { s.tcu with
    uncoded := false, state := .acquiring, candidate := none, confirmed := none, received := lossAspect s.tcu.aspects
    hold := none, loss := s.startTimer s.csu.shadow.imgTloss }.recompute

theorem State.changeTerritory_eq (s : State) (u : Bool) : s.changeTerritory u =
    s.tcuCommit (s.territoryTcu u) (if s.tcu.state = .lost then [.clear codeLostMsg] else []) := by
  unfold State.changeTerritory State.territoryTcu
  cases u <;> rfl

theorem State.territoryTcu_uncoded (s : State) : s.territoryTcu true = { s.tcu with
    uncoded := true
    displayed := match s.tcu.writtenAspect with
      | some a => some a
      | none => lossAspect s.tcu.aspects } := by
  show ({ s.tcu with uncoded := true } : Tcu).recompute = _
  unfold Tcu.recompute Tcu.derive deriveDisplayed uncodedDisplay
  congr 1

theorem State.territoryTcu_coded (s : State) : s.territoryTcu false = { s.tcu with
    uncoded := false, state := .acquiring, candidate := none, confirmed := none, hold := none
    received := lossAspect s.tcu.aspects, loss := some (s.now + s.csu.shadow.imgTloss)
    displayed := codedDisplay s.tcu.writtenAspect (lossAspect s.tcu.aspects) } := rfl

/-- Settles O17: the request is refused, or accepted without a change of territory, or accepted with one. -/
theorem territoryRequestJudged : Obligations.TerritoryRequestJudged := by
  intro s w hf hwf ht
  have hdecide : s.suppressed.decideWrite 0x1F0D w = s.suppressed.writeTerritory w :=
    State.decideWrite_territory (s := s.suppressed) ht w
  have hexec : exec (.territoryWrite w) s = .next (s.suppressed.writeTerritory w) := by
    rw [exec_write_free rfl (OpState.ne_reset_of_hasTable ht) hf, hdecide]
  refine ⟨_, hexec, ?_⟩
  clear hexec hdecide
  have hrest := s.receive_rest 0x1F0D
  by_cases hacc : w = 0 ∨
      (w = 1 ∧ (s.tcu.uncoded = true ∨ (∃ v, s.asu.selected = some v ∧ v ≤ 4) ∨ s.tcu.state = .lost))
  · obtain ⟨u, hu, hw, haccepts⟩ : ∃ u, territoryRequest w = some u ∧ (w = 1 ↔ u = true) ∧
        s.suppressed.acceptsTerritory u = true := by
      obtain rfl | ⟨rfl, h⟩ := hacc
      · exact ⟨false, rfl, by decide, (s.suppressed.acceptsTerritory_iff false).mpr (.inl rfl)⟩
      · exact ⟨true, rfl, by decide, (s.suppressed.acceptsTerritory_iff true).mpr (.inr h)⟩
    rw [State.writeTerritory_accepted hu haccepts]
    by_cases hsame : u = s.tcu.uncoded
    · rw [if_pos (by exact hsame)]
      refine ⟨?_, fun h => absurd hacc h, fun _ _ => ⟨received hwf _ _, by simp⟩, fun _ h => ?_⟩
      · conv_lhs => rw [hrest]
        simp
      · exact absurd (by rw [hw, hsame]) h
    · rw [if_neg (by exact hsame), State.changeTerritory_eq, State.tcuCommit_eq]
      refine ⟨?_, fun h => absurd hacc h, fun _ h => ?_, fun _ _ => ⟨?_, fun h1 => ?_, fun h0 => ?_⟩⟩
      · rw [hrest]
      · refine absurd ?_ hsame
        rw [Bool.eq_iff_iff, ← hw, h]
      · exact Received.sends hwf rfl rfl rfl (by simp; rfl)
      · obtain rfl : u = true := hw.mp h1
        show State.territoryTcu _ true = _
        rw [State.territoryTcu_uncoded, hrest] <;> rfl
      · obtain rfl : u = false := by
          rw [Bool.eq_false_iff, Ne, ← hw, h0]
          decide
        show State.territoryTcu _ false = _
        rw [State.territoryTcu_coded, hrest]
  · have hrefuse : ∀ u, territoryRequest w = some u → s.suppressed.acceptsTerritory u = false := by
      intro u hu
      rw [Bool.eq_false_iff, Ne, State.acceptsTerritory_iff]
      unfold territoryRequest at hu
      split at hu
      next h0 => exact absurd (.inl h0) hacc
      next =>
        split at hu
        next h1 =>
          obtain rfl := Option.some.inj hu
          rintro (h | h)
          · nomatch h
          · exact hacc (.inr ⟨h1, h⟩)
        next => nomatch hu
    rw [State.writeTerritory_refused hrefuse]
    refine ⟨?_, fun _ => ⟨?_, by simp⟩, fun h => absurd h hacc, fun h => absurd h hacc⟩
    · rw [hrest]
      rfl
    · rw [State.suppressed_tcu, territoryWord_eq]
      exact Received.sends hwf (by simp) (by simp) (by simp) (by simp)

/-! ## The fault entry window (R97–R99) -/

/-- A window word is passed, and the FLU takes it. -/
theorem State.decideWrite_window {s : State} (hr : s.csu.op ≠ .reset) (hf : s.csu.op ≠ .fallback) (w : Word) :
    s.decideWrite 0x1F80 w = (s.receive 0x1F80 w).takeWindow (unitCodeStep w) ∧
    s.decideWrite 0x1F81 w = (s.receive 0x1F81 w).takeWindow (severityStep s.flu.partialMsg w) ∧
    s.decideWrite 0x1F82 w = (s.receive 0x1F82 w).takeWindow (textStep s.flu.partialMsg w) := by
  obtain ⟨-, -, h1, h2, h3⟩ := wordClass_reports hr hf s.fsu.table
  unfold State.decideWrite
  rw [h1, h2, h3]
  exact ⟨rfl, rfl, rfl⟩

/-- What the FLU makes of a window word. -/
structure WindowTaken (s t : State) (a : Addr) (w : Word) (flu : Flu) (sent : List Msg) : Prop where
  flu : t.flu = flu
  received : Received s t a w sent
  rest : t = { s with mem := t.mem, mwq := t.mwq, inFlight := t.inFlight, held := none, flu := t.flu }

theorem State.takeWindow_discarded {s : State} (hwf : s.mem.wf = true) (a : Addr) (w : Word) :
    WindowTaken s ((s.suppressed.receive a w).takeWindow { partialMsg := .none, discarded := true, completed := none })
      a w { s.flu with partialMsg := .none } [.events .flu [.fs]] := by
  have htake : (s.suppressed.receive a w).takeWindow { partialMsg := .none, discarded := true, completed := none } =
      ({ s.suppressed.receive a w with flu := { s.flu with partialMsg := .none } } : State).sendEvents .flu [.fs] := by
    have hflu : (s.suppressed.receive a w).flu = s.flu := by simp
    rw [← hflu]
    rfl
  rw [htake]
  refine ⟨rfl, .sends hwf rfl rfl rfl (by simp), ?_⟩
  conv_lhs => rw [s.receive_rest a w]
  rfl

theorem State.takeWindow_moved {s : State} (hwf : s.mem.wf = true) (a : Addr) (w : Word) (p : PartialMsg) :
    WindowTaken s ((s.suppressed.receive a w).takeWindow { partialMsg := p, discarded := false, completed := none })
      a w { s.flu with partialMsg := p } [] := by
  have htake : (s.suppressed.receive a w).takeWindow { partialMsg := p, discarded := false, completed := none } =
      { s.suppressed.receive a w with flu := { s.flu with partialMsg := p } } := by
    have hflu : (s.suppressed.receive a w).flu = s.flu := by simp
    rw [← hflu]
    rfl
  rw [htake]
  refine ⟨rfl, .sends hwf rfl rfl rfl (List.append_nil _).symm, ?_⟩
  conv_lhs => rw [s.receive_rest a w]

/-- The effect on the fault list of a message that the window has completed (R97). -/
def windowEffect (f : Flu) (clears : Bool) (m : FaultMsg) : FluEffect :=
  if clears then { flu := f.clear m, events := [], chime := false } else f.raise m

theorem State.takeWindow_completed {s : State} (hwf : s.mem.wf = true) (a : Addr) (w : Word) (clears : Bool)
    (m : FaultMsg) : WindowTaken s ((s.suppressed.receive a w).takeWindow
        { partialMsg := .none, discarded := false, completed := some (if clears then .clear m else .raise m) }) a w
      (windowEffect { s.flu with partialMsg := .none } clears m).flu
      (State.listSends ((s.suppressed.receive a w).takeWindow
          { partialMsg := .none, discarded := false, completed := some (if clears then .clear m else .raise m) })
        (decide ((windowEffect { s.flu with partialMsg := .none } clears m).flu.list ≠ s.flu.list))
        (windowEffect { s.flu with partialMsg := .none } clears m).events
        (windowEffect { s.flu with partialMsg := .none } clears m).chime) := by
  have htake : (s.suppressed.receive a w).takeWindow
        { partialMsg := .none, discarded := false, completed := some (if clears then .clear m else .raise m) } =
      ({ s.suppressed.receive a w with flu := { s.flu with partialMsg := .none } } : State).applyFlu
        (windowEffect { s.flu with partialMsg := .none } clears m) := by
    have hflu : (s.suppressed.receive a w).flu = s.flu := by simp
    unfold State.takeWindow windowEffect
    rw [hflu]
    cases clears <;> rfl
  rw [htake, State.applyFlu_eq]
  refine ⟨rfl, .sends hwf rfl rfl rfl ?_, ?_⟩
  · exact congrArg _ (State.listSends_congr rfl rfl rfl _ _ _)
  · apply State.eq_of_parts <;> first | rfl | simp

theorem bits_top (w : Word) : bits w 15 12 = w.toNat / 4096 := by
  have := w.isLt
  unfold bits
  omega

theorem severityOf_eq_some {w : Word} (h : w.toNat % 4 ≠ 0) : severityOf (bits w 1 0) =
    some (if w.toNat % 4 = 1 then .a else if w.toNat % 4 = 2 then .b else .c) := by
  have hb : bits w 1 0 = w.toNat % 4 := by simp [bits]
  have hlt : w.toNat % 4 < 4 := Nat.mod_lt _ (by decide)
  rw [hb]
  generalize w.toNat % 4 = n at h hlt
  interval_cases n
  · exact absurd rfl h
  all_goals rfl

theorem severityOf_eq_none {w : Word} (h : w.toNat % 4 = 0) : severityOf (bits w 1 0) = none := by
  have hb : bits w 1 0 = w.toNat % 4 := by simp [bits]
  rw [hb, h]
  rfl

theorem bits_high_eq_zero {w : Word} : bits w 15 3 = 0 ↔ w.toNat < 8 := by
  have := w.isLt
  unfold bits
  omega

theorem bitOf_eq (w : Word) (k : Nat) : bitOf w k = w.getLsbD k := by
  unfold bitOf
  rw [← BitVec.testBit_toNat, Nat.testBit_eq_decide_div_mod_eq]
  rfl

theorem unitCodeStep_of_fifteen {w : Word} (h : w.toNat / 4096 = 15) :
    unitCodeStep w = { partialMsg := .none, discarded := true, completed := none } := by
  unfold unitCodeStep
  rw [bits_top, if_pos h]

theorem unitCodeStep_of_ne {w : Word} (h : w.toNat / 4096 ≠ 15) : unitCodeStep w =
    { partialMsg := .one (BitVec.ofNat 4 (w.toNat / 4096)) (w.setWidth 12), discarded := false, completed := none } := by
  unfold unitCodeStep
  rw [bits_top, if_neg h]
  congr 2
  apply BitVec.eq_of_toNat_eq
  simp [bits]

theorem severityStep_of_one {w : Word} {u : BitVec 4} {c : BitVec 12} (h8 : w.toNat < 8) (h0 : w.toNat % 4 ≠ 0) :
    severityStep (.one u c) w =
      { partialMsg := .two u c (if w.toNat % 4 = 1 then .a else if w.toNat % 4 = 2 then .b else .c) (w.getLsbD 2)
        discarded := false, completed := none } := by
  unfold severityStep
  dsimp only
  rw [severityOf_eq_some h0]
  dsimp only
  rw [if_pos (bits_high_eq_zero.mpr h8), bitOf_eq]

theorem severityStep_of_bad {p : PartialMsg} {w : Word}
    (h : (∀ u c, p ≠ .one u c) ∨ 8 ≤ w.toNat ∨ w.toNat % 4 = 0) :
    severityStep p w = { partialMsg := .none, discarded := true, completed := none } := by
  unfold severityStep
  split
  next u c =>
    obtain h | h | h := h
    · exact absurd rfl (h u c)
    · split
      · rw [if_neg (by rw [bits_high_eq_zero]; omega)]
      · rfl
    · rw [severityOf_eq_none h]
  next => rfl

theorem textStep_of_two {w : Word} {u : BitVec 4} {c : BitVec 12} {sev : Severity} {clears : Bool}
    (h : w.toNat < 960) : textStep (.two u c sev clears) w =
      { partialMsg := .none, discarded := false, completed :=
          some (if clears then .clear { unit := u, code := c, severity := sev, text := w.setWidth 10 }
            else .raise { unit := u, code := c, severity := sev, text := w.setWidth 10 }) } := by
  have hlow : bits w 9 0 = w.toNat := by
    unfold bits
    omega
  have hhigh : bits w 15 10 = 0 := by
    unfold bits
    omega
  have htext : BitVec.ofNat 10 w.toNat = w.setWidth 10 := by
    apply BitVec.eq_of_toNat_eq
    simp
  unfold textStep
  dsimp only
  rw [hlow, if_pos ⟨h, hhigh⟩, htext]

theorem textStep_of_bad {p : PartialMsg} {w : Word} (h : (∀ u c sev clears, p ≠ .two u c sev clears) ∨ 960 ≤ w.toNat) :
    textStep p w = { partialMsg := .none, discarded := true, completed := none } := by
  unfold textStep
  split
  next u c sev clears =>
    obtain h | h := h
    · exact absurd rfl (h u c sev clears)
    · have := w.isLt
      rw [if_neg]
      unfold bits
      omega
  next => rfl

/-- Settles O18: each window word by its address, the partial message it finds, and its content. -/
theorem windowWordsAssembled : Obligations.WindowWordsAssembled := by
  intro s w hf hwf hr hfb
  obtain ⟨h1, h2, h3⟩ := State.decideWrite_window (s := s.suppressed) hr hfb w
  refine ⟨⟨_, exec_write_free rfl hr hf, ?_⟩, ⟨_, exec_write_free rfl hr hf, ?_⟩, ⟨_, exec_write_free rfl hr hf, ?_⟩⟩
  · rw [h1]
    by_cases h15 : w.toNat / 4096 = 15
    · rw [unitCodeStep_of_fifteen h15]
      have h := State.takeWindow_discarded hwf 0x1F80 w
      exact ⟨fun _ => ⟨h.flu, h.received⟩, fun h => absurd h15 h, h.rest⟩
    · rw [unitCodeStep_of_ne h15]
      have h := State.takeWindow_moved hwf 0x1F80 w (.one (BitVec.ofNat 4 (w.toNat / 4096)) (w.setWidth 12))
      exact ⟨fun h => absurd h h15, fun _ => ⟨h.flu, h.received⟩, h.rest⟩
  · rw [h2, State.suppressed_flu]
    by_cases hbad : (∀ u c, s.flu.partialMsg ≠ .one u c) ∨ 8 ≤ w.toNat ∨ w.toNat % 4 = 0
    · rw [severityStep_of_bad hbad]
      have h := State.takeWindow_discarded hwf 0x1F81 w
      refine ⟨fun u c hp h8 h0 => ?_, fun _ => ⟨h.flu, h.received⟩, h.rest⟩
      obtain hb | hb | hb := hbad
      · exact absurd hp (hb u c)
      · omega
      · exact absurd hb h0
    · push Not at hbad
      obtain ⟨⟨u, c, hp⟩, h8, h0⟩ := hbad
      rw [hp, severityStep_of_one h8 h0]
      have h := State.takeWindow_moved hwf 0x1F81 w
        (.two u c (if w.toNat % 4 = 1 then .a else if w.toNat % 4 = 2 then .b else .c) (w.getLsbD 2))
      refine ⟨fun u' c' hp' _ _ => ⟨_, rfl, ?_, h.received⟩, fun hb => ?_, h.rest⟩
      · obtain ⟨rfl, rfl⟩ := PartialMsg.one.inj hp'
        exact h.flu
      · obtain hb | hb | hb := hb
        · exact absurd rfl (hb u c)
        · omega
        · exact absurd hb h0
  · rw [h3, State.suppressed_flu]
    by_cases hbad : (∀ u c sev clears, s.flu.partialMsg ≠ .two u c sev clears) ∨ 960 ≤ w.toNat
    · rw [textStep_of_bad hbad]
      have h := State.takeWindow_discarded hwf 0x1F82 w
      refine ⟨fun u c sev clears hp h960 => ?_, fun _ => ⟨h.flu, h.received⟩, h.rest⟩
      obtain hb | hb := hbad
      · exact absurd hp (hb u c sev clears)
      · omega
    · push Not at hbad
      obtain ⟨⟨u, c, sev, clears, hp⟩, h960⟩ := hbad
      rw [hp, textStep_of_two h960]
      have h := State.takeWindow_completed hwf 0x1F82 w clears
        { unit := u, code := c, severity := sev, text := w.setWidth 10 }
      refine ⟨fun u' c' sev' clears' hp' _ => ?_, fun hb => ?_, h.rest⟩
      · obtain ⟨rfl, rfl, rfl, rfl⟩ := PartialMsg.two.inj hp'
        exact ⟨h.flu, h.received⟩
      · obtain hb | hb := hb
        · exact absurd rfl (hb u c sev clears)
        · omega

end Sys2Proof.Machine
end

section
/-! SUPPORT and PROOF. The annunciation unit: the overspeed stage, the inputs of the lamp functions, the buzzer, the
buttons and the lamp test (4.5, 5.7 and chapter 7). -/

namespace Sys2Proof.Machine

/-! ## The overspeed stage (R70–R74) -/

/-- The thresholds of R71 with their hysteresis, by the stage before. -/
theorem stageOf_moves (mw ma r v : Nat) (old : Stage) : StageMoves mw ma r v old (stageOf mw ma r old v) := by
  have hyst : ∀ n, (v ≤ n - Config.hysteresis) = (v = 0 ∨ v + 10 ≤ n) := by
    intro n
    rw [show Config.hysteresis = 10 from rfl, eq_iff_iff]
    omega
  constructor
  · rintro (rfl | rfl) <;> rfl
  · rintro rfl
    simp only [stageOf, hyst]
  · rintro rfl
    simp only [stageOf, hyst]

theorem State.evaluatedStage_unknown {s : State} {c : CompletionCopy} (hc : s.anu.copy = some c)
    (hv : c.selected = none) : s.evaluatedStage = .suspended := by
  unfold State.evaluatedStage
  rw [hc]
  dsimp only
  rw [hv]

theorem State.evaluatedStage_known {s : State} {c : CompletionCopy} {v r : Nat} (hc : s.anu.copy = some c)
    (hv : c.selected = some v) (hr : s.anu.reference = some r) :
    s.evaluatedStage = stageOf s.csu.shadow.imgMw s.csu.shadow.imgMa r s.anu.stage v := by
  unfold State.evaluatedStage
  rw [hc]
  dsimp only
  rw [hv, hr]

theorem State.evaluatedStage_absent {s : State} (h : s.anu.copy = none ∨
    ∃ c v, s.anu.copy = some c ∧ c.selected = some v ∧ s.anu.reference = none) :
    s.evaluatedStage = s.anu.stage := by
  unfold State.evaluatedStage
  obtain hc | ⟨c, v, hc, hv, hr⟩ := h
  · rw [hc]
  · rw [hc]
    dsimp only
    rw [hv, hr]

theorem stageEvents_eq (old new : Stage) : stageEvents old new =
    if new = .warning ∧ (old = .normal ∨ old = .suspended) then [.ow]
    else if new = .alarm ∧ old ≠ .alarm then [.oa] else [] := by
  cases old <;> cases new <;> rfl

/-- What an evaluation sends after the functions: its event, and its place in the state word (R73). -/
def stageSends (old new : Stage) : List Msg :=
  (if new = .warning ∧ (old = .normal ∨ old = .suspended) then [.events .anu [.ow]]
    else if new = .alarm ∧ old ≠ .alarm then [.events .anu [.oa]] else [])
    ++ (if new = old then [] else [.report .anu [.stage new]])

theorem State.sendEvents_eq (s : State) (b : Block) (es : List Event) :
    s.sendEvents b es = s.send (if es = [] then [] else [.events b es]) := by
  unfold State.sendEvents
  split
  · simp [State.send]
  · rfl

theorem State.sendReport_eq (s : State) (b : Block) (is : List ReportItem) :
    s.sendReport b is = s.send (if is = [] then [] else [.report b is]) := by
  unfold State.sendReport
  split
  · simp [State.send]
  · rfl

theorem State.send_send (s : State) (ms ns : List Msg) : (s.send ms).send ns = s.send (ms ++ ns) := by
  simp [State.send]

@[simp] theorem State.send_nil (s : State) : s.send [] = s := by
  simp [State.send]

/-- An evaluation is the input taken with the new stage, and what the stage sends after it. -/
theorem State.evaluate_eq (s : State) (fs : List LampFn) : s.evaluate fs =
    (({ s with anu := { s.anu with stage := s.evaluatedStage } }.reevaluate fs).followDemands).send
      (stageSends s.anu.stage s.evaluatedStage) := by
  unfold State.evaluate stageSends
  dsimp only
  rw [stageEvents_eq]
  generalize s.evaluatedStage = new
  by_cases hn : s.anu.stage = new
  · subst hn
    cases hs : s.anu.stage <;> simp [State.sendEvents_eq]
  · have hn' : new ≠ s.anu.stage := fun h => hn h.symm
    simp only [if_neg hn, if_neg hn', State.sendEvents_eq, State.sendReport_eq, State.send_send]
    split
    · rfl
    · split <;> rfl

/-- One evaluation on an ANU that differs from the part's in the input taken. -/
theorem State.stageEvaluated {s : State} {a : Anu} (rest : List Msg) (fs : List LampFn)
    (hstage : a.stage = s.anu.stage) (hf : a.fns = s.anu.fns) (hs : a.soundsAs s.anu) :
    StageEvaluated s ({ s with inFlight := rest, anu := a }.evaluate fs) a rest fs := by
  let u : State := { s with inFlight := rest, anu := a }
  have htaken : InputTaken s (u.evaluate fs) { a with stage := u.evaluatedStage } rest fs
      (stageSends s.anu.stage u.evaluatedStage) := by
    rw [State.evaluate_eq, show u.anu.stage = s.anu.stage from hstage]
    exact State.inputTaken (u := { u with anu := { a with stage := u.evaluatedStage } }) fs _ rfl hf hs
  have hnew : (u.evaluate fs).anu.stage = u.evaluatedStage := by rw [htaken.anu]
  refine ⟨fun c hc hv => ?_, fun c v r hc hv hr => ?_, fun h => ?_, ?_⟩
  · rw [hnew]
    exact State.evaluatedStage_unknown (s := u) hc hv
  · rw [hnew, State.evaluatedStage_known (s := u) hc hv hr, show u.anu.stage = s.anu.stage from hstage]
    exact stageOf_moves ..
  · rw [hnew, State.evaluatedStage_absent (s := u) h]
    exact hstage
  · rw [hnew]
    exact htaken

/-- Settles O40: both commands are one evaluation on the ANU with the input taken. -/
theorem stageEvaluatedOnce : Obligations.StageEvaluatedOnce := by
  intro s rest
  refine ⟨fun c h => ⟨_, rfl, ?_⟩, fun pr h => ⟨_, rfl, ?_⟩⟩
  · rw [State.takeMsg_some _ h]
    exact ⟨by simp, State.stageEvaluated rest _ rfl rfl ⟨rfl, rfl, rfl⟩⟩
  · rw [State.takeMsg_some _ h]
    exact ⟨by simp, State.stageEvaluated rest _ rfl rfl ⟨rfl, rfl, rfl⟩⟩

/-! ## A function input without a demand of the buzzer (R117, R119) -/

/-- A re-evaluation after an input that leaves functions and sound as they were. -/
theorem State.reevaluate_handed {s : State} {a : Anu} (rest : List Msg) (fs : List LampFn) (now : Nat)
    (hf : a.fns = s.anu.fns) : ∃ fns,
    FunctionsHanded s.csu.op s.anu ({ s with now := now, inFlight := rest, anu := a }.reevaluate fs).anu fs fns ∧
      { s with now := now, inFlight := rest, anu := a }.reevaluate fs = { s with
        now := now, inFlight := rest ++ fns
        anu := { a with fns := ({ s with now := now, inFlight := rest, anu := a }.reevaluate fs).anu.fns } } := by
  rw [State.reevaluate_eq]
  exact ⟨_, Anu.functionsHanded hf rfl rfl, rfl⟩

/-- Settles O42: each input is set, and the functions it reaches are re-evaluated. -/
theorem functionInputsTaken : Obligations.FunctionInputsTaken := by
  intro s rest
  refine ⟨fun x h => ⟨_, rfl, ?_⟩, fun b h => ?_, fun b h => ?_, fun entered h => ?_⟩
  · rw [State.takeMsg_some _ h]
    refine ⟨by simp, ?_⟩
    have ht := State.inputTaken (s := s) (u := { s with inFlight := rest, anu := { s.anu with summary := x } })
      (a := { s.anu with summary := x }) [.faultA, .faultAny, .faultMore] [] rfl rfl ⟨rfl, rfl, rfl⟩
    rw [State.send_nil] at ht
    exact ht
  · obtain ⟨fns, hh, he⟩ := State.reevaluate_handed (s := s) (a := { s.anu with codeLost := b }) rest [.codeLost]
      s.now rfl
    refine ⟨_, fns, rfl, ?_⟩
    rw [State.takeMsg_some _ h]
    exact ⟨hh, he⟩
  · obtain ⟨fns, hh, he⟩ := State.reevaluate_handed (s := s) (a := { s.anu with uncoded := b }) rest [.uncoded]
      s.now rfl
    refine ⟨_, fns, rfl, ?_⟩
    rw [State.takeMsg_some _ h]
    exact ⟨hh, he⟩
  · obtain ⟨fns, hh, he⟩ := State.reevaluate_handed (s := s)
      (a := { s.anu with staleCount := if entered then s.anu.staleCount + 1 else s.anu.staleCount - 1 }) rest
      [.staleAny] s.now rfl
    refine ⟨_, fns, if entered then s.anu.staleCount + 1 else s.anu.staleCount - 1, rfl, ?_⟩
    rw [State.takeMsg_some _ h]
    exact ⟨hh, rfl, he⟩

/-! ## The restriction (R94, R95) -/

/-- Settles O41: by whether the rank falls while RUNNING, and by the timer of the acknowledgement. -/
theorem fallOfRankPends : Obligations.FallOfRankPends := by
  intro s rest
  refine ⟨fun r h => ⟨_, rfl, ?_⟩, fun e h => ?_⟩
  · rw [State.takeMsg_some _ h]
    dsimp only
    refine ⟨fun hn => ?_, ?_⟩
    · split
      next old hold =>
        rw [if_neg]
        rintro ⟨hlt, hop⟩
        exact hn ⟨hop, old, hold, hlt⟩
      next => rfl
    · rintro ⟨hop, old, hold, hlt⟩
      simp only [hold]
      rw [if_pos ⟨hlt, hop⟩]
      have ht := State.inputTaken (s := s) (u := { s with
          inFlight := rest
          anu := { s.anu with rank := some r, pendingAck := true
                              ackTimer := some (s.now + 1000 * s.csu.shadow.imgTack) } })
        [.restrictAck] ([.events .anu [.ad]] ++ (if s.anu.pendingAck then [] else [.report .anu [.restriction true]]))
        rfl rfl ⟨rfl, rfl, rfl⟩
      cases hp : s.anu.pendingAck <;> rw [hp] at ht <;>
        simp only [State.sendEvents_eq, State.sendReport_eq, State.send_send, Bool.false_eq_true, if_true, if_false]
      · exact ⟨by simp [State.startTimer], ht⟩
      · exact ⟨by simp [State.startTimer], ht⟩
  · show execAcknowledgementTimerExpiry s = _
    unfold execAcknowledgementTimerExpiry
    rw [h]
    rfl

end Sys2Proof.Machine
end

section
/-! SUPPORT and PROOF. The annunciation unit: the flash phase, the cadence and the chime, the buttons, and the lamp test
(7.2 to 7.5). -/

namespace Sys2Proof.Machine

/-! ## The cadence and the chime (R121, R122) -/

/-- A CHIME request changes the sound alone. -/
theorem State.chime_eq (s : State) : s.chime = { s with
    anu := { s.anu with sounding := s.chime.anu.sounding, buz := s.chime.anu.buz, cadence := s.chime.anu.cadence } } := by
  unfold State.chime
  (repeat' split) <;> rfl

/-- A step of the cadence changes the sound alone. -/
theorem State.stepCadence_eq (s : State) : s.stepCadence = { s with
    anu := { s.anu with sounding := s.stepCadence.anu.sounding, buz := s.stepCadence.anu.buz
                        cadence := s.stepCadence.anu.cadence } } := by
  unfold State.stepCadence
  (repeat' split) <;> rfl

theorem State.stepCadence_intermittent {s : State} (h : s.anu.sounding = .intermittent) : s.stepCadence =
    { s with anu := { s.anu with buz := !s.anu.buz, cadence := some (s.now + 500) } } := by
  unfold State.stepCadence
  rw [h]
  rfl

theorem State.stepCadence_repeatChime {s : State} (h : s.anu.sounding = .repeatChime) : s.stepCadence =
    { s with anu := { s.anu with
      buz := !s.anu.buz, cadence := if s.anu.buz then some (s.now + 1700) else some (s.now + 300) } } := by
  unfold State.stepCadence
  rw [h]
  cases hb : s.anu.buz <;> rfl

theorem State.stepCadence_chime {s : State} (h : s.anu.sounding = .chime) :
    s.stepCadence = { s with anu := s.anu.silenced } := by
  unfold State.stepCadence
  rw [h]

theorem State.chime_idle {s : State} (h : s.csu.op ≠ .running ∨ s.anu.sounding = .continuous ∨
    s.anu.sounding = .intermittent) : s.chime = s := by
  unfold State.chime
  split
  next hop =>
    obtain h | h | h := h
    · exact absurd hop h
    · rw [h]
    · rw [h]
  next => rfl

/-- A CHIME request by what sounds (R122). -/
theorem State.chimeTaken {s : State} {before : Anu} (h : s.anu.soundsAs before) :
    ChimeTaken s.csu.op s.now before s.chime.anu := by
  have hs := h.1
  constructor
  · intro hd
    rw [State.chime_idle (by rw [hs]; exact hd)]
    exact h
  · intro hop hb
    unfold State.chime
    rw [if_pos hop, hs, hb]
    exact ⟨rfl, rfl, rfl⟩
  · intro hop hb
    unfold State.chime
    rw [if_pos hop, hs]
    obtain hb | hb := hb <;> rw [hb] <;> exact ⟨rfl, rfl, rfl⟩

/-- Settles O43: the flash timer re-evaluates the functions of the phase, the cadence timer and a CHIME request go by
what sounds. -/
theorem flashCadenceAndChime : Obligations.FlashCadenceAndChime := by
  intro s
  refine ⟨fun e h => ?_, fun e h => ?_, fun u rest h => ⟨_, rfl, ?_⟩⟩
  · obtain ⟨fns, hh, he⟩ := State.reevaluate_handed (s := s)
      (a := { s.anu with phase := !s.anu.phase, flash := some (max s.now e + 500) }) s.inFlight
      [.overspeed, .restrictAck] (max s.now e) rfl
    refine ⟨_, fns, ?_, hh, he⟩
    show execFlashTimerExpiry s = _
    unfold execFlashTimerExpiry
    rw [h]
    rfl
  · refine ⟨(s.reach e).stepCadence, ?_, (s.reach e).stepCadence_eq, fun hs => ?_, fun hs hb => ?_, fun hs hb => ?_,
      fun hs => ?_⟩
    · show execCadenceTimerExpiry s = _
      unfold execCadenceTimerExpiry
      rw [h]
    · rw [State.stepCadence_intermittent (s := s.reach e) hs]
      exact ⟨hs, rfl, rfl⟩
    · rw [State.stepCadence_repeatChime (s := s.reach e) hs]
      exact ⟨hs, by simp [hb], by simp [hb]⟩
    · rw [State.stepCadence_repeatChime (s := s.reach e) hs]
      exact ⟨hs, by simp [hb], by simp [hb]⟩
    · rw [State.stepCadence_chime (s := s.reach e) hs]
      exact ⟨rfl, rfl, rfl⟩
  · rw [State.takeMsg_some _ h]
    exact ⟨State.chimeTaken (s := { s with inFlight := rest }) ⟨rfl, rfl, rfl⟩,
      State.chime_eq { s with inFlight := rest }⟩

/-! ## The buttons (R124–R127) -/

/-- Settles O46: by whether the line changes, and by RESET. -/
theorem lineChangesRestartFilters : Obligations.LineChangesRestartFilters := by
  intro s high
  refine ⟨?_, ?_, ?_⟩
  · show execButtonLineChange .ackb high s = _
    unfold execButtonLineChange
    rw [Host.Outcome.next.injEq]
    rfl
  · show execButtonLineChange .ltstb high s = _
    unfold execButtonLineChange
    rw [Host.Outcome.next.injEq]
    rfl
  · show execCabactLineChange high s = _
    unfold execCabactLineChange
    rw [Host.Outcome.next.injEq]
    rfl

/-- The part with a button's debounced level at the level of its line. -/
def State.debounced (s : State) (b : Button) (now : Nat) : State :=
  { s with now := now
           anu := s.anu.setButton b { line := (s.anu.button b).line, pressed := (s.anu.button b).line, timer := none } }

/-- An expiry of a button's filter: the level takes the line's, and a press or a release acts while RUNNING (R124). -/
theorem exec_buttonDebounceExpiry {s : State} {b : Button} {e : Nat} (h : (s.anu.button b).timer = some e) :
    exec (.buttonDebounceExpiry b) s = .next (
      if s.csu.op = .running ∧ (s.anu.button b).line ≠ (s.anu.button b).pressed then
        (s.debounced b (max s.now e)).buttonChanged b (s.anu.button b).line
      else s.debounced b (max s.now e)) := by
  show execButtonDebounceExpiry b s = _
  unfold execButtonDebounceExpiry
  dsimp only
  rw [h]
  dsimp only
  by_cases hl : (s.anu.button b).line = (s.anu.button b).pressed
  · rw [if_pos hl, if_neg fun hc => hc.2 hl]
    rfl
  · rw [if_neg hl]
    by_cases hop : s.csu.op = .running
    · rw [if_pos hop, if_pos ⟨hop, hl⟩]
      rfl
    · rw [if_neg hop, if_neg fun hc => hop hc.1]
      rfl

/-- A level that follows its line without a press or release taken in RUNNING does nothing else (R124). -/
theorem exec_buttonDebounceExpiry_idle {s : State} {b : Button} {e : Nat} (h : (s.anu.button b).timer = some e)
    (hidle : s.csu.op = .running → (s.anu.button b).line ≠ (s.anu.button b).pressed →
      (s.debounced b (max s.now e)).buttonChanged b (s.anu.button b).line = s.debounced b (max s.now e)) :
    exec (.buttonDebounceExpiry b) s = .next (s.debounced b (max s.now e)) := by
  rw [exec_buttonDebounceExpiry h]
  split
  next hc => rw [hidle hc.1 hc.2]
  next => rfl

/-- A change of the level acts while RUNNING (R124). -/
theorem exec_buttonDebounceExpiry_changed {s : State} {b : Button} {e : Nat} {p : Bool}
    (h : (s.anu.button b).timer = some e) (hop : s.csu.op = .running) (hl : (s.anu.button b).line = p)
    (hp : (s.anu.button b).pressed = !p) :
    exec (.buttonDebounceExpiry b) s = .next ((s.debounced b (max s.now e)).buttonChanged b p) := by
  rw [exec_buttonDebounceExpiry h, hl, hp, if_pos ⟨hop, by simp⟩]

/-- A pending restriction that ends (R96). -/
theorem State.endRestriction_taken {s u : State} {a : Anu} (hp : a.pendingAck = true)
    (hu : u = { s with now := u.now, inFlight := u.inFlight, anu := a }) (hf : a.fns = s.anu.fns)
    (hs : a.soundsAs s.anu) :
    InputTaken s u.endRestriction { a with pendingAck := false, ackTimer := none } u.inFlight [.restrictAck]
      [.fault .anu (.clear (catalogue 0x011 .a 967)), .report .anu [.restriction false]] := by
  rw [hu]
  unfold State.endRestriction
  dsimp only
  rw [if_pos hp, State.sendReport_eq, State.sendFlu, State.send_send]
  exact State.inputTaken [.restrictAck] _ rfl hf hs

/-- The ANU with the lockout started by a taken press (R125). -/
def State.lockedOut (s : State) (now : Nat) : State :=
  { s.debounced .ackb now with
    anu := { (s.debounced .ackb now).anu with lockout := some (now + 300) } }

theorem State.pressAck_taken {s : State} (h : s.anu.lockout = none) (now : Nat) :
    (s.debounced .ackb now).pressAck = (s.lockedOut now).arbitrate := by
  unfold State.pressAck
  rw [show (s.debounced .ackb now).anu.lockout = none from h]
  rfl

theorem State.pressAck_locked {s : State} {x : Nat} (h : s.anu.lockout = some x) : s.pressAck = s := by
  unfold State.pressAck
  rw [h]

theorem State.arbitrate_restriction {u : State} (hp : u.anu.pendingAck = true) : u.arbitrate = u.endRestriction := by
  unfold State.arbitrate
  rw [if_pos hp]

/-- Without a pending restriction a taken press serves the fault list where the summary shows an unacknowledged entry
(R126). -/
theorem State.arbitrate_list {u : State} (hp : u.anu.pendingAck = false) : u.arbitrate = { u with
    inFlight := u.inFlight ++ if u.anu.summary.anyUnacked then [.fault .anu .acknowledge] else [] } := by
  unfold State.arbitrate
  rw [hp]
  cases u.anu.summary.anyUnacked
  · simp
  · rfl

/-- Settles O44: by whether the expiry is a taken press, and by its claimant. -/
theorem acknowledgePressArbitrated : Obligations.AcknowledgePressArbitrated := by
  intro s e
  refine ⟨fun h => ?_, fun h => ?_⟩
  · by_cases htaken : s.csu.op = .running ∧ s.anu.ackb.line = true ∧ s.anu.ackb.pressed = false ∧ s.anu.lockout = none
    · obtain ⟨hop, hline, hpressed, hlock⟩ := htaken
      refine ⟨(s.lockedOut (max s.now e)).arbitrate, ?_, ?_, fun hn => absurd ⟨hop, hline, hpressed, hlock⟩ hn,
        fun _ hp => ?_, fun _ hp => ?_⟩
      · rw [exec_buttonDebounceExpiry_changed (b := .ackb) h hop hline hpressed, ← State.pressAck_taken hlock]
        rfl
      · rw [State.arbitrate_now]
        rfl
      · rw [State.arbitrate_now, State.arbitrate_restriction (by exact hp)]
        exact State.endRestriction_taken (s := s) (u := s.lockedOut (max s.now e)) hp rfl rfl ⟨rfl, rfl, rfl⟩
      · rw [State.arbitrate_now, State.arbitrate_list (by exact hp)]
        rfl
    · refine ⟨s.debounced .ackb (max s.now e), ?_, rfl, fun _ => rfl, fun ht => absurd ht htaken,
        fun ht => absurd ht htaken⟩
      refine exec_buttonDebounceExpiry_idle (b := .ackb) h fun hop hne => ?_
      cases hline : (s.anu.button .ackb).line with
      | false => rfl
      | true =>
        have hpressed : (s.anu.button .ackb).pressed = false := by
          rw [hline] at hne
          simpa using hne.symm
        cases hlock : s.anu.lockout with
        | none => exact absurd ⟨hop, hline, hpressed, hlock⟩ htaken
        | some x => exact State.pressAck_locked (s := s.debounced .ackb (max s.now e)) hlock
  · show execLockoutExpiry s = _
    unfold execLockoutExpiry
    rw [h]
    rfl

/-! ## The lamp test (R128, R129) -/

/-- A start, with its chime in the same operation (R128). -/
theorem State.startLampTest_eq (s : State) : s.startLampTest = { s with
    anu := { s.anu with testActive := true, test := some (s.now + 10000), sounding := s.startLampTest.anu.sounding
                        buz := s.startLampTest.anu.buz, cadence := s.startLampTest.anu.cadence }
    inFlight := s.inFlight ++ [.lampTest true, .report .anu [.lampTest true]] } := by
  unfold State.startLampTest
  dsimp only
  rw [State.sendReport_eq, State.chime_eq]
  simp [State.send, State.startTimer, show Config.lampTestTime = 10000 from rfl]

theorem State.startLampTest_chime {s : State} {before : Anu} (h : s.anu.soundsAs before) :
    ChimeTaken s.csu.op s.now before s.startLampTest.anu := by
  unfold State.startLampTest
  dsimp only
  rw [State.sendReport_eq]
  exact State.chimeTaken (s := { s with
    anu := { s.anu with testActive := true, test := s.startTimer Config.lampTestTime } }.send [.lampTest true]) h

/-- An end by release or timeout (R129). -/
theorem State.endLampTest_eq (s : State) : s.endLampTest = { s with
    anu := { s.anu with testActive := false, test := none }
    inFlight := s.inFlight ++ [.lampTest false, .report .anu [.lampTest false]] } := by
  unfold State.endLampTest
  rw [State.sendReport_eq]
  simp [State.send]

/-- Settles O45: by whether the expiry is a press that starts a test, a release that ends one, or neither. -/
theorem lampTestStartsAndEnds : Obligations.LampTestStartsAndEnds := by
  intro s e
  refine ⟨fun h => ?_, fun h => ?_⟩
  · let u := s.debounced .ltstb (max s.now e)
    by_cases hpress : s.csu.op = .running ∧ s.anu.ltstb.line = true ∧ s.anu.ltstb.pressed = false ∧
        s.anu.testActive = false
    · obtain ⟨hop, hline, hpressed, hactive⟩ := hpress
      refine ⟨u.startLampTest, ?_, by simp; rfl, fun _ => ⟨?_, ?_⟩, fun hr => ?_, fun hn => ?_⟩
      · rw [exec_buttonDebounceExpiry_changed (b := .ltstb) h hop hline hpressed]
        show Host.Outcome.next (if s.anu.testActive = true then u else u.startLampTest) = _
        rw [hactive]
        rfl
      · rw [State.startLampTest_now, ← hop]
        exact State.startLampTest_chime (s := u) ⟨rfl, rfl, rfl⟩
      · rw [State.startLampTest_now]
        exact State.startLampTest_eq u
      · exact absurd (hline.symm.trans hr.2.1) (by decide)
      · exact absurd ⟨hop, hline, hpressed, hactive⟩ hn
    · by_cases hrelease : s.csu.op = .running ∧ s.anu.ltstb.line = false ∧ s.anu.ltstb.pressed = true ∧
          s.anu.testActive = true
      · obtain ⟨hop, hline, hpressed, hactive⟩ := hrelease
        refine ⟨u.endLampTest, ?_, by simp; rfl, fun hp => absurd hp hpress, fun _ => ?_,
          fun _ hn => absurd ⟨hop, hline, hpressed, hactive⟩ hn⟩
        · rw [exec_buttonDebounceExpiry_changed (b := .ltstb) h hop hline hpressed]
          show Host.Outcome.next (if s.anu.testActive = true then u.endLampTest else u) = _
          rw [hactive]
          rfl
        · rw [State.endLampTest_now]
          exact State.endLampTest_eq u
      · refine ⟨u, ?_, rfl, fun hp => absurd hp hpress, fun hr => absurd hr hrelease, fun _ _ => rfl⟩
        refine exec_buttonDebounceExpiry_idle (b := .ltstb) h fun hop hne => ?_
        have hne' : s.anu.ltstb.line ≠ s.anu.ltstb.pressed := hne
        have hpressed : s.anu.ltstb.pressed = !s.anu.ltstb.line := by
          rw [Bool.eq_not]
          exact hne'.symm
        show State.buttonChanged u .ltstb s.anu.ltstb.line = u
        cases hline : s.anu.ltstb.line with
        | true =>
          show (if s.anu.testActive = true then u else u.startLampTest) = u
          rw [hline] at hpressed
          rw [if_pos]
          exact Bool.of_not_eq_false fun hactive => hpress ⟨hop, hline, hpressed, hactive⟩
        | false =>
          show (if s.anu.testActive = true then u.endLampTest else u) = u
          rw [hline] at hpressed
          rw [if_neg]
          exact fun hactive => hrelease ⟨hop, hline, hpressed, hactive⟩
  · show execLampTestTimeout s = _
    unfold execLampTestTimeout
    rw [h]
    exact congrArg Host.Outcome.next (State.endLampTest_eq (s.reach e))

end Sys2Proof.Machine
end

section
/-! SUPPORT and PROOF. The fault list unit: RAISE, CLEAR and acknowledge as the FLU takes them (6.4 to 6.6, 6.8). -/

namespace Sys2Proof.Machine

/-! ## The take of a request (R109, R110) -/

/-- A request that leaves the list as it was, without event or chime, hands nothing. -/
theorem State.applyFlu_same {s : State} {e : FluEffect} (hf : e.flu = s.flu) (he : e.events = [])
    (hc : e.chime = false) : s.applyFlu e = s := by
  unfold State.applyFlu
  rw [he, hc, hf]
  simp [State.sendEvents]

/-- What a request leaves and hands on, in terms of the state it leaves. -/
theorem State.applyFlu_handed (s : State) (rest : List Msg) {e : FluEffect} {changed : Bool}
    (hc : decide (e.flu.list ≠ s.flu.list) = changed) :
    { s with inFlight := rest }.applyFlu e = { s with
      flu := e.flu
      inFlight := rest ++ ({ s with inFlight := rest }.applyFlu e).listSends changed e.events e.chime } := by
  have hs := State.listSends_congr (s := { s with inFlight := rest, flu := e.flu })
    (t := { s with inFlight := rest }.applyFlu e) (by simp) (by simp) (by simp) changed e.events e.chime
  rw [hs]
  conv_lhs => rw [State.applyFlu_eq]
  rw [← hc]

/-- An effect that sets events and leaves the list as it was. -/
theorem State.applyFlu_events (s : State) (rest : List Msg) (es : List Event) :
    { s with inFlight := rest }.applyFlu { flu := s.flu, events := es, chime := false } = { s with
      inFlight := rest ++ if es = [] then [] else [.events .flu es] } := by
  unfold State.applyFlu
  simp [State.sendEvents_eq]
  rfl

theorem exec_raise {s : State} {b : Block} {m : FaultMsg} {rest : List Msg}
    (h : takeFirst (pickFault b) s.inFlight = some (.raise m, rest)) :
    exec (.raise b) s = .next ({ s with inFlight := rest }.applyFlu (s.flu.raise m)) := by
  show execRaise b s = _
  unfold execRaise
  rw [h]
  rfl

theorem exec_clear {s : State} {b : Block} {m : FaultMsg} {rest : List Msg}
    (h : takeFirst (pickFault b) s.inFlight = some (.clear m, rest)) : exec (.clear b) s =
    .next ({ s with inFlight := rest }.applyFlu { flu := s.flu.clear m, events := [], chime := false }) := by
  show execClear b s = _
  unfold execClear
  rw [h]
  rfl

theorem exec_acknowledge {s : State} {rest : List Msg}
    (h : takeFirst (pickFault .anu) s.inFlight = some (.acknowledge, rest)) : exec .acknowledge s =
    .next (if s.csu.op = .running then
      { s with inFlight := rest }.applyFlu { flu := s.flu.acknowledge, events := [], chime := false }
    else { s with inFlight := rest }) := by
  show execAcknowledge s = _
  unfold execAcknowledge
  rw [h]
  rfl

/-- The next request of the sender is no RAISE. -/
theorem exec_raise_other {s : State} {b : Block} {r : FluRequest} {rest : List Msg}
    (h : takeFirst (pickFault b) s.inFlight = some (r, rest)) (hr : ∀ m, r ≠ .raise m) :
    exec (.raise b) s = .next s := by
  show execRaise b s = _
  unfold execRaise
  rw [h]
  split
  next m _ he => exact absurd (Prod.mk.inj (Option.some.inj he)).1 (hr m)
  next => rfl

/-- The next request of the sender is no CLEAR. -/
theorem exec_clear_other {s : State} {b : Block} {r : FluRequest} {rest : List Msg}
    (h : takeFirst (pickFault b) s.inFlight = some (r, rest)) (hr : ∀ m, r ≠ .clear m) :
    exec (.clear b) s = .next s := by
  show execClear b s = _
  unfold execClear
  rw [h]
  split
  next m _ he => exact absurd (Prod.mk.inj (Option.some.inj he)).1 (hr m)
  next => rfl

/-! ## RAISE of a held entry (R104) -/

theorem Flu.raise_held {f : Flu} (hf : FaultListLaw f) {m : FaultMsg} {old : Entry} (hold : old ∈ f.list)
    (hu : old.unit = m.unit) (hc : old.code = m.code) : f.raise m = f.raiseExisting m old := by
  unfold Flu.raise
  rw [findEntry_of_mem hf hold hu hc]

theorem raisedState_eq (st : EntryState) (old new : Severity) : raisedState st old new =
    if st = .activeAcked ∧ old.code ≤ new.code then .activeAcked else .activeUnacked := by
  cases st <;> simp [raisedState]
  by_cases h : new.code < old.code
  · rw [if_pos h, if_neg (by omega)]
  · rw [if_neg h, if_pos (by omega)]

/-- Settles O36: the entry is found by its identity, and a change of it is re-sorted. -/
theorem raiseOfHeldEntry : Obligations.RaiseOfHeldEntry := by
  intro s b m rest old e hlaw h hold hu hc he
  have hnew : { old with severity := m.severity, text := m.text,
                         state := raisedState old.state old.severity m.severity } = e := by
    rw [he, raisedState_eq]
  have hraise : s.flu.raise m = if e = old then { flu := s.flu, events := [], chime := false } else
      { flu := { s.flu with list := resort s.flu.base e s.flu.list }
        events := if m.severity = .a ∧ old.severity ≠ .a then [.fa] else []
        chime := decide (m.severity = .b ∧ old.severity = .c) } := by
    rw [Flu.raise_held hlaw hold hu hc]
    unfold Flu.raiseExisting
    subst hnew
    rfl
  refine ⟨exec_clear_other h nofun, fun hsame => ?_, fun hne => ⟨_, exec_raise h, ?_, ?_⟩⟩
  · rw [exec_raise h, hraise, if_pos hsame, State.applyFlu_same rfl rfl rfl]
  · rw [State.applyFlu_flu, hraise, if_neg hne]
    exact list_resorted hlaw hold (by rw [he]) (by rw [he]) (by rw [he])
  · rw [State.applyFlu_flu, hraise, if_neg hne]
    refine State.applyFlu_handed s rest (decide_eq_true ?_)
    exact resort_list_ne hlaw hold (by rw [he]) (by rw [he]) hne

/-! ## RAISE of a new entry (R105, R106) -/

theorem Entry.eligible_iff (e : Entry) : e.eligible = true ↔ e.state = .activeAcked ∨ e.severity = .c := by
  unfold Entry.eligible Entry.unacked
  cases e.state <;> cases e.severity <;> simp

/-- The last entry of a list that the list may give up (R106). -/
theorem lastEligible_append {front back : List Entry} {v : Entry} (hv : v.eligible = true)
    (hb : ∀ e ∈ back, e.eligible ≠ true) : lastEligible (front ++ v :: back) = some v := by
  unfold lastEligible
  rw [List.filter_append, List.filter_cons_of_pos hv, List.filter_eq_nil_iff.mpr hb]
  simp

theorem lastEligible_none {list : List Entry} (h : ∀ e ∈ list, e.eligible ≠ true) : lastEligible list = none := by
  unfold lastEligible
  rw [List.filter_eq_nil_iff.mpr h]
  rfl

theorem Flu.exists_insertNew (f : Flu) (m : FaultMsg) :
    ∃ e ∈ (f.insertNew m).list, e.unit = m.unit ∧ e.code = m.code :=
  ⟨_, mem_insertEntry.mpr (.inl rfl), rfl, rfl⟩

/-- A list with a new entry is another list. -/
theorem Flu.insertNew_list_ne {f g : Flu} {m : FaultMsg} (h : ∀ e ∈ f.list, ¬(e.unit = m.unit ∧ e.code = m.code)) :
    (g.insertNew m).list ≠ f.list := by
  intro he
  obtain ⟨e, hmem, hid⟩ := g.exists_insertNew m
  exact h e (he ▸ hmem) hid

/-- A RAISE that makes a new entry in a list with room, which may be what a displaced entry left. -/
theorem State.applyFlu_raiseNew {s : State} {g : Flu} {m : FaultMsg} {rest : List Msg}
    (h : ∀ e ∈ s.flu.list, ¬(e.unit = m.unit ∧ e.code = m.code)) :
    { s with inFlight := rest }.applyFlu (g.raiseNew m) = { s with
      flu := g.insertNew m
      inFlight := rest ++ ({ s with inFlight := rest }.applyFlu (g.raiseNew m)).listSends true
        (if m.severity = Severity.a then [Event.fa] else []) (decide (m.severity = Severity.b)) } :=
  State.applyFlu_handed s rest (decide_eq_true (Flu.insertNew_list_ne h))

/-- Settles O37: by the room of the list, and of a full one by its last eligible entry. -/
theorem raiseOfNewEntry : Obligations.RaiseOfNewEntry := by
  intro s b m rest hlaw h hnew
  refine ⟨_, exec_raise h, ?_⟩
  have hnone : findEntry m.unit m.code s.flu.list = none := findEntry_eq_none hnew
  have hfull : ∀ v, s.flu.list.length = 32 → lastEligible s.flu.list = v → s.flu.raise m = match v with
      | some v => if m.severity.code ≤ v.severity.code then (s.flu.remove v.unit v.code).raiseNew m
        else { flu := s.flu, events := [.fl], chime := false }
      | none => { flu := s.flu, events := [.fl], chime := false } := by
    rintro v hlen rfl
    unfold Flu.raise
    rw [hnone, hlen]
    rfl
  refine ⟨?_, fun hroom => ?_, fun hlen => ⟨fun front v back hl hv hb => ⟨fun hle => ?_, fun hlt => ?_⟩, fun hall => ?_⟩⟩
  · conv_lhs => rw [State.applyFlu_eq]
    simp [State.applyFlu_eq]
  · have hraise : s.flu.raise m = s.flu.raiseNew m := by
      unfold Flu.raise
      rw [hnone]
      exact if_pos hroom
    rw [hraise]
    refine ⟨?_, congrArg State.inFlight (State.applyFlu_raiseNew hnew)⟩
    rw [State.applyFlu_flu]
    exact list_inserted hlaw hroom hnew
  · have hmem : v ∈ s.flu.list := by rw [hl]; simp
    have hlast : lastEligible s.flu.list = some v := by
      rw [hl]
      exact lastEligible_append ((Entry.eligible_iff v).mpr hv) fun e he => fun hc => hb e he ((Entry.eligible_iff e).mp hc)
    have hremoved := list_removed hlaw hmem
    rw [hfull _ hlen hlast]
    simp only [if_pos hle]
    refine ⟨⟨_, hremoved, ?_⟩, congrArg State.inFlight (State.applyFlu_raiseNew hnew)⟩
    rw [State.applyFlu_flu]
    refine list_inserted hremoved.1 ?_ fun e he => hnew e ?_
    · have := dropEntry_length hmem rfl rfl
      show (dropEntry v.unit v.code s.flu.list).length < 32
      omega
    · exact (dropEntry_sublist v.unit v.code s.flu.list).subset he
  · have hlast : lastEligible s.flu.list = some v := by
      rw [hl]
      exact lastEligible_append ((Entry.eligible_iff v).mpr hv) fun e he => fun hc => hb e he ((Entry.eligible_iff e).mp hc)
    rw [hfull _ hlen hlast]
    simp only [if_neg (Nat.not_le.mpr hlt)]
    rw [State.applyFlu_events]
    exact ⟨rfl, rfl⟩
  · rw [hfull _ hlen (lastEligible_none fun e he hc => hall e he ((Entry.eligible_iff e).mp hc))]
    dsimp only
    rw [State.applyFlu_events]
    exact ⟨rfl, rfl⟩

/-! ## CLEAR (R107) -/

theorem Flu.clear_absent {f : Flu} {m : FaultMsg} (h : ∀ e ∈ f.list, ¬(e.unit = m.unit ∧ e.code = m.code)) :
    f.clear m = f := by
  unfold Flu.clear
  rw [findEntry_eq_none h]

theorem Flu.clear_held {f : Flu} (hf : FaultListLaw f) {m : FaultMsg} {e : Entry} (he : e ∈ f.list)
    (hu : e.unit = m.unit) (hc : e.code = m.code) : f.clear m = match e.state with
      | .clearedUnacked => f
      | .activeAcked => f.remove e.unit e.code
      | .activeUnacked => if e.severity = .c then f.remove e.unit e.code
        else { f with list := f.list.map fun x => if x = e then { x with state := .clearedUnacked } else x } := by
  have hmap : f.list.map (fun x => if x.is e.unit e.code then { x with state := .clearedUnacked } else x) =
      f.list.map fun x => if x = e then { x with state := .clearedUnacked } else x := by
    refine List.map_congr_left fun x hx => ?_
    have hiff : x.is e.unit e.code = true ↔ x = e :=
      ⟨fun h => eq_of_identity hf.identity hx he (Entry.is_iff.mp h).1 (Entry.is_iff.mp h).2,
        fun h => Entry.is_iff.mpr ⟨by rw [h], by rw [h]⟩⟩
    by_cases hx : x = e
    · rw [if_pos hx, if_pos (hiff.mpr hx)]
    · rw [if_neg hx, if_neg fun h => hx (hiff.mp h)]
  unfold Flu.clear
  rw [findEntry_of_mem hf he hu hc]
  dsimp only
  rw [hmap] <;> rfl

/-- An entry marked CLEARED is another entry than the active one. -/
theorem map_cleared_ne {l : List Entry} {e : Entry} (he : e ∈ l) (hs : e.state ≠ .clearedUnacked) :
    (l.map fun x => if x = e then { x with state := .clearedUnacked } else x) ≠ l := by
  intro h
  have hid : l.map (fun x => if x = e then { x with state := .clearedUnacked } else x) = l.map id := by
    rw [h, List.map_id]
  have := List.map_inj_left.mp hid e he
  rw [if_pos rfl] at this
  exact hs (congrArg Entry.state this).symm

/-- Settles O38: by the state and the severity of the entry found. -/
theorem clearOfEntry : Obligations.ClearOfEntry := by
  intro s b m rest hlaw h
  refine ⟨exec_raise_other h nofun, fun habsent => ?_, fun e he hu hc => ⟨_, exec_clear h, ?_⟩⟩
  · rw [exec_clear h, Flu.clear_absent habsent, State.applyFlu_same rfl rfl rfl]
  · have hclear := Flu.clear_held hlaw he hu hc
    rw [State.applyFlu_flu]
    cases hst : e.state with
    | clearedUnacked =>
      rw [hst] at hclear
      dsimp only at hclear
      rw [hclear]
      refine ⟨State.applyFlu_handed s rest (by simp), fun _ => rfl, fun hn => ?_, nofun⟩
      obtain hn | ⟨hn, -⟩ := hn <;> cases hn
    | activeAcked =>
      rw [hst] at hclear
      dsimp only at hclear
      rw [hclear]
      exact ⟨State.applyFlu_handed s rest (by simpa using remove_list_ne he), nofun, fun _ => list_removed hlaw he, nofun⟩
    | activeUnacked =>
      rw [hst] at hclear
      dsimp only at hclear
      by_cases hsev : e.severity = .c
      · rw [if_pos hsev] at hclear
        rw [hclear]
        exact ⟨State.applyFlu_handed s rest (by simpa using remove_list_ne he), nofun, fun _ => list_removed hlaw he,
          fun _ hn => absurd hsev hn⟩
      · rw [if_neg hsev] at hclear
        rw [hclear]
        refine ⟨State.applyFlu_handed s rest ?_, nofun, fun hn => ?_, fun _ _ => rfl⟩
        · simpa using map_cleared_ne he (by rw [hst]; decide)
        · obtain hn | ⟨-, hn⟩ := hn
          · cases hn
          · exact absurd hn hsev

/-! ## Acknowledge (R108) -/

theorem Entry.unacked_iff (e : Entry) : e.unacked = true ↔ e.state ≠ .activeAcked := by
  unfold Entry.unacked
  simp

theorem Flu.acknowledge_none {f : Flu} (h : ∀ e ∈ f.list, e.state = .activeAcked) : f.acknowledge = f := by
  have hfind : f.list.find? Entry.unacked = none :=
    List.find?_eq_none.mpr fun e he hu => (Entry.unacked_iff e).mp hu (h e he)
  unfold Flu.acknowledge
  rw [hfind]

theorem Flu.acknowledge_first {f : Flu} {front back : List Entry} {e : Entry} (hl : f.list = front ++ e :: back)
    (hf : ∀ x ∈ front, x.state = .activeAcked) (he : e.state ≠ .activeAcked) :
    f.acknowledge = match e.state with
      | .clearedUnacked => f.remove e.unit e.code
      | _ => { f with list := resort f.base { e with state := .activeAcked } f.list } := by
  have hfind : f.list.find? Entry.unacked = some e := by
    rw [hl, List.find?_append, List.find?_eq_none.mpr fun x hx hu => (Entry.unacked_iff x).mp hu (hf x hx)]
    simp [(Entry.unacked_iff e).mpr he]
  unfold Flu.acknowledge
  rw [hfind] <;> rfl

/-- Settles O39: by the operating state and the first unacknowledged entry. -/
theorem acknowledgeFirstUnseen : Obligations.AcknowledgeFirstUnseen := by
  intro s rest hlaw h
  refine ⟨exec_raise_other h nofun, exec_clear_other h nofun, fun hn => ?_, fun front e back hop hl hf he => ?_⟩
  · rw [exec_acknowledge h]
    split
    next hop =>
      obtain hn | hall := hn
      · exact absurd hop hn
      · rw [Flu.acknowledge_none hall, State.applyFlu_same rfl rfl rfl]
    next => rfl
  · have hmem : e ∈ s.flu.list := by rw [hl]; simp
    have hack := Flu.acknowledge_first hl hf he
    rw [exec_acknowledge h, if_pos hop]
    refine ⟨_, rfl, ?_⟩
    rw [State.applyFlu_flu]
    cases hst : e.state with
    | activeAcked => exact absurd hst he
    | activeUnacked =>
      rw [hst] at hack
      dsimp only at hack
      rw [hack]
      refine ⟨State.applyFlu_handed s rest ?_, fun _ => list_resorted hlaw hmem rfl rfl rfl, nofun⟩
      refine decide_eq_true (resort_list_ne hlaw hmem rfl rfl fun hne => he ?_)
      exact (congrArg Entry.state hne).symm
    | clearedUnacked =>
      rw [hst] at hack
      dsimp only at hack
      rw [hack]
      exact ⟨State.applyFlu_handed s rest (decide_eq_true (remove_list_ne hmem)), nofun, fun _ => list_removed hlaw hmem⟩

end Sys2Proof.Machine
end

section
/-! SUPPORT and PROOF. The track code unit: strobes and confirmation, the loss and hold timers, and the written aspect
(5.2 to 5.4, 5.6). -/

namespace Sys2Proof.Machine

/-! ## Strobes (R78, R79) -/

theorem OpState.hasTable_iff (op : OpState) : op.hasTable = true ↔ op = .running ∨ op = .standby := by
  cases op <;> simp [OpState.hasTable]

/-- A strobe is taken in RUNNING and STANDBY, with 40 ms since the last taken one (R78). -/
theorem State.takesStrobe_iff (s : State) : s.takesStrobe = true ↔
    (s.csu.op = .running ∨ s.csu.op = .standby) ∧ ∀ x, s.tcu.lastStrobe = some x → x + 40 ≤ s.now := by
  unfold State.takesStrobe
  rw [Bool.and_eq_true, OpState.hasTable_iff]
  cases s.tcu.lastStrobe with
  | none => simp
  | some x => simp [show Config.strobeSpacing = 40 from rfl]

/-- The TCU with a strobe sampled (R78, R79). -/
def State.sampledTcu (s : State) (code : BitVec 4) : Tcu :=
  { s.tcu with
    lastStrobe := some s.now, lastSampled := code
    candidate := some (applySample s.csu.shadow.imgK s.tcu.candidate code).1
    loss := some (s.now + s.csu.shadow.imgTloss) }

/-- A strobe that ends no run of K. -/
theorem State.strobe_sampled {s : State} {code : BitVec 4}
    (h : (applySample s.csu.shadow.imgK s.tcu.candidate code).2 = false) :
    s.strobe code = s.tcuCommit (s.sampledTcu code) [] := by
  unfold State.strobe
  dsimp only
  rw [h]
  rfl

/-- A strobe that ends a run of K confirms its code (R80). -/
theorem State.strobe_confirmed {s : State} {code : BitVec 4}
    (h : (applySample s.csu.shadow.imgK s.tcu.candidate code).2 = true) :
    s.strobe code = s.tcuCommit (Tcu.recomputeFrom s.tcu ((s.sampledTcu code).confirm code).1)
      ((s.sampledTcu code).confirm code).2 := by
  unfold State.strobe
  dsimp only
  rw [h]
  rfl

theorem applySample_same (k n : Nat) (code : BitVec 4) : applySample k (some (code, n)) code =
    ((code, if n < k then n + 1 else n), decide (n + 1 = k)) := by
  unfold applySample
  simp only [ne_eq, not_true_eq_false, if_false]
  by_cases h : k ≤ n
  · rw [if_pos h, if_neg (Nat.not_lt.mpr h), decide_eq_false (by omega)]
  · rw [if_neg h, if_pos (Nat.not_le.mp h)]
    rfl

theorem applySample_other {x code : BitVec 4} (h : x ≠ code) (k n : Nat) :
    applySample k (some (x, n)) code = ((code, 1), false) := by
  unfold applySample
  simp only [if_pos h]

@[simp] theorem Tcu.receive_candidate (t : Tcu) (a : Option Aspect) : (t.receive a).candidate = t.candidate := by
  unfold Tcu.receive
  split <;> rfl

@[simp] theorem Tcu.recomputeFrom_candidate (old t : Tcu) : (Tcu.recomputeFrom old t).candidate = t.candidate := by
  unfold Tcu.recomputeFrom
  split <;> rfl

theorem Tcu.confirm_candidate (t : Tcu) (code : BitVec 4) : (t.confirm code).1.candidate = t.candidate := by
  unfold Tcu.confirm
  dsimp only
  split
  · rfl
  · split
    · exact Tcu.receive_candidate ..
    · split
      · rfl
      · exact Tcu.receive_candidate ..

theorem State.strobe_candidate (s : State) (code : BitVec 4) : (s.strobe code).tcu.candidate =
    some (applySample s.csu.shadow.imgK s.tcu.candidate code).1 := by
  cases h : (applySample s.csu.shadow.imgK s.tcu.candidate code).2
  · rw [State.strobe_sampled h, State.tcuCommit_tcu]
    rfl
  · rw [State.strobe_confirmed h, State.tcuCommit_tcu, Tcu.recomputeFrom_candidate, Tcu.confirm_candidate]
    rfl

theorem exec_strobe (s : State) (code : BitVec 4) (elapsed : Nat) : exec (.strobe code elapsed) s =
    .next (if ({ s with now := s.now + elapsed } : State).takesStrobe = true then
      { s with now := s.now + elapsed }.strobe code else { s with now := s.now + elapsed }) := rfl

/-- A strobe changes the TCU and what is in flight alone. -/
theorem State.strobe_rest (s : State) (code : BitVec 4) : s.strobe code =
    { s with tcu := (s.strobe code).tcu, inFlight := (s.strobe code).inFlight } := by
  apply State.eq_of_parts <;> simp

/-- Settles O32: by whether the strobe is taken, and by the candidate it joins. -/
theorem strobeSampled : Obligations.StrobeSampled := by
  intro s code elapsed
  have htaken := State.takesStrobe_iff { s with now := s.now + elapsed }
  let u : State := { s with now := s.now + elapsed }
  rw [exec_strobe]
  refine ⟨_, rfl, ?_⟩
  cases hts : ({ s with now := s.now + elapsed } : State).takesStrobe with
  | false =>
    rw [if_neg (by decide)]
    refine ⟨rfl, fun _ => rfl, fun ht => ?_⟩
    rw [hts] at htaken
    exact absurd (htaken.mpr ht) (by decide)
  | true =>
    have ht := htaken.mp hts
    rw [if_pos rfl]
    refine ⟨by simp, fun hn => absurd (by simpa using ht) hn, fun _ => ⟨?_, fun hc => ?_, fun x n hc => ?_, fun hc => ?_⟩⟩
    · rw [State.strobe_now]
      exact State.strobe_rest u code
    · rw [State.strobe_candidate]
      simp [applySample, hc]
    · rw [State.strobe_candidate, show ({ s with now := s.now + elapsed } : State).tcu.candidate = some (x, n) from hc]
      by_cases hx : x = code
      · subst hx
        rw [applySample_same, if_pos rfl]
      · rw [applySample_other hx, if_neg hx]
    · have hrun : (applySample u.csu.shadow.imgK u.tcu.candidate code).2 = false := by
        show (applySample _ s.tcu.candidate code).2 = false
        cases hcand : s.tcu.candidate with
        | none => rfl
        | some p =>
          obtain ⟨x, n⟩ := p
          by_cases hx : x = code
          · subst hx
            rw [applySample_same]
            exact decide_eq_false (hc n hcand)
          · rw [applySample_other hx]
      rw [State.strobe_sampled (s := u) hrun, State.tcuCommit_eq]
      exact ⟨rfl, rfl⟩

/-! ## Confirmation (R80, R84) -/

theorem Tcu.confirm_again {t : Tcu} {code : BitVec 4} (h : t.state = .confirmed ∧ t.confirmed = some code) :
    t.confirm code = (t, []) := by
  unfold Tcu.confirm
  rw [if_pos h]

theorem Tcu.confirm_valid {t : Tcu} {code : BitVec 4} {e : AspectEntry}
    (h : ¬(t.state = .confirmed ∧ t.confirmed = some code)) (he : t.aspects[code.toNat]? = some e)
    (hv : e.valid = true) : t.confirm code =
      ({ t with confirmed := some code, state := .confirmed, hold := none }.receive
          (some { number := e.number, rank := e.rank, ceiling := e.ceiling }),
        if t.state = .lost then [.clear (catalogue 0x010 .b 966)] else []) := by
  unfold Tcu.confirm
  rw [if_neg h]
  simp only [validEntry, he, hv, if_true]
  rfl

theorem Tcu.confirm_invalid {t : Tcu} {code : BitVec 4} (h : ¬(t.state = .confirmed ∧ t.confirmed = some code))
    (hv : ∀ e, t.aspects[code.toNat]? = some e → e.valid = false) : t.confirm code =
      if t.state = .lost then ({ t with confirmed := some code }, [])
      else ({ t with confirmed := some code, state := .lost, hold := none }.receive (lossAspect t.aspects),
        lossRaise t.uncoded) := by
  have hnone : validEntry t.aspects code = none := by
    unfold validEntry
    cases he : t.aspects[code.toNat]? with
    | none => rfl
    | some e => simp [hv e he]
  unfold Tcu.confirm
  rw [if_neg h]
  simp only [hnone]
  rfl

theorem Tcu.recomputeFrom_same {old t : Tcu} (h : old.received = t.received) : Tcu.recomputeFrom old t = t := by
  unfold Tcu.recomputeFrom
  rw [if_pos h]

/-- Settles O33: the run of K ends, and the confirmation goes by the code confirmed before and the aspect table. -/
theorem codeConfirmed : Obligations.CodeConfirmed := by
  intro s code elapsed n hop hspace hcand hk
  let u : State := { s with now := s.now + elapsed }
  have htakes : u.takesStrobe = true := u.takesStrobe_iff.mpr ⟨hop, hspace⟩
  have happly : applySample u.csu.shadow.imgK u.tcu.candidate code = ((code, n + 1), true) := by
    show applySample s.csu.shadow.imgK s.tcu.candidate code = _
    rw [hcand, applySample_same, if_pos (by omega), decide_eq_true hk]
  have hexec : exec (.strobe code elapsed) s = .next (u.strobe code) := by
    rw [exec_strobe]
    exact congrArg Host.Outcome.next (if_pos htakes)
  have hstrobe := State.strobe_confirmed (s := u) (code := code) (by rw [happly])
  have hsampled : u.sampledTcu code = { s.tcu with
      lastStrobe := some (s.now + elapsed), lastSampled := code, candidate := some (code, n + 1)
      loss := some (s.now + elapsed + s.csu.shadow.imgTloss) } := by
    unfold State.sampledTcu
    rw [happly]
  rw [State.tcuCommit_eq, hsampled] at hstrobe
  refine ⟨_, ((u.sampledTcu code).confirm code).2, hexec, ?_⟩
  rw [hsampled, hstrobe]
  refine ⟨rfl, rfl, fun hagain => ?_, fun hnew e he hv => ?_, fun hnew hv => ⟨fun hlost => ?_, fun hlost => ?_⟩⟩
  · rw [Tcu.confirm_again (by exact hagain)]
    exact ⟨Tcu.recomputeFrom_same rfl, rfl⟩
  · rw [Tcu.confirm_valid (by exact hnew) (by exact he) hv]
    exact ⟨Tcu.receivesAspect _ _ _ rfl, rfl⟩
  · rw [Tcu.confirm_invalid (by exact hnew) (by exact hv), if_pos (by exact hlost)]
    exact ⟨Tcu.recomputeFrom_same rfl, rfl⟩
  · rw [Tcu.confirm_invalid (by exact hnew) (by exact hv), if_neg (by exact hlost)]
    exact ⟨Tcu.receivesAspect _ _ _ rfl, rfl⟩

/-! ## The loss and hold timers (R82–R84) -/

/-- An entry to LOST, recomputed and handed on (R82, R83, R84). -/
theorem State.tcuCommit_lost (s : State) (u : Tcu) (h : s.tcu.received = u.received) :
    ∃ t, LostEntered u t ∧ s.tcuCommit (Tcu.recomputeFrom s.tcu u.toLost.1) u.toLost.2 = { s with
      tcu := t, inFlight := s.inFlight ++ tcuSends s.csu.shadow.imgVmax s.tcu t (lossRaise u.uncoded) false } :=
  ⟨_, Tcu.receivesAspect s.tcu { u with state := .lost, hold := none } _ h, State.tcuCommit_eq ..⟩

/-- Settles O34: by the code state, and for the loss timer by the hold time. -/
theorem timersLoseCode : Obligations.TimersLoseCode := by
  intro s e
  refine ⟨fun h => ?_, fun h => ?_⟩
  · let u : Tcu := { s.tcu with candidate := none, loss := none }
    have hexec : exec .lossTimerExpiry s = .next (s.reach e).loseStrobes := by
      show execLossTimerExpiry s = _
      unfold execLossTimerExpiry
      rw [h]
    have hlost := State.tcuCommit_lost (s.reach e) u rfl
    rw [hexec]
    unfold State.loseStrobes
    dsimp only
    obtain ⟨t, hentered, hcommit⟩ := hlost
    cases hst : s.tcu.state with
    | confirmed =>
      rw [show (s.reach e).tcu.state = .confirmed from hst]
      dsimp only
      by_cases hhold : 0 < s.csu.shadow.imgThold
      · rw [if_pos (by exact hhold)]
        refine ⟨_, [], rfl, ?_⟩
        rw [State.tcuCommit_eq]
        refine ⟨rfl, rfl, fun _ _ => ⟨rfl, rfl⟩, ?_, by simp⟩
        rintro (hc | ⟨-, hc⟩)
        · cases hc
        · omega
      · rw [if_neg (by exact hhold)]
        refine ⟨_, _, congrArg Host.Outcome.next hcommit, rfl, rfl, fun _ hc => absurd hc hhold,
          fun _ => ⟨hentered, rfl⟩, by simp⟩
    | acquiring =>
      rw [show (s.reach e).tcu.state = .acquiring from hst]
      exact ⟨_, _, congrArg Host.Outcome.next hcommit, rfl, rfl, nofun, fun _ => ⟨hentered, rfl⟩, by simp⟩
    | holding =>
      rw [show (s.reach e).tcu.state = .holding from hst]
      dsimp only
      refine ⟨_, [], rfl, ?_⟩
      rw [State.tcuCommit_eq]
      exact ⟨rfl, rfl, nofun, by simp, fun _ => ⟨rfl, rfl⟩⟩
    | lost =>
      rw [show (s.reach e).tcu.state = .lost from hst]
      dsimp only
      refine ⟨_, [], rfl, ?_⟩
      rw [State.tcuCommit_eq]
      exact ⟨rfl, rfl, nofun, by simp, fun _ => ⟨rfl, rfl⟩⟩
  · obtain ⟨t, hentered, hcommit⟩ := State.tcuCommit_lost (s.reach e) s.tcu rfl
    refine ⟨(s.reach e).endHold, ?_, ?_⟩
    · show execHoldTimerExpiry s = _
      unfold execHoldTimerExpiry
      rw [h]
    · rw [show (s.reach e).endHold = _ from hcommit]
      exact ⟨rfl, hentered, rfl⟩

/-! ## The written aspect (R89–R91) -/

/-- An input of the ASPECT record taken (R89, R91). -/
theorem State.tcuTake_eq (s : State) (t : Tcu) (shown : Option Nat) : s.tcuTake t shown = { s with
    tcu := t.recompute
    inFlight := s.inFlight ++ tcuSends s.csu.shadow.imgVmax s.tcu t.recompute []
      (decide (t.recompute.displayed.map Aspect.number ≠ shown)) } := by
  unfold State.tcuTake
  rw [State.tcuCommit_eq]
  rfl

/-- Settles O35: the two notices share a path, and each recomputes the displayed aspect. -/
theorem writtenAspectRecomputed : Obligations.WrittenAspectRecomputed := by
  intro s rest
  refine ⟨fun w n h => ⟨?_, ?_⟩, fun b n h => ⟨?_, ?_⟩⟩
  · show execAspectStaleNotice s = _
    unfold execAspectStaleNotice
    rw [h]
  · refine ⟨{ s with inFlight := rest }.tcuTake { s.tcu with written := some w, aspectStale := false } n, ?_, ?_⟩
    · show execWrittenAspectTaken s = _
      unfold execWrittenAspectTaken
      rw [h]
    · rw [State.tcuTake_eq]
      exact ⟨Tcu.displayRule _, rfl⟩
  · show execWrittenAspectTaken s = _
    unfold execWrittenAspectTaken
    rw [h]
  · refine ⟨{ s with inFlight := rest }.tcuTake { s.tcu with aspectStale := b } n, ?_, ?_⟩
    · show execAspectStaleNotice s = _
      unfold execAspectStaleNotice
      rw [h]
    · rw [State.tcuTake_eq]
      exact ⟨Tcu.displayRule _, rfl⟩

end Sys2Proof.Machine
end

section
/-! SUPPORT and PROOF. The report unit's events and hand-overs, and the requests and grants of the memory write queue
(chapters 9 and 10). -/

namespace Sys2Proof.Machine

/-! ## Events (R158, R161) -/

theorem State.setEvents_set {s : State} {es : List Event} (h : ∀ e ∈ es, s.rpu.events.getLsbD e.bit = true) :
    s.setEvents es = s := by
  unfold State.setEvents
  rw [if_pos ((or_eventMask_eq ..).mpr h)]

/-- A clear bit is set: the event word changes, and 1F07h is requested outside FALLBACK. -/
theorem State.setEvents_new {s : State} {es : List Event} (h : ∃ e ∈ es, s.rpu.events.getLsbD e.bit = false) :
    s.setEvents es = { s with
      rpu := s.rpu.setEvents es
      inFlight := s.inFlight ++ (if s.csu.op = .fallback ∨ s.lastCaused 0x1F07 = some (s.rpu.setEvents es).events then []
        else [.ownWrites .rpu [{ addr := 0x1F07, value := (s.rpu.setEvents es).events, origin := .report 7 }]]) } := by
  have hne : ¬ s.rpu.events ||| eventMask es = s.rpu.events := by
    rw [or_eventMask_eq]
    intro hall
    obtain ⟨e, he, hc⟩ := h
    exact absurd (hc.symm.trans (hall e he)) (by decide)
  unfold State.setEvents
  rw [if_neg hne]
  split
  next hop => simp [hop]
  next hop =>
    have hsame : s.rpu.sameContents (s.rpu.setEvents es) [7] = false := by
      unfold Rpu.sameContents
      simp only [List.all_cons, List.all_nil, Bool.and_true, beq_eq_false_iff_ne]
      exact hne
    have hrequests : State.reportRequests { s with rpu := s.rpu.setEvents es } [7] =
        if s.lastCaused 0x1F07 = some (s.rpu.setEvents es).events then []
        else [{ addr := 0x1F07, value := (s.rpu.setEvents es).events, origin := .report 7 }] := by
      show List.filterMap _ [7] = _
      rw [List.filterMap_cons, List.filterMap_nil]
      by_cases hl : s.lastCaused 0x1F07 = some (s.rpu.setEvents es).events
      · rw [if_pos hl, if_pos (by exact hl)]
      · rw [if_neg hl, if_neg (by exact hl)]
        rfl
    unfold State.rpuCommit State.request
    dsimp only
    rw [hsame, hrequests, if_neg (by decide)]
    by_cases hl : s.lastCaused 0x1F07 = some (s.rpu.setEvents es).events
    · rw [if_pos hl, if_pos rfl, if_pos (.inr hl), List.append_nil]
    · rw [if_neg hl, if_neg (List.cons_ne_nil _ _), if_neg fun hc => hc.elim hop hl]
      rfl

theorem Rpu.setEvents_bit (r : Rpu) (es : List Event) (k : Nat) : (r.setEvents es).events.getLsbD k = true ↔
    r.events.getLsbD k = true ∨ ∃ e ∈ es, e.bit = k := by
  show (r.events ||| eventMask es).getLsbD k = true ↔ _
  rw [BitVec.getLsbD_or, Bool.or_eq_true, eventMask_bit]

/-- Settles O47: by whether every cause is set already. -/
theorem eventsSetTogether : Obligations.EventsSetTogether := by
  intro s b es rest h
  refine ⟨_, rfl, ?_⟩
  rw [State.takeMsg_some _ h]
  by_cases hset : ∀ e ∈ es, s.rpu.events.getLsbD e.bit = true
  · rw [State.setEvents_set (s := { s with inFlight := rest }) hset]
    refine ⟨fun k => ⟨.inl, ?_⟩, fun _ => rfl, ?_⟩
    · rintro (hk | ⟨e, he, rfl⟩)
      · exact hk
      · exact hset e he
    · rintro ⟨e, he, hc⟩
      exact absurd (hc.symm.trans (hset e he)) (by decide)
  · have hclear : ∃ e ∈ es, s.rpu.events.getLsbD e.bit = false := by
      push Not at hset
      obtain ⟨e, he, hc⟩ := hset
      exact ⟨e, he, by simpa using hc⟩
    rw [State.setEvents_new (s := { s with inFlight := rest }) hclear]
    exact ⟨s.rpu.setEvents_bit es, fun hall => absurd hall hset, fun _ => ⟨intrLevel_iff .., rfl⟩⟩

/-! ## Report hand-overs (R155, R157) -/

theorem mem_reachedOffsets {items : List ReportItem} {k : Nat} :
    k ∈ reachedOffsets items ↔ ∃ i ∈ items, i.reaches k := by
  unfold reachedOffsets reportOffsets
  simp only [List.mem_filter, List.mem_range, List.any_eq_true, List.contains_iff_mem]
  constructor
  · rintro ⟨-, i, hi, hk⟩
    exact ⟨i, hi, (i.mem_offsets k).mp hk⟩
  · rintro ⟨i, hi, hk⟩
    have hmem := (i.mem_offsets k).mpr hk
    exact ⟨i.offsets_lt k hmem, i, hi, hmem⟩

theorem reachedOffsets_order (items : List ReportItem) : (reachedOffsets items).Pairwise (· < ·) :=
  List.Pairwise.filter _ (by decide)

theorem mem_listOffsets {k : Nat} : k ∈ 9 :: mirrorOffsets ↔ k = 9 ∨ (64 ≤ k ∧ k < 128) := by
  unfold mirrorOffsets
  simp only [List.mem_cons, List.mem_map, List.mem_range]
  refine or_congr_right ⟨?_, fun h => ⟨k - 64, by omega, by omega⟩⟩
  rintro ⟨j, hj, rfl⟩
  omega

/-- A new list changes the counts word and the mirror alone (R111, R157). -/
theorem Rpu.content_withList (r : Rpu) (es : List Entry) (k : Nat) (h : ¬(k = 9 ∨ (64 ≤ k ∧ k < 128))) :
    ({ r with list := es } : Rpu).content k = r.content k := by
  by_cases hk : k < 16
  · have h9 : k ≠ 9 := fun hc => h (.inl hc)
    interval_cases k <;> first | rfl | exact absurd rfl h9
  · obtain ⟨j, rfl⟩ : ∃ j, k = j + 16 := ⟨k - 16, by omega⟩
    show (if 64 ≤ j + 16 ∧ j + 16 < 128 then mirrorContent es (j + 16 - 64) else 0) =
      if 64 ≤ j + 16 ∧ j + 16 < 128 then mirrorContent r.list (j + 16 - 64) else 0
    rw [if_neg fun hc => h (.inr hc), if_neg fun hc => h (.inr hc)]

/-- Settles O48: both hand-overs are one commit of the RPU's contents with the words they reach. -/
theorem reportsFollowHandovers : Obligations.ReportsFollowHandovers := by
  intro s rest
  refine ⟨fun b items h => ⟨_, rfl, ?_⟩, fun es h => ⟨_, rfl, ?_⟩⟩
  · rw [State.takeMsg_some _ h]
    refine ⟨?_, State.rpuCommit_handed s rest _ _ _ (reachedOffsets_order items) (fun k => ?_) fun k hk => ?_⟩
    · rw [State.rpuCommit_rpu]
      exact Rpu.itemsSet items s.rpu
    · rw [mem_reachedOffsets]
      refine ⟨fun hk => ⟨?_, hk⟩, fun hk => hk.2⟩
      obtain ⟨i, -, hi⟩ := hk
      have := i.offsets_lt k ((i.mem_offsets k).mpr hi)
      omega
    · exact Rpu.content_applyItems items s.rpu k fun i hi hmem => hk ⟨i, hi, (i.mem_offsets k).mp hmem⟩
  · rw [State.takeMsg_some _ h]
    refine ⟨State.rpuCommit_rpu .., State.rpuCommit_handed s rest _ _ _ (by decide) (fun k => ?_) fun k hk => ?_⟩
    · rw [mem_listOffsets]
      omega
    · exact s.rpu.content_withList es k hk

/-! ## Requests and grants (R145–R150) -/

theorem QueueLaw.enqueuedAll (ws : List OwnWrite) : ∀ {q : Mwq}, QueueLaw q → EnqueuedAll ws q (q.enqueueAll ws) := by
  induction ws with
  | nil => exact fun _ => rfl
  | cons w ws ih => exact fun hq => ⟨_, hq.enqueued w, ih (hq.enqueue w)⟩

/-- Settles O49: the requests are enqueued one by one. -/
theorem ownWritesEnqueued : Obligations.OwnWritesEnqueued := by
  intro s b ws rest hlaw h
  refine ⟨_, rfl, ?_⟩
  rw [State.takeMsg_some _ h]
  exact ⟨hlaw.enqueuedAll ws, rfl⟩

/-- The part with the head entry written and gone, before the re-derivation (R150). -/
def State.headWritten (s : State) (e : OwnWrite) (es : List OwnWrite) : State :=
  { s with
    mem := s.mem.write e.addr.toNat e.value
    mwq := { s.mwq with queue := es, queueTurn := false, known := setKnown s.mwq.known e.addr.toNat e.value } }

theorem State.grantHead_cons {s : State} {e : OwnWrite} {es : List OwnWrite} (h : s.mwq.queue = e :: es) :
    s.grantHead = (s.headWritten e es).rederive.noticeDrain := by
  unfold State.grantHead
  rw [h]
  rfl

/-- Settles O50: the head is written, then the freed place is filled, then the drain noticed. -/
theorem headGrantedAndRederived : Obligations.HeadGrantedAndRederived := by
  intro s e es hlaw hwf h
  have hu : QueueLaw (s.headWritten e es).mwq := by
    refine hlaw.sublist ?_ (List.Sublist.refl _)
    rw [h]
    exact List.sublist_cons_self e es
  obtain ⟨drain, hdrain, ht⟩ := (s.headWritten e es).rederive_noticeDrain
  refine ⟨(s.headWritten e es).rederive.noticeDrain, s.headWritten e es, (s.headWritten e es).rederive.mwq, drain,
    congrArg Host.Outcome.next (State.grantHead_cons h), ?_, ?_, ?_, ?_, State.rederive_spec hu, hdrain⟩
  · intro x
    rw [ht]
    exact Memory.read_write hwf ..
  · rw [ht]
    rfl
  · rw [ht]
    rfl
  · exact fun x => knownAt_setKnown_eq ..

end Sys2Proof.Machine
end

section
/-! SUPPORT and PROOF. The axle speed unit: counting, and the stages of a window completion (chapter 3). -/

namespace Sys2Proof.Machine

/-! ## Counting (R36) -/

theorem AxleState.edge_counted (c : AxleState) (b : Bool) : EdgeCounted c (c.edge b) b := by
  cases b
  · exact ⟨rfl, by simp [AxleState.edge, BitVec.toNat_add], rfl⟩
  · exact ⟨by simp [AxleState.edge, BitVec.toNat_add], rfl, rfl⟩

theorem State.countsEdge_iff (s : State) (channel : AxleChannel) : s.countsEdge channel = true ↔
    (s.csu.op = .running ∨ s.csu.op = .standby) ∧ ¬(channel = .two ∧ s.csu.solo = true) := by
  unfold State.countsEdge
  rw [Bool.and_eq_true, OpState.hasTable_iff]
  cases channel <;> cases s.csu.solo <;> simp

/-- Settles O22: by whether the edge is counted, and by its channel. -/
theorem axleEdgeCounted : Obligations.AxleEdgeCounted := by
  intro s channel b
  refine ⟨_, rfl, ?_⟩
  have hcounts := s.countsEdge_iff channel
  cases hc : s.countsEdge channel with
  | false =>
    rw [hc] at hcounts
    rw [if_neg (by decide)]
    exact ⟨fun _ => rfl, fun hop hsolo => absurd (hcounts.mpr ⟨hop, hsolo⟩) (by decide)⟩
  | true =>
    obtain ⟨hop, hsolo⟩ := hcounts.mp hc
    rw [if_pos rfl]
    refine ⟨fun hn => ?_, fun _ _ => ?_⟩
    · obtain hn | hn := hn
      · exact absurd hop hn
      · exact absurd hn hsolo
    · cases channel
      · exact ⟨rfl, fun _ => ⟨s.asu.ch1.edge_counted b, rfl⟩, nofun⟩
      · exact ⟨rfl, nofun, fun _ => ⟨s.asu.ch2.edge_counted b, rfl⟩⟩

/-! ## One channel (R39, R40, R42–R44) -/

/-- The net count does not feel a wrap of the counters between two completions (R39). -/
theorem AxleState.net_eq (c : AxleState) : c.net = netCount c := by
  unfold AxleState.net netCount
  rw [BitVec.toNat_sub, BitVec.toNat_sub]
  have hf := c.fwd.isLt
  have hr := c.rev.isLt
  have hbf := c.baseFwd.isLt
  have hbr := c.baseRev.isLt
  omega

theorem plausible_iff (vp l : Nat) (vPrev : Option Nat) (v : Nat) :
    plausible vp l vPrev v = true ↔ isPlausible vp l vPrev v := by
  unfold plausible isPlausible
  cases vPrev with
  | none => simp
  | some x =>
    simp only [Bool.and_eq_true, decide_eq_true_iff, Option.some.injEq, forall_eq']
    unfold absDiff
    split <;> omega

/-- Stages 1 to 4 of a channel, where the rounding of R40 has a divisor. -/
theorem AxleState.completeWindow_measured {sh : Memory} (c : AxleState) (diameter vp l : Nat)
    (hpos : 0 < 10000 * sh.imgP * sh.imgW) :
    ChannelMeasured sh diameter vp l c (c.completeWindow diameter sh.imgP sh.imgW vp l) := by
  have hplausible := plausible_iff vp l c.vPrev (c.completeWindow diameter sh.imgP sh.imgW vp l).v
  have hstate : ∀ ok, plausible vp l c.vPrev (c.completeWindow diameter sh.imgP sh.imgW vp l).v = ok →
      (c.completeWindow diameter sh.imgP sh.imgW vp l).failed = (channelState c.failed c.recovery ok).1 ∧
      (c.completeWindow diameter sh.imgP sh.imgW vp l).recovery = (channelState c.failed c.recovery ok).2 := by
    rintro ok rfl
    exact ⟨rfl, rfl⟩
  refine ⟨⟨rfl, rfl, rfl, rfl⟩, ?_, ⟨pulseSpeed (netCount c).natAbs diameter sh.imgP sh.imgW, ?_, ?_⟩, rfl,
    fun hf => ?_, fun hf => ⟨fun hn => ?_, fun hp => ?_⟩⟩
  · rw [← c.net_eq]
    rfl
  · rw [← c.net_eq]
    rfl
  · exact isRounded_roundHalfUp _ hpos
  · rw [← hplausible]
    cases hok : plausible vp l c.vPrev (c.completeWindow diameter sh.imgP sh.imgW vp l).v
    · obtain ⟨h1, h2⟩ := hstate _ hok
      rw [h1, h2, hf]
      exact ⟨by simp [channelState], rfl⟩
    · obtain ⟨h1, h2⟩ := hstate _ hok
      rw [h1, h2, hf]
      exact ⟨by simp [channelState], rfl⟩
  · rw [← hplausible, Bool.not_eq_true] at hn
    obtain ⟨h1, h2⟩ := hstate _ hn
    rw [h1, h2, hf]
    exact ⟨rfl, rfl⟩
  · obtain ⟨h1, h2⟩ := hstate _ (hplausible.mpr hp)
    rw [h1, h2, hf]
    unfold channelState
    dsimp only
    rw [show Config.recoveryWindows = 5 from rfl]
    exact ⟨fun hlt => by rw [if_pos (by omega)]; exact ⟨rfl, rfl⟩, fun hge => by rw [if_neg (by omega)]; exact ⟨rfl, rfl⟩⟩

/-- A completion changes the ASU and what is in flight alone. -/
theorem State.completeWindow_rest (s : State) (brk : Bool) : s.completeWindow brk =
    { s with asu := (s.completeWindow brk).asu, inFlight := (s.completeWindow brk).inFlight } := by
  apply State.eq_of_parts <;> simp

/-- Settles O23: stages 1 to 4 are those of the counted channels. -/
theorem windowMeasuresChannels : Obligations.WindowMeasuresChannels := by
  intro s brk e himage hwindow
  have htable : s.csu.op.hasTable = true := himage.window.mp (by rw [hwindow]; nofun)
  obtain ⟨lim, hlim, -⟩ := himage.limits htable
  have hpos := divisor_pos_of_words (himage.passes htable).2
  refine ⟨_, lim, exec_windowCompletion brk hwindow, hlim, ?_⟩
  rw [State.completeWindow_asu, State.completeWindow_now]
  have hget : s.asu.limits.getD { q1 := 0, q2 := 0, l1 := 0, l2 := 0, vp := 0 } = lim := by rw [hlim]; rfl
  refine ⟨?_, rfl, hlim, ?_, fun hsolo => ?_, fun hsolo => ?_⟩
  · conv_lhs => rw [State.completeWindow_rest, State.completeWindow_asu]
    rfl
  · rw [← hget]
    exact AxleState.completeWindow_measured _ _ _ _ hpos
  · show (if s.csu.solo then s.asu.ch2 else _) = _
    rw [if_pos hsolo]
  · show ChannelMeasured _ _ _ _ _ (if s.csu.solo then s.asu.ch2 else _)
    rw [if_neg (by rw [hsolo]; decide), ← hget]
    exact AxleState.completeWindow_measured _ _ _ _ hpos

end Sys2Proof.Machine
end

section
/-! SUPPORT and PROOF. The axle speed unit: the selected speed and direction, and what a window completion hands on (3.6,
3.7 and 3.9). -/

namespace Sys2Proof.Machine

/-! ## Selecting the speed (R46–R51) -/

/-- With SOLO latched high, or a channel FAILED, the one GOOD channel counted supplies the speed (R49–R51). -/
theorem selectSpeed_single {solo brk : Bool} {a w limit : Nat} {c d : AxleState} {disTime : Nat} {persistent : Bool}
    (h : solo = true ∨ c.failed = true ∨ d.failed = true) :
    ((selectSpeed solo brk a w limit c d disTime persistent).selected,
      (selectSpeed solo brk a w limit c d disTime persistent).supplier) =
      (if c.failed = false then (some c.v, some AxleChannel.one)
        else if solo = false ∧ d.failed = false then (some d.v, some .two) else (none, none)) ∧
    (selectSpeed solo brk a w limit c d disTime persistent).disTime = 0 ∧
    (selectSpeed solo brk a w limit c d disTime persistent).persistent = false := by
  unfold selectSpeed
  cases solo <;> cases hc : c.failed <;> cases hd : d.failed <;> simp_all

theorem selectSpeed_both {solo brk : Bool} {a w limit : Nat} {c d : AxleState} {disTime : Nat} {persistent : Bool}
    (hs : solo = false) (hc : c.failed = false) (hd : d.failed = false) :
    selectSpeed solo brk a w limit c d disTime persistent =
      selectBothGood a w limit brk c.v d.v disTime persistent := by
  unfold selectSpeed
  rw [hs, hc, hd]
  rfl

theorem absDiff_le (x y n : Nat) : absDiff x y ≤ n ↔ x ≤ y + n ∧ y ≤ x + n := by
  unfold absDiff
  split <;> omega

/-- The higher reading as speed and supplier. -/
theorem takeHigher_eq (x y : Nat) : (some (takeHigher x y).1, some (takeHigher x y).2) =
    if y ≤ x then (some x, some AxleChannel.one) else (some y, some .two) := by
  unfold takeHigher
  split <;> rfl

theorem takeLower_eq (x y : Nat) : (some (takeLower x y).1, some (takeLower x y).2) =
    if x ≤ y then (some x, some AxleChannel.one) else (some y, some .two) := by
  unfold takeLower
  split <;> rfl

/-- With both channels GOOD: by agreement, by a disagreement already persistent, and by its time (R46–R48). -/
theorem selectBothGood_cases (a w limit : Nat) (brk : Bool) (x y disTime : Nat) (persistent : Bool) :
    let sel := selectBothGood a w limit brk x y disTime persistent
    let higher := if y ≤ x then (some x, some AxleChannel.one) else (some y, some .two)
    let lower := if x ≤ y then (some x, some AxleChannel.one) else (some y, some .two)
    let agree : Prop := x ≤ y + max a (max x y / 16) ∧ y ≤ x + max a (max x y / 16)
    (agree → (sel.selected, sel.supplier) = higher ∧ sel.disTime = 0 ∧ sel.persistent = false) ∧
    (¬ agree → persistent = true →
      (sel.selected, sel.supplier) = higher ∧ sel.disTime = disTime ∧ sel.persistent = true) ∧
    (¬ agree → persistent = false → disTime + w < limit →
      (sel.selected, sel.supplier) = (if brk then higher else lower) ∧ sel.disTime = disTime + w ∧
        sel.persistent = false) ∧
    (¬ agree → persistent = false → limit ≤ disTime + w →
      (sel.selected, sel.supplier) = higher ∧ sel.disTime = limit ∧ sel.persistent = true) := by
  have hagree : absDiff x y ≤ agreementBand a x y ↔
      x ≤ y + max a (max x y / 16) ∧ y ≤ x + max a (max x y / 16) := absDiff_le ..
  dsimp only
  rw [← hagree, ← takeHigher_eq, ← takeLower_eq]
  unfold selectBothGood
  dsimp only
  refine ⟨fun h => ?_, fun h hp => ?_, fun h hp ht => ?_, fun h hp ht => ?_⟩
  · rw [if_pos h]
    exact ⟨rfl, rfl, rfl⟩
  · rw [if_neg h, if_pos hp]
    exact ⟨rfl, rfl, rfl⟩
  · rw [if_neg h, if_neg (by simp [hp]), if_pos ht]
    refine ⟨?_, rfl, rfl⟩
    cases brk <;> rfl
  · rw [if_neg h, if_neg (by simp [hp]), if_neg (Nat.not_lt.mpr ht)]
    exact ⟨rfl, rfl, rfl⟩

/-! ## Direction (R53) -/

theorem directionsDisagree_iff (solo : Bool) (c d : AxleState) (selected : Option Nat) :
    directionsDisagree solo c d selected = true ↔ solo = false ∧ c.failed = false ∧ d.failed = false ∧
      c.dir ≠ .none ∧ d.dir ≠ .none ∧ c.dir ≠ d.dir ∧ ∃ v, selected = some v ∧ 20 ≤ v := by
  unfold directionsDisagree
  cases selected with
  | none => simp
  | some v => simp [show Config.directionFloor = 20 from rfl, and_assoc]

/-- The selection of a completion, on the channels that its earlier stages leave. -/
def Asu.selection (u : Asu) (sh : Memory) (solo brk : Bool) : Selection :=
  selectSpeed solo brk sh.imgA sh.imgW (sh.imgTdis * 1000) (u.complete sh solo brk).ch1 (u.complete sh solo brk).ch2
    u.disTime u.persistent

theorem Asu.complete_selection (u : Asu) (sh : Memory) (solo brk : Bool) :
    (u.complete sh solo brk).selected = (u.selection sh solo brk).selected ∧
    (u.complete sh solo brk).supplier = (u.selection sh solo brk).supplier ∧
    (u.complete sh solo brk).disTime = (u.selection sh solo brk).disTime ∧
    (u.complete sh solo brk).persistent = (u.selection sh solo brk).persistent := ⟨rfl, rfl, rfl, rfl⟩

theorem Asu.complete_direction (u : Asu) (sh : Memory) (solo brk : Bool) :
    (u.complete sh solo brk).dirDis = directionsDisagree solo (u.complete sh solo brk).ch1
      (u.complete sh solo brk).ch2 (u.complete sh solo brk).selected ∧
    (u.complete sh solo brk).direction = if (u.complete sh solo brk).dirDis then .none else
      supplierDirection (u.complete sh solo brk).ch1 (u.complete sh solo brk).ch2 (u.complete sh solo brk).supplier :=
  ⟨rfl, rfl⟩

/-- Settles O24: by SOLO and the states of the channels, then by their agreement. -/
theorem windowSelectsSpeed : Obligations.WindowSelectsSpeed := by
  intro s brk e hwindow
  refine ⟨_, exec_windowCompletion brk hwindow, ?_⟩
  rw [State.completeWindow_asu]
  obtain ⟨hdis, hdirection⟩ := s.asu.complete_direction s.csu.shadow s.csu.solo brk
  refine ⟨fun h => ?_, fun hsolo hc hd => ?_, fun h => ?_, fun h => ?_⟩
  · obtain ⟨hchosen, h0, hp⟩ := selectSpeed_single (brk := brk) (a := s.csu.shadow.imgA) (w := s.csu.shadow.imgW)
      (limit := s.csu.shadow.imgTdis * 1000) (disTime := s.asu.disTime) (persistent := s.asu.persistent) h
    exact ⟨h0, hp, hchosen⟩
  · have hboth : s.asu.selection s.csu.shadow s.csu.solo brk = selectBothGood s.csu.shadow.imgA s.csu.shadow.imgW
        (s.csu.shadow.imgTdis * 1000) brk _ _ s.asu.disTime s.asu.persistent := selectSpeed_both hsolo hc hd
    have hcases := selectBothGood_cases s.csu.shadow.imgA s.csu.shadow.imgW (s.csu.shadow.imgTdis * 1000) brk
      (s.asu.complete s.csu.shadow s.csu.solo brk).ch1.v (s.asu.complete s.csu.shadow s.csu.solo brk).ch2.v
      s.asu.disTime s.asu.persistent
    dsimp only at hcases
    rw [← hboth] at hcases
    exact hcases
  · have hd := hdis.trans ((directionsDisagree_iff ..).mpr h)
    rw [if_pos hd] at hdirection
    exact ⟨hd, hdirection⟩
  · have hd := hdis.trans (Bool.eq_false_iff.mpr fun hc => h ((directionsDisagree_iff ..).mp hc))
    rw [if_neg (by rw [hd]; decide)] at hdirection
    refine ⟨hd, hdirection.trans ?_⟩
    unfold supplierDirection
    rfl

/-! ## What a completion hands on (R43, R52, R55, R56) -/

theorem map_onChange (b : Block) (before after : Bool) (m : FaultMsg) :
    (onChange before after m).map (Msg.fault b) = changeMsg b before after m := by
  cases before <;> cases after <;> rfl

theorem Asu.map_faultRequests (u v : Asu) : (u.faultRequests v).map (Msg.fault .asu) =
    changeMsg .asu u.ch1.failed v.ch1.failed (catalogue 0x001 .b 961)
      ++ changeMsg .asu u.ch2.failed v.ch2.failed (catalogue 0x002 .b 962)
      ++ changeMsg .asu u.persistent v.persistent (catalogue 0x003 .b 963)
      ++ changeMsg .asu u.dirDis v.dirDis (catalogue 0x004 .b 964)
      ++ changeMsg .asu u.selected.isNone v.selected.isNone (catalogue 0x005 .a 965) := by
  unfold Asu.faultRequests
  simp only [List.map_append, map_onChange]
  rfl

/-- Event CF goes with each channel that became FAILED (R43). -/
theorem Asu.map_failureEvents (u v : Asu) :
    (if u.failureEvents v = [] then [] else [Msg.events .asu (u.failureEvents v)]) =
    if (u.ch1.failed = false ∧ v.ch1.failed = true) ∨ (u.ch2.failed = false ∧ v.ch2.failed = true)
      then [Msg.events .asu [.cf]] else [] := by
  unfold Asu.failureEvents
  simp only [Bool.or_eq_true, Bool.and_eq_true, Bool.not_eq_true']
  by_cases h : (u.ch1.failed = false ∧ v.ch1.failed = true) ∨ (u.ch2.failed = false ∧ v.ch2.failed = true)
  · simp only [if_pos h]
    rfl
  · simp only [if_neg h, if_true]

/-- Settles O26: the messages of stage 8 in their order. -/
theorem windowHandsResults : Obligations.WindowHandsResults := by
  intro s brk e hwindow
  refine ⟨_, exec_windowCompletion brk hwindow, ?_⟩
  rw [State.completeWindow_asu]
  have hsent : ((s.reach e).completeWindow brk).inFlight = s.inFlight
      ++ (s.asu.faultRequests (s.asu.complete s.csu.shadow s.csu.solo brk)).map (Msg.fault .asu)
      ++ (if s.asu.failureEvents (s.asu.complete s.csu.shadow s.csu.solo brk) = [] then []
        else [.events .asu (s.asu.failureEvents (s.asu.complete s.csu.shadow s.csu.solo brk))])
      ++ [.speed (s.asu.complete s.csu.shadow s.csu.solo brk).speedCopy,
        .completion (s.asu.complete s.csu.shadow s.csu.solo brk).completionCopy,
        .report .asu [.published (s.asu.complete s.csu.shadow s.csu.solo brk).published]] := by
    unfold State.completeWindow
    dsimp only
    rw [State.sendEvents_eq]
    rfl
  rw [hsent, Asu.map_faultRequests, Asu.map_failureEvents]
  simp only [← List.append_assoc]
  rfl

end Sys2Proof.Machine
end

section
/-! SUPPORT and PROOF. The field supervision unit: the hand-overs of speed, list, lamp functions and lamp test (1.5, 1.6
and 4.2). -/

namespace Sys2Proof.Machine

/-! ## A new speed copy (R58, R62, R63) -/

theorem recheckActual_other {c : SpeedCopy} {r : Record} (h : r.fixed.kind ≠ .actual) : recheckActual c r = r := by
  unfold recheckActual
  rw [if_neg h]

theorem recheckActual_follows {c : SpeedCopy} {r : Record} (hk : r.fixed.kind = .actual)
    (hs : r.state = .unset ∨ r.state = .stale) :
    recheckActual c r = { r with shown := some (actualFollows c r) } := by
  unfold recheckActual
  rw [if_pos hk]
  obtain hs | hs := hs <;> rw [hs]

/-- An ACTUAL record with a write keeps its word while the speed is UNKNOWN. -/
theorem recheckActual_unknown {c : SpeedCopy} {r : Record} (hs : r.current) (hc : c.selected = none) :
    recheckActual c r = r := by
  unfold recheckActual
  split
  · obtain hs | hs := hs <;> rw [hs, hc]
  · rfl

theorem Record.recheck_current {r : Record} (hs : r.current) (y : Word) : r.recheck true y =
    { r with shown := some y, state := if r.written = some y then .live else .corrected } := by
  unfold Record.recheck recheckState
  obtain hs | hs := hs <;> rw [hs] <;> rfl

/-- And a word within the tolerance of a known speed, which else becomes d (R62). -/
theorem recheckActual_known {c : SpeedCopy} {r : Record} {v d : Nat} {x : Word} (hk : r.fixed.kind = .actual)
    (hs : r.current) (hv : c.selected = some v) (hd : c.d = some d) (hx : r.shown = some x) :
    recheckActual c r = r.recheck true
      (if 10 * x.toNat ≤ v + r.fixed.tolerance ∧ v ≤ 10 * x.toNat + r.fixed.tolerance then x
        else BitVec.ofNat 16 d) := by
  have hbranch : recheckActual c r = if withinTolerance r.fixed.tolerance v x = true then r.recheck true x
      else r.recheck true (BitVec.ofNat 16 d) := by
    unfold recheckActual
    rw [if_pos hk]
    obtain hs | hs := hs <;> rw [hs, hv, hx, hd] <;> rfl
  rw [hbranch]
  simp only [withinTolerance_iff]
  split <;> rfl

/-- Settles O27: outside RUNNING the copy alone changes; in RUNNING every record is rechecked by its kind and state. -/
theorem speedHandoverRechecks : Obligations.SpeedHandoverRechecks := by
  intro s c rest h
  have hexec : exec .speedHandover s = .next (if s.csu.op = .running then
        { s with inFlight := rest }.fsuCommit
          { s.fsu with speed := some c, table := s.fsu.table.map (recheckActual c) }
      else { s with inFlight := rest, fsu := { s.fsu with speed := some c } }) := by
    show Host.Outcome.next (s.takeMsg _ _) = _
    rw [State.takeMsg_some _ h]
  refine ⟨fun hop => ?_, fun hop => ?_⟩
  · rw [hexec, if_neg hop]
  · rw [if_pos hop] at hexec
    obtain ⟨own, hown, hcommit⟩ := State.fsuCommit_same_reference { s with inFlight := rest }
      { s.fsu with speed := some c, table := s.fsu.table.map (recheckActual c) } (by simp) rfl
    rw [hcommit] at hexec
    refine ⟨_, own, hexec, rfl, hown, fun i r hr => ?_⟩
    have hrow : (s.fsu.table.map (recheckActual c))[i]? = some (recheckActual c r) := by
      rw [List.getElem?_map, hr]
      rfl
    refine ⟨fun hk => ?_, fun hk hs => ?_, fun hk hs => ⟨fun hv => ?_, fun v d x y hv hd hx hy => ?_⟩⟩
    · exact hrow.trans (by rw [recheckActual_other hk])
    · refine hrow.trans ?_
      rw [recheckActual_follows hk hs]
      rfl
    · exact hrow.trans (by rw [recheckActual_unknown hs hv])
    · exact hrow.trans (by rw [recheckActual_known hk hs hv hd hx, ← hy, Record.recheck_current hs])

/-! ## The slots (R15) -/

theorem showSlots_row {es : List Entry} {t : List Record} {i : Nat} {r : Record} (hr : t[i]? = some r) :
    (showSlots es t)[i]? = some (if r.fixed.kind = .faultSlot then
      { r with shown := some (slotWordAt es (t.take i |>.countP fun q => q.fixed.kind == .faultSlot)) } else r) := by
  unfold showSlots
  rw [List.getElem?_mapIdx, hr]
  rfl

/-- Settles O29: in RUNNING the slots take the words of the list at their ranks. -/
theorem slotsFollowList : Obligations.SlotsFollowList := by
  intro s es rest h
  have hexec : exec .listHandoverFsu s = .next (if s.csu.op = .running then
      { s with inFlight := rest }.fsuCommit { s.fsu with table := showSlots es s.fsu.table }
      else { s with inFlight := rest }) := by
    show Host.Outcome.next (s.takeMsg _ _) = _
    rw [State.takeMsg_some _ h]
  refine ⟨fun hop => by rw [hexec, if_neg hop], fun hop => ?_⟩
  rw [if_pos hop] at hexec
  obtain ⟨own, hown, hcommit⟩ := State.fsuCommit_same_reference { s with inFlight := rest }
    { s.fsu with table := showSlots es s.fsu.table } (by simp [showSlots]) rfl
  rw [hcommit] at hexec
  refine ⟨_, own, hexec, rfl, hown, fun i r hr => ⟨fun hk => ?_, fun hk =>
    ⟨slotWordAt es ((s.fsu.table.take i).countP fun q => q.fixed.kind == .faultSlot), ?_, fun e he => ?_,
      fun he => ?_⟩⟩⟩
  · exact (showSlots_row hr).trans (by rw [if_neg hk])
  · exact (showSlots_row hr).trans (by rw [if_pos hk])
  · unfold slotWordAt
    rw [he]
    exact e.slotWord_toNat
  · unfold slotWordAt
    rw [he]

/-! ## Lamps (R13, R14) -/

theorem Record.carries_iff (r : Record) (f : LampFn) : r.carries f = true ↔ ∃ p ∈ r.fixed.lamps, p.fn = f := by
  unfold Record.carries
  simp [List.any_eq_true]

theorem relamp_eq (test : Bool) (fns : LampValues) (r : Record) : relamp test fns r =
    if r.fixed.kind = .lamps then
      { r with shown := some (if test then 0xFFFF else mergeLamps fns r.fixed.lamps (lampsBase r)) }
    else r := rfl

theorem Fsu.relit_row {f : Fsu} {op : OpState} {fn : LampFn} {v : Bool} {i : Nat} {r : Record}
    (hr : f.table[i]? = some r) : (f.relit (decide (op = .running)) fn v).table[i]? = some (
      if op = .running ∧ r.fixed.kind = .lamps ∧ ∃ p ∈ r.fixed.lamps, p.fn = fn then
        { r with shown := some (if f.lampTest then 0xFFFF
          else mergeLamps (f.fns.set fn v) r.fixed.lamps (lampsBase r)) }
      else r) := by
  unfold Fsu.relit
  dsimp only
  by_cases hop : op = .running
  · rw [decide_eq_true hop, if_pos rfl, List.getElem?_map, hr]
    simp only [Option.map_some, Record.carries_iff, relamp_eq, hop, true_and]
    congr 1
    by_cases hk : r.fixed.kind = .lamps
    · simp only [hk, if_true, true_and]
    · simp only [hk, if_false, false_and, ite_self]
  · rw [decide_eq_false hop, if_neg (by decide), hr, if_neg fun hc => hop hc.1]

theorem Fsu.lampTested_row {f : Fsu} {op : OpState} {test : Bool} {i : Nat} {r : Record}
    (hr : f.table[i]? = some r) : (f.lampTested (decide (op = .running)) test).table[i]? = some (
      if op = .running ∧ r.fixed.kind = .lamps then
        { r with shown := some (if test then 0xFFFF else mergeLamps f.fns r.fixed.lamps (lampsBase r)) }
      else r) := by
  unfold Fsu.lampTested
  dsimp only
  by_cases hop : op = .running
  · rw [decide_eq_true hop, if_pos rfl, List.getElem?_map, hr]
    simp only [Option.map_some, relamp_eq, hop, true_and]
  · rw [decide_eq_false hop, if_neg (by decide), hr, if_neg fun hc => hop hc.1]

theorem State.setLampTest_eq (s : State) (b : Bool) :
    s.setLampTest b = s.fsuCommit (s.fsu.lampTested (decide (s.csu.op = OpState.running)) b) := by
  unfold State.setLampTest Fsu.lampTested
  by_cases hop : s.csu.op = .running <;> simp [hop]

/-- Settles O30: a function re-derives the records that carry it, a lamp test every LAMPS record. -/
theorem lampsFollowFunctions : Obligations.LampsFollowFunctions := by
  intro s
  refine ⟨fun f v rest h => ?_, fun begun rest h => ⟨?_, ?_⟩⟩
  · have hexec : exec .lampFunctionChange s =
        .next ({ s with inFlight := rest }.fsuCommit (s.fsu.relit (decide (s.csu.op = OpState.running)) f v)) := by
      show Host.Outcome.next (s.takeMsg _ _) = _
      rw [State.takeMsg_some _ h]
      unfold Fsu.relit
      by_cases hop : s.csu.op = .running <;> simp [hop]
    obtain ⟨own, hown, hcommit⟩ := State.fsuCommit_same_reference { s with inFlight := rest }
      (s.fsu.relit (decide (s.csu.op = OpState.running)) f v) (s.fsu.relit_table _ f v).length_eq rfl
    rw [hcommit] at hexec
    exact ⟨_, own, hexec, rfl, fun g => LampValues.get_set .., hown, fun i r hr => Fsu.relit_row hr⟩
  · cases begun
    · show execLampTestBegun s = _
      unfold execLampTestBegun
      rw [h]
    · show execLampTestEnded s = _
      unfold execLampTestEnded
      rw [h]
  · have hexec : exec (if begun then .lampTestBegun else .lampTestEnded) s =
        .next ({ s with inFlight := rest }.fsuCommit (s.fsu.lampTested (decide (s.csu.op = OpState.running)) begun)) := by
      refine Eq.trans ?_ (congrArg Host.Outcome.next (State.setLampTest_eq { s with inFlight := rest } begun))
      cases begun
      · show execLampTestEnded s = _
        unfold execLampTestEnded
        rw [h]
      · show execLampTestBegun s = _
        unfold execLampTestBegun
        rw [h]
    obtain ⟨own, hown, hcommit⟩ := State.fsuCommit_same_reference { s with inFlight := rest }
      (s.fsu.lampTested (decide (s.csu.op = OpState.running)) begun) (s.fsu.lampTested_table _ begun).length_eq rfl
    rw [hcommit] at hexec
    exact ⟨_, own, hexec, rfl, hown, fun i r hr => Fsu.lampTested_row hr⟩

end Sys2Proof.Machine
end

section
/-! SUPPORT and PROOF. The field supervision unit: the permitted reference and the ceiling cascade (4.3 and 4.4). -/

namespace Sys2Proof.Machine

/-! ## The permitted reference (R65) -/

@[simp] theorem Fsu.withPr_pr (f : Fsu) (b : Bool) : (f.withPr b).pr = some (derivePr f.table f.c) := by
  unfold Fsu.withPr
  dsimp only
  split
  next h => exact h
  next => rfl

/-- PR and, where it changed, TARGET are re-derived, and nothing else (R65, R67). -/
theorem Fsu.withPr_eq (f : Fsu) (b : Bool) : f.withPr b = { f with
    pr := some (derivePr f.table f.c)
    table := if f.pr = some (derivePr f.table f.c) then f.table
      else f.table.map (retarget b (derivePr f.table f.c)) } := by
  unfold Fsu.withPr
  dsimp only
  split
  next h => rw [← h]
  next h => rfl

/-- The one PERMITTED record of a table determines PR. -/
theorem derivePr_of_record {t : List Record} {i : Nat} {r : Record} (ht : TableLaw t) (hr : t[i]? = some r)
    (hk : r.fixed.kind = .permitted) (c : Nat) : derivePr t c = match r.state, r.written with
      | .live, some w | .corrected, some w => min w.toNat c
      | _, _ => c := by
  have hmem : r ∈ t := List.mem_of_getElem? hr
  have hp : (r.fixed.kind == .permitted) = true := by simp [hk]
  have hfind : t.find? (fun r => r.fixed.kind == .permitted) = some r := by
    cases hf : t.find? fun r => r.fixed.kind == .permitted with
    | none => exact absurd hp (List.find?_eq_none.mp hf r hmem)
    | some q =>
      exact congrArg some (eq_of_countP_le_one (ht.single .permitted (by simp)) (List.mem_of_find?_eq_some hf) hmem
        (List.find?_some (p := fun r : Record => r.fixed.kind == .permitted) hf) hp)
  unfold derivePr
  rw [hfind] <;> rfl

theorem derivePr_of_current {t : List Record} {i : Nat} {r : Record} {w : Word} (ht : TableLaw t)
    (hr : t[i]? = some r) (hk : r.fixed.kind = .permitted) (hs : r.current) (hw : r.written = some w) (c : Nat) :
    derivePr t c = min w.toNat c := by
  rw [derivePr_of_record ht hr hk, hw]
  obtain hs | hs := hs <;> rw [hs]

/-! ## PERMITTED before TARGET (R68, log 22) -/

/-- At most one request of a list is for the field of this kind. -/
def OneRequest (t : List Record) (k : Kind) (ws : List OwnWrite) : Prop :=
  ws.Pairwise fun v w => ¬(requestIs t k v = true ∧ requestIs t k w = true)

theorem requestIs_iff {t : List Record} {k : Kind} {w : OwnWrite} :
    requestIs t k w = true ↔ ∃ (i : Nat) (r : Record), w.origin = .field i ∧ t[i]? = some r ∧ r.fixed.kind = k := by
  unfold requestIs
  cases w.origin with
  | field i => simp [Option.map_eq_some_iff]
  | report j => simp

/-- Requests by increasing index are one for a kind that the table has once. -/
theorem OneRequest.of_order {t : List Record} {k : Kind} {ws : List OwnWrite}
    (h : ws.Pairwise fun v w => v.origin.before w.origin = true)
    (hone : t.countP (fun r => r.fixed.kind == k) ≤ 1) : OneRequest t k ws := by
  refine h.imp fun {v w} hb ⟨hv, hw⟩ => ?_
  obtain ⟨i, r, hvo, hr, hrk⟩ := requestIs_iff.mp hv
  obtain ⟨j, q, hwo, hq, hqk⟩ := requestIs_iff.mp hw
  rw [hvo, hwo] at hb
  have hij : i < j := of_decide_eq_true hb
  rw [← List.take_append_drop j t, List.countP_append] at hone
  have hleft : 0 < (t.take j).countP fun r => r.fixed.kind == k :=
    List.countP_pos_iff.mpr ⟨r, List.mem_of_getElem? (i := i) (by rw [List.getElem?_take, if_pos hij, hr]), by simp [hrk]⟩
  have hright : 0 < (t.drop j).countP fun r => r.fixed.kind == k :=
    List.countP_pos_iff.mpr ⟨q, List.mem_of_getElem? (i := 0) (by rw [List.getElem?_drop]; exact hq), by simp [hqk]⟩
  omega

/-- No request for TARGET stands before one for PERMITTED. -/
def PermittedLeads (t : List Record) (ws : List OwnWrite) : Prop :=
  ws.Pairwise fun v w => ¬(requestIs t .target v = true ∧ requestIs t .permitted w = true)

theorem PermittedLeads.of_no_target {t : List Record} {ws : List OwnWrite} (h : ∀ w ∈ ws, requestIs t .target w ≠ true) :
    PermittedLeads t ws :=
  List.Pairwise.imp_of_mem (fun ha _ _ hc => h _ ha hc.1) (List.pairwise_of_forall (R := fun _ _ => True) (by simp))

/-- A request put just after the one for PERMITTED has none for PERMITTED behind it. -/
theorem PermittedLeads.insertAfter {t : List Record} {w : OwnWrite} {ws : List OwnWrite}
    (htarget : ∀ v ∈ ws, requestIs t .target v ≠ true) (hone : OneRequest t .permitted ws)
    (hany : ws.any (requestIs t .permitted) = true) : PermittedLeads t (insertAfter (requestIs t .permitted) w ws) := by
  induction ws with
  | nil => nomatch hany
  | cons x xs ih =>
    obtain ⟨hx, hxs⟩ := List.pairwise_cons.mp hone
    have hnx : requestIs t .target x ≠ true := htarget x (by simp)
    unfold Sys2Proof.Machine.insertAfter
    split
    next hp =>
      refine List.pairwise_cons.mpr ⟨fun _ _ hc => hnx hc.1, List.pairwise_cons.mpr ⟨fun v hv hc => ?_, ?_⟩⟩
      · exact hx v hv ⟨hp, hc.2⟩
      · exact PermittedLeads.of_no_target fun v hv => htarget v (by simp [hv])
    next hp =>
      refine List.pairwise_cons.mpr ⟨fun _ _ hc => hnx hc.1, ih (fun v hv => htarget v (by simp [hv])) hxs ?_⟩
      rw [List.any_cons, Bool.or_eq_true] at hany
      exact hany.resolve_left hp

theorem permittedFirst_leads {t : List Record} {ws : List OwnWrite} (ht : OneRequest t .target ws)
    (hp : OneRequest t .permitted ws) : PermittedLeads t (permittedFirst t ws) := by
  induction ws with
  | nil => exact List.Pairwise.nil
  | cons w ws ih =>
    obtain ⟨hwt, ht⟩ := List.pairwise_cons.mp ht
    obtain ⟨-, hp⟩ := List.pairwise_cons.mp hp
    unfold permittedFirst
    split
    next h =>
      rw [Bool.and_eq_true] at h
      exact PermittedLeads.insertAfter (fun v hv hc => hwt v hv ⟨h.1, hc⟩) hp h.2
    next h =>
      refine List.pairwise_cons.mpr ⟨fun v hv hc => h ?_, ih ht hp⟩
      rw [Bool.and_eq_true, List.any_eq_true]
      exact ⟨hc.1, v, mem_permittedFirst.mp hv, hc.2⟩

theorem State.fieldRequests_order (s : State) (old new : List Record) :
    (s.fieldRequests old new).Pairwise fun v w => v.origin.before w.origin = true := by
  unfold State.fieldRequests
  refine List.Pairwise.filterMap (R := fun x y : Record × Nat => x.2 < y.2) _ ?_ ?_
  · rintro ⟨r, i⟩ ⟨q, j⟩ hij v hv w hw
    have horigin : ∀ {r : Record} {i : Nat} {v : OwnWrite},
        (if s.needsWrite old i r then ownWriteOf i r else none) = some v → v.origin = .field i := by
      intro r i v h
      split at h
      · unfold ownWriteOf at h
        obtain ⟨x, -, rfl⟩ := Option.map_eq_some_iff.mp h
        rfl
      · nomatch h
    rw [horigin hv, horigin hw]
    exact decide_eq_true hij
  · rw [List.pairwise_iff_getElem]
    intro i j hi hj hij
    simpa using hij

/-! ## A delivery of the displayed aspect (R59, R68, R92) -/

theorem Fsu.delivered_other (f : Fsu) (running : Bool) (x : Nat × Nat) : f.delivered running x = { f with
    ceiling := some x.2, pr := (f.delivered running x).pr, table := (f.delivered running x).table } := by
  rw [Fsu.delivered_eq]
  split
  next h =>
    unfold Fsu.aspectShown
    rw [← h]
  next =>
    rw [Fsu.ceilingChange_eq, Fsu.withPr_eq]
    rfl

/-- C alone, and the PERMITTED record, determine PR at a ceiling change: what the cascade re-derives does not (R65). -/
theorem Fsu.derivePr_ceiled (f : Fsu) (running : Bool) (n c : Nat) :
    derivePr ((f.aspectShown running n).ceiled running c).table c = derivePr f.table c :=
  (Kind.redrawn.derivePr (Fsu.ceiled_table ..) c).trans (Kind.redrawn.derivePr (Fsu.aspectShown_table ..) c)

theorem Fsu.delivered_pr (f : Fsu) (running : Bool) (n c : Nat) : (f.delivered running (n, c)).pr =
    if f.ceiling = some c then f.pr else some (derivePr f.table c) := by
  rw [Fsu.delivered_eq]
  split
  · rfl
  · rw [Fsu.ceilingChange_eq, Fsu.withPr_pr]
    exact congrArg some (f.derivePr_ceiled running n c)

theorem Fsu.aspectShown_row {f : Fsu} {i : Nat} {r : Record} (hr : f.table[i]? = some r) (running : Bool) (n : Nat) :
    (f.aspectShown running n).table[i]? = some (if running then recheckAspect n r else r) := by
  unfold Fsu.aspectShown
  dsimp only
  cases running
  · exact hr
  · rw [if_pos rfl, List.getElem?_map, hr]
    rfl

/-- A record after a delivery: each step of the cascade acts on the record of its own kind alone. -/
theorem Fsu.delivered_row {f : Fsu} {i : Nat} {r : Record} (hr : f.table[i]? = some r) (running : Bool) (n c : Nat) :
    (f.delivered running (n, c)).table[i]? = some (match r.fixed.kind with
      | .aspect => if running then r.recheck true (BitVec.ofNat 16 n) else r
      | .permitted => if f.ceiling = some c then r else r.recheck running (permittedShown c r)
      | .target => if f.ceiling = some c ∨ f.pr = some (derivePr f.table c) then r
        else r.recheck running (targetShown (derivePr f.table c) r)
      | .actual | .lamps | .watched | .faultSlot => r) := by
  have hrow := Fsu.aspectShown_row hr running n
  rw [Fsu.delivered_eq]
  by_cases hc : f.ceiling = some c
  · rw [if_pos hc, hrow]
    unfold recheckAspect
    cases hk : r.fixed.kind <;> simp [hc, wordOf]
  · have hceiled : ((f.aspectShown running n).ceiled running c).table[i]? =
        some (repermit running c (if running then recheckAspect n r else r)) := by
      show ((f.aspectShown running n).table.map (repermit running c))[i]? = _
      rw [List.getElem?_map, hrow]
      rfl
    rw [if_neg hc, Fsu.ceilingChange_eq, Fsu.withPr_eq]
    have hderive : derivePr ((f.aspectShown running n).ceiled running c).table
        ((f.aspectShown running n).ceiled running c).c = derivePr f.table c := f.derivePr_ceiled running n c
    dsimp only
    rw [hderive]
    by_cases hpr : f.pr = some (derivePr f.table c)
    · rw [if_pos (by exact hpr), hceiled]
      unfold repermit recheckAspect
      cases hk : r.fixed.kind <;> cases running <;> simp [hk, hc, hpr, wordOf, Record.recheck]
    · rw [if_neg (by exact hpr), List.getElem?_map, hceiled]
      unfold retarget repermit recheckAspect
      cases hk : r.fixed.kind <;> cases running <;> simp [hk, hc, hpr, wordOf, Record.recheck]

theorem exec_aspectDelivery {s : State} {n c : Nat} {rest : List Msg}
    (h : takeFirst pickDelivery s.inFlight = some ((n, c), rest)) : exec .aspectDelivery s =
      .next ({ s with inFlight := rest }.fsuCommit (s.fsu.delivered (decide (s.csu.op = OpState.running)) (n, c))) := by
  show Host.Outcome.next (s.takeMsg _ _) = _
  rw [State.takeMsg_some _ h]
  unfold Fsu.delivered
  by_cases hop : s.csu.op = .running <;> simp [hop]

theorem Fsu.delivered_length (f : Fsu) (running : Bool) (x : Nat × Nat) :
    f.table.length = (f.delivered running x).table.length :=
  Fsu.delivered_ind (P := fun g => f.table.length = g.table.length) (Fsu.aspectShown_table ..).length_eq fun h =>
    h.trans ((Fsu.ceiled_table ..).length_eq.trans (Fsu.withPr_table ..).length_eq)

theorem Fsu.delivered_fixed (f : Fsu) (running : Bool) (x : Nat × Nat) :
    (f.delivered running x).table.map Record.fixed = f.table.map Record.fixed :=
  Fsu.delivered_ind (P := fun g => g.table.map Record.fixed = f.table.map Record.fixed)
    (Fsu.aspectShown_table ..).fixed fun h =>
      (Fsu.withPr_table ..).fixed.trans ((Fsu.ceiled_table ..).fixed.trans h)

theorem State.permittedLeads {s : State} {f : Fsu} {ws : List OwnWrite} (ht : TableLaw f.table)
    (hws : ws = permittedFirst f.table (s.fieldRequests s.fsu.table f.table)) : PermittedLeads f.table ws := by
  have horder := s.fieldRequests_order s.fsu.table f.table
  rw [hws]
  exact permittedFirst_leads (.of_order horder (ht.single .target (by simp)))
    (.of_order horder (ht.single .permitted (by simp)))

/-- Settles O28: the delivery acts on each record by its kind, and PERMITTED is handed on before TARGET. -/
theorem aspectDeliveryApplied : Obligations.AspectDeliveryApplied := by
  intro s n c rest h htable
  let running : Bool := decide (s.csu.op = OpState.running)
  let f : Fsu := s.fsu.delivered running (n, c)
  have hlength : s.fsu.table.length = f.table.length := s.fsu.delivered_length running (n, c)
  obtain ⟨own, hown, hcommit, hwrites⟩ := State.fsuCommit_spec { s with inFlight := rest } f hlength
  have hexec := exec_aspectDelivery h
  rw [hcommit] at hexec
  have hpr : f.pr = if s.fsu.ceiling = some c then s.fsu.pr else some (derivePr s.fsu.table c) :=
    s.fsu.delivered_pr running n c
  have hlaw : TableLaw f.table := htable.congr (s.fsu.delivered_fixed running (n, c))
  have hf : f = { s.fsu with ceiling := some c, pr := f.pr, table := f.table } := s.fsu.delivered_other running (n, c)
  refine ⟨_, own, hexec, ?_, hown, fun ws hws => ?_, fun hc => ?_, fun hc => ⟨fun i r w hr hk hs hw => ?_, fun hfresh => ?_⟩,
    fun i r hr => ?_⟩
  · exact State.eq_of_parts rfl rfl rfl rfl rfl rfl rfl rfl hf rfl rfl rfl rfl rfl rfl
  · refine State.permittedLeads (s := { s with inFlight := rest }) hlaw ?_
    rw [hwrites] at hws
    split at hws
    · nomatch hws
    · exact (Msg.ownWrites.inj (List.cons.inj hws).1).2.symm
  · rw [hpr, if_pos hc]
  · rw [hpr, if_neg hc, derivePr_of_current htable hr hk hs hw]
  · rw [hpr, if_neg hc, derivePr_of_fresh fun r hr hk => ?_]
    obtain h | h := hfresh r hr hk <;> simp [Record.current, h]
  · refine (Fsu.delivered_row hr running n c).trans ?_
    have htarget : (if s.fsu.ceiling = some c ∨ s.fsu.pr = some (derivePr s.fsu.table c) then r
        else r.recheck running (targetShown (derivePr s.fsu.table c) r)) =
        if f.pr = s.fsu.pr then r else r.recheck running (targetShown f.reference r) := by
      by_cases hc : s.fsu.ceiling = some c
      · rw [if_pos (.inl hc), if_pos (by rw [hpr, if_pos hc])]
      · have href : f.reference = derivePr s.fsu.table c := by
          unfold Fsu.reference
          rw [hpr, if_neg hc]
          rfl
        rw [hpr, if_neg hc, href]
        by_cases hp : s.fsu.pr = some (derivePr s.fsu.table c)
        · rw [if_pos (.inr hp), if_pos hp.symm]
        · rw [if_neg (by simp [hc, hp]), if_neg (Ne.symm hp)]
    rw [htarget] <;> rfl

end Sys2Proof.Machine
end

section
/-! SUPPORT and PROOF. The field supervision unit: what a record that takes a new value leaves of the others, STALE and
the silent condition, and the expiry of an age timer (chapter 8). -/

namespace Sys2Proof.Machine

/-! ## A record takes a new value (R65, R67) -/

theorem Fsu.withRecord_of_ne {k : Kind} (hk : k ≠ .permitted) (f : Fsu) (b : Bool) (i : Nat) (q : Record) :
    f.withRecord b i k q = { f with table := f.table.set i q } := by
  unfold Fsu.withRecord
  rw [if_neg hk]

theorem Fsu.withRecord_permitted (f : Fsu) (b : Bool) (i : Nat) (q : Record) :
    f.withRecord b i .permitted q = { f with table := f.table.set i q }.withPr b := by
  unfold Fsu.withRecord
  rw [if_pos rfl]

/-- A new value of one record reaches the table and PR alone. -/
theorem Fsu.withRecord_other (f : Fsu) (b : Bool) (i : Nat) (k : Kind) (q : Record) :
    f.withRecord b i k q =
      { f with pr := (f.withRecord b i k q).pr, table := (f.withRecord b i k q).table } := by
  by_cases hk : k = .permitted
  · rw [hk, Fsu.withRecord_permitted, Fsu.withPr_eq]
  · rw [Fsu.withRecord_of_ne hk]

theorem Fsu.withRecord_pr (f : Fsu) (b : Bool) (i : Nat) (k : Kind) (q : Record) : (f.withRecord b i k q).pr =
    if k = .permitted then some (derivePr (f.table.set i q) f.c) else f.pr := by
  by_cases hk : k = .permitted
  · rw [hk, Fsu.withRecord_permitted, Fsu.withPr_pr, if_pos rfl] <;> rfl
  · rw [Fsu.withRecord_of_ne hk, if_neg hk]

theorem Fsu.withRecord_length {f : Fsu} {i : Nat} {r q : Record} (hr : f.table[i]? = some r) (hq : q.fixed = r.fixed)
    (b : Bool) (k : Kind) : f.table.length = (f.withRecord b i k q).table.length := by
  simpa using (congrArg List.length (Fsu.withRecord_fixed hr hq b k)).symm

theorem retarget_of_ne {r : Record} (hk : r.fixed.kind ≠ .target) (b : Bool) (pr : Nat) : retarget b pr r = r := by
  unfold retarget
  rw [if_neg hk]

/-- A changed PR has the TARGET record follow it, and no other record (R67). -/
theorem Fsu.withRecord_row (f : Fsu) (b : Bool) (i : Nat) (k : Kind) (q : Record) (j : Nat) :
    (f.withRecord b i k q).table[j]? = ((f.table.set i q)[j]?).map fun p =>
      if p.fixed.kind = .target ∧ (f.withRecord b i k q).pr ≠ f.pr then
        p.recheck b (targetShown (f.withRecord b i k q).reference p) else p := by
  by_cases hk : k = .permitted
  · rw [hk, Fsu.withRecord_permitted, Fsu.withPr_eq]
    unfold Fsu.reference
    dsimp only [Option.getD_some]
    by_cases hpr : f.pr = some (derivePr (f.table.set i q) f.c)
    · rw [if_pos (by exact hpr)]
      simp only [hpr, Fsu.c, ne_eq, not_true_eq_false, and_false, if_false, Option.map_id']
    · rw [if_neg (by exact hpr), List.getElem?_map]
      refine Option.map_congr fun p _ => ?_
      unfold retarget
      refine if_congr (and_iff_left ?_).symm rfl rfl
      exact fun h => hpr h.symm
  · simp [Fsu.withRecord_of_ne hk]

theorem Fsu.withRecord_row_self {f : Fsu} {i : Nat} {r q : Record} (hr : f.table[i]? = some r) (hq : q.fixed = r.fixed)
    (b : Bool) : (f.withRecord b i r.fixed.kind q).table[i]? = some q := by
  have hi : i < f.table.length := (List.getElem?_eq_some_iff.mp hr).1
  rw [Fsu.withRecord_row, List.getElem?_set_self hi, Option.map_some, if_neg]
  rintro ⟨hk, hpr⟩
  refine hpr ?_
  rw [Fsu.withRecord_pr, if_neg (by rw [← hq, hk]; simp)]

theorem Fsu.withRecord_row_other {f : Fsu} {i j : Nat} {p : Record} (hj : j ≠ i) (hp : f.table[j]? = some p) (b : Bool)
    (k : Kind) (q : Record) : (f.withRecord b i k q).table[j]? = some (
      if p.fixed.kind = .target ∧ (f.withRecord b i k q).pr ≠ f.pr then
        p.recheck b (targetShown (f.withRecord b i k q).reference p) else p) := by
  rw [Fsu.withRecord_row, List.getElem?_set_ne (Ne.symm hj), hp, Option.map_some]

/-! ## The stale set and the silent condition (R137, R141) -/

theorem staleBits_testBit (t : List Record) (k : Nat) :
    (staleBits t).testBit k = true ↔ ∃ q, t[k]? = some q ∧ q.state = .stale := by
  induction t generalizing k with
  | nil => simp [staleBits]
  | cons r rs ih =>
    unfold staleBits
    cases k with
    | zero => by_cases h : r.state = .stale <;> simp [h, Nat.testBit_zero]
    | succ k =>
      rw [Nat.testBit_succ, List.getElem?_cons_succ, ← ih]
      have hhalf : ((if r.state = .stale then 1 else 0) + 2 * staleBits rs) / 2 = staleBits rs := by
        split <;> omega
      rw [hhalf]

theorem staleBitmap_getLsbD (t : List Record) {k : Nat} (hk : k < 48) :
    (staleBitmap t).getLsbD k = true ↔ ∃ q, t[k]? = some q ∧ q.state = .stale := by
  unfold staleBitmap
  rw [BitVec.getLsbD_ofNat, Bool.and_eq_true, staleBits_testBit]
  simp [hk]

theorem onChange_silent (before after : Bool) :
    (onChange before after silentMsg).map (Msg.fault .fsu) = silentMsgs before after := by
  cases before <;> cases after <;> rfl

theorem staleMsg_eq (k : Kind) (i : Nat) : staleMsg k i = staleFault k i := by
  cases k <;> rfl

/-- What a record that enters or leaves STALE hands on, with the silent condition evaluated (R135, R140, R141). -/
theorem State.staleChanged_eq (s : State) (i : Nat) (k : Kind) (entered : Bool) : s.staleChanged i k entered =
    { s with
      fsu := { s.fsu with silent := silentHolds s.fsu.table }
      inFlight := s.inFlight ++ ([.report .fsu [.staleSet (staleBitmap s.fsu.table)],
        .fault .fsu (if entered then .raise (staleFault k i) else .clear (staleFault k i)), .staleNotice entered]
          ++ silentMsgs s.fsu.silent (silentHolds s.fsu.table)) } := by
  unfold State.staleChanged State.evaluateSilent
  rw [State.sendReport_eq, if_neg (List.cons_ne_nil _ _)]
  unfold State.sendFlu
  rw [← onChange_silent]
  cases entered <;> simp [State.send, staleMsg_eq]

theorem TableLaw.set {t : List Record} {i : Nat} {r q : Record} (ht : TableLaw t) (hr : t[i]? = some r)
    (hq : q.fixed = r.fixed) : TableLaw (t.set i q) := ht.congr (map_set_fixed hr hq)

/-! ## The expiry of an age timer (R135–R138, R141) -/

/-- The record as it goes STALE. -/
def State.staled (s : State) (r : Record) : Record :=
  { r with state := .stale, age := none, shown := s.staleShown { r with state := .stale, age := none } }

/-- The FSU once record i is STALE, before the silent condition is evaluated. -/
def State.staledFsu (s : State) (i : Nat) (r : Record) : Fsu := s.fsu.withRecord true i r.fixed.kind (s.staled r)

/-- Once the record is STALE no written aspect counts: the loss aspect where UNCODED, else the received one (R89). -/
theorem State.staleDisplay_eq (s : State) : s.staleDisplay =
    (if s.tcu.uncoded then lossAspect s.tcu.aspects else s.tcu.received).map Aspect.number := by
  unfold State.staleDisplay
  cases hu : s.tcu.uncoded <;> cases hr : s.tcu.received <;>
    simp [deriveDisplayed, codedDisplay, uncodedDisplay, numberOf]

theorem State.staleDisplay_word (s : State) : s.staleDisplay.map wordOf =
    (if s.tcu.uncoded then lossAspect s.tcu.aspects else s.tcu.received).map fun a => BitVec.ofNat 16 a.number := by
  rw [State.staleDisplay_eq, Option.map_map]
  rfl

/-- PR as the record goes STALE: C where it is the PERMITTED record (R65). -/
theorem State.staledFsu_pr {s : State} {i : Nat} {r : Record} (ht : TableLaw s.fsu.table) (hr : s.fsu.table[i]? = some r) :
    (s.staledFsu i r).pr = if r.fixed.kind = .permitted then some s.fsu.c else s.fsu.pr := by
  unfold State.staledFsu
  rw [Fsu.withRecord_pr]
  refine ite_congr rfl (fun hk => congrArg some ?_) fun _ => rfl
  have hi : i < s.fsu.table.length := (List.getElem?_eq_some_iff.mp hr).1
  rw [derivePr_of_record (ht.set (q := s.staled r) hr rfl) (List.getElem?_set_self hi) hk]
  cases r.written <;> rfl

theorem State.staledFsu_reference {s : State} {i : Nat} {r : Record} (ht : TableLaw s.fsu.table)
    (hr : s.fsu.table[i]? = some r) (h : (s.staledFsu i r).pr ≠ s.fsu.pr) : (s.staledFsu i r).reference = s.fsu.c := by
  unfold Fsu.reference
  rw [State.staledFsu_pr ht hr] at h ⊢
  split at h
  next hk => rw [if_pos hk, Option.getD_some]
  next => exact absurd rfl h

/-- All that a record's going STALE leaves and hands on. -/
theorem State.goStale_spec {s : State} {i : Nat} {r : Record} (ht : TableLaw s.fsu.table)
    (hr : s.fsu.table[i]? = some r) :
    ∃ own, FieldsHanded s s.fsu.table (s.staledFsu i r).table own ∧ s.goStale i r = { s with
      fsu := { s.fsu with
        pr := (s.staledFsu i r).pr
        table := (s.staledFsu i r).table
        silent := silentHolds (s.staledFsu i r).table }
      inFlight := s.inFlight ++ own
        ++ (if (s.staledFsu i r).pr = s.fsu.pr then [] else [.newPr s.fsu.c])
        ++ [.events .fsu [.st], .report .fsu [.staleSet (staleBitmap (s.staledFsu i r).table)],
            .fault .fsu (.raise (staleFault r.fixed.kind i)), .staleNotice true]
        ++ silentMsgs s.fsu.silent (silentHolds (s.staledFsu i r).table)
        ++ (if r.fixed.kind = .aspect then [.aspectStale true
            ((if s.tcu.uncoded then lossAspect s.tcu.aspects else s.tcu.received).map Aspect.number)] else []) } := by
  have hlength : s.fsu.table.length = (s.staledFsu i r).table.length :=
    Fsu.withRecord_length (q := s.staled r) hr rfl true _
  obtain ⟨own, hown, hcommit, -⟩ := State.fsuCommit_spec s (s.staledFsu i r) hlength
  refine ⟨own, hown, ?_⟩
  have hother : s.staledFsu i r = { s.fsu with pr := (s.staledFsu i r).pr, table := (s.staledFsu i r).table } :=
    Fsu.withRecord_other ..
  have hsilent : { s.staledFsu i r with silent := silentHolds (s.staledFsu i r).table } = { s.fsu with
      pr := (s.staledFsu i r).pr
      table := (s.staledFsu i r).table
      silent := silentHolds (s.staledFsu i r).table } := by
    conv_lhs => rw [hother]
  have hgo : s.goStale i r =
      (fun s2 => if r.fixed.kind = .aspect then s2.send [.aspectStale true s.staleDisplay] else s2)
        (((s.fsuCommit (s.staledFsu i r)).sendEvents .fsu [.st]).staleChanged i r.fixed.kind true) := rfl
  rw [hgo, State.staleChanged_eq, State.sendEvents_eq, if_neg (List.cons_ne_nil _ _), hcommit]
  have hbefore : (s.staledFsu i r).silent = s.fsu.silent := Fsu.withRecord_silent ..
  have hnew : (if (s.staledFsu i r).pr = s.fsu.pr then [] else [Msg.newPr (s.staledFsu i r).reference]) =
      if (s.staledFsu i r).pr = s.fsu.pr then [] else [.newPr s.fsu.c] :=
    ite_congr rfl (fun _ => rfl) fun h => by rw [State.staledFsu_reference ht hr h]
  rw [← hsilent, hnew, State.staleDisplay_eq]
  by_cases hk : r.fixed.kind = .aspect <;> simp [hk, State.send, hbefore]

theorem exec_ageTimerExpiry {s : State} {i : Nat} {r : Record} {e : Nat} (hop : s.csu.op = .running)
    (hr : s.fsu.table[i]? = some r) (he : r.age = some e) : exec (.ageTimerExpiry i) s = .next (
      if r.state = .stale then
        { s with now := max s.now e, fsu := { s.fsu with table := s.fsu.table.set i { r with age := none } } }
      else { s with now := max s.now e }.goStale i r) := by
  show execAgeTimerExpiry i s = _
  unfold execAgeTimerExpiry
  rw [hop, hr]
  dsimp only
  rw [he]
  rfl

/-- Settles O31: the record goes STALE, and PR, the TARGET record and the silent condition follow it. -/
theorem ageExpiryMakesStale : Obligations.AgeExpiryMakesStale := by
  intro s i r e hop hr he ht
  have hexec := exec_ageTimerExpiry hop hr he
  refine ⟨fun hs => by rw [hexec, if_pos hs], fun hs => ?_⟩
  obtain ⟨own, hown, hgo⟩ := State.goStale_spec (s := { s with now := max s.now e }) ht hr
  rw [if_neg hs, hgo] at hexec
  have hpr : (s.staledFsu i r).pr = if r.fixed.kind = .permitted then some s.fsu.c else s.fsu.pr :=
    State.staledFsu_pr ht hr
  refine ⟨_, own, (s.staled r).shown, hexec, Fsu.withRecord_row_self (q := s.staled r) hr rfl true, ?_, rfl, hpr,
    fun j q hj hq => ?_, fun k hk => staleBitmap_getLsbD _ hk, hown, rfl⟩
  · show s.staleShown { r with state := .stale, age := none } = _
    unfold State.staleShown
    cases r.fixed.kind with
    | actual => rfl
    | permitted => rfl
    | target => cases r.written <;> simp [targetShown, wordOf]
    | aspect => exact s.staleDisplay_word
    | lamps => cases r.written <;> simp [lampsShown, lampsBase]
    | watched => rfl
    | faultSlot => rfl
  · refine (Fsu.withRecord_row_other hj hq true _ _).trans (congrArg some ?_)
    refine ite_congr rfl (fun h => ?_) fun _ => rfl
    exact congrArg (fun n => q.recheck true (targetShown n q)) (State.staledFsu_reference ht hr h.2)

end Sys2Proof.Machine
end

section
/-! SUPPORT and PROOF. The computer writes to the field table in RUNNING (2.3 to 2.5, 4.2 to 4.4, 5.6). -/

namespace Sys2Proof.Machine

/-! ## The reception of a word outside STANDBY -/

/-- Outside STANDBY no drain is noticed: the reception drops the requests for its address, and sends nothing. -/
theorem Received.inFlight_eq {s t : State} {a : Addr} {x : Word} {sent : List Msg} (h : Received s t a x sent)
    (hop : s.csu.op ≠ .standby) : t.inFlight = dropRequests a s.inFlight ++ sent := by
  obtain ⟨u, q, drain, hu, -, hfree, hheld, hsent⟩ := h.sent
  have hdrain : drain = [] := by
    by_cases hq : ∃ e ∈ s.mwq.queue, e.addr = a
    · have hcsu : u.csu = s.csu := by rw [hu]
      exact ((hheld hq).2.2 fun hc => hop (hcsu ▸ hc.1)).2
    · exact (hfree fun e he hea => hq ⟨e, he, hea⟩).2.2
  rw [hsent, hdrain, List.append_nil]

theorem inFlightValue_dropRequests (a : Addr) (ms : List Msg) : inFlightValue a (dropRequests a ms) = none := by
  induction ms with
  | nil => rfl
  | cons m ms ih =>
    cases m with
    | ownWrites b ws =>
      simp only [dropRequests, inFlightValue, ih, Option.map_eq_none_iff, List.find?_eq_none, List.mem_filter]
      rintro w ⟨-, hw⟩
      simpa using hw
    | _ => simpa [dropRequests, inFlightValue] using ih

/-- After the reception the received word is what the part last caused memory to hold there (R16, R22). -/
theorem Received.lastCaused {s t : State} {a : Addr} {x : Word} (h : Received s t a x []) (hop : s.csu.op ≠ .standby)
    (ho : s.originAt a ≠ none) : t.lastCaused a = some x := by
  unfold State.lastCaused
  rw [h.inFlight_eq hop, List.append_nil, inFlightValue_dropRequests]
  exact h.known ho

theorem State.originAt_field {s : State} {a : Addr} {i : Nat} (ha : a.toNat < 0x1E00) (hi : fieldAt s.fsu.table a = some i) :
    s.originAt a = some (.field i) := by
  unfold State.originAt
  rw [if_pos ha, hi]
  rfl

/-- An operation that changes only shown values which memory has, or is to have, requests nothing (R16). -/
theorem FieldsHanded.nothing {s : State} {before after : List Record} {sent : List Msg} (h : FieldsHanded s before after sent)
    (hsame : ∀ (i : Nat) (q r : Record), before[i]? = some q → after[i]? = some r → q.shown = r.shown ∨
      s.lastCaused r.fixed.addr = r.shown) : sent = [] := by
  obtain ⟨ws, hsent, hws⟩ := h
  have hnil : ws = [] := List.eq_nil_iff_forall_not_mem.mpr fun w hw => by
    obtain ⟨i, q, r, hq, hr, hne, -, hcaused, -⟩ := (hws w).mp hw
    exact (hsame i q r hq hr).elim hne hcaused
  rw [hsent, if_pos hnil]

/-! ## The field write as a whole (R24, R25) -/

theorem State.sendCounts_eq (s : State) (i count : Nat) (corrected : Bool) :
    (s.sendFlu .fsu (countRequests i count corrected)).sendEvents .fsu (countEvents count corrected) =
      s.send (correctionMsgs i count corrected) := by
  rw [State.sendEvents_eq]
  unfold State.sendFlu countRequests countEvents correctionMsgs
  rw [State.send_send]
  simp only [show Config.countLimit = 8 from rfl, Nat.reduceEqDiff]
  cases corrected
  · by_cases hc : count = 8 <;> simp [hc] <;> rfl
  · by_cases hc : count = 7 <;> simp [hc] <;> rfl

/-- The FSU once record i has taken a write, before the silent condition is evaluated. -/
def State.writtenFsu (s : State) (i : Nat) (r : Record) (w : Word) : Fsu :=
  s.fsu.withRecord (decide (s.csu.op = .running)) i r.fixed.kind (s.writtenRecord r w (s.judge r w))

/-- All that a field write leaves and hands on; the memory's part of it is `receiveField`. -/
theorem State.fieldWrite_spec {s : State} {i : Nat} {r : Record} (w : Word) (hr : s.fsu.table[i]? = some r)
    (hk : r.fixed.kind ≠ .faultSlot) :
    ∃ own, FieldsHanded (s.receiveField r.fixed.addr (s.judge r w)) s.fsu.table (s.writtenFsu i r w).table own ∧
      s.fieldWrite i w = { s.receiveField r.fixed.addr (s.judge r w) with
        fsu := { s.fsu with
          pr := (s.writtenFsu i r w).pr
          table := (s.writtenFsu i r w).table
          silent := if r.state = .stale then silentHolds (s.writtenFsu i r w).table else s.fsu.silent }
        inFlight := (s.receiveField r.fixed.addr (s.judge r w)).inFlight ++ own
          ++ (if (s.writtenFsu i r w).pr = s.fsu.pr then [] else [.newPr (s.writtenFsu i r w).reference])
          ++ correctionMsgs i r.count (s.judge r w).corrected
          ++ leavingMsgs r i (s.writtenFsu i r w).table s.fsu.silent
          ++ (if r.fixed.kind = .aspect then [.writtenAspect w (numberOf (wouldDisplay s.tcu w))] else []) } := by
  have hfsu : (s.receiveField r.fixed.addr (s.judge r w)).fsu = s.fsu := by simp
  have hlength : s.fsu.table.length = (s.writtenFsu i r w).table.length :=
    Fsu.withRecord_length (q := s.writtenRecord r w (s.judge r w)) hr rfl _ _
  obtain ⟨own, hown, hcommit, -⟩ :=
    State.fsuCommit_spec (s.receiveField r.fixed.addr (s.judge r w)) (s.writtenFsu i r w) (by rw [hfsu]; exact hlength)
  rw [hfsu] at hown hcommit
  refine ⟨own, hown, ?_⟩
  have hother : s.writtenFsu i r w = { s.fsu with pr := (s.writtenFsu i r w).pr, table := (s.writtenFsu i r w).table } :=
    Fsu.withRecord_other ..
  have hsilent (b : Bool) : { s.writtenFsu i r w with silent := b } = { s.fsu with
      pr := (s.writtenFsu i r w).pr
      table := (s.writtenFsu i r w).table
      silent := b } := by
    conv_lhs => rw [hother]
  have hbefore : (s.writtenFsu i r w).silent = s.fsu.silent := Fsu.withRecord_silent ..
  unfold State.fieldWrite
  rw [hr]
  dsimp only
  have hset : (fun g : Fsu => if r.fixed.kind = .permitted then g.withPr (decide (s.csu.op = .running)) else g)
      { s.fsu with table := s.fsu.table.set i (s.writtenRecord r w (s.judge r w)) } = s.writtenFsu i r w := rfl
  dsimp only at hset
  rw [if_neg hk, hfsu, State.sendCounts_eq, hset, hcommit, ← hsilent]
  unfold leavingMsgs
  by_cases hs : r.state = .stale
  · rw [if_pos hs, State.staleChanged_eq]
    by_cases ha : r.fixed.kind = .aspect <;> simp [hs, ha, State.send, hbefore]
  · rw [if_neg hs]
    have hkept : { s.writtenFsu i r w with silent := s.fsu.silent } = s.writtenFsu i r w := by rw [← hbefore]
    by_cases ha : r.fixed.kind = .aspect <;> simp [hs, ha, State.send, hkept]

/-! ## A write taken in RUNNING (R24) -/

theorem State.writtenRecord_running {s : State} {r : Record} {w x : Word} {c : Bool} (hop : s.csu.op = .running) :
    s.writtenRecord r w { word := some x, corrected := c } = r.after .running s.now w x c := by
  unfold State.writtenRecord Record.after
  rw [hop]
  rfl

theorem State.receiveField_running {s : State} (hop : s.csu.op = .running) (a : Addr) (x : Word) (c : Bool) :
    s.receiveField a { word := some x, corrected := c } = s.receive a x := by
  unfold State.receiveField
  rw [if_pos hop]

/-- The FSU once record i has taken a write in RUNNING that memory receives as x. -/
def State.takenFsu (s : State) (i : Nat) (r : Record) (w x : Word) (c : Bool) : Fsu :=
  s.fsu.withRecord true i r.fixed.kind (r.after .running s.now w x c)

/-- What the kind of the record adds to the hand-overs of a field write. -/
def State.lastOf (s : State) (k : Kind) (w : Word) : List Msg :=
  if k = .aspect then [.writtenAspect w (numberOf (wouldDisplay s.tcu w))] else []

theorem FieldsHanded.congr {s t : State} {before after : List Record} {sent : List Msg}
    (h : FieldsHanded s before after sent) (hcaused : ∀ a, t.lastCaused a = s.lastCaused a) :
    FieldsHanded t before after sent := by
  unfold FieldsHanded
  simp only [hcaused]
  exact h

/-- A write to record i that memory receives as x: the record is as judged, and what else changes, PR and TARGET with
it, is handed on before the correction fault (R16, R24, R68). -/
theorem FieldWrite.taken {s : State} {a : Addr} {i : Nat} {r : Record} {kind : Kind} {w x : Word} {c : Bool}
    (h : FieldWrite s .running a i r kind) (hk : kind ≠ .faultSlot) (hj : s.judge r w = { word := some x, corrected := c }) :
    ∃ t own, s.suppressed.fieldWrite i w = t ∧
      FieldTaken s t a i r w x c
        (own ++ (if (s.takenFsu i r w x c).pr = s.fsu.pr then [] else [.newPr (s.takenFsu i r w x c).reference]))
        (s.lastOf kind w) ∧
      t.fsu = { s.fsu with
        pr := (s.takenFsu i r w x c).pr, table := (s.takenFsu i r w x c).table, silent := t.fsu.silent } ∧
      FieldsHanded { s with inFlight := dropRequests a s.inFlight, mwq := t.mwq } s.fsu.table t.fsu.table own ∧
      (kind ≠ .permitted → own = []) := by
  obtain ⟨hop, hfree, hwf, harea, hdecoded, hrecord, rfl⟩ := h
  have haddr : r.fixed.addr = a := fieldAt_addr hdecoded hrecord
  have hstandby : s.csu.op ≠ .standby := by rw [hop]; nofun
  have hreceived := received hwf a x
  obtain ⟨own, hown, hwrite⟩ := State.fieldWrite_spec (s := s.suppressed) w hrecord hk
  have hjudge : s.suppressed.judge r w = { word := some x, corrected := c } := hj
  have hfsu : s.suppressed.writtenFsu i r w = s.takenFsu i r w x c := by
    unfold State.writtenFsu State.takenFsu
    rw [hjudge, State.writtenRecord_running (s := s.suppressed) hop, decide_eq_true (show s.suppressed.csu.op = .running from hop)] <;> rfl
  rw [hjudge, hfsu, haddr, State.receiveField_running (s := s.suppressed) hop] at hown hwrite
  refine ⟨_, own, hwrite, ⟨⟨?_, ?_, ?_, ?_, ?_, ?_, ?_, ?_, ?_, ?_⟩, Fsu.withRecord_row_self (q := r.after .running s.now w x c) hrecord rfl true, rfl,
    .sends hwf rfl rfl rfl ?_⟩, rfl, hown.congr fun y => ?_, fun hp => hown.nothing fun j q p hq hpj => ?_⟩
  iterate 10 simp
  · simp only [State.lastOf, List.append_assoc] <;> rfl
  · unfold State.lastCaused
    rw [hreceived.inFlight_eq hstandby, List.append_nil]
  · unfold State.takenFsu at hpj
    rw [Fsu.withRecord_of_ne hp] at hpj
    by_cases hji : j = i
    · subst hji
      have hi : j < s.fsu.table.length := (List.getElem?_eq_some_iff.mp hrecord).1
      have hpr : r.after .running s.now w x c = p := Option.some.inj ((List.getElem?_set_self hi).symm.trans hpj)
      right
      rw [← hpr, show (r.after .running s.now w x c).fixed.addr = a from haddr, hreceived.lastCaused hstandby ?_]
      · rfl
      · rw [State.originAt_field harea hdecoded]
        simp
    · have hqp : q = p := by
        rw [List.getElem?_set_ne (Ne.symm hji)] at hpj
        exact Option.some.inj (hq.symm.trans hpj)
      exact .inl (by rw [hqp])

/-- A write to a record of a kind that PR does not follow reaches this record alone. -/
theorem FieldWrite.taken_alone {s : State} {a : Addr} {i : Nat} {r : Record} {kind : Kind} {w x : Word} {c : Bool}
    (h : FieldWrite s .running a i r kind) (hp : kind ≠ .permitted) (hk : kind ≠ .faultSlot)
    (hj : s.judge r w = { word := some x, corrected := c }) {ins : Instr} (hins : ins.write = some (a, w)) :
    ∃ t, exec ins s = .next t ∧ FieldTaken s t a i r w x c [] (s.lastOf kind w) ∧
      t.fsu = { s.fsu with table := t.fsu.table, silent := t.fsu.silent } ∧
      ∀ j, j ≠ i → t.fsu.table[j]? = s.fsu.table[j]? := by
  obtain ⟨t, own, hwrite, htaken, hfsu, -, hown⟩ := h.taken hk hj
  have halone : s.takenFsu i r w x c = { s.fsu with table := s.fsu.table.set i (r.after .running s.now w x c) } :=
    Fsu.withRecord_of_ne (by rw [h.kind]; exact hp) ..
  rw [halone] at htaken hfsu
  rw [hown hp, if_pos rfl, List.append_nil] at htaken
  refine ⟨t, by rw [h.exec_eq rfl hins, hwrite], htaken, ?_, fun j hj => ?_⟩
  · rw [hfsu]
  · rw [hfsu]
    exact List.getElem?_set_ne (Ne.symm hj)

/-! ## The judgements (R60, R61, R64, R67, R91) -/

theorem actualPasses_iff (tol v : Nat) (w : Word) :
    actualPasses tol v w = true ↔ w.toNat ≤ 400 ∧ 10 * w.toNat ≤ v + tol ∧ v ≤ 10 * w.toNat + tol := by
  unfold actualPasses
  rw [Bool.and_eq_true, decide_eq_true_eq, withinTolerance_iff]
  rfl

theorem judgeLimit_eq (limit : Nat) (w : Word) : judgeLimit limit w =
    { word := some (BitVec.ofNat 16 (min w.toNat limit)), corrected := decide (limit < w.toNat) } := by
  unfold judgeLimit
  split
  next h => simp [passed, Nat.min_eq_left h, Nat.not_lt.mpr h]
  next h => simp [correctedTo, wordOf, Nat.min_eq_right (Nat.le_of_not_le h), Nat.lt_of_not_le h]

/-- Settles O8: the judgement passes within the tolerance of a known speed, and corrects to d beyond it. -/
theorem actualWriteJudged : Obligations.ActualWriteJudged := by
  intro s a w i r h
  have hjudge : s.judge r w = judgeActual s.fsu.speedCopy r.fixed.tolerance w := by
    unfold State.judge
    rw [h.kind]
  have htaken {x : Word} {c : Bool} (hj : s.judge r w = { word := some x, corrected := c }) :=
    h.taken_alone (by simp) (by simp) hj (ins := .actualWrite a w) rfl
  cases hs : s.fsu.speedCopy.selected with
  | none =>
    have hj : s.judge r w = passed w := by rw [hjudge, judgeActual, hs]
    obtain ⟨t, hexec, ht, hfsu, hothers⟩ := htaken hj
    exact ⟨t, hexec, hfsu, hothers, fun _ => ht, fun v hv => by simp at hv⟩
  | some v =>
    have hj : s.judge r w = if actualPasses r.fixed.tolerance v w then passed w
        else correctedTo (wordOf (s.fsu.speedCopy.d.getD 0)) := by rw [hjudge, judgeActual, hs]
    by_cases hp : actualPasses r.fixed.tolerance v w = true
    · rw [if_pos hp] at hj
      obtain ⟨t, hexec, ht, hfsu, hothers⟩ := htaken hj
      refine ⟨t, hexec, hfsu, hothers, nofun, fun v' hv => ?_⟩
      obtain rfl := Option.some.inj hv
      exact ⟨fun _ => ht, fun d _ hno => absurd ((actualPasses_iff ..).mp hp) hno⟩
    · rw [if_neg hp] at hj
      obtain ⟨t, hexec, ht, hfsu, hothers⟩ := htaken hj
      refine ⟨t, hexec, hfsu, hothers, nofun, fun v' hv => ?_⟩
      obtain rfl := Option.some.inj hv
      refine ⟨fun hok => absurd ((actualPasses_iff ..).mpr hok) hp, fun d hd _ => ?_⟩
      rw [hd] at ht
      exact ht

/-- Settles O10: a TARGET write is limited to PR, and reaches its record alone. -/
theorem targetWriteLimited : Obligations.TargetWriteLimited := by
  intro s a w i r h
  refine h.taken_alone (by simp) (by simp) ?_ rfl
  unfold State.judge
  rw [h.kind]
  exact judgeLimit_eq ..

/-- Settles O11: memory receives the number of the aspect that would be displayed, which the hand-over carries. -/
theorem aspectWriteJudged : Obligations.AspectWriteJudged := by
  rintro s a w x n i r h rfl rfl
  refine h.taken_alone (by simp) (by simp) ?_ rfl
  unfold State.judge
  rw [h.kind]
  unfold judgeAspect wouldDisplay
  dsimp only
  cases deriveDisplayed s.tcu.uncoded s.tcu.received (aspectOfWord s.tcu.aspects w) (lossAspect s.tcu.aspects) with
  | none => simp [passed]
  | some b =>
    dsimp only [Option.map_some]
    by_cases hb : wordOf b.number = w
    · rw [if_pos hb, ← hb]
      simp [passed, wordOf]
    · rw [if_neg hb]
      have hne : BitVec.ofNat 16 b.number ≠ w := hb
      simp [correctedTo, wordOf, hne]

/-! ## LAMPS and WATCHED (R13, R27, R28, R30) -/

theorem setBitTo_getLsbD (w : Word) {i : Nat} (hi : i < 16) (b : Bool) (k : Nat) :
    (setBitTo w i b).getLsbD k = if k = i then b else w.getLsbD k := by
  have hplace : place 1 1 i = BitVec.twoPow 16 i := by
    refine BitVec.eq_of_toNat_eq ?_
    rw [place_toNat (by omega), BitVec.toNat_twoPow, Nat.mod_eq_of_lt (Nat.pow_lt_pow_right (by decide) hi)]
    simp
  have hbeyond : ¬k < 16 → w.getLsbD k = false := fun h => BitVec.getLsbD_of_ge w k (Nat.le_of_not_lt h)
  unfold setBitTo
  rw [hplace]
  cases b
  · by_cases hk : k = i
    · simp [hk, hi]
    · by_cases h16 : k < 16 <;> simp [hk, Ne.symm hk, h16, hbeyond]
  · by_cases hk : k = i
    · simp [hk, hi]
    · simp [hk, Ne.symm hk]

theorem mergeLamps_other (fns : LampValues) {lamps : List LampPair} (hbit : ∀ p ∈ lamps, p.bit < 16) {k : Nat}
    (hk : ∀ p ∈ lamps, p.bit ≠ k) (w : Word) : (mergeLamps fns lamps w).getLsbD k = w.getLsbD k := by
  induction lamps generalizing w with
  | nil => rfl
  | cons p ps ih =>
    rw [mergeLamps, ih (fun q hq => hbit q (.tail _ hq)) (fun q hq => hk q (.tail _ hq)),
      setBitTo_getLsbD _ (hbit p (.head _)), if_neg (Ne.symm (hk p (.head _)))]

/-- An assigned bit is its function, where no other assignment names the bit. -/
theorem mergeLamps_assigned (fns : LampValues) {lamps : List LampPair} (hbit : ∀ p ∈ lamps, p.bit < 16)
    (hone : lamps.Pairwise fun p q => p.bit ≠ q.bit) {p : LampPair} (hp : p ∈ lamps) (w : Word) :
    (mergeLamps fns lamps w).getLsbD p.bit = fns.get p.fn := by
  induction lamps generalizing w with
  | nil => nomatch hp
  | cons q qs ih =>
    obtain ⟨hq, hqs⟩ := List.pairwise_cons.mp hone
    have htail : ∀ x ∈ qs, x.bit < 16 := fun x hx => hbit x (.tail _ hx)
    rw [mergeLamps]
    obtain rfl | hp := List.mem_cons.mp hp
    · rw [mergeLamps_other fns htail fun x hx => Ne.symm (hq x hx), setBitTo_getLsbD _ (hbit p (.head _)), if_pos rfl]
    · exact ih htail hqs hp _

/-- Settles O12: a LAMPS write is merged and never corrected, a WATCHED write is passed. -/
theorem lampsAndWatchedWritesPass : Obligations.LampsAndWatchedWritesPass := by
  refine fun s a w i r => ⟨fun h hone hbit => ?_, fun h => ?_⟩
  · have hjudge : s.judge r w = judgeLamps s.fsu.lampTest s.fsu.fns r.fixed.lamps w := by
      unfold State.judge
      rw [h.kind]
    obtain ⟨t, hexec, ht, hfsu, hothers⟩ := h.taken_alone (by simp) (by simp) hjudge (ins := .lampsWrite a w) rfl
    refine ⟨t, _, hexec, ht, fun htest => if_pos htest, fun htest => ?_, hfsu, hothers⟩
    rw [if_neg (by rw [htest]; simp)]
    exact ⟨fun p hp => mergeLamps_assigned _ hbit hone hp w, fun k hk => mergeLamps_other _ hbit hk w⟩
  · refine h.taken_alone (by simp) (by simp) ?_ rfl
    unfold State.judge
    rw [h.kind] <;> rfl

/-! ## PERMITTED (R64, R65, R68) -/

theorem State.takenFsu_pr (s : State) {i : Nat} {r : Record} (w x : Word) (c : Bool) (ht : TableLaw s.fsu.table)
    (hr : s.fsu.table[i]? = some r) (hk : r.fixed.kind = .permitted) :
    (s.takenFsu i r w x c).pr = some (min w.toNat s.fsu.c) := by
  have hi : i < s.fsu.table.length := (List.getElem?_eq_some_iff.mp hr).1
  have hcurrent : (r.after .running s.now w x c).current := by
    unfold Record.after
    cases c
    · exact .inl rfl
    · exact .inr rfl
  unfold State.takenFsu
  rw [Fsu.withRecord_pr, if_pos hk, derivePr_of_current (ht.set (q := r.after .running s.now w x c) hr rfl)
    (List.getElem?_set_self hi) hk hcurrent rfl]

theorem State.takenFsu_row_other {s : State} {i j : Nat} {q : Record} (hj : j ≠ i) (hq : s.fsu.table[j]? = some q)
    (r : Record) (w x : Word) (c : Bool) : (s.takenFsu i r w x c).table[j]? = some (
      if q.fixed.kind = .target ∧ (s.takenFsu i r w x c).pr ≠ s.fsu.pr then
        q.recheck true (targetShown (s.takenFsu i r w x c).reference q) else q) :=
  Fsu.withRecord_row_other hj hq true _ _

/-- Settles O9: the limited value becomes PR, and TARGET follows it in the same operation. -/
theorem permittedWriteLimited : Obligations.PermittedWriteLimited := by
  rintro s a w i r pr h htable rfl
  have hjudge : s.judge r w =
      { word := some (BitVec.ofNat 16 (min w.toNat s.fsu.c)), corrected := decide (s.fsu.c < w.toNat) } := by
    unfold State.judge
    rw [h.kind]
    exact judgeLimit_eq ..
  obtain ⟨t, own, hwrite, htaken, hfsu, hown, -⟩ := h.taken (by simp) hjudge
  have hpr := s.takenFsu_pr w (BitVec.ofNat 16 (min w.toNat s.fsu.c)) (decide (s.fsu.c < w.toNat)) htable h.record h.kind
  have href : (s.takenFsu i r w (BitVec.ofNat 16 (min w.toNat s.fsu.c)) (decide (s.fsu.c < w.toNat))).reference =
      min w.toNat s.fsu.c := by
    unfold Fsu.reference
    rw [hpr, Option.getD_some]
  refine ⟨t, _, by rw [h.exec_eq rfl rfl, hwrite], htaken, ?_, ⟨own, hown, ?_⟩, fun j q hj hq => ?_⟩
  · rw [hfsu, hpr]
  · rw [hpr, href]
    simp only [eq_comm]
  · rw [hfsu]
    refine (State.takenFsu_row_other hj hq ..).trans ?_
    rw [href, hpr]
    simp only [ne_eq, eq_comm]

end Sys2Proof.Machine
end

section
/-! SUPPORT and PROOF. The computer writes to the field table in STANDBY (R25). -/

namespace Sys2Proof.Machine

/-- Every field but a FAULT_SLOT has its write judged to a word. -/
theorem State.judge_word (s : State) {r : Record} (w : Word) (hk : r.fixed.kind ≠ .faultSlot) :
    ∃ x c, s.judge r w = { word := some x, corrected := c } := by
  have hlimit (n : Nat) : ∃ x c, judgeLimit n w = { word := some x, corrected := c } := ⟨_, _, judgeLimit_eq n w⟩
  unfold State.judge
  cases hkind : r.fixed.kind with
  | actual =>
    dsimp only
    unfold judgeActual
    split
    · exact ⟨_, _, rfl⟩
    · split <;> exact ⟨_, _, rfl⟩
  | permitted => exact hlimit _
  | target => exact hlimit _
  | aspect =>
    dsimp only
    unfold judgeAspect
    split
    · split <;> exact ⟨_, _, rfl⟩
    · exact ⟨_, _, rfl⟩
  | lamps => exact ⟨_, _, rfl⟩
  | watched => exact ⟨_, _, rfl⟩
  | faultSlot => exact absurd hkind hk

theorem State.writtenRecord_standby {s : State} (r : Record) (w : Word) (j : Judgement) (hop : s.csu.op = .standby) :
    s.writtenRecord r w j = { r with
      state := if j.corrected then .corrected else .live, written := some w, count := countAfter r.count j.corrected } := by
  unfold State.writtenRecord
  rw [hop]
  rfl

theorem State.receiveField_standby {s : State} (hop : s.csu.op = .standby) (a : Addr) (j : Judgement) :
    s.receiveField a j = s := by
  unfold State.receiveField
  rw [if_neg (by rw [hop]; nofun)]

/-- In STANDBY a field write changes no shown value. -/
theorem State.writtenFsu_shown {s : State} {i j : Nat} {r q p : Record} {w : Word} (hop : s.csu.op = .standby)
    (hr : s.fsu.table[i]? = some r) (hq : s.fsu.table[j]? = some q) (hp : (s.writtenFsu i r w).table[j]? = some p) :
    q.shown = p.shown := by
  unfold State.writtenFsu at hp
  rw [decide_eq_false (show ¬s.csu.op = .running by rw [hop]; nofun)] at hp
  by_cases hji : j = i
  · subst hji
    rw [Fsu.withRecord_row_self (q := s.writtenRecord r w (s.judge r w)) hr rfl, State.writtenRecord_standby r w _ hop] at hp
    rw [← Option.some.inj hp, Option.some.inj (hr.symm.trans hq)]
  · rw [Fsu.withRecord_row_other hji hq] at hp
    rw [← Option.some.inj hp]
    split <;> rfl

theorem State.writtenFsu_pr {s : State} {i : Nat} {r : Record} (w : Word) (ht : TableLaw s.fsu.table)
    (hr : s.fsu.table[i]? = some r) : (s.writtenFsu i r w).pr =
      if r.fixed.kind = .permitted then some (min w.toNat s.fsu.c) else s.fsu.pr := by
  unfold State.writtenFsu
  rw [Fsu.withRecord_pr]
  refine ite_congr rfl (fun hk => congrArg some ?_) fun _ => rfl
  have hi : i < s.fsu.table.length := (List.getElem?_eq_some_iff.mp hr).1
  refine derivePr_of_current (ht.set (q := s.writtenRecord r w _) hr rfl) (List.getElem?_set_self hi) hk ?_ rfl _
  show _ ∨ _
  unfold State.writtenRecord
  dsimp only
  split
  · exact .inr rfl
  · exact .inl rfl

theorem Fsu.reference_of_pr {f : Fsu} {n : Nat} (h : f.pr = some n) : f.reference = n := by
  unfold Fsu.reference
  rw [h, Option.getD_some]

theorem State.writtenFsu_row_other {s : State} {i j : Nat} {r p : Record} {w : Word} (hop : s.csu.op = .standby)
    (hj : j ≠ i) (hp : s.fsu.table[j]? = some p) : (s.writtenFsu i r w).table[j]? = some (
      if p.fixed.kind = .target ∧ (s.writtenFsu i r w).pr ≠ s.fsu.pr then
        p.recheck false (targetShown (s.writtenFsu i r w).reference p) else p) := by
  have hrow := Fsu.withRecord_row_other hj hp (decide (s.csu.op = .running)) r.fixed.kind
    (s.writtenRecord r w (s.judge r w))
  rw [show s.fsu.withRecord _ i r.fixed.kind _ = s.writtenFsu i r w from rfl,
    decide_eq_false (show ¬s.csu.op = .running by rw [hop]; nofun)] at hrow
  exact hrow

/-- A field write in STANDBY is suppressed, and leaves and hands on what the record, PR and the silent condition come
to. -/
theorem FieldWrite.recorded {s : State} {a : Addr} {i : Nat} {r : Record} {kind : Kind} {w x : Word} {c : Bool}
    (h : FieldWrite s .standby a i r kind) (hk : kind ≠ .faultSlot) (hj : s.judge r w = { word := some x, corrected := c }) :
    s.suppressed.fieldWrite i w = { s.suppressed with
      fsu := { s.fsu with
        pr := (s.writtenFsu i r w).pr
        table := (s.writtenFsu i r w).table
        silent := if r.state = .stale then silentHolds (s.writtenFsu i r w).table else s.fsu.silent }
      inFlight := s.inFlight
        ++ (if (s.writtenFsu i r w).pr = s.fsu.pr then [] else [.newPr (s.writtenFsu i r w).reference])
        ++ correctionMsgs i r.count c ++ leavingMsgs r i (s.writtenFsu i r w).table s.fsu.silent
        ++ s.lastOf kind w } := by
  obtain ⟨hop, hfree, hwf, harea, hdecoded, hrecord, rfl⟩ := h
  obtain ⟨own, hown, hwrite⟩ := State.fieldWrite_spec (s := s.suppressed) w hrecord hk
  have hnone : own = [] := hown.nothing fun j q p hq hp => .inl (State.writtenFsu_shown (s := s.suppressed) hop hrecord hq hp)
  rw [State.receiveField_standby (s := s.suppressed) hop, hnone, List.append_nil] at hwrite
  rw [hwrite, show (s.suppressed.judge r w).corrected = c from congrArg Judgement.corrected hj]
  rfl

/-- Settles O13: RUNNING judges the same write alike, and STANDBY records state, written value and count of it. -/
theorem standbyWriteRecorded : Obligations.StandbyWriteRecorded := by
  intro s a w i r kind hk h htable
  obtain ⟨x, c, hj⟩ := s.judge_word w (r := r) (by rw [h.kind]; exact hk)
  let s' : State := { s with csu := { s.csu with op := .running } }
  have h' : FieldWrite s' .running a i r kind := ⟨rfl, h.free, h.wf, h.area, h.decoded, h.record, h.kind⟩
  obtain ⟨u, own, hu, htaken, -⟩ := h'.taken (w := w) hk hj
  have hwrite := h.recorded hk hj
  have hexec := (h.exec_eq rfl (c := .standbyFieldWrite a w) rfl).trans (congrArg Host.Outcome.next hwrite)
  have hpr := State.writtenFsu_pr w htable h.record
  rw [h.kind] at hpr
  refine ⟨_, u, r.after .running s.now w x c, hexec, by rw [h'.exec_eq rfl rfl, hu],
    htaken.record, ?_, rfl, rfl, ?_, fun hp => ⟨?_, fun j hj => ?_⟩, fun hp => ⟨?_, fun j p hj hq => ?_⟩, rfl, ?_⟩
  · cases c
    · exact .inl rfl
    · exact .inr rfl
  · refine (Fsu.withRecord_row_self (q := s.writtenRecord r w (s.judge r w)) h.record rfl _).trans (congrArg some ?_)
    rw [State.writtenRecord_standby r w _ h.op, hj] <;> rfl
  · exact hpr.trans (if_neg hp)
  · show (s.writtenFsu i r w).table[j]? = _
    unfold State.writtenFsu
    rw [Fsu.withRecord_of_ne (by rw [h.kind]; exact hp)]
    exact List.getElem?_set_ne (Ne.symm hj)
  · exact hpr.trans (if_pos hp)
  · rw [if_pos hp] at hpr
    show (s.writtenFsu i r w).table[j]? = some (if _ ∧ s.fsu.pr ≠ (s.writtenFsu i r w).pr then _ else _)
    rw [State.writtenFsu_row_other h.op hj hq, Fsu.reference_of_pr hpr]
    simp only [ne_eq, eq_comm]
  · have hnew : (if (s.writtenFsu i r w).pr = s.fsu.pr then [] else [Msg.newPr (s.writtenFsu i r w).reference]) =
        if kind = .permitted ∧ s.fsu.pr ≠ (s.writtenFsu i r w).pr then [.newPr (min w.toNat s.fsu.c)] else [] := by
      by_cases hp : kind = .permitted
      · rw [if_pos hp] at hpr
        rw [Fsu.reference_of_pr hpr]
        by_cases hs : (s.writtenFsu i r w).pr = s.fsu.pr
        · simp [hs]
        · simp [hs, Ne.symm hs, hp]
      · rw [if_pos (hpr.trans (if_neg hp)), if_neg fun h => hp h.1]
    rw [← hnew]
    have hc : decide ((r.after .running s.now w x c).state = .corrected) = c := by cases c <;> rfl
    rw [hc] <;> rfl

end Sys2Proof.Machine
end

section
/-! SUPPORT and PROOF. The event word and the enable outside resets (10.2, 10.3). -/

namespace Sys2Proof.Machine

/-- A class stands for the event word or the enable only at the address of that word. -/
def WordClass.reportAt (n : Nat) (k : WordClass) : Prop := (k = .eventWord → n = 0x1F07) ∧ (k = .enable → n = 0x1F08)

/-- The event word and the enable are decoded at 1F07h and 1F08h. -/
theorem wordClass_reportAt (op : OpState) (table : List Record) (a : Addr) : (wordClass op table a).reportAt a.toNat := by
  cases op with
  | reset | fallback => exact ⟨nofun, nofun⟩
  | loading =>
    rw [wordClass_loading]
    exact iteInduction (fun _ => ⟨nofun, nofun⟩) fun _ => iteInduction (fun _ => ⟨nofun, nofun⟩) fun _ =>
      iteInduction (fun _ => ⟨nofun, nofun⟩) fun _ => iteInduction (fun h => ⟨fun _ => h, nofun⟩) fun _ =>
      iteInduction (fun h => ⟨nofun, fun _ => h⟩) fun _ => iteInduction (fun _ => ⟨nofun, nofun⟩) fun _ =>
      iteInduction (fun _ => ⟨nofun, nofun⟩) fun _ => iteInduction (fun _ => ⟨nofun, nofun⟩) fun _ =>
      iteInduction (fun _ => ⟨nofun, nofun⟩) fun _ => iteInduction (fun _ => ⟨nofun, nofun⟩) fun _ =>
      iteInduction (fun _ => ⟨nofun, nofun⟩) fun _ => ⟨nofun, nofun⟩
  | running | standby =>
    have hfield : (match fieldAt table a with
        | some i => WordClass.field i
        | none => .plain).reportAt a.toNat := by
      cases fieldAt table a <;> exact ⟨nofun, nofun⟩
    rw [wordClass_hasTable rfl]
    exact iteInduction (fun _ => hfield) fun _ => iteInduction (fun _ => ⟨nofun, nofun⟩) fun _ =>
      iteInduction (fun h => ⟨fun _ => h, nofun⟩) fun _ => iteInduction (fun h => ⟨nofun, fun _ => h⟩) fun _ =>
      iteInduction (fun _ => ⟨nofun, nofun⟩) fun _ => iteInduction (fun _ => ⟨nofun, nofun⟩) fun _ =>
      iteInduction (fun _ => ⟨nofun, nofun⟩) fun _ => iteInduction (fun _ => ⟨nofun, nofun⟩) fun _ =>
      iteInduction (fun _ => ⟨nofun, nofun⟩) fun _ => iteInduction (fun _ => ⟨nofun, nofun⟩) fun _ =>
      iteInduction (fun _ => ⟨nofun, nofun⟩) fun _ => ⟨nofun, nofun⟩

/-- The enable is as before and no event bit is lost. -/
structure Rpu.Keeps (r q : Rpu) : Prop where
  enable : q.enable = r.enable
  events : ∀ k, r.events.getLsbD k = true → q.events.getLsbD k = true

theorem Rpu.Keeps.of_eq {r q : Rpu} (he : q.enable = r.enable) (hv : q.events = r.events) : r.Keeps q :=
  ⟨he, fun k h => by rw [hv]; exact h⟩

theorem Rpu.Keeps.refl (r : Rpu) : r.Keeps r := .of_eq rfl rfl

theorem Rpu.setEvents_keeps (r : Rpu) (es : List Event) : r.Keeps (r.setEvents es) :=
  ⟨rfl, fun k h => by
    show (r.events ||| eventMask es).getLsbD k = true
    rw [BitVec.getLsbD_or, h, Bool.true_or]⟩

theorem State.enterFallback_keeps (s : State) : s.rpu.Keeps s.enterFallback.rpu := by
  have h := Rpu.setEvents_keeps { s.rpu with
    op := .fallback, standbyReq := false, bitmap := 0, verdict := s.csu.verdict
    failures := s.csu.failures, failOff := s.csu.failOff } [.sc]
  exact ⟨h.enable, h.events⟩

theorem State.rejectImage_keeps (s : State) (v : Verdict) (off : BitVec 8) : s.rpu.Keeps (s.rejectImage v off).rpu := by
  unfold State.rejectImage
  dsimp only
  split
  · rw [State.sendReport_rpu]
    exact .refl _
  · have h := State.enterFallback_keeps { s with csu := { s.csu with
      failures := s.csu.failures + 1, verdict := v, failOff := off } }
    exact ⟨h.enable, h.events⟩

/-- Of the effects only the resets change the enable or lose an event. -/
theorem Effect.keepsEvents {s t : State} {c : Instr} (h : Effect s c t) (ht : t.csu.op ≠ .reset) : s.rpu.Keeps t.rpu := by
  cases h with
  | mirror => exact .of_eq (by simp) (by simp)
  | @events b es rest hm =>
    obtain hr | hr := State.setEvents_cases { s with inFlight := rest } es
    · exact .of_eq (by rw [hr]) (by rw [hr])
    · rw [hr]
      exact s.rpu.setEvents_keeps es
  | @report b items rest hm =>
    obtain ⟨he, hn, -⟩ := Rpu.applyItems_events items s.rpu
    rw [State.rpuCommit_rpu]
    exact .of_eq hn he
  | powerReset | warmReset => exact absurd (by rfl) ht
  | @loadTimeout e he =>
    have h := State.enterFallback_keeps { s.reach e with csu := { s.csu with verdict := .timeout } }
    exact ⟨h.enable, h.events⟩
  | _ => exact .of_eq (by simp) (by simp)

/-- Of the computer writes only those of 1F07h and 1F08h change the enable or lose an event. -/
theorem State.decideWrite_reports (s : State) (a : Addr) (w : Word) : s.rpu.Keeps (s.decideWrite a w).rpu ∨
    (wordClass s.csu.op s.fsu.table a = .eventWord ∧ (s.decideWrite a w).rpu = s.rpu.clearByOne w) ∨
    (wordClass s.csu.op s.fsu.table a = .enable ∧
      (s.decideWrite a w).rpu = { s.rpu with enable := w }.followIntr) := by
  unfold State.decideWrite
  cases hc : wordClass s.csu.op s.fsu.table a with
  | eventWord => exact .inr (.inl ⟨rfl, by unfold State.writeEvents; simp⟩)
  | enable => exact .inr (.inr ⟨rfl, by unfold State.writeEnable; simp⟩)
  | check =>
    refine .inl ?_
    dsimp only
    unfold State.judgeImage
    have hsame : ((s.receive a w).capture a w).rpu = s.rpu := by simp
    cases checkImage ((s.receive a w).capture a w).csu.shadow with
    | pass => exact .of_eq (by simp [State.applyCheck]) (by simp [State.applyCheck])
    | crcFails => exact hsame ▸ State.rejectImage_keeps ..
    | contentFails o => exact hsame ▸ State.rejectImage_keeps ..
  | _ => exact .inl (.of_eq (by simp) (by simp))

/-- Settles O16: neither a release nor an effect touches them, and a write does so by its address alone. -/
theorem eventsStayUntilCleared : Obligations.EventsStayUntilCleared := by
  intro c s t hlaw hexec hs ht
  obtain ⟨a, w, hc, rfl⟩ | ⟨now, solo, hr, rfl⟩ | he := exec_cases hexec
  · have hdecide := (s.serveQueueTurn.grantComputer).decideWrite_reports a w
    rw [← State.computerWrite_taken hs, State.grantComputer_rpu, State.serveQueueTurn_rpu] at hdecide
    have hop : s.serveQueueTurn.grantComputer.csu.op = s.csu.op := by simp
    rw [hop] at hdecide
    obtain ⟨hevent, henable⟩ := wordClass_reportAt s.csu.op s.serveQueueTurn.grantComputer.fsu.table a
    obtain h | ⟨hclass, hrpu⟩ | ⟨hclass, hrpu⟩ := hdecide
    · exact ⟨.inl h.enable, fun k hk => .inl (h.events k hk)⟩
    · have hf : s.csu.op ≠ .fallback := fun hf => by rw [hf] at hclass; nomatch hclass
      obtain rfl : a = 0x1F07 := BitVec.eq_of_toNat_eq (hevent hclass)
      refine ⟨.inl (by rw [hrpu]; rfl), fun k hk => ?_⟩
      cases hw : w.getLsbD k
      · refine .inl ?_
        rw [hrpu]
        show (s.rpu.events &&& ~~~w).getLsbD k = true
        rw [BitVec.getLsbD_and, BitVec.getLsbD_not, hk, hw, decide_eq_true (BitVec.lt_of_getLsbD hk)]
        rfl
      · exact .inr ⟨hf, w, hc, hw⟩
    · have hf : s.csu.op ≠ .fallback := fun hf => by rw [hf] at hclass; nomatch hclass
      obtain rfl : a = 0x1F08 := BitVec.eq_of_toNat_eq (henable hclass)
      refine ⟨.inr ⟨hf, w, hc, by rw [hrpu]; rfl⟩, fun k hk => .inl ?_⟩
      rw [hrpu]
      exact hk
  · refine absurd (hlaw.inReset.mpr ?_) hs
    obtain ⟨-, -, e, he, -⟩ | ⟨-, hw, -⟩ := hr
    · exact .inr (.inr (by rw [he]; simp))
    · exact .inr (.inl hw)
  · have h := he.keepsEvents ht
    exact ⟨.inl h.enable, fun k hk => .inl (h.events k hk)⟩

end Sys2Proof.Machine
end

section
/-! SUPPORT and PROOF. The entry to FALLBACK, the drain notice and the cab-active filter (11.4, 12.3 to 12.5). -/

namespace Sys2Proof.Machine

/-! ## The entry to FALLBACK (R153, R179) -/

/-- Of the memory port an entry to FALLBACK keeps the turn and the drain flag, and the memory values but those of the
two words it hands on. -/
theorem State.enterFallback_port (s : State) : s.enterFallback.mwq.queueTurn = s.mwq.queueTurn ∧
    s.enterFallback.mwq.drainGiven = s.mwq.drainGiven ∧
    ∀ x, x ≠ 0x1F00 → x ≠ 0x1F0E → knownAt s.enterFallback.mwq.known x = knownAt s.mwq.known x := by
  exact ⟨rfl, rfl, fun x h0 h14 => (knownAt_setKnown_ne _ _ h14).trans (knownAt_setKnown_ne _ _ h0)⟩

/-- Settles O51: the expiry enters FALLBACK with its verdict, and the notice is passed on in STANDBY alone. -/
theorem loadTimeoutAndDrain : Obligations.LoadTimeoutAndDrain := by
  refine fun s => ⟨fun e he => ?_, fun u rest h => ?_⟩
  · let v : State := { s.reach e with csu := { s.csu with verdict := .timeout } }
    have hexec : exec .loadTimerExpiry s = .next v.enterFallback := by
      show execLoadTimerExpiry s = _
      unfold execLoadTimerExpiry
      rw [he]
      rfl
    obtain ⟨hturn, hdrain, hknown⟩ := v.enterFallback_port
    exact ⟨_, hexec, fallback_entered { s with now := max s.now e } v rfl rfl rfl rfl rfl rfl rfl rfl rfl rfl rfl,
      rfl, rfl, rfl, hturn, hdrain, hknown⟩
  · show Host.Outcome.next (s.takeMsg _ _) = _
    rw [State.takeMsg_some _ h]
    dsimp only
    split
    · rfl
    · rw [List.append_nil]

/-! ## The cab-active filter (R176–R178) -/

/-- Settles O52: a change of the level while RUNNING or in STANDBY is the entry or the return, any other the level
alone. -/
theorem cabLevelFollowed : Obligations.CabLevelFollowed := by
  intro s e he
  let u : State := { s with now := max s.now e, csu := { s.csu with cabActive := s.csu.cabLine, cabTimer := none } }
  have hexec : exec .cabactDebounceExpiry s = .next (
      if s.csu.cabLine = s.csu.cabActive then u
      else match s.csu.op, s.csu.cabLine with
        | .running, false => u.enterStandby
        | .standby, true => u.returnToRunning
        | _, _ => u) := by
    show execCabactDebounceExpiry s = _
    unfold execCabactDebounceExpiry
    rw [he]
    rfl
  by_cases hi : s.csu.op = .running ∧ s.csu.cabActive = true ∧ s.csu.cabLine = false
  · have hentry : exec .cabactDebounceExpiry s = .next u.enterStandby := by
      rw [hexec, hi.1, hi.2.1, hi.2.2] <;> rfl
    exact ⟨_, hentry, fun _ => standby_entered u, fun h => absurd (hi.1.symm.trans h.1) (by simp),
      fun h => absurd hi h⟩
  by_cases ha : s.csu.op = .standby ∧ s.csu.cabActive = false ∧ s.csu.cabLine = true
  · have hreturn : exec .cabactDebounceExpiry s = .next u.returnToRunning := by
      rw [hexec, ha.1, ha.2.1, ha.2.2] <;> rfl
    exact ⟨_, hreturn, fun h => absurd h hi, fun _ => standby_left u, fun _ h => absurd ha h⟩
  refine ⟨u, ?_, fun h => absurd h hi, fun h => absurd h ha, fun _ _ => rfl⟩
  rw [hexec]
  split
  · rfl
  next hsame =>
    split
    next hop hl => exact absurd ⟨hop, by rw [hl] at hsame; simpa using hsame, hl⟩ hi
    next hop hl => exact absurd ⟨hop, by rw [hl] at hsame; simpa using hsame, hl⟩ ha
    next => rfl

end Sys2Proof.Machine
end

section
/-! SUPPORT and PROOF. The check word: the outcome of a check, failed or passed (11.3, 11.4, 12.2). -/

namespace Sys2Proof.Machine

/-! ## The outcome of a check (R166) -/

theorem checkImage_crcFails {sh : Memory} (h : imageCrc sh ≠ sh.read 255) : checkImage sh = .crcFails := by
  unfold checkImage
  rw [if_pos h]

theorem checkImage_contentFails {sh : Memory} {o : Nat} (hcrc : imageCrc sh = sh.read 255)
    (ho : o < 32 + 4 * min sh.imgN 48) (hfault : wordFault sh o = true) (hbefore : ∀ p < o, wordFault sh p = false) :
    checkImage sh = .contentFails o := by
  have hfind : contentFault sh = some o :=
    List.find?_range_eq_some.mpr ⟨hfault, List.mem_range.mpr ho, fun p hp => by rw [hbefore p hp]; rfl⟩
  unfold checkImage
  rw [if_neg (not_not.mpr hcrc), hfind]

theorem checkImage_passes {sh : Memory} (hcrc : imageCrc sh = sh.read 255)
    (hnone : ∀ o < 32 + 4 * min sh.imgN 48, wordFault sh o = false) : checkImage sh = .pass := by
  have hfind : contentFault sh = none :=
    List.find?_eq_none.mpr fun o ho => by rw [hnone o (List.mem_range.mp ho)]; simp
  unfold checkImage
  rw [if_neg (not_not.mpr hcrc), hfind]

/-! ## The take of the check word (R165, R166) -/

/-- The state on which the check is judged: memory has received the word, and the shadow holds it. -/
def State.checkTaken (s : State) (w : Word) : State := (s.suppressed.receive 0x1EFF w).capture 0x1EFF w

theorem exec_checkWordWrite {s : State} (hf : s.portFree) (hop : s.csu.op = .loading) (w : Word) :
    exec (.checkWordWrite w) s = .next (s.checkTaken w).judgeImage := by
  rw [exec_write_free rfl (by rw [hop]; nofun) hf]
  unfold State.decideWrite
  rw [show s.suppressed.csu.op = .loading from hop, wordClass_loading]
  rfl

theorem State.checkTaken_eq (s : State) (w : Word) : s.checkTaken w = { s with
    mem := (s.suppressed.receive 0x1EFF w).mem, mwq := (s.suppressed.receive 0x1EFF w).mwq
    inFlight := (s.suppressed.receive 0x1EFF w).inFlight, held := none
    csu := { s.csu with shadow := s.csu.shadow.write 255 w } } := by
  unfold State.checkTaken State.capture
  rw [s.receive_rest] <;> rfl

/-! ## A failed check (R168) -/

theorem State.rejectImage_again {s : State} (h : s.csu.failures < 2) (v : Verdict) (off : BitVec 8) :
    s.rejectImage v off = { s with
      csu := { s.csu with failures := s.csu.failures + 1, verdict := v, failOff := off }
      inFlight := s.inFlight ++ [.report .csu [.loadState v (s.csu.failures + 1) off]] } := by
  have hlt : s.csu.failures + 1 < Config.maxAttempts := Nat.succ_lt_succ h
  unfold State.rejectImage
  dsimp only
  rw [if_pos hlt]
  rfl

theorem State.rejectImage_third {s : State} (h : s.csu.failures = 2) (v : Verdict) (off : BitVec 8) :
    s.rejectImage v off = { s with csu := { s.csu with failures := 3, verdict := v, failOff := off } }.enterFallback := by
  unfold State.rejectImage
  rw [h]
  rfl

/-- A check that the CRC stage or the content stage fails is rejected with its verdict and offset. -/
theorem State.judgeImage_rejects {s : State} {sh : Memory} {w : Word} {verdict : Verdict} {off : BitVec 8}
    (hsh : s.csu.shadow = sh) (hw : sh.read 255 = w)
    (h : (imageCrc sh ≠ w ∧ verdict = .crcFail ∧ off = 0xFF) ∨
      (imageCrc sh = w ∧ verdict = .contentFail ∧ ∃ o < 32 + 4 * min sh.imgN 48, off = BitVec.ofNat 8 o ∧
        wordFault sh o = true ∧ ∀ p < o, wordFault sh p = false)) : s.judgeImage = s.rejectImage verdict off := by
  subst hsh hw
  unfold State.judgeImage
  obtain ⟨hcrc, rfl, rfl⟩ | ⟨hcrc, rfl, o, ho, rfl, hfault, hbefore⟩ := h
  · rw [checkImage_crcFails hcrc]
    rfl
  · rw [checkImage_contentFails hcrc ho hfault hbefore]
    rfl

/-- Settles O20: the first two rejections stay in LOADING, the third enters FALLBACK. -/
theorem failedCheckCounted : Obligations.FailedCheckCounted := by
  intro s w verdict off hfree hmem hop hlt hfails
  have hreject := State.judgeImage_rejects (s := s.checkTaken w) (sh := s.csu.shadow.write 255 w)
    (by rw [State.checkTaken_eq]) (Memory.read_write_self hmem.2 255 w) hfails
  have hexec := exec_checkWordWrite hfree hop w
  have hreceived := received hmem.1 0x1EFF w
  rw [hreject] at hexec
  by_cases h2 : s.csu.failures < 2
  · rw [State.rejectImage_again (by rw [State.checkTaken_eq]; exact h2), State.checkTaken_eq] at hexec
    exact ⟨_, hexec, rfl, hreceived.memory, hreceived.turn, rfl,
      fun _ => ⟨.sends hmem.1 rfl (by simp) rfl rfl, rfl⟩, fun h => absurd h2 (by omega)⟩
  · have h3 : s.csu.failures = 2 := by omega
    rw [State.rejectImage_third (by rw [State.checkTaken_eq]; exact h3), State.checkTaken_eq] at hexec
    let u : State := { s with
      mem := (s.suppressed.receive 0x1EFF w).mem, mwq := (s.suppressed.receive 0x1EFF w).mwq
      inFlight := (s.suppressed.receive 0x1EFF w).inFlight, held := none
      csu := { s.csu with shadow := s.csu.shadow.write 255 w, failures := 3, verdict := verdict, failOff := off } }
    refine ⟨u.enterFallback, hexec, rfl, hreceived.memory, ?_, rfl, fun h => absurd h h2,
      fun _ => fallback_entered s u rfl rfl rfl rfl rfl rfl rfl rfl rfl rfl rfl⟩
    exact u.enterFallback_port.1.trans hreceived.turn

/-! ## A passed check (R168, R175, R177) -/

/-- A RUNNING entry is told by what it finds of the time, the last code, the lamp functions and the fault list. -/
theorem RunningEntered.congr {sh : Memory} {s v t : State} {ms : List Msg} (h : RunningEntered sh v t ms)
    (now : v.now = s.now) (last : v.tcu.lastSampled = s.tcu.lastSampled) (fns : v.fsu.fns = s.fsu.fns)
    (flu : v.flu = s.flu) (pending : v.pending = s.pending) (reads : v.reads = s.reads) (answer : v.answer = s.answer) :
    RunningEntered sh s t ms := by
  obtain ⟨hasu, htcu, hsize, hrecords, hfsu, hanu, hfunctions, hbuzzer, hsent, hrest⟩ := h
  rw [now] at hasu htcu hrecords hanu hbuzzer hrest
  rw [last] at htcu hsent
  rw [fns, flu] at hrecords
  rw [flu, pending, reads, answer] at hrest
  exact ⟨hasu, htcu, hsize, hrecords, hfsu, hanu, hfunctions, hbuzzer, hsent, hrest⟩

/-- The ANU keeps its inputs through a RUNNING entry: the list summary and the buttons (R112, R124). -/
theorem State.enterRunningOnly_inputs (s : State) : s.enterRunningOnly.anu.summary = s.anu.summary ∧
    s.enterRunningOnly.anu.ackb = s.anu.ackb ∧ s.enterRunningOnly.anu.ltstb = s.anu.ltstb := by
  have h := s.beforeFsu.fsuEntry.anuEntry_anu (slotCount s.beforeFsu.fsuEntry.fsu.table)
  have hanu : s.beforeFsu.fsuEntry.anu = s.anu := by simp [s.beforeFsu_rest]
  rw [hanu] at h
  exact ⟨(congrArg Anu.summary h).trans rfl, (congrArg Anu.ackb h).trans rfl, (congrArg Anu.ltstb h).trans rfl⟩

/-- With CABACT ACTIVE the RUNNING entry is all; with it INACTIVE the STANDBY entry follows (R175). -/
theorem State.enterRunning_by_cab (s : State) :
    (s.csu.cabActive = true → s.enterRunning = s.enterRunningOnly) ∧
    (s.csu.cabActive = false → StandbyEntered s.enterRunningOnly s.enterRunning) := by
  unfold State.enterRunning
  dsimp only
  rw [State.enterRunningOnly_csu]
  refine ⟨fun h => if_pos h, fun h => ?_⟩
  rw [if_neg (by rw [h]; simp)]
  exact standby_entered _

theorem State.enterRunning_queueTurn (s : State) : s.enterRunning.mwq.queueTurn = s.mwq.queueTurn := by
  obtain ⟨hactive, hinactive⟩ := s.enterRunning_by_cab
  cases hc : s.csu.cabActive with
  | true => rw [hactive hc, State.enterRunningOnly_mwq]
  | false => rw [(hinactive hc).drain, State.enterRunningOnly_mwq]

/-- Settles O21: the image is locked and taken, RUNNING is entered, and STANDBY after it with CABACT INACTIVE. -/
theorem acceptedImageRuns : Obligations.AcceptedImageRuns := by
  intro s w hfree hmem hop ⟨hcrc, hnone⟩
  have hread : (s.csu.shadow.write 255 w).read 255 = w := Memory.read_write_self hmem.2 255 w
  have hreceived := received hmem.1 0x1EFF w
  have hstandby : s.csu.op ≠ .standby := by rw [hop]; nofun
  have hexec := exec_checkWordWrite hfree hop w
  have hpass : checkImage (s.checkTaken w).csu.shadow = .pass := by
    rw [State.checkTaken_eq]
    exact checkImage_passes (hcrc.trans hread.symm) hnone
  unfold State.judgeImage at hexec
  rw [hpass, State.checkTaken_eq] at hexec
  let x : State := { s with
    mem := (s.suppressed.receive 0x1EFF w).mem, mwq := (s.suppressed.receive 0x1EFF w).mwq
    inFlight := (s.suppressed.receive 0x1EFF w).inFlight ++ [.report .csu [.loadState .accepted s.csu.failures 0]]
    held := none
    csu := { s.csu with
      shadow := s.csu.shadow.write 255 w, load := none, locked := true, verdict := .accepted, failOff := 0 }
    asu := { s.asu with limits := some (limitsOf (s.csu.shadow.write 255 w)) }
    tcu := { s.tcu with aspects := (s.csu.shadow.write 255 w).aspectTable } }
  have haccept : exec (.checkWordWrite w) s = .next x.enterRunning := hexec
  have hin : x.inFlight = dropRequests 0x1EFF s.inFlight ++ [.report .csu [.loadState .accepted s.csu.failures 0]] := by
    show (s.suppressed.receive 0x1EFF w).inFlight ++ _ = _
    rw [hreceived.inFlight_eq hstandby, List.append_nil]
  have hrun := running_entered x rfl rfl
  rw [hin] at hrun
  obtain ⟨hsummary, hackb, hltstb⟩ := x.enterRunningOnly_inputs
  obtain ⟨hactive, hinactive⟩ := x.enterRunning_by_cab
  refine ⟨x.enterRunning, haccept, ?_, ?_, ?_, ?_, x.enterRunningOnly, by rw [State.enterRunningOnly_csu],
    hrun.congr rfl rfl rfl rfl rfl rfl rfl, hsummary, hackb, hltstb, hactive, hinactive⟩
  · rw [State.enterRunning_csu]
  · rw [State.enterRunning_mem]
    exact hreceived.memory
  · rw [State.enterRunning_queueTurn]
    exact hreceived.turn
  · rw [State.enterRunning_held]

end Sys2Proof.Machine
end

section
/-! SUPPORT and PROOF. The resets (12.1), and the state after reset. -/

namespace Sys2Proof.Machine

/-! ## Entry to RESET (R113, R114, R172, R174) -/

theorem State.enterReset_inReset (s : State) (power : Bool) : InReset s (s.enterReset power) power :=
  ⟨rfl, rfl, rfl, rfl, rfl, rfl, rfl, rfl, rfl, rfl, rfl, rfl, rfl, rfl⟩

theorem exec_pwrgFall {s : State} (h : s.csu.pwrg = true) :
    exec .pwrgFall s = .next ({ s with csu := { s.csu with pwrg := false } }.enterReset true) := by
  show execPwrgFall s = _
  unfold execPwrgFall
  rw [if_pos h]

/-- Settles O53: the part is held in RESET, with the fault list and its counter cleared. -/
theorem powerResetClears : Obligations.PowerResetClears := by
  intro s h
  obtain ⟨hasu, htcu, hfsu, hanu, hmwq, hrpu, hcsu, hrest⟩ :=
    State.enterReset_inReset { s with csu := { s.csu with pwrg := false } } true
  exact ⟨_, exec_pwrgFall h, rfl, rfl, rfl, rfl, rfl, rfl, hasu, htcu, hfsu, hanu, hmwq, hrpu, hcsu, hrest⟩

/-- No entry that a warm reset keeps is older than its base, counted from the base before (R114). -/
theorem Flu.warm_base {f : Flu} {b n : BitVec 16} (hb : f.base = some b) (hn : f.warm.base = some n) :
    ∀ e ∈ f.warm.list, (n - b).toNat ≤ (e.arrival - b).toNat := by
  have h := (earliest_some hn).2
  rw [hb] at h
  exact h

theorem exec_wrstFall {s : State} (h : s.csu.wrst = true) : exec .wrstFall s = .next (
    if s.csu.op = .reset then { s with csu := { s.csu with wrst := false } }
    else { s with csu := { s.csu with wrst := false } }.enterReset false) := by
  show execWrstFall s = _
  unfold execWrstFall
  rw [if_pos h]

/-- Settles O54: the fall keeps what R114 and R174 name, and in RESET each input changes its own level. -/
theorem warmResetKeeps : Obligations.WarmResetKeeps := by
  refine fun s => ⟨fun hw hop hlaw => ?_, fun hw hop => ?_, fun hp => ?_, fun e solo he hw => ?_, fun solo hw hp => ?_⟩
  · have hexec := exec_wrstFall hw
    rw [if_neg hop] at hexec
    obtain ⟨hasu, htcu, hfsu, hanu, hmwq, hrpu, hcsu, hrest⟩ :=
      State.enterReset_inReset { s with csu := { s.csu with wrst := false } } false
    refine ⟨_, hexec, ⟨hasu, htcu, hfsu, hanu, hmwq, hrpu, hcsu, hrest⟩, rfl, rfl, hlaw.warm, ?_, rfl, rfl,
      fun b n hb hn => Flu.warm_base hb hn⟩
    exact List.filter_congr fun e _ => by cases e.severity <;> rfl
  · rw [exec_wrstFall hw, if_pos hop]
  · show execPwrgRise s = _
    unfold execPwrgRise
    rw [if_neg (by rw [hp]; nofun)]
    rfl
  · show execSettleTimeExpiry solo s = _
    unfold execSettleTimeExpiry
    rw [he]
    dsimp only
    rw [if_neg (by rw [hw]; nofun)]
    rfl
  · show execWrstRise solo s = _
    unfold execWrstRise
    dsimp only
    rw [if_neg (by rw [hw]; nofun), if_neg]
    rintro ⟨hpwrg, hsettle⟩
    obtain h | h := hp
    · rw [h] at hpwrg
      nomatch hpwrg
    · exact h hsettle

/-! ## The state after reset -/

/-- Nothing of a field table, an image or an aspect is claimed in RESET, where no table exists. -/
theorem reset_fieldLaws : let s := State.reset
    SupervisionLaw s.csu.op s.fsu ∧ CeilingLaw s.csu.op s.fsu ∧ SpeedLaw s ∧ ActualLaw s.csu.op s.fsu ∧
      LampsLaw s.csu.op s.fsu ∧ AspectShownLaw s :=
  ⟨⟨fun _ => rfl, nofun, rfl⟩, ⟨nofun, nofun, nofun⟩, ⟨.zero, nofun, nofun⟩, ⟨nofun, nofun⟩, ⟨nofun, nofun⟩,
    ⟨nofun, nofun, nofun⟩⟩

/-- Settles O60: each law holds of the part that a power reset holds in RESET. -/
theorem resetMeetsInvariants : Obligations.ResetMeetsInvariants := by
  refine ⟨⟨⟨rfl, rfl⟩, .reset, .reset, rfl⟩, ⟨?_, ?_, ?_, ?_, nofun, ?_⟩, .nil, reset_fieldLaws⟩
  · constructor <;> decide
  · exact ⟨fun _ => ⟨rfl, rfl, rfl, rfl, rfl, rfl⟩, fun _ => ⟨rfl, rfl, rfl, rfl, rfl, rfl, rfl⟩, fun _ => ⟨rfl, rfl⟩⟩
  · exact ⟨nofun, nofun, nofun, ⟨fun h => absurd rfl h, nofun⟩⟩
  · exact ⟨nofun, ⟨fun h => absurd rfl h, nofun⟩⟩
  · exact ⟨fun _ => rfl, nofun, nofun, fun _ => ⟨rfl, rfl⟩, nofun, nofun, fun h => absurd rfl h⟩

end Sys2Proof.Machine
end

section
/-! SUPPORT and PROOF. The release (R112, R156, R171, R173) and the take of a held cycle (R18). -/

namespace Sys2Proof.Machine

/-! ## The eighty requests of a release (R145, R156) -/

/-- The request for a report or mirror word. -/
def Rpu.requestOf (r : Rpu) (k : Nat) : OwnWrite := { addr := reportAddr k, value := r.content k, origin := .report k }

theorem reportAddr_inj {j k : Nat} (hj : j < 128) (hk : k < 128) (h : reportAddr j = reportAddr k) : j = k := by
  have hn := congrArg BitVec.toNat h
  unfold reportAddr at hn
  rw [BitVec.toNat_ofNat, BitVec.toNat_ofNat, Nat.mod_eq_of_lt (by omega), Nat.mod_eq_of_lt (by omega)] at hn
  omega

theorem Mwq.enqueueAll_append (q : Mwq) (ws : List OwnWrite) (w : OwnWrite) :
    q.enqueueAll (ws ++ [w]) = (q.enqueueAll ws).enqueue w := List.foldl_append

theorem Mwq.enqueueAll_queueTurn (q : Mwq) (ws : List OwnWrite) : (q.enqueueAll ws).queueTurn = q.queueTurn := by
  unfold Mwq.enqueueAll
  induction ws generalizing q with
  | nil => rfl
  | cons w ws ih => exact (ih _).trans (q.enqueue_queueTurn w)

theorem Mwq.holds_requests {q : Mwq} {r : Rpu} {n k : Nat} (hq : q.queue = (List.range n).map r.requestOf) (hn : n ≤ k)
    (hk : k < 128) : q.holds (reportAddr k) = false := by
  unfold Mwq.holds
  rw [hq, List.any_eq_false]
  intro w hw
  obtain ⟨j, hj, rfl⟩ := List.mem_map.mp hw
  have hjn := List.mem_range.mp hj
  have hne : reportAddr j ≠ reportAddr k := fun h => by
    have := reportAddr_inj (by omega) hk h
    omega
  simpa [Rpu.requestOf] using hne

/-- The first sixteen requests find room in the queue. -/
theorem Mwq.enqueued_reports (r : Rpu) {n : Nat} (hn : n ≤ 16) :
    (Mwq.reset.enqueueAll ((List.range n).map r.requestOf)).queue = (List.range n).map r.requestOf ∧
    (Mwq.reset.enqueueAll ((List.range n).map r.requestOf)).marks = [] := by
  induction n with
  | zero => exact ⟨rfl, rfl⟩
  | succ n ih =>
    obtain ⟨hqueue, hmarks⟩ := ih (by omega)
    have hroom : (Mwq.reset.enqueueAll ((List.range n).map r.requestOf)).queue.length < Config.queueDepth := by
      rw [hqueue, List.length_map, List.length_range]
      exact hn
    rw [List.range_succ, List.map_append, List.map_singleton, Mwq.enqueueAll_append]
    unfold Mwq.enqueue
    rw [if_neg (by rw [show (r.requestOf n).addr = reportAddr n from rfl, Mwq.holds_requests hqueue le_rfl (by omega)]; simp),
      if_pos hroom]
    exact ⟨by rw [hqueue], by rw [hmarks]; rfl⟩

theorem insertMark_last {o : Origin} {l : List Origin} (h : ∀ x ∈ l, o ≠ x ∧ o.before x = false) :
    insertMark o l = l ++ [o] := by
  induction l with
  | nil => rfl
  | cons x xs ih =>
    obtain ⟨hne, hbefore⟩ := h x (by simp)
    unfold insertMark
    rw [if_neg hne, if_neg (by rw [hbefore]; simp), ih fun y hy => h y (by simp [hy])]
    rfl

/-- The sixty-four after them find the queue full, and are marked in order. -/
theorem Mwq.enqueued_mirror {q : Mwq} {r : Rpu} (hq : q.queue = (List.range 16).map r.requestOf) (hm : q.marks = [])
    {n : Nat} (hn : n ≤ 64) :
    (q.enqueueAll ((List.range n).map fun k => r.requestOf (64 + k))).queue = q.queue ∧
    (q.enqueueAll ((List.range n).map fun k => r.requestOf (64 + k))).marks =
      (List.range n).map fun k => .report (64 + k) := by
  induction n with
  | zero => exact ⟨rfl, hm⟩
  | succ n ih =>
    obtain ⟨hqueue, hmarks⟩ := ih (by omega)
    rw [List.range_succ, List.map_append, List.map_singleton, Mwq.enqueueAll_append]
    unfold Mwq.enqueue
    rw [if_neg (by
        rw [show (r.requestOf (64 + n)).addr = reportAddr (64 + n) from rfl,
          Mwq.holds_requests (hqueue.trans hq) (by omega) (by omega)]
        simp),
      if_neg (by rw [hqueue, hq, List.length_map, List.length_range]; decide)]
    refine ⟨hqueue, ?_⟩
    rw [hmarks, List.map_append]
    refine insertMark_last fun x hx => ?_
    obtain ⟨j, hj, rfl⟩ := List.mem_map.mp hx
    have hjn := List.mem_range.mp hj
    exact ⟨by simp [Rpu.requestOf]; omega, by simp [Rpu.requestOf, Origin.before]; omega⟩

/-- Of the eighty requests of a release the queue takes the sixteen report words, and the marks the mirror (R156). -/
theorem Mwq.enqueued_release (r : Rpu) :
    (Mwq.reset.enqueueAll r.allRequests).queue = (List.range 16).map r.requestOf ∧
    (Mwq.reset.enqueueAll r.allRequests).marks = (List.range 64).map (fun k => .report (64 + k)) ∧
    (Mwq.reset.enqueueAll r.allRequests).queueTurn = false := by
  have hsplit : r.allRequests = (List.range 16).map r.requestOf ++ (List.range 64).map fun k => r.requestOf (64 + k) := by
    unfold Rpu.allRequests reportOffsets mirrorOffsets
    rw [List.map_append, List.map_map]
    refine congrArg₂ _ rfl (List.map_congr_left fun k _ => ?_)
    rw [Nat.add_comm 64 k]
    rfl
  obtain ⟨hqueue, hmarks⟩ := Mwq.enqueued_reports r le_rfl
  obtain ⟨hqueue', hmarks'⟩ := Mwq.enqueued_mirror hqueue hmarks le_rfl
  have hall : Mwq.reset.enqueueAll r.allRequests = (Mwq.reset.enqueueAll ((List.range 16).map r.requestOf)).enqueueAll
      ((List.range 64).map fun k => r.requestOf (64 + k)) := by
    rw [hsplit]
    exact List.foldl_append
  exact ⟨by rw [hall, hqueue', hqueue], by rw [hall, hmarks'], Mwq.enqueueAll_queueTurn ..⟩

/-! ## The release as one command (R172, R173) -/

/-- The part with its last source of RESET gone. -/
def State.unheld (s : State) (now : Nat) : State :=
  { s with now := now, csu := { s.csu with wrst := true, settle := none } }

theorem exec_release {s : State} {c : Instr} {solo : Bool} {now : Nat} (h : s.releasedBy c solo now) :
    exec c s = .next (((s.unheld now).releaseTo solo).takeHeld) := by
  obtain ⟨rfl, hw, e, he, rfl⟩ | ⟨rfl, hw, hp, hsettle, rfl⟩ := h
  · show execSettleTimeExpiry solo s = _
    unfold execSettleTimeExpiry
    rw [he]
    dsimp only
    rw [if_pos hw]
    unfold State.release State.unheld State.reach
    rw [hw]
  · show execWrstRise solo s = _
    unfold execWrstRise
    dsimp only
    rw [if_neg (by rw [hw]; nofun), if_pos ⟨hp, hsettle⟩]
    unfold State.release State.unheld
    rw [hsettle]

/-- The held cycle is taken as the cycle of a write or a read is in the state entered (R18). -/
theorem State.takeHeld_taken {s u : State} (hheld : u.held = s.held) (hop : u.csu.op ≠ .reset) :
    HeldTaken s u u.takeHeld := by
  unfold State.takeHeld
  rw [hheld]
  refine ⟨fun h => by rw [h], fun a w h => ?_, fun a h => ?_⟩
  · rw [h]
    exact exec_write rfl u
  · rw [h]
    exact State.computerCycle_read hop a

/-- The CSU that a release hands to its blocks: the SOLO latch, the cause, and the load state it starts from. -/
def Csu.atCause (c : Csu) (solo : Bool) (cause : Cause) (verdict : Verdict) (off : BitVec 8) : Csu :=
  { c with solo := solo, cause := cause, verdict := verdict, failures := 0, failOff := off }

/-- What the blocks start from at a release, before the entry. -/
def State.releasing (s : State) (solo : Bool) (now : Nat) (op : OpState) (cause : Cause) (verdict : Verdict)
    (off : BitVec 8) : State :=
  (s.unheld now).atRelease ((s.unheld now).csu.atCause solo cause verdict off) op

theorem State.releasing_mwq (s : State) (solo : Bool) (now : Nat) (op : OpState) (cause : Cause) (verdict : Verdict)
    (off : BitVec 8) : (s.releasing solo now op cause verdict off).mwq =
      s.mwq.enqueueAll (s.releasing solo now op cause verdict off).rpu.allRequests := by
  unfold State.releasing
  rw [State.atRelease_mwq, State.atRelease_rpu]
  rfl

theorem State.releasing_inFlight (s : State) (solo : Bool) (now : Nat) (op : OpState) (cause : Cause) (verdict : Verdict)
    (off : BitVec 8) : (s.releasing solo now op cause verdict off).inFlight = s.inFlight := State.atRelease_inFlight ..

/-- An entry that leaves alone what the release gave the ANU's inputs, the RPU and the write queue is a release. -/
theorem Released.of_entry {s u : State} {solo : Bool} {now : Nat} {op : OpState} {cause : Cause} {verdict : Verdict}
    {off : BitVec 8} (hlaw : ResetLaw s) (hop : s.csu.op = .reset)
    (csu : u.csu = { (s.releasing solo now op cause verdict off).csu with
      op := op, shadow := u.csu.shadow, locked := u.csu.locked, load := u.csu.load })
    (summary : u.anu.summary = summaryOf s.flu.list)
    (ackb : u.anu.ackb = s.anu.ackb.released (some (now + 20)))
    (ltstb : u.anu.ltstb = s.anu.ltstb.released (some (now + 20)))
    (rpu : u.rpu = (s.releasing solo now op cause verdict off).rpu)
    (mwq : u.mwq = (s.releasing solo now op cause verdict off).mwq)
    (rest : u.mem = s.mem ∧ u.held = s.held ∧ u.now = now ∧ u.pending = s.pending ∧ u.flu = s.flu ∧
      u.reads = s.reads ∧ u.answer = s.answer) : Released s u solo now op cause := by
  have hmwq : u.mwq = Mwq.reset.enqueueAll u.rpu.allRequests := by
    obtain ⟨-, -, -, -, hreset, -⟩ := hlaw.blocks hop
    rw [mwq, rpu, State.releasing_mwq, hreset]
  obtain ⟨hqueue, hmarks, hturn⟩ := Mwq.enqueued_release u.rpu
  refine ⟨?_, summary.trans ?_, ⟨ackb, ltstb⟩, ?_, Rpu.reportLayout _, hmwq ▸ hqueue, hmwq ▸ hmarks, hmwq ▸ hturn, rest⟩
  · rw [csu]
    exact ⟨rfl, rfl, rfl, rfl, rfl, rfl, rfl, rfl, rfl, rfl, rfl, rfl⟩
  · rfl
  · rw [rpu, csu]
    rfl

/-! ## A release to LOADING (R164, R171) -/

/-- The cause, the verdict and the offset with which a release enters LOADING. -/
theorem State.releaseTo_loading {s : State} {solo : Bool} {cause : Cause} {verdict : Verdict} {off : BitVec 8}
    (hload : s.csu.failures = 0 ∧ s.csu.verdict = .pending ∧ s.csu.failOff = 0)
    (h : (s.csu.powerReset = true ∧ cause = .power ∧ verdict = .pending ∧ off = 0) ∨
      (s.csu.powerReset = false ∧ s.csu.locked = false ∧ cause = .warm ∧ verdict = .pending ∧ off = 0) ∨
      (s.csu.powerReset = false ∧ s.csu.locked = true ∧ cause = .warmImageLost ∧ verdict = .retainedFail ∧
        ((imageCrc s.csu.shadow ≠ s.csu.shadow.read 255 ∧ off = 0xFF) ∨
          (imageCrc s.csu.shadow = s.csu.shadow.read 255 ∧ ∃ o < 32 + 4 * min s.csu.shadow.imgN 48,
            off = BitVec.ofNat 8 o ∧ wordFault s.csu.shadow o = true ∧ ∀ p < o, wordFault s.csu.shadow p = false)))) :
    s.releaseTo solo = (s.atRelease (s.csu.atCause solo cause verdict off) .loading).enterLoading verdict off := by
  have hpending (k : Cause) : s.csu.atCause solo k .pending 0 = { s.csu with solo := solo, cause := k } := by
    unfold Csu.atCause
    obtain ⟨hfailures, hverdict, hoff⟩ := hload
    rw [← hfailures, ← hverdict, ← hoff]
  unfold State.releaseTo
  dsimp only
  obtain ⟨hp, rfl, rfl, rfl⟩ | ⟨hp, hl, rfl, rfl, rfl⟩ | ⟨hp, hl, rfl, rfl, hcheck⟩ := h
  · rw [if_pos hp, hpending]
  · rw [if_neg (by rw [hp]; simp), if_pos (by rw [hl]; rfl), hpending]
  · rw [if_neg (by rw [hp]; simp), if_neg (by rw [hl]; simp)]
    obtain ⟨hcrc, rfl⟩ | ⟨hcrc, o, ho, rfl, hfault, hbefore⟩ := hcheck
    · rw [checkImage_crcFails hcrc]
      rfl
    · rw [checkImage_contentFails hcrc ho hfault hbefore]
      rfl

theorem State.enterLoading_inFlight (s : State) (v : Verdict) (off : BitVec 8) : (s.enterLoading v off).inFlight =
    s.inFlight ++ [.report .csu [.opState .loading false, .loadState v 0 off], .events .csu [.sc]] := by
  unfold State.enterLoading
  rw [State.sendEvents_inFlight, if_neg (List.cons_ne_nil _ _), State.sendReport_inFlight,
    if_neg (List.cons_ne_nil _ _), List.append_assoc]
  rfl

/-- Settles O55: LOADING is entered with the cause and the verdict of each way to it, and the held cycle is taken. -/
theorem releaseEntersLoading : Obligations.ReleaseEntersLoading := by
  intro s c solo now hlaw hop hrel cause verdict off hcause
  obtain ⟨hfailures, hverdict, hoff, -⟩ := hlaw.load hop
  obtain ⟨hin, -⟩ := hlaw.quiet hop
  obtain ⟨hasu, htcu, hfsu, -⟩ := hlaw.blocks hop
  have hto := State.releaseTo_loading (s := s.unheld now) (solo := solo) ⟨hfailures, hverdict, hoff⟩ hcause
  let u : State := (s.releasing solo now .loading cause verdict off).enterLoading verdict off
  have hexec : exec c s = .next u.takeHeld := by
    rw [exec_release hrel, hto]
    rfl
  have hcsu : u.csu = { (s.releasing solo now .loading cause verdict off).csu with
      op := .loading, shadow := [], locked := false, load := some (now + 10000) } := State.enterLoading_csu ..
  have hreleased : Released s u solo now .loading cause := by
    refine .of_entry hlaw hop (hcsu.trans (by rw [hcsu])) (congrArg Anu.summary (State.enterLoading_anu ..))
      (congrArg Anu.ackb (State.enterLoading_anu ..)) (congrArg Anu.ltstb (State.enterLoading_anu ..))
      (State.enterLoading_rpu ..) (State.enterLoading_mwq ..) ?_
    exact ⟨State.enterLoading_mem .., State.enterLoading_held .., State.enterLoading_now ..,
      State.enterLoading_pending .., State.enterLoading_flu .., State.enterLoading_reads .., State.enterLoading_answer ..⟩
  refine ⟨u, _, hexec, State.takeHeld_taken hreleased.rest.2.1 (by rw [hcsu]; nofun), hreleased,
    by rw [hcsu], by rw [hcsu], by rw [hcsu], by rw [hcsu]; rfl, by rw [hcsu]; rfl, ?_,
    (State.enterLoading_asu ..).trans hasu, (State.enterLoading_tcu ..).trans htcu, (State.enterLoading_fsu ..).trans hfsu⟩
  refine (State.enterLoading_inFlight ..).trans ?_
  rw [State.releasing_inFlight, hin]
  rfl

/-! ## A release to RUNNING (R171, R175) -/

theorem State.releaseTo_running {s : State} {solo : Bool} (hp : s.csu.powerReset = false) (hl : s.csu.locked = true)
    (hpass : checkImage s.csu.shadow = .pass) : s.releaseTo solo =
      ((s.atRelease (s.csu.atCause solo .warmImageKept .accepted 0) .running).takeImage).enterRunning := by
  unfold State.releaseTo
  dsimp only
  rw [if_neg (by rw [hp]; simp), if_neg (by rw [hl]; simp), hpass]
  rfl

/-- Settles O56: the image kept is taken and RUNNING entered, and the held cycle is taken there. -/
theorem retainedImageRuns : Obligations.RetainedImageRuns := by
  intro s c solo now hlaw hop hrel hp hl hcrc hnone
  obtain ⟨hin, -⟩ := hlaw.quiet hop
  have hto := State.releaseTo_running (s := s.unheld now) (solo := solo) hp hl (checkImage_passes hcrc hnone)
  let x : State := (s.releasing solo now .running .warmImageKept .accepted 0).takeImage
  let u : State := x.enterRunningOnly
  have hexec : exec c s = .next u.takeHeld := by
    rw [exec_release hrel, hto]
    exact congrArg (fun v : State => Host.Outcome.next v.takeHeld) (x.enterRunning_by_cab.1 rfl)
  have hcsu : u.csu = { x.csu with op := .running } := State.enterRunningOnly_csu x
  have hx : x.inFlight = [] := (s.releasing_inFlight solo now .running .warmImageKept .accepted 0).trans hin
  have hrun := running_entered x rfl rfl
  rw [hx] at hrun
  obtain ⟨hsummary, hackb, hltstb⟩ := x.enterRunningOnly_inputs
  have hreleased : Released s u solo now .running .warmImageKept := by
    refine .of_entry hlaw hop (hcsu.trans (by rw [hcsu] <;> rfl)) hsummary hackb hltstb
      (State.enterRunningOnly_rpu x) ((State.enterRunningOnly_mwq x).trans (State.takeImage_mwq ..)) ?_
    exact ⟨State.enterRunningOnly_mem x, State.enterRunningOnly_held x, State.enterRunningOnly_now x,
      State.enterRunningOnly_pending x, State.enterRunningOnly_flu x, State.enterRunningOnly_reads x,
      State.enterRunningOnly_answer x⟩
  refine ⟨u, _, hexec, State.takeHeld_taken hreleased.rest.2.1 (by rw [hcsu]; nofun), hreleased,
    hrun.congr rfl rfl rfl rfl rfl rfl rfl, by rw [hcsu] <;> rfl, ?_, by rw [hcsu] <;> rfl, by rw [hcsu] <;> rfl⟩
  rw [hcsu]
  exact hl

end Sys2Proof.Machine
end
